-- ==== Sys2Proof/Word.lean ====
section
/-! DEFINITION. The words of the 4804: a word is 32 bits at an address that is a multiple of four
(00_scope, Conventions); sequence numbers are 16 bits and byte fields 8 bits (12, R163). -/

namespace Sys2Proof

/-- A byte of a word, or a byte field (12, R163). -/
abbrev Byte := BitVec 8

/-- A sequence number or a 16-bit counter (02, R15; 01, R5). -/
abbrev Half := BitVec 16

/-- A memory word, an address, an epoch or a 32-bit count (00_scope, Conventions). -/
abbrev Word := BitVec 32

end Sys2Proof
end

