-- ==== Sys2Proof/Syntax.lean ====
section
/-! DEFINITION. The commands of the block: one constructor of `Instr` for each row of
spec/opcode_table.json. The table gives the rows no operands, so the operands here are the model's:
what the environment (host, memory system, pins, clock) decides about the event. -/

namespace Sys2Proof

/-- One of the four lanes, 0 to 3 (06, R82). -/
abbrev LaneId := Fin 4

/-- One of the sixteen possible slots (04, R52). -/
abbrev SlotId := Fin 16

/-- An input line IN0 to IN7 (07, R102). -/
abbrev InLine := Fin 8

/-- An output line OUT0 to OUT3 (08, R118). -/
abbrev OutLine := Fin 4

/-- A word the host wrote to system memory, whole (01, R3). -/
structure HostWrite where
  addr : Word
  data : Word
deriving DecidableEq, Repr

/-- How the memory system ends a transfer (11, R161). For a write that fails, `left` is the word that
memory then holds at the address: the memory system decides it (02, R17, R25). For a read that fails
`left` plays no part. -/
inductive BusReply where
  | ok
  | error (left : Word)
deriving DecidableEq, Repr

/-- The access on the bus when a reset arrives or the engine stalls, if there is one: which of the
requests raised at the oldest instant it is, and how the memory system ends it (01, R14; 10, R149, R153). -/
structure OnBus where
  pick : Nat
  reply : BusReply
deriving DecidableEq, Repr

/-- The return of one bus access (11, R161): what the host wrote to memory since the last access
(log 2), the levels on IN0–IN7 at this instant (07, R107), which of the requests raised at the oldest
instant was carried (log 9), how the transfer ended, and, for a return that stalls the engine, the access
that is under way at that instant, none where MPORT has none on the bus (10, R148, R149; log 8). -/
structure BusReturn where
  hostWrites : List HostWrite
  pins : Byte
  pick : Nat
  reply : BusReply
  atStall : Option OnBus
deriving DecidableEq, Repr

/-- An event of one unit at a tick boundary whose place among the others of that boundary the spec leaves
open: a lane's flags or tear taking effect, with the claim release of a tear (05, R69, R78), a torn lane's
report that it has gone FREE (05, R76, R78), ADMU's tick event (05, R76), the sweep timer's expiry (04, R49). -/
inductive Actor where
  | lane (lane : LaneId)
  | laneFree (lane : LaneId)
  | admission
  | timer
deriving DecidableEq, Repr

/-- What a tick boundary meets: the levels on IN0–IN7 just before it (07, R103), and an order in which
units act at it (log 20). Lanes not named follow in index order, and then the reports of torn lanes that go
FREE; ADMU and the timer, where not named, act by their own commands or when the instant is finished
(log 4). -/
structure TickInput where
  pins : Byte
  order : List Actor
deriving DecidableEq, Repr

/-- The width of a register access (11, R154). -/
inductive AccessSize where
  | byte | halfword | word
deriving DecidableEq, Repr

/-- A register access: direction, width, offset in the window, word written (11, R154). -/
structure PortAccess where
  write : Bool
  size : AccessSize
  offset : BitVec 6
  data : Word
deriving DecidableEq, Repr

/-- A CONTROL write with its place at its instant: `early` when events are still due there and the write is
taken before them (03, R46; log 19). `hostWrites` is what the host wrote to memory since the last access and
before the write: of a post, whether it was made before DRAINING or in it (02, R18, R33; 13, R172; logs 2 and
32). -/
structure PlacedWrite where
  word : Word
  early : Bool
  hostWrites : List HostWrite
deriving DecidableEq, Repr

/-- The commands. Each docstring names the row's rule. A `w` on a CONTROL row is the whole word
written to CONTROL: one write acts through all its fields in one event (11, R156; log 6). -/
inductive Instr where
  /-- ENABLE_REQUEST (R140): a CONTROL write with ENABLE 1. -/
  | enableRequest (w : Word)
  /-- DISABLE (R156): a CONTROL write with ENABLE 0, and its place at its instant (R46; log 19). -/
  | disable (w : PlacedWrite)
  /-- SOFTRESET (R157): a CONTROL write with SOFTRESET 1. -/
  | softreset (w : Word) (onBus : OnBus)
  /-- TICKDIV (R37): a CONTROL write carrying TICKDIV. -/
  | tickdiv (w : Word)
  /-- SWEEP (R46): a CONTROL write that may change SWEEP; `early` when events, the timer's expiry among
  them, are still due at its instant and the write is taken before them (log 19). -/
  | sweep (w : Word) (early : Bool)
  /-- MASK (R160): a CONTROL write carrying MASK. -/
  | mask (w : Word)
  /-- AREA_WRITE (R158). -/
  | areaWrite (w : Word)
  /-- NUDGE (R47). -/
  | nudge (w : Word)
  /-- CAUSE_CLEAR (R159). -/
  | causeClear (w : Word)
  /-- IGNORED_REGISTER_WRITE (R154): a word write to STATUS, EPOCH or a reserved offset. -/
  | ignoredRegisterWrite (offset : BitVec 6) (w : Word)
  /-- HARDWARE_RESET (R153): RESETn goes low, or power-on. -/
  | hardwareReset (onBus : OnBus)
  /-- RESET_RELEASE (R162): the rising edge of RESETn. -/
  | resetRelease
  /-- TICK_BOUNDARY (R40). -/
  | tickBoundary (t : TickInput)
  /-- ACCEPTED_EDGE (R104). -/
  | acceptedEdge (line : InLine)
  /-- WINDOW_EXPIRY (R94). -/
  | windowExpiry (lane : LaneId)
  /-- HOLD (R125). -/
  | hold (lane : LaneId)
  /-- UNTIL (R126). -/
  | untilReached (lane : LaneId)
  /-- PULSE (R128). -/
  | pulse (lane : LaneId)
  /-- TALLY_GATE_END (R115). -/
  | tallyGateEnd (lane : LaneId)
  /-- OVERRANGE (R111). -/
  | overrange (lane : LaneId)
  /-- SWEEP_TIMER_EXPIRY (R45). -/
  | sweepTimerExpiry
  /-- ELIGIBLE (R66). -/
  | eligible
  /-- LATENESS_LIMIT (R75). -/
  | latenessLimit
  /-- CONFIGURATION_CHECK (R50): the config_seq read returns. -/
  | configurationCheck (r : BusReturn)
  /-- LINE_TABLE_RELOAD (R51): a line table read of a reload returns; the third is judged. -/
  | lineTableReload (r : BusReturn)
  /-- SLOT_VISIT (R53): a visit's host word read returns. -/
  | slotVisit (r : BusReturn)
  /-- DISCOVERY (R56): a posting record read returns; the fifth is judged. -/
  | discovery (r : BusReturn)
  /-- TAKE (R21): a write of the take completes; `sweepFirst` when the sweep's next piece becomes
  ready before a removal that the join makes at the same instant (04, R49). -/
  | take (r : BusReturn) (sweepFirst : Bool)
  /-- REMOVAL_SETTLE (R58): SMON begins a settle. -/
  | removalSettle
  /-- SETTLE_WRITE (R23): a write of the settle sequence completes, whichever unit settles. -/
  | settleWrite (r : BusReturn)
  /-- COUNTER_WRITE (R61): a write of the counter set completes. -/
  | counterWrite (r : BusReturn)
  /-- COMPLETION_REPORT (R59). -/
  | completionReport
  /-- TEAR_RELEASE (R60). -/
  | tearRelease
  /-- LOADING_READ (R141): an ENGC read returns. -/
  | loadingRead (r : BusReturn)
  /-- CONFIG_ACK_WRITE (R144): ENGC's config_ack write completes. -/
  | configAckWrite (r : BusReturn)
  /-- DRAIN_END (R147). -/
  | drainEnd
  /-- LOAD_READ (R84): a lane's load read returns. -/
  | loadRead (r : BusReturn)
  /-- LOAD_COMPLETION (R86). -/
  | loadCompletion (lane : LaneId)
  /-- STEP_BEGIN (R87). -/
  | stepBegin (lane : LaneId)
  /-- PRE_WRITE_CHECK (R92): a lane's check read returns. -/
  | preWriteCheck (r : BusReturn)
  /-- RESULT_WRITE (R91): a lane's result word write completes. -/
  | resultWrite (r : BusReturn)
  /-- CHECK (R131): the fourth qualifier read returns. -/
  | check (r : BusReturn)
  /-- QUALIFIER_READ (R131): one of the first three qualifier reads returns. -/
  | qualifierRead (r : BusReturn)
  /-- REGISTER_ERROR_RESPONSE (R154). -/
  | registerErrorResponse (a : PortAccess)
deriving DecidableEq, Repr

end Sys2Proof
end

