-- ==== Sys2Proof/Decode.lean ====
section
/-! DEFINITION. The commands as words. No row of spec/opcode_table.json gives bits (all 44 rows have
an empty field list and no fixed bits), so no word spells a command. -/

namespace Sys2Proof

/-- The command a word spells by the table's bits: none, since no row gives bits. -/
def decodeTableWord (_nbits _w : Nat) : Option Instr := none

end Sys2Proof
end

