-- ==== Sys2Proof/Config.lean ====
section
/-! DEFINITION. What is fixed for the part, and the free values. -/

namespace Sys2Proof

/-- The word `magic` must hold (01, R4). -/
def Config.magic : Word := 0x4C4A4804#32

/-- REVISION reads 0x21 at all times (11, R158). -/
def Config.revision : Byte := 0x21#8

/-- FREE VALUE (log 7). The REFCLK count inside the current tick at which the prescaler stops on
entry to OFF or STALLED (03, R38). The commands of the table do not say how far into the tick the
stop falls, so nothing is known of it but that it lies below the divisor, which the use enforces. -/
opaque Config.prescalerPhase : Nat → BitVec 7

end Sys2Proof
end

