-- ==== Sys2Proof/Machine/State.lean ====
section
/-! DEFINITION. The state of the 4804, unit by unit, as plain data, and the state after a hardware
reset. Each unit's structure holds what the chapter of that unit says it holds. -/

namespace Sys2Proof.Machine

/-! ## Codes (12, R170) -/

/-- Engine states (10, R139). -/
inductive Engine where
  | off | loading | running | draining | stalled
deriving DecidableEq, Repr

/-- FAULT_CODE values (10, R139). -/
inductive FaultCode where
  | none | badArea | readErr | writeErr | settleLost | headerLost | badConfig
deriving DecidableEq, Repr

/-- Outcomes of a plan (02, R36). -/
inductive PlanOutcome where
  | done | passed | failed | timedOut | recalled | linesBusy | late | malformed | fetchFault
  | writeFault | halted | orphaned
deriving DecidableEq, Repr

/-- Result codes of a step that the part writes (12, R170). -/
inductive ResultCode where
  | ok | timeout | recalled | overrange | skipped | matched | miss | noData | halted
deriving DecidableEq, Repr

/-! ## Memory port (11, R161) -/

/-- What a request on the order list is for: the unit and the access. -/
inductive Access where
  | config                     -- SMON, configuration check (04, R50)
  | lineTable                  -- SMON, line table reload (04, R51)
  | hostWord                   -- SMON, slot visit (04, R53)
  | record                     -- SMON, discovery (04, R56)
  | takeEpoch                  -- SMON, first write of a take (02, R21)
  | takePart                   -- SMON, second write of a take (02, R21)
  | smonSettle                 -- SMON, settle write (04, R58)
  | counter                    -- SMON's counter set (04, R61)
  | loading                    -- ENGC, LOADING read (10, R141)
  | orphanSettle               -- ENGC, settle write of an orphan (10, R143)
  | configAck                  -- ENGC, config_ack write (10, R144)
  | loadHost (lane : LaneId)   -- lane, first read of a load (06, R84)
  | loadStep (lane : LaneId)   -- lane, step record read of a load (06, R84)
  | check (lane : LaneId)      -- lane, pre-write check of a result write (06, R92)
  | result (lane : LaneId)     -- lane, result word write (06, R91)
  | settleCheck (lane : LaneId) -- lane, pre-write check of a settle write (06, R99)
  | laneSettle (lane : LaneId) -- lane, settle write (06, R99)
  | qualifier (lane : LaneId) (last : Bool) -- CHECK, qualifier read; `last` for the fourth (09, R131)
deriving DecidableEq, Repr

/-- A request: its purpose, one word address, the word for a write, whether the requester has given
it up (it is still carried and its result discarded), and the instant it was raised at (log 9). -/
structure Request where
  access : Access
  addr : Word
  data : Option Word
  abandoned : Bool
  instant : Nat
deriving DecidableEq, Repr

/-! ## Register port (11, R154 to R160) -/

/-- The slave port's answer to the last access (11, R154). -/
inductive PortResponse where
  | none | normal | error
deriving DecidableEq, Repr

structure RegPort where
  enable : Bool
  tickdiv : BitVec 3
  sweep : BitVec 2
  mask : BitVec 4
  area : Word
  cause : BitVec 4
  resetLow : Bool
  response : PortResponse
deriving DecidableEq, Repr

/-! ## Timebase (03) -/

structure Timebase where
  prescaler : BitVec 7
  epoch : Word
  timer : Nat
deriving DecidableEq, Repr

/-! ## Slot Monitor (04) -/

/-- Where the plan of a slot stands inside the part (04, R52). -/
inductive MirrorState where
  | idle | queued | running | tearing
deriving DecidableEq, Repr

/-- Why ADMU removed a plan that SMON has yet to settle (04, R52). -/
inductive Removal where
  | late | halted
deriving DecidableEq, Repr

structure Mirror where
  knownSeq : Half
  state : MirrorState
  lane : Option LaneId
  settleCopy : Half
  pendingOutcome : Option Removal
deriving DecidableEq, Repr

/-- A posting record as read at discovery (01, R9). -/
structure Posting where
  stepCount : Byte
  priority : Byte
  outMask : Byte
  passes : Byte
  flags : Word
  window : Word
  startEpoch : Word
  slack : Word
deriving DecidableEq, Repr

/-- A piece of SMON's work (04, R49). -/
inductive Piece where
  | config
  | visit (slot : SlotId)
  | closing
  | removal (slot : SlotId) (why : Removal) (notify : Bool)
  | completion (slot : SlotId)
  | tearRelease (slot : SlotId)
deriving DecidableEq, Repr

/-- A take in hand: the post, the record read and what it was judged to be (02, R21; 04, R56). -/
structure TakeJob where
  slot : SlotId
  post : Half
  posting : Posting
  refusal : Option PlanOutcome
deriving DecidableEq, Repr

/-- A settle made by SMON (04, R58); `discover` is the post that the same visit has read, when its discovery
follows the settle (04, R53). -/
structure SettleJob where
  slot : SlotId
  seq : Half
  outcome : PlanOutcome
  notify : Bool
  settledEpoch : Word
  discover : Option Half
deriving DecidableEq, Repr

/-- What SMON goes on with when the counter set reports (04, R49, R61). -/
inductive AfterCount where
  | endPiece
  | tornVisit (slot : SlotId) (post : Half)
  | tornRelease
  | settled (job : SettleJob)
deriving DecidableEq, Repr

/-- The stage of the piece under way. -/
inductive Work where
  | config
  | reload (seq : Half) (got : List Word)
  | visit (slot : SlotId)
  | record (slot : SlotId) (post : Half) (got : List Word)
  | takeEpoch (job : TakeJob)
  | takePart (job : TakeJob)
  | settleDue (job : SettleJob)
  | settle (job : SettleJob) (word : Nat)
  | counting (next : AfterCount)
deriving DecidableEq, Repr

/-- Who asked the counter set (04, R61). -/
inductive Requester where
  | smon | engc | lane (lane : LaneId)
deriving DecidableEq, Repr

/-- A request to the counter set (04, R61). -/
inductive CountKind where
  | settlement (slot : SlotId) (seq : Half)
  | sweepClose (noted : Word)
  | tear
  | orphan
  | fault (code : FaultCode)
  | configAck (value : Half)
deriving DecidableEq, Repr

structure CountReq where
  kind : CountKind
  requester : Requester
deriving DecidableEq, Repr

/-- The counter set's registers (04, R61). -/
structure Counters where
  settleTotal : Word
  sweepTotal : Word
  tornTotal : Half
  orphanTotal : Half
  faultTotal : Half
  ackCopy : Half
deriving DecidableEq, Repr

/-- A recall that a sweep has seen for a post not yet taken, and that stays in force for it (02, R28): the post_seq,
and the AREA in which the slot lies (log 36). -/
structure SeenRecall where
  area : Word
  post : Half
deriving DecidableEq, Repr

/-- `recalls` holds, for each slot, the seen recall of its post (02, R28); R52's mirror has no field for it, and that
it stands beside the mirror is the model's choice (log 36). `hostWordAtDrain` is the model's own: the host word that
memory held, when DRAINING began, for the slot whose visit had its read outstanding (02, R18, R28, R33; 13, R172;
log 32). -/
structure Monitor where
  inProgress : Bool
  pendingSweep : Bool
  noted : Word
  piece : Option (Piece × Work)
  waiting : List Piece
  mirror : Vector Mirror 16
  recalls : Vector (Option SeenRecall) 16
  discovery : Word
  counters : Counters
  counts : List CountReq
  secondWord : Bool
  hostWordAtDrain : Option Word
deriving DecidableEq, Repr

/-! ## Admission (05) -/

/-- An entry of the admission queue (05, R64). -/
structure Entry where
  slot : SlotId
  seq : Half
  posting : Posting
  discovery : Word
  eligible : Bool
deriving DecidableEq, Repr

/-- A record of the line claim table (05, R67); a reservation names the entry by its slot. -/
structure Claim where
  owner : Option LaneId
  reservation : Option SlotId
deriving DecidableEq, Repr

structure Admission where
  queue : List Entry
  claims : Vector Claim 4
  pool : Vector Bool 4
deriving DecidableEq, Repr

/-! ## Lanes (06) -/

inductive LaneState where
  | free | loading | stepping | closing
deriving DecidableEq, Repr

/-- A step request as read at the load (01, R11). -/
structure StepReq where
  kind : Byte
  line : Byte
  mode : Byte
  arg : Byte
  paramA : Word
  paramB : Word
deriving DecidableEq, Repr

/-- A step's result waiting in the write-behind list (06, R88, R90). -/
structure StepResult where
  step : Nat
  code : ResultCode
  value : Word
  stamp : Word
  aux : Byte
  pass : Byte
deriving DecidableEq, Repr

/-- A current result: code and value (06, R83). -/
structure Current where
  code : ResultCode
  value : Word
deriving DecidableEq, Repr

/-- What a stepping lane is doing (06, R87). In `wait` no step runs: `step` is the one to begin, `skip`
when it is to be passed over (09, R136), `due` while the boundary at which it may begin is current. -/
inductive Activity where
  | none
  | wait (step : Nat) (skip : Bool) (due : Bool)
  | hold
  | untilEpoch
  | edge
  | widthEnter
  | widthLeave (enter : Word)
  | tally (count : Word)
  | periodFirst
  | period (first : Word) (measured : Nat) (span : Word)
  | pulse (completed : Nat) (active : Bool)
  | check (got : List Word)
deriving DecidableEq, Repr

/-- The slot access a lane has in hand (06, R91, R99): the check or the write of word 0 to 2 of the
oldest result, or of write 0 to 3 of the settle, or the settle's count. -/
inductive SlotAccess where
  | idle
  | check (word : Nat)
  | write (word : Nat)
  | settleCheck (word : Nat)
  | settleWrite (word : Nat)
  | settleCount
deriving DecidableEq, Repr

structure Lane where
  state : LaneState
  slot : SlotId
  seq : Half
  stepCount : Byte
  passes : Byte
  window : Word
  flags : Word
  outMask : Byte
  claimed : BitVec 4
  loadWords : List Word
  loaded : Bool
  loadDue : Bool
  steps : List StepReq
  results : Vector (Option Current) 12
  step : Nat
  passesDone : Word
  startedEpoch : Word
  startTick : Word
  fresh : Bool
  lastDone : Nat
  recallFlag : Bool
  halt : Bool
  tear : Bool
  stopped : Bool
  outcome : Option (PlanOutcome × Byte)
  list : List StepResult
  access : SlotAccess
  settledEpoch : Word
  activity : Activity
  windowCounter : Word
  counter : Word
  spanCounter : Word
  faultCounts : Nat
deriving DecidableEq, Repr

/-- A FREE lane with an empty context, clear flags, an empty list and cleared counters (06, R101). -/
def Lane.empty : Lane where
  state := .free
  slot := 0
  seq := 0
  stepCount := 0
  passes := 0
  window := 0
  flags := 0
  outMask := 0
  claimed := 0
  loadWords := []
  loaded := false
  loadDue := false
  steps := []
  results := Vector.replicate 12 none
  step := 0
  passesDone := 0
  startedEpoch := 0
  startTick := 0
  fresh := false
  lastDone := 0
  recallFlag := false
  halt := false
  tear := false
  stopped := false
  outcome := none
  list := []
  access := .idle
  settledEpoch := 0
  activity := .none
  windowCounter := 0
  counter := 0
  spanCounter := 0
  faultCounts := 0

/-! ## Input conditioner (07) and output driver (08) -/

structure InputLine where
  filterCode : Byte
  accepted : Bool
  run : Nat
  runStart : Word
deriving DecidableEq, Repr

structure Inputs where
  sampling : Bool
  lines : Vector InputLine 8
  pins : Byte
deriving DecidableEq, Repr

/-- A line of OUTD (08, R118). `level` is the level last commanded, which a SET that follows at the same boundary reads
as its aux (R127); what the pin shows, with no level in between (R124), is `State.outputPin`. -/
structure OutputLine where
  level : Bool
  idle : Bool
  keep : Bool
  claimer : Option LaneId
deriving DecidableEq, Repr

/-! ## Engine control (10) -/

/-- Where LOADING stands (10, R141, R143, R144). -/
inductive LoadPhase where
  | magic
  | slots
  | table
  | counters
  | hostWord (slot : SlotId)
  | partWord (slot : SlotId)
  | orphanWrite (word : Nat)
  | orphanSettled
  | orphanCounted
  | configAck
deriving DecidableEq, Repr

structure Loading where
  phase : LoadPhase
  magic : Word
  configSeq : Half
  table : List Word
  got : List Word
  orphans : List (SlotId × Half)
  settledEpoch : Word
  stopping : Bool
deriving DecidableEq, Repr

structure EngineControl where
  engine : Engine
  faultCode : FaultCode
  slotCount : Nat
  loading : Option Loading
deriving DecidableEq, Repr

/-! ## The whole machine -/

/-- Reasons the block stops with a fault: none. The part reports its failures in registers, in
outcomes and by the STALLED state, all of which are next states (10, R148, R151), so no constructor
is needed and nothing raises one (safe). -/
inductive Fault
deriving DecidableEq, Repr

/-- Reasons for which a command has no meaning. -/
inductive Refusal where
  /-- Raised by `exec` alone, for a row with no meaning yet; no row is in that case (safe). -/
  | notModelled (mnemonic : String)
deriving DecidableEq, Repr

structure State where
  pending : List Instr
  regp : RegPort
  tbu : Timebase
  engc : EngineControl
  smon : Monitor
  admu : Admission
  lanes : Vector Lane 4
  inc : Inputs
  outd : Vector OutputLine 4
  mport : List Request
  mem : List Host.Cell
  instant : Nat
  freeIndex : Nat
deriving DecidableEq, Repr

/-! ## Reset values -/

def Mirror.reset : Mirror :=
  { knownSeq := 0, state := .idle, lane := none, settleCopy := 0, pendingOutcome := none }

def Counters.reset : Counters :=
  { settleTotal := 0, sweepTotal := 0, tornTotal := 0, orphanTotal := 0, faultTotal := 0, ackCopy := 0 }

/-- SMON after either reset (04, SMON state after reset); `noted` is DESIGN CHOICE 0 (log 11). -/
def Monitor.reset : Monitor :=
  { inProgress := false, pendingSweep := false, noted := 0, piece := none, waiting := [],
    mirror := Vector.replicate 16 Mirror.reset, recalls := Vector.replicate 16 none, discovery := 0, counters := Counters.reset,
    counts := [], secondWord := false, hostWordAtDrain := none }

def Claim.reset : Claim := { owner := none, reservation := none }

/-- ADMU after either reset, and at each enable (05, R81). -/
def Admission.reset : Admission :=
  { queue := [], claims := Vector.replicate 4 Claim.reset, pool := Vector.replicate 4 true }

/-- A line of INC after either reset (07, R102); the run start is DESIGN CHOICE 0 (log 11). -/
def InputLine.reset : InputLine := { filterCode := 0, accepted := false, run := 0, runStart := 0 }

/-- A line of OUTD after either reset (08, R118). -/
def OutputLine.reset : OutputLine := { level := false, idle := false, keep := false, claimer := none }

def RegPort.reset : RegPort :=
  { enable := false, tickdiv := 0, sweep := 0, mask := 0, area := 0, cause := 0, resetLow := false,
    response := .none }

def Timebase.reset : Timebase := { prescaler := 0, epoch := 0, timer := 0 }

def EngineControl.reset : EngineControl :=
  { engine := .off, faultCode := .none, slotCount := 0, loading := none }

/-- The machine after a hardware reset that has been released (10, R153; 11, R162; log 12). -/
def State.reset : State where
  pending := []
  regp := RegPort.reset
  tbu := Timebase.reset
  engc := EngineControl.reset
  smon := Monitor.reset
  admu := Admission.reset
  lanes := Vector.replicate 4 Lane.empty
  inc := { sampling := false, lines := Vector.replicate 8 InputLine.reset, pins := 0 }
  outd := Vector.replicate 4 OutputLine.reset
  mport := []
  mem := []
  instant := 0
  freeIndex := 0

end Sys2Proof.Machine
end

