-- ==== Sys2Proof/Machine/Ops.lean ====
section
/-! DEFINITION. Operations shared by the units: system memory, the Exchange Area's addresses, the
order list of the Memory Port, the reached test, saturating counters, causes, and the stopping of the
tick. -/

namespace Sys2Proof.Machine

/-! ## System memory (01, R3; 12, R163) -/

/-- What a byte reads as that nothing has written: DESIGN CHOICE 0 (log 1). -/
def Memory.unlisted : Byte := 0

/-- The byte at an address. -/
def Memory.byte : List Host.Cell → Nat → Byte
  | [], _ => Memory.unlisted
  | (a, b) :: m, x => if a = x then b else Memory.byte m x

/-- Writes one byte and keeps the canonical form. -/
def Memory.setByte : List Host.Cell → Nat → Byte → List Host.Cell
  | [], x, v => if v = Memory.unlisted then [] else [(x, v)]
  | (a, b) :: m, x, v =>
    if x < a then (if v = Memory.unlisted then (a, b) :: m else (x, v) :: (a, b) :: m)
    else if x = a then (if v = Memory.unlisted then m else (x, v) :: m)
    else (a, b) :: Memory.setByte m x v

/-- Addresses strictly rising, every one above `lo`, and no listed byte equal to an unlisted one. -/
def Memory.wfAbove : Option Nat → List Host.Cell → Bool
  | _, [] => true
  | lo, (a, b) :: m =>
    (match lo with | none => true | some l => decide (l < a)) && b != Memory.unlisted
      && Memory.wfAbove (some a) m

/-- The canonical form of a memory. -/
def Memory.wf (m : List Host.Cell) : Bool := Memory.wfAbove none m

/-- The address of the word that holds an address: the part's addresses are word addresses already
(01, R1, R3). -/
def wordAddr (a : Word) : Nat := (a &&& 0xFFFFFFFC#32).toNat

/-- A word read, byte 0 at the lowest address (12, R163). -/
def Memory.read (m : List Host.Cell) (a : Word) : Word :=
  let x := wordAddr a
  Memory.byte m (x + 3) ++ Memory.byte m (x + 2) ++ Memory.byte m (x + 1) ++ Memory.byte m x

/-- A word write, whole (01, R3). -/
def Memory.write (m : List Host.Cell) (a : Word) (w : Word) : List Host.Cell :=
  let x := wordAddr a
  Memory.setByte (Memory.setByte (Memory.setByte (Memory.setByte m x (w.extractLsb' 0 8))
    (x + 1) (w.extractLsb' 8 8)) (x + 2) (w.extractLsb' 16 8)) (x + 3) (w.extractLsb' 24 8)

/-- The host's writes, in order (log 2). -/
def Memory.hostWrites (m : List Host.Cell) : List HostWrite → List Host.Cell
  | [] => m
  | h :: hs => Memory.hostWrites (Memory.write m h.addr h.data) hs

/-! ## Addresses in the Exchange Area (01, R1, R2; 12, R164 to R166) -/

def State.area (s : State) (offset : Word) : Word := s.regp.area + offset

/-- The offset of slot k: 0x100 + k × 0x160 (01, R2). -/
def slotOffset (k : SlotId) : Word := 0x100#32 + BitVec.ofNat 32 k.val * 0x160#32

def State.slotWord (s : State) (k : SlotId) (offset : Word) : Word := s.area (slotOffset k + offset)

def State.hostWordAddr (s : State) (k : SlotId) : Word := s.slotWord k 0x00
def State.partWordAddr (s : State) (k : SlotId) : Word := s.slotWord k 0x04
def State.takenAddr (s : State) (k : SlotId) : Word := s.slotWord k 0x20

/-- Word i of the posting record, i = 0 to 4 (12, R165). -/
def State.recordAddr (s : State) (k : SlotId) (i : Nat) : Word :=
  s.slotWord k (0x08#32 + BitVec.ofNat 32 (4 * i))

/-- Word i of step record j (12, R166). -/
def State.stepAddr (s : State) (k : SlotId) (j : Nat) (offset : Word) : Word :=
  s.slotWord k (0x40#32 + BitVec.ofNat 32 (j * 0x18) + offset)

/-- Word i of qualifier entry e (12, R164). -/
def State.qualifierAddr (s : State) (e i : Nat) : Word :=
  s.area (0x40#32 + BitVec.ofNat 32 (e * 0x10 + 4 * i))

/-- Word i of the line table (12, R164). -/
def State.lineTableAddr (s : State) (i : Nat) : Word := s.area (0x20#32 + BitVec.ofNat 32 (4 * i))

/-! ## The Memory Port's order list (11, R161) -/

/-- A request joins the end of the order list when raised. -/
def State.raise (s : State) (access : Access) (addr : Word) (data : Option Word) : State :=
  { s with mport := s.mport ++
      [{ access := access, addr := addr, data := data, abandoned := false, instant := s.instant }] }

/-- The requests raised at the oldest instant: any of them may be the one that MPORT carries, since
requests raised at the same instant join in either order (log 9). -/
def frontGroup : List Request → List Request
  | [] => []
  | r :: rs => r :: rs.takeWhile (fun x => x.instant == r.instant)

/-- The request carried and the order list without it; a choice outside the group is the oldest. -/
def pickRequest (q : List Request) (pick : Nat) : Option (Request × List Request) :=
  let i := if pick < (frontGroup q).length then pick else 0
  match q[i]? with
  | none => none
  | some r => some (r, q.eraseIdx i)

/-- The lane an access belongs to. -/
def Access.lane? : Access → Option LaneId
  | .loadHost l => some l
  | .loadStep l => some l
  | .check l => some l
  | .result l => some l
  | .settleCheck l => some l
  | .laneSettle l => some l
  | .qualifier l _ => some l
  | _ => none

/-- Marks requests given up: they are still carried and their results discarded (11, R161). -/
def State.abandon (s : State) (p : Access → Bool) : State :=
  { s with mport := s.mport.map (fun r => if p r.access then { r with abandoned := true } else r) }

/-- Some request of the lane has not returned yet (06, R98). -/
def State.laneOutstanding (s : State) (l : LaneId) : Bool :=
  s.mport.any (fun r => r.access.lane? == some l)

/-- A new instant: what was raised before it is older than what is raised after, DESIGN CHOICE where two events
from outside fall together (11, R161; log 9). -/
def State.nextInstant (s : State) : State := { s with instant := s.instant + 1 }

/-- The word a write leaves in memory: the word written, or what the memory system kept (02, R17). -/
def landedWord (reply : BusReply) (w : Word) : Word :=
  match reply with
  | .ok => w
  | .error left => left

/-- The transfer ended with a bus error. -/
def replyFailed : BusReply → Bool
  | .ok => false
  | .error _ => true

/-- Memory after a request has been carried: a read leaves it, a write lands as the memory system
decides. -/
def Memory.carry (m : List Host.Cell) (req : Request) (reply : BusReply) : List Host.Cell :=
  match req.data with
  | none => m
  | some w => Memory.write m req.addr (landedWord reply w)

/-- A reset or a stop of the bus: the order list empties; an access on the bus completes or fails as
the memory system decides and its result is discarded (01, R14; 11, R161). -/
def State.dropBus (s : State) (b : OnBus) : State :=
  match pickRequest s.mport b.pick with
  | none => { s with mport := [] }
  | some (req, _) => { s with mport := [], mem := Memory.carry s.mem req b.reply }

/-- The order list empties at a stall; an access under way then ends as the memory system decides, and none
may be (10, R148, R149; log 8). -/
def State.emptyBus (s : State) (b : Option OnBus) : State :=
  match b with
  | none => { s with mport := [] }
  | some b => s.dropBus b

/-! ## Time (03, R42, R44) -/

/-- An epoch value t is reached when (now − t) mod 2^32 is below 2^31 (03, R42). -/
def reached (now t : Word) : Bool := (now - t).toNat < 2147483648

/-- A duration counter stops at 0xFFFFFFFF (03, R44). -/
def saturate (c : Word) : Word := if c = 0xFFFFFFFF#32 then c else c + 1

def State.epoch (s : State) : Word := s.tbu.epoch

/-- The states in which tick boundaries occur (03, R38). -/
def Engine.ticking : Engine → Bool
  | .off => false
  | .loading => true
  | .running => true
  | .draining => true
  | .stalled => false

/-- The divisor selected by TICKDIV (03, R37). -/
def divisor (code : BitVec 3) : Nat :=
  if code = 0 then 1 else if code = 1 then 2 else if code = 2 then 8 else if code = 3 then 32 else 128

/-- Tick boundaries stop: the prescaler holds its count, a free value below the divisor (03, R38;
log 7). -/
def State.stopTicks (s : State) : State :=
  { s with
    tbu := { s.tbu with
      prescaler := BitVec.ofNat 7 ((Config.prescalerPhase s.freeIndex).toNat % divisor s.regp.tickdiv) }
    freeIndex := s.freeIndex + 1 }

/-! ## Accessors of the units' arrays -/

def allLanes : List LaneId := [0, 1, 2, 3]
def allOutLines : List OutLine := [0, 1, 2, 3]
def allInLines : List InLine := [0, 1, 2, 3, 4, 5, 6, 7]
def allSlots : List SlotId := [0, 1, 2, 3, 4, 5, 6, 7, 8, 9, 10, 11, 12, 13, 14, 15]

/-- One value per lane or output line. -/
def tabulate4 {α : Type} (f : Fin 4 → α) : Vector α 4 := #v[f 0, f 1, f 2, f 3]

/-- One value per input line. -/
def tabulate8 {α : Type} (f : Fin 8 → α) : Vector α 8 :=
  #v[f 0, f 1, f 2, f 3, f 4, f 5, f 6, f 7]

def State.lane (s : State) (l : LaneId) : Lane := s.lanes[l]

def State.setLane (s : State) (l : LaneId) (x : Lane) : State := { s with lanes := s.lanes.set l x }

def State.mirror (s : State) (k : SlotId) : Mirror := s.smon.mirror[k]

def State.setMirror (s : State) (k : SlotId) (m : Mirror) : State :=
  { s with smon := { s.smon with mirror := s.smon.mirror.set k m } }

/-- The recall in force for the post of a slot (02, R28). -/
def State.setRecall (s : State) (k : SlotId) (x : Option SeenRecall) : State :=
  { s with smon := { s.smon with recalls := s.smon.recalls.set k x } }

def State.setPiece (s : State) (p : Piece) (w : Work) : State :=
  { s with smon := { s.smon with piece := some (p, w) } }

/-- A piece becomes ready and waits its turn (04, R49). -/
def State.ready (s : State) (p : Piece) : State :=
  { s with smon := { s.smon with waiting := s.smon.waiting ++ [p] } }

end Sys2Proof.Machine
end

