-- ==== Sys2Proof/Machine/Operands.lean ====
section
/-! DEFINITION. The layouts of the words the part reads and writes, and the codes in them (12, R163 to
R170), and the judgements of records and steps (04, R56; 06, R85). -/

namespace Sys2Proof.Machine

/-! ## Fields -/

def byte0 (w : Word) : Byte := w.extractLsb' 0 8
def byte1 (w : Word) : Byte := w.extractLsb' 8 8
def byte2 (w : Word) : Byte := w.extractLsb' 16 8
def byte3 (w : Word) : Byte := w.extractLsb' 24 8
def low16 (w : Word) : Half := w.extractLsb' 0 16
def high16 (w : Word) : Half := w.extractLsb' 16 16

/-- A word of two 16-bit fields, the first in bits 31 to 16. -/
def pair16 (high low : Half) : Word := high ++ low

/-- A word of four bytes, the first in bits 31 to 24. -/
def quad8 (b3 b2 b1 b0 : Byte) : Word := b3 ++ b2 ++ b1 ++ b0

/-! ## Codes (12, R170) -/

def PlanOutcome.code : PlanOutcome → Byte
  | .done => 1 | .passed => 2 | .failed => 3 | .timedOut => 4 | .recalled => 5 | .linesBusy => 6
  | .late => 7 | .malformed => 8 | .fetchFault => 9 | .writeFault => 10 | .halted => 11
  | .orphaned => 12

def ResultCode.code : ResultCode → Byte
  | .ok => 1 | .timeout => 2 | .recalled => 3 | .overrange => 4 | .skipped => 5 | .matched => 6
  | .miss => 7 | .noData => 8 | .halted => 9

def Engine.code : Engine → BitVec 3
  | .off => 0 | .loading => 1 | .running => 2 | .draining => 3 | .stalled => 4

def FaultCode.code : FaultCode → Byte
  | .none => 0 | .badArea => 1 | .readErr => 2 | .writeErr => 3 | .settleLost => 4 | .headerLost => 5
  | .badConfig => 6

/-! ## The slot header (12, R165) -/

def postSeq (hostWord : Word) : Half := low16 hostWord
def recallSeq (hostWord : Word) : Half := high16 hostWord
def takeSeq (partWord : Word) : Half := low16 partWord
def settleSeq (partWord : Word) : Half := high16 partWord

/-- The part word with its two sequence numbers. -/
def partWord (take settle : Half) : Word := pair16 settle take

/-- The posting record from its five words (12, R165). -/
def Posting.ofWords (ws : List Word) : Posting :=
  let w := ws.getD 0 0
  { stepCount := byte0 w, priority := byte1 w, outMask := byte2 w, passes := byte3 w,
    flags := ws.getD 1 0, window := ws.getD 2 0, startEpoch := ws.getD 3 0, slack := ws.getD 4 0 }

def flagNotify (flags : Word) : Bool := flags.getLsbD 0
def flagNowait (flags : Word) : Bool := flags.getLsbD 1
def flagAtStart (flags : Word) : Bool := flags.getLsbD 2
def flagGoOn (flags : Word) : Bool := flags.getLsbD 3
def flagKeep (flags : Word) : Bool := flags.getLsbD 4

/-- A posting record is bad if step_count lies outside 1–12, priority is above 3, or out_mask has a
bit above the four line bits (04, R56; 01, R9). -/
def Posting.bad (p : Posting) : Bool :=
  p.stepCount.toNat == 0 || 12 < p.stepCount.toNat || 3 < p.priority.toNat || 15 < p.outMask.toNat

/-- The four line bits of out_mask. -/
def Posting.lines (p : Posting) : BitVec 4 := p.outMask.extractLsb' 0 4

/-- The four writes of a settle: outcome word, started_epoch, settled_epoch, part word (02, R23), each
with its offset in the slot. -/
def settleWordOffset (i : Nat) : Word :=
  if i = 0 then 0x1C else if i = 1 then 0x24 else if i = 2 then 0x28 else 0x04

/-- The outcome word (12, R165). -/
def outcomeWord (o : PlanOutcome) (lastStep lane passesDone : Byte) : Word :=
  quad8 passesDone lane lastStep o.code

/-- Write i of a settle sequence. -/
def settleWord (i : Nat) (outcome : Word) (started settled : Word) (seq : Half) : Word :=
  if i = 0 then outcome else if i = 1 then started else if i = 2 then settled else partWord seq seq

/-- The outcome word of a plan that never reached a lane, and of an orphan (02, R36). -/
def unlanedOutcome (o : PlanOutcome) : Word := outcomeWord o 0xFF 0xFF 0

/-! ## The header (12, R164) -/

def slotsInUse (w : Word) : Byte := byte0 w
def configSeq (w : Word) : Half := high16 w

/-- slots_in_use lies in 1–16, judged on its whole byte (01, R4; 12, R163). -/
def slotsGood (b : Byte) : Bool := 0 < b.toNat && b.toNat ≤ 16

/-- Filter code i from the first two words of the line table. -/
def filterCode (table : List Word) (i : InLine) : Byte :=
  (table.getD (i.val / 4) 0).extractLsb' (8 * (i.val % 4)) 8

/-- Idle level byte i from the third word of the line table. -/
def idleByte (table : List Word) (i : OutLine) : Byte :=
  (table.getD 2 0).extractLsb' (8 * i.val) 8

/-- The twelve values judged together (01, R6). -/
def lineTableGood (table : List Word) : Bool :=
  allInLines.all (fun i => (filterCode table i).toNat ≤ 4)
    && allOutLines.all (fun i => (idleByte table i).toNat ≤ 1)

/-- The run length a filter code selects: 1, 2, 4, 8 or 16 (01, R6). -/
def filterLength (code : Byte) : Nat := 2 ^ code.toNat

/-- The word of config_ack and torn_total. -/
def ackTornWord (ack torn : Half) : Word := pair16 torn ack

/-- The word of orphan_total and fault_total. -/
def orphanFaultWord (orphan fault : Half) : Word := pair16 fault orphan

/-! ## Step records (12, R166, R167) -/

/-- The step requests from the words read, three a step. -/
def stepsOf : List Word → List StepReq
  | w :: a :: b :: ws =>
    { kind := byte0 w, line := byte1 w, mode := byte2 w, arg := byte3 w, paramA := a, paramB := b }
      :: stepsOf ws
  | _ => []

/-- Word of the result head (12, R166). -/
def StepResult.head (r : StepResult) : Word := quad8 0 r.aux r.pass r.code.code

/-- Word i of a result in the order written: value, stamp, head (01, R12). -/
def StepResult.word (r : StepResult) (i : Nat) : Word :=
  if i = 0 then r.value else if i = 1 then r.stamp else r.head

/-- Offset of word i of a result in the order written (12, R166). -/
def resultOffset (i : Nat) : Word := if i = 0 then 0x10 else if i = 1 then 0x14 else 0x0C

def inputLineGood (line : Byte) : Bool := line.toNat ≤ 7

/-- An output line 0–3 whose bit is set in out_mask (06, R85). -/
def outputLineGood (line outMask : Byte) : Bool := line.toNat ≤ 3 && outMask.getLsbD line.toNat

/-- Whether step i is good (06, R85; 12, R167). -/
def stepGood (outMask : Byte) (i : Nat) (t : StepReq) : Bool :=
  match t.kind.toNat with
  | 1 => true
  | 2 => true
  | 3 => inputLineGood t.line && 1 ≤ t.mode.toNat && t.mode.toNat ≤ 3
  | 4 => inputLineGood t.line && t.mode.toNat ≤ 1
  | 5 => inputLineGood t.line && 1 ≤ t.mode.toNat && t.mode.toNat ≤ 3 && t.paramA != 0
  | 6 => inputLineGood t.line && 1 ≤ t.mode.toNat && t.mode.toNat ≤ 2 && t.arg != 0
  | 7 => outputLineGood t.line outMask && t.mode.toNat ≤ 1
  | 8 => outputLineGood t.line outMask && t.paramA != 0 && t.paramB != 0 && t.arg != 0
  | 9 => t.line.toNat < i && t.arg.toNat ≤ 7 && t.mode.extractLsb' 0 2 != 3#2
  | _ => false

/-- The first bad step, judged in index order (06, R85). -/
def firstBad (outMask : Byte) : Nat → List StepReq → Option Nat
  | _, [] => none
  | i, t :: ts => if stepGood outMask i t then firstBad outMask (i + 1) ts else some i

/-- The output line a step names. -/
def StepReq.outLine (t : StepReq) : OutLine := Fin.ofNat 4 t.line.toNat

/-- Whether an edge of this new level has the direction that mode 1 RISE, 2 FALL or 3 EITHER asks for
(07, R112). -/
def directionMatches (mode : Byte) (level : Bool) : Bool :=
  mode.toNat == 3 || (mode.toNat == 1 && level) || (mode.toNat == 2 && !level)

/-! ### The CHECK step's mode (12, R167) -/

inductive CheckAction where
  | continue | skipNext | concludePass | concludeFail
deriving DecidableEq, Repr

def CheckAction.ofBits (b : BitVec 2) : CheckAction :=
  if b = 0 then .continue else if b = 1 then .skipNext else if b = 2 then .concludePass
  else .concludeFail

def CheckAction.number : CheckAction → Byte
  | .continue => 0 | .skipNext => 1 | .concludePass => 2 | .concludeFail => 3

def checkTest (mode : Byte) : BitVec 2 := mode.extractLsb' 0 2
def checkInvert (mode : Byte) : Bool := mode.getLsbD 2
def matchAction (mode : Byte) : CheckAction := CheckAction.ofBits (mode.extractLsb' 3 2)
def missAction (mode : Byte) : CheckAction := CheckAction.ofBits (mode.extractLsb' 5 2)

/-- Bit 0 of PULSE's mode is INVERT; the active level is 1 with it clear (08, R128). -/
def pulseActive (mode : Byte) : Bool := !mode.getLsbD 0

/-- A level as a word or a byte: 1 or 0. -/
def levelWord (b : Bool) : Word := if b then 1 else 0
def levelByte (b : Bool) : Byte := if b then 1 else 0

/-! ## CONTROL (12, R169) -/

def ctlEnable (w : Word) : Bool := w.getLsbD 0
def ctlSoftReset (w : Word) : Bool := w.getLsbD 1
def ctlTickdiv (w : Word) : BitVec 3 := w.extractLsb' 2 3
def ctlSweep (w : Word) : BitVec 2 := w.extractLsb' 5 2
def ctlMask (w : Word) : BitVec 4 := w.extractLsb' 8 4

/-- The sweep timer's period in tick boundaries; 0 when off (03, R45). -/
def sweepPeriod (code : BitVec 2) : Nat :=
  if code = 0 then 0 else if code = 1 then 1024 else if code = 2 then 16384 else 262144

end Sys2Proof.Machine
end

