-- ==== Sys2Proof/Machine/Flags.lean ====
section
/-! DEFINITION. CAUSE, IRQ, and the values the registers read (11, R155 to R160; 12, R169). -/

namespace Sys2Proof.Machine

/-- CAUSE bits (11, R159; 12, R169). -/
def causeSettled : BitVec 4 := 1
def causeTorn : BitVec 4 := 2
def causeFault : BitVec 4 := 4
def causeStall : BitVec 4 := 8

/-- An event sets a CAUSE bit; one already set stays set (11, R159). -/
def State.setCause (s : State) (c : BitVec 4) : State :=
  { s with regp := { s.regp with cause := s.regp.cause ||| c } }

/-- CAUSE.SETTLED for a plan with NOTIFY set (02, R23 step 6). -/
def State.notify (s : State) (wanted : Bool) : State :=
  if wanted then s.setCause causeSettled else s

/-- IRQ is high while some CAUSE bit is set whose MASK bit is set (11, R160), and low while RESETn is
low. -/
def State.irq (s : State) : Bool := !s.regp.resetLow && (s.regp.cause &&& s.regp.mask) != 0

/-- CONTROL as it reads (11, R155; 12, R169). -/
def State.control (s : State) : Word :=
  BitVec.setWidth 32
    (s.regp.mask ++ (0#1) ++ s.regp.sweep ++ s.regp.tickdiv ++ (0#1) ++ (BitVec.ofBool s.regp.enable))

/-- LANES_BUSY: one bit per lane, set while the lane is not FREE (06, R82). -/
def State.lanesBusy (s : State) : BitVec 4 :=
  BitVec.ofBool (s.lanes[3].state != .free) ++ BitVec.ofBool (s.lanes[2].state != .free)
    ++ BitVec.ofBool (s.lanes[1].state != .free) ++ BitVec.ofBool (s.lanes[0].state != .free)

/-- QUEUE_DEPTH: the number of entries in the admission queue (05, R79). -/
def State.queueDepth (s : State) : BitVec 5 := BitVec.ofNat 5 s.admu.queue.length

/-- STATUS as it reads (11, R158; 12, R169). -/
def State.status (s : State) : Word :=
  Config.revision ++ s.engc.faultCode.code ++ (0#3) ++ s.queueDepth ++ s.lanesBusy ++ (0#1)
    ++ s.engc.engine.code

/-- The value a register reads; `none` for a read answered with the error response (11, R154). -/
def State.registerValue (s : State) (offset : BitVec 6) : Option Word :=
  if s.regp.resetLow || offset.toNat % 4 != 0 then none
  else match offset.toNat with
    | 0x00 => some s.control
    | 0x04 => some s.regp.area
    | 0x0C => some (BitVec.setWidth 32 s.regp.cause)
    | 0x10 => some s.status
    | 0x14 => some s.tbu.epoch
    | _ => some 0

end Sys2Proof.Machine
end

