-- ==== Sys2Proof/Machine/Outputs.lean ====
section
/-! DEFINITION. The Output Driver: levels, claims, releases, and the line table (08, R118 to R124). -/

namespace Sys2Proof.Machine

/-- The idle level a table gives a line. -/
def idleLevel (table : List Word) (o : OutLine) : Bool := idleByte table o != 0

/-- The line goes to its idle level and its keep flag is cleared. -/
def OutputLine.toIdle (x : OutputLine) : OutputLine := { x with level := x.idle, keep := false }

/-- A start: claimer recorded, keep flag cleared, level unchanged (08, R120). -/
def outdClaim (lane : LaneId) (lines : BitVec 4) (v : Vector OutputLine 4) : Vector OutputLine 4 :=
  tabulate4 (fun o =>
    if lines.getLsbD o.val then { v[o] with claimer := some lane, keep := false } else v[o])

/-- A release of the lane's lines: levels kept with the keep flag set, or driven idle (08, R121). -/
def outdRelease (lane : LaneId) (kept : Bool) (v : Vector OutputLine 4) : Vector OutputLine 4 :=
  tabulate4 (fun o =>
    if (v[o]).claimer = some lane then
      if kept then { v[o] with claimer := none, keep := true }
      else { (v[o]).toIdle with claimer := none }
    else v[o])

/-- LOADING applies the table: every line to its new idle level, keep flags cleared (08, R119). -/
def outdApply (table : List Word) (v : Vector OutputLine 4) : Vector OutputLine 4 :=
  tabulate4 (fun o => ({ v[o] with idle := idleLevel table o }).toIdle)

/-- A reload: an unclaimed line whose idle level changed goes to it at once and gives up a kept level
(08, R122). -/
def outdReload (table : List Word) (v : Vector OutputLine 4) : Vector OutputLine 4 :=
  tabulate4 (fun o =>
    let x := v[o]
    let y := { x with idle := idleLevel table o }
    if x.claimer.isNone && x.idle != idleLevel table o then y.toIdle else y)

/-- Entry to DRAINING: a kept line goes to its idle level (08, R123). -/
def outdDrain (v : Vector OutputLine 4) : Vector OutputLine 4 :=
  tabulate4 (fun o => if (v[o]).claimer.isNone && (v[o]).keep then (v[o]).toIdle else v[o])

/-- Entry to STALLED: every claimer dropped, every line to its idle level (08, R123). -/
def outdStall (v : Vector OutputLine 4) : Vector OutputLine 4 :=
  tabulate4 (fun o => { (v[o]).toIdle with claimer := none })

/-- A lane commands a level; only a line it has claimed changes (08, R124). The pin shows the last of the levels
commanded at a boundary (`State.outputPin`). -/
def State.drive (s : State) (lane : LaneId) (line : OutLine) (level : Bool) : State :=
  if (s.outd[line]).claimer = some lane then
    { s with outd := s.outd.set line { s.outd[line] with level := level } }
  else s

end Sys2Proof.Machine
end

