-- ==== Sys2Proof/Machine/Admission.lean ====
section
/-! DEFINITION. The Admission Unit: queue order, the selection walk with starts and reservations,
removals, the NOWAIT test, lateness, and the release of claims (05, R64 to R81). -/

namespace Sys2Proof.Machine

/-! ## The queue (05, R64 to R66) -/

/-- Discovery number a is earlier than b when (b − a) mod 2^32 is below 2^31 (05, R65). -/
def earlier (a b : Word) : Bool := a != b && (b - a).toNat < 2147483648

/-- The entry has the higher priority of the two (05, R65). -/
def Entry.outranks (a b : Entry) : Bool := b.posting.priority.toNat < a.posting.priority.toNat

/-- Queue order: higher priority first, then the earlier discovery number (05, R65). -/
def Entry.before (a b : Entry) : Bool :=
  a.outranks b || (a.posting.priority == b.posting.priority && earlier a.discovery b.discovery)

/-- A joining entry takes its place after every entry of its own priority that is already waiting, and before every
entry of lower priority (05, R65). That is queue order as long as no waiting entry's discovery number lies 2^31 or more
behind the joining one's; for one that does, R65's comparison would put the joining entry first, and that its words
on the joining entry decide is the model's choice, DESIGN CHOICE (log 39). -/
def insertEntry (e : Entry) : List Entry → List Entry
  | [] => [e]
  | x :: xs => if e.outranks x then e :: x :: xs else x :: insertEntry e xs

/-- Eligible unless AT_START is set and start_epoch is not reached (05, R66). -/
def eligibleAt (now : Word) (p : Posting) : Bool :=
  !flagAtStart p.flags || reached now p.startEpoch

/-- The entry has a lateness limit and it is reached (05, R75). -/
def latenessReached (now : Word) (p : Posting) : Bool :=
  flagAtStart p.flags && p.slack != 0 && reached now (p.startEpoch + p.slack)

def State.setQueue (s : State) (q : List Entry) : State := { s with admu := { s.admu with queue := q } }

def State.inQueue (s : State) (k : SlotId) : Bool := s.admu.queue.any (fun e => e.slot == k)

/-- The queue without the entry of a slot. -/
def withoutSlot (k : SlotId) (q : List Entry) : List Entry := q.filter (fun e => e.slot != k)

/-- The NOTIFY flag the queue entry of a slot carries (04, R58). -/
def State.entryNotify (s : State) (k : SlotId) : Bool :=
  match s.admu.queue.find? (fun e => e.slot == k) with
  | none => false
  | some e => flagNotify e.posting.flags

/-! ## The claim table and the pool (05, R67, R68) -/

/-- The lines reserved for a slot's entry: its reservation set (05, R64; log 21). -/
def State.reservationSet (s : State) (k : SlotId) : List OutLine :=
  allOutLines.filter (fun o => (s.admu.claims[o]).reservation == some k)

def clearReservations (k : SlotId) (v : Vector Claim 4) : Vector Claim 4 :=
  tabulate4 (fun o => if (v[o]).reservation = some k then { v[o] with reservation := none } else v[o])

/-- The lowest-numbered lane in the pool (05, R71). -/
def State.freeLane (s : State) : Option LaneId := allLanes.find? (fun l => s.admu.pool[l])

/-- A line is free to an entry when it has no owner and its reservation is absent, the entry's own, or
that of an entry that stands after it (05, R70). -/
def lineFreeTo (v : Vector Claim 4) (k : SlotId) (later : List Entry) (o : OutLine) : Bool :=
  (v[o]).owner.isNone &&
    match (v[o]).reservation with
    | none => true
    | some j => j == k || later.any (fun e => e.slot == j)

def linesFreeTo (v : Vector Claim 4) (e : Entry) (later : List Entry) : Bool :=
  allOutLines.all (fun o => !e.posting.lines.getLsbD o.val || lineFreeTo v e.slot later o)

/-- Reserving for a blocked entry every line of its out_mask whose reservation is absent or belongs to
an entry that stands after it (05, R72). -/
def reserveFor (e : Entry) (later : List Entry) (v : Vector Claim 4) : Vector Claim 4 :=
  tabulate4 (fun o =>
    if e.posting.lines.getLsbD o.val &&
        (match (v[o]).reservation with
          | none => true
          | some j => later.any (fun x => x.slot == j)) then
      { v[o] with reservation := some e.slot }
    else v[o])

/-- Owners and reservations after a start (05, R71). -/
def claimFor (e : Entry) (lane : LaneId) (v : Vector Claim 4) : Vector Claim 4 :=
  tabulate4 (fun o =>
    if e.posting.lines.getLsbD o.val then { owner := some lane, reservation := none }
    else if (v[o]).reservation = some e.slot then { v[o] with reservation := none }
    else v[o])

/-- The context a start gives a lane, which begins LOADING (05, R71; 06, R83). -/
def Lane.start (e : Entry) : Lane :=
  { Lane.empty with
    state := .loading
    slot := e.slot
    seq := e.seq
    stepCount := e.posting.stepCount
    passes := e.posting.passes
    window := e.posting.window
    flags := e.posting.flags
    outMask := e.posting.outMask
    claimed := e.posting.lines }

/-- Starting an entry, one act but for its leaving the queue, which the walk makes (05, R71): lane busy,
lines claimed, mirror RUNNING, OUTD told, and the lane's first load read raised (06, R84). -/
def State.startPlan (s : State) (e : Entry) (lane : LaneId) : State :=
  let m := s.mirror e.slot
  let s1 : State :=
    { s with
      admu := { s.admu with claims := claimFor e lane s.admu.claims, pool := s.admu.pool.set lane false }
      outd := outdClaim lane e.posting.lines s.outd
      lanes := s.lanes.set lane (Lane.start e) }
  (s1.setMirror e.slot { m with state := .running, lane := some lane }).raise
    (.loadHost lane) (s1.hostWordAddr e.slot) none

/-- The walk from an entry on: `kept` are the entries visited that stay (05, R70). -/
def walkFrom : List Entry → List Entry → State → State
  | kept, [], s => s.setQueue kept
  | kept, e :: rest, s =>
    match s.freeLane with
    | none => s.setQueue (kept ++ e :: rest)
    | some l =>
      if !e.eligible then walkFrom (kept ++ [e]) rest s
      else if linesFreeTo s.admu.claims e rest then walkFrom kept rest (s.startPlan e l)
      else walkFrom (kept ++ [e]) rest
        { s with admu := { s.admu with claims := reserveFor e rest s.admu.claims } }

/-- A walk is made only while the engine is RUNNING (05, R69). -/
def State.walk (s : State) : State :=
  if s.engc.engine = .running then walkFrom [] s.admu.queue s else s

/-! ## Removals (05, R73, R75, R80) -/

/-- An entry leaves the queue and its reservations are cleared. -/
def State.removeEntry (s : State) (k : SlotId) : State :=
  { s with admu := { s.admu with
      queue := withoutSlot k s.admu.queue
      claims := clearReservations k s.admu.claims } }

/-- A removal as LATE or HALTED: pending outcome set and a removal settle made ready (04, R58). -/
def State.removeAs (s : State) (k : SlotId) (why : Removal) : State :=
  let notify := s.entryNotify k
  let m := s.mirror k
  ((s.removeEntry k).setMirror k { m with pendingOutcome := some why }).ready (.removal k why notify)

/-- A lateness limit reached: a walk first; an entry it does not start is removed LATE and a walk
follows (05, R75). -/
def State.lateEntry (s : State) (k : SlotId) : State :=
  let s1 := s.walk
  if s1.inQueue k then (s1.removeAs k .late).walk else s1

/-- Some eligibility test is due (05, R66). -/
def State.eligibleDue (s : State) : Bool :=
  s.engc.engine = .running && s.admu.queue.any (fun e => !e.eligible && eligibleAt s.epoch e.posting)

/-- Every eligibility test due, then one walk (05, R76). -/
def State.makeEligible (s : State) : State :=
  (s.setQueue (s.admu.queue.map
    (fun e => if eligibleAt s.epoch e.posting then { e with eligible := true } else e))).walk

/-- The first entry in queue order whose lateness limit is reached (05, R75). -/
def State.firstLate (s : State) : Option SlotId :=
  if s.engc.engine = .running then
    (s.admu.queue.find? (fun e => latenessReached s.epoch e.posting)).map (fun e => e.slot)
  else none

/-- Every lateness limit reached, in queue order (05, R75). -/
def lateAll : Nat → State → State
  | 0, s => s
  | n + 1, s =>
    match s.firstLate with
    | none => s
    | some k => lateAll n (s.lateEntry k)

/-- ADMU's work for the entries under test at a tick boundary, one event taken whole: every eligibility test
due, one walk if an entry has become eligible, and then every lateness limit reached (05, R69, R76). Each
limit handled takes an entry off the queue. The settles of the entries so removed become ready one behind another, so
that no other piece of the same instant is taken between two of them (04, R49), DESIGN CHOICE (log 41). -/
def State.admissionTick (s : State) : State :=
  let s1 := if s.eligibleDue then s.makeEligible else s
  lateAll s1.admu.queue.length s1

/-- An entry joins (05, R64, R66, R75); one that joins in DRAINING is removed HALTED in the same event
(05, R80). A slot has one entry at most (R64): a slot that has an entry is QUEUED and is not discovered (04, R53),
and in a state that no run reaches the joining entry takes the place of the one its slot has (log 35). -/
def State.join (s : State) (e : Entry) : State :=
  let now := s.epoch
  let s1 := s.setQueue
    (insertEntry { e with eligible := eligibleAt now e.posting } (withoutSlot e.slot s.admu.queue))
  if s.engc.engine = .draining then s1.removeAs e.slot .halted
  else if latenessReached now e.posting then s1.lateEntry e.slot
  else s1.walk

/-- Entry to DRAINING: every entry removed HALTED, in queue order (05, R80). -/
def haltEntries : List Entry → State → State
  | [], s => s
  | e :: es, s => haltEntries es (s.removeAs e.slot .halted)

/-- Is any of these lines claimed or reserved (05, R74)? -/
def State.linesBusy (s : State) (lines : BitVec 4) : Bool :=
  allOutLines.any (fun o => lines.getLsbD o.val &&
    ((s.admu.claims[o]).owner.isSome || (s.admu.claims[o]).reservation.isSome))

/-! ## Release of claims (05, R77, R78) -/

/-- The lane's claims are taken away and OUTD told; levels are kept only while RUNNING (08, R121). -/
def State.releaseClaims (s : State) (lane : LaneId) (kept : Bool) : State :=
  { s with
    admu := { s.admu with claims := tabulate4 (fun o =>
      if (s.admu.claims[o]).owner = some lane then { s.admu.claims[o] with owner := none }
      else s.admu.claims[o]) }
    outd := outdRelease lane (kept && s.engc.engine = .running) s.outd }

/-- A lane goes FREE with its context cleared and returns to the pool (05, R68; 06, R83). -/
def State.freeTheLane (s : State) (lane : LaneId) : State :=
  { s with
    admu := { s.admu with pool := s.admu.pool.set lane true }
    lanes := s.lanes.set lane Lane.empty }

end Sys2Proof.Machine
end

