-- ==== Sys2Proof/Machine/CounterSet.lean ====
section
/-! DEFINITION. SMON's counter set: requests, and the words it writes (04, R61; 01, R5). -/

namespace Sys2Proof.Machine

def State.setCounters (s : State) (c : Counters) : State :=
  { s with smon := { s.smon with counters := c } }

/-- The first word of a request is written: the counter is raised by one, wrapping at its width, and
the word is written from the set's values (04, R61; offsets 12, R164). -/
def State.serve (s : State) : State :=
  let c := s.smon.counters
  match s.smon.counts with
  | [] => s
  | req :: _ =>
    let s := { s with smon := { s.smon with secondWord := false } }
    match req.kind with
    | .settlement _ _ =>
      (s.setCounters { c with settleTotal := c.settleTotal + 1 }).raise .counter (s.area 0x0C)
        (some (c.settleTotal + 1))
    | .sweepClose noted =>
      (s.setCounters { c with sweepTotal := c.sweepTotal + 1 }).raise .counter (s.area 0x14) (some noted)
    | .tear =>
      (s.setCounters { c with tornTotal := c.tornTotal + 1 }).raise .counter (s.area 0x08)
        (some (ackTornWord c.ackCopy (c.tornTotal + 1)))
    | .orphan =>
      (s.setCounters { c with orphanTotal := c.orphanTotal + 1 }).raise .counter (s.area 0x18)
        (some (orphanFaultWord (c.orphanTotal + 1) c.faultTotal))
    | .fault _ =>
      (s.setCounters { c with faultTotal := c.faultTotal + 1 }).raise .counter (s.area 0x18)
        (some (orphanFaultWord c.orphanTotal (c.faultTotal + 1)))
    | .configAck value => s.raise .counter (s.area 0x08) (some (ackTornWord value c.tornTotal))

/-- A request joins; one that finds the set idle is served at once (04, R61). -/
def State.count (s : State) (kind : CountKind) (requester : Requester) : State :=
  let idle := s.smon.counts.isEmpty
  let s1 := { s with smon := { s.smon with
    counts := s.smon.counts ++ [{ kind := kind, requester := requester }] } }
  if idle then s1.serve else s1

/-- The second word of a sweep close: sweep_total (04, R48). -/
def State.serveSecond (s : State) : State :=
  ({ s with smon := { s.smon with secondWord := true } }).raise .counter (s.area 0x10)
    (some s.smon.counters.sweepTotal)

/-- What a request brings when it is done, before the requester is told (04, R61): the settle copy, the
config_ack copy, or the fault's code and CAUSE.FAULT (10, R151). -/
def State.countEffect (s : State) (kind : CountKind) : State :=
  match kind with
  | .settlement k seq => s.setMirror k { s.mirror k with settleCopy := seq }
  | .sweepClose _ => s
  | .tear => s
  | .orphan => s
  | .fault code => ({ s with engc := { s.engc with faultCode := code } }).setCause causeFault
  | .configAck value => s.setCounters { s.smon.counters with ackCopy := value }

/-- The request in service leaves and the next is taken (04, R61). -/
def State.nextCount (s : State) : State :=
  ({ s with smon := { s.smon with counts := s.smon.counts.tail, secondWord := false } }).serve

end Sys2Proof.Machine
end

