-- ==== Sys2Proof/Machine/Inputs.lean ====
section
/-! DEFINITION. The Input Conditioner: sampling, the run-length filter, and the two ways a line table
is applied (07, R102 to R109). -/

namespace Sys2Proof.Machine

def InputLine.length (x : InputLine) : Nat := filterLength x.filterCode

/-- One sample of a line at a boundary of epoch `now` (07, R104). A run that reaches F stands at F until
the edge is accepted at this same boundary (ACCEPTED_EDGE). -/
def InputLine.sample (now : Word) (level : Bool) (x : InputLine) : InputLine :=
  if level = x.accepted then { x with run := 0 }
  else if x.run = 0 then { x with run := 1, runStart := now }
  else { x with run := x.run + 1 }

/-- All eight lines are sampled at the same boundary, with the sampling flag set (07, R103). -/
def Inputs.sampleAll (now : Word) (pins : Byte) (x : Inputs) : Inputs :=
  if x.sampling then
    { x with pins := pins
             lines := tabulate8 (fun i => (x.lines[i]).sample now (pins.getLsbD i.val)) }
  else { x with pins := pins }

/-- The line's run count has reached F: an edge is to be accepted at this boundary (07, R104). -/
def Inputs.edgeDue (x : Inputs) (i : InLine) : Bool :=
  x.sampling && decide ((x.lines[i]).length ≤ (x.lines[i]).run)

/-- The accepted level after the boundary's acceptances (07, R112). -/
def Inputs.levelAfter (x : Inputs) (i : InLine) : Bool :=
  if x.edgeDue i then !(x.lines[i]).accepted else (x.lines[i]).accepted

/-- INC accepts the new level: the run count returns to 0 (07, R104). -/
def Inputs.accept (x : Inputs) (i : InLine) : Inputs :=
  { x with lines := x.lines.set i { x.lines[i] with accepted := !(x.lines[i]).accepted, run := 0 } }

/-- LOADING applies the table: every line from its pin, no edge, and sampling begins (07, R107). The epoch
at which a line's last run began keeps its old value, DESIGN CHOICE: 7.10's table gives none here and no
rule names it (log 11). A run that begins later writes it before an edge reads it. -/
def Inputs.apply (table : List Word) (x : Inputs) : Inputs :=
  { x with sampling := true
           lines := tabulate8 (fun i =>
             { x.lines[i] with
               filterCode := filterCode table i, accepted := x.pins.getLsbD i.val, run := 0 }) }

/-- A reload: only a line whose code changes takes the new length and loses its run (07, R108). -/
def Inputs.reload (table : List Word) (x : Inputs) : Inputs :=
  { x with lines := tabulate8 (fun i =>
      if filterCode table i = (x.lines[i]).filterCode then x.lines[i]
      else { x.lines[i] with filterCode := filterCode table i, run := 0 }) }

end Sys2Proof.Machine
end

