-- ==== Sys2Proof/Machine/LaneOps.lean ====
section
/-! DEFINITION. What a lane does: results and their writing, conclusions, passes, the beginning of each
kind of step, edges, completions, flags, tears and closing (06; 07, R110 to R117; 08, R125 to R129; 09). -/

namespace Sys2Proof.Machine

def StepReq.zero : StepReq :=
  { kind := 0, line := 0, mode := 0, arg := 0, paramA := 0, paramB := 0 }

/-- The request of the lane's current step. -/
def Lane.request (x : Lane) : StepReq := x.steps.getD x.step StepReq.zero

/-- The pass number: passes completed plus one, modulo 256 (06, R83, R88). -/
def Lane.passNumber (x : Lane) : Byte := byte0 (x.passesDone + 1)

/-- The step's window: EDGE's own param_b when not 0, otherwise the plan's window for EDGE, WIDTH and
PERIOD; 0 sets no limit and no other kind has one (06, R94). -/
def Lane.windowOf (x : Lane) : Word :=
  let t := x.request
  match t.kind.toNat with
  | 3 => if t.paramB != 0 then t.paramB else x.window
  | 4 => x.window
  | 6 => x.window
  | _ => 0

/-- A step is running (06, R96). -/
def Activity.isRunning : Activity → Bool
  | .none => false
  | .wait _ _ _ => false
  | _ => true

/-! ## Writing results and settling (06, R91, R99) -/

/-- The lane's next access to its slot, when none is in hand: the check before the next result word, or,
with the list empty and a decided outcome, the beginning of the settle sequence. A lane that has
learned of a tear raises nothing (06, R98). -/
def State.pump (s : State) (l : LaneId) : State :=
  let x := s.lane l
  if x.tear then s
  else match x.access, x.list, x.state, x.outcome with
    | .idle, _ :: _, _, _ =>
      (s.setLane l { x with access := .check 0 }).raise (.check l) (s.hostWordAddr x.slot) none
    | .idle, [], .closing, some _ =>
      if x.faultCounts = 0 then
        (s.setLane l { x with access := .settleCheck 0, settledEpoch := s.epoch }).raise
          (.settleCheck l) (s.hostWordAddr x.slot) none
      else s
    | _, _, _, _ => s

/-- The plan concludes and the lane closes to settle (06, R82, R99). -/
def State.conclude (s : State) (l : LaneId) (o : PlanOutcome) (lastStep : Byte) : State :=
  (s.setLane l { s.lane l with
    state := .closing, activity := .none, loaded := false, loadDue := false,
    outcome := some (o, lastStep) }).pump l

/-- A result joins the list and becomes the step's current result (06, R88, R90). -/
def Lane.record (x : Lane) (code : ResultCode) (value stamp : Word) (aux : Byte) : Lane :=
  { x with
    list := x.list ++
      [{ step := x.step, code := code, value := value, stamp := stamp, aux := aux, pass := x.passNumber }]
    results := x.results.setIfInBounds x.step (some { code := code, value := value }) }

/-- The current step is the last of its pass. -/
def Lane.atLast (x : Lane) : Bool := x.step + 1 == x.stepCount.toNat

/-- The passes completed once the current step has: the last step of a pass counts it (06, R88, R89). -/
def Lane.passesAfter (x : Lane) : Word := if x.atLast then x.passesDone + 1 else x.passesDone

/-- The lane with its current step completed, at no step. -/
def Lane.finished (x : Lane) (code : ResultCode) (value stamp : Word) (aux : Byte) : Lane :=
  { x.record code value stamp aux with
    lastDone := x.step, passesDone := x.passesAfter, activity := .none }

/-- The conclusion the completion brings: the verdict, or DONE at the last step of the last pass (06,
R89). -/
def Lane.endingWith (x : Lane) (verdict : Option PlanOutcome) : Option PlanOutcome :=
  match verdict with
  | some o => some o
  | none =>
    if x.atLast && x.passes != 0 && x.passesAfter == BitVec.setWidth 32 x.passes then some .done else none

/-- Where the lane stands for its next step: step 0 of a new pass waits for the following boundary (06,
R87). -/
def Lane.nextWait (x : Lane) (skip sameTick : Bool) : Activity :=
  if x.atLast then .wait 0 false false else .wait (x.step + 1) skip sameTick

/-- A step completes with a result (06, R88, R89). `verdict` is a conclusion the completion itself
brings; `skip` when a CHECK passes the next step over; `sameTick` when the next step of the pass may
begin at this boundary (06, R87). -/
def State.finishStep (s : State) (l : LaneId) (code : ResultCode) (value stamp : Word) (aux : Byte)
    (verdict : Option PlanOutcome) (skip sameTick : Bool) : State :=
  let x := s.lane l
  let y := x.finished code value stamp aux
  match x.endingWith verdict with
  | some o => (s.setLane l y).conclude l o (BitVec.ofNat 8 x.step)
  | none => (s.setLane l { y with activity := x.nextWait skip sameTick }).pump l

/-! ## Beginning a step (06, R87) -/

/-- A step is instant at `now`: SET, HOLD of 0, UNTIL already reached (06, R87). -/
def StepReq.instantAt (t : StepReq) (now : Word) : Bool :=
  match t.kind.toNat with
  | 1 => t.paramA == 0
  | 2 => reached now t.paramA
  | 7 => true
  | _ => false

/-- The lane with step k begun at `now`, its start tick, and its counters at 0. At step 0 a pass begins and
every current result is cleared (06, R87, R88). -/
def Lane.begun (x : Lane) (k : Nat) (now : Word) : Lane :=
  { x with
    step := k, startTick := now, fresh := true, windowCounter := 0, counter := 0, spanCounter := 0,
    results := if k = 0 then Vector.replicate 12 none else x.results }

def Lane.doing (x : Lane) (a : Activity) : Lane := { x with activity := a }

/-- Step k begins at this boundary (06, R87), by its kind. -/
def State.beginStep (s : State) (l : LaneId) (k : Nat) : State :=
  let now := s.epoch
  let x := (s.lane l).begun k now
  let t := x.request
  match t.kind.toNat with
  | 1 =>
    if t.paramA = 0 then (s.setLane l (x.doing .none)).finishStep l .ok 0 now 0 none false true
    else s.setLane l (x.doing .hold)
  | 2 =>
    if reached now t.paramA then
      (s.setLane l (x.doing .none)).finishStep l .ok (now - t.paramA) now 1 none false true
    else s.setLane l (x.doing .untilEpoch)
  | 3 => s.setLane l (x.doing .edge)
  | 4 => s.setLane l (x.doing .widthEnter)
  | 5 => s.setLane l (x.doing (.tally 0))
  | 6 => s.setLane l (x.doing .periodFirst)
  | 7 =>
    ((s.setLane l (x.doing .none)).drive l t.outLine (t.mode == 1)).finishStep l .ok
      (levelWord (t.mode == 1)) now (levelByte (s.outd[t.outLine]).level) none false true
  | 8 => (s.setLane l (x.doing (.pulse 0 true))).drive l t.outLine (pulseActive t.mode)
  | 9 =>
    (s.setLane l (x.doing (.check []))).raise (.qualifier l false) (s.qualifierAddr t.arg.toNat 0) none
  | _ => s

/-- The step at which a waiting lane stands may begin at this boundary: the boundary is current and the
list has room (06, R87, R90). -/
def Lane.beginDue (x : Lane) : Bool :=
  x.state == .stepping && !x.tear && decide (x.list.length < 2) &&
    match x.activity with
    | .wait _ _ due => due
    | _ => false

/-- The waiting step begins, or is passed over with SKIPPED (06, R87; 09, R136). -/
def State.beginWaiting (s : State) (l : LaneId) : State :=
  match (s.lane l).activity with
  | .wait k true _ =>
    (s.setLane l { s.lane l with step := k }).finishStep l .skipped 0 s.epoch 0 none false true
  | .wait k false _ => s.beginStep l k
  | _ => s

/-- A good load completes at its tick of completion: started_epoch recorded, STEPPING entered, step 0
of pass 1 begun (06, R86). -/
def State.completeLoad (s : State) (l : LaneId) : State :=
  (s.setLane l { s.lane l with
    state := .stepping, loaded := false, loadDue := false, startedEpoch := s.epoch, passesDone := 0,
    activity := .none }).beginStep l 0

def Lane.loadCompletionDue (x : Lane) : Bool :=
  x.state == .loading && x.loaded && x.loadDue && !x.tear

/-! ## Counters at a boundary (03, R44) -/

def Lane.tickWindow (x : Lane) : Lane :=
  if x.windowOf = 0 then x else { x with windowCounter := saturate x.windowCounter }

/-- At a boundary the running step's counters are raised by one, and a waiting step may begin. -/
def Lane.tick (x : Lane) : Lane :=
  let y := { x with fresh := false, loadDue := x.loaded }
  match x.activity with
  | .none => y
  | .wait k skip _ => { y with activity := .wait k skip true }
  | .hold => { y with counter := saturate x.counter }
  | .untilEpoch => y
  | .edge => { y.tickWindow with counter := saturate x.counter }
  | .widthEnter => y.tickWindow
  | .widthLeave _ => { y.tickWindow with spanCounter := saturate x.spanCounter }
  | .tally _ => { y with counter := saturate x.counter }
  | .periodFirst => y.tickWindow
  | .period _ _ _ => { y.tickWindow with spanCounter := saturate x.spanCounter }
  | .pulse _ _ => { y with counter := saturate x.counter }
  | .check _ => y

/-- A boundary is past: a step that did not begin at it waits for the next (06, R87). -/
def Lane.closeBoundary (x : Lane) : Lane :=
  match x.activity with
  | .wait k skip _ => { x with activity := .wait k skip false }
  | _ => x

/-! ## Edges (07, R110 to R116) -/

/-- An accepted edge is announced to a lane; its running step acts on it if it waits on that line and
began at an earlier boundary (07, R106, R110). -/
def State.deliverEdge (s : State) (l : LaneId) (line : InLine) (level : Bool) (stamp : Word) : State :=
  let x := s.lane l
  let t := x.request
  let delay := s.epoch - stamp
  if x.state ≠ .stepping ∨ x.fresh = true ∨ t.line.toNat ≠ line.val then s
  else match x.activity with
    | .edge =>
      if directionMatches t.mode level then
        s.finishStep l .ok x.counter stamp (levelByte level) none false true
      else s
    | .widthEnter =>
      if level = (t.mode == 1) then
        s.setLane l { x with activity := .widthLeave stamp, spanCounter := delay }
      else s
    | .widthLeave enter =>
      if level ≠ (t.mode == 1) then
        s.finishStep l .ok (x.spanCounter - delay) enter 2 none false true
      else s
    | .tally n =>
      if directionMatches t.mode level then
        if t.paramB ≠ 0 ∧ n + 1 = t.paramB then
          s.finishStep l .ok (n + 1) x.startTick 1 none false true
        else s.setLane l { x with activity := .tally (n + 1) }
      else s
    | .periodFirst =>
      if directionMatches t.mode level then
        s.setLane l { x with activity := .period stamp 0 0, spanCounter := delay }
      else s
    | .period first n _ =>
      if directionMatches t.mode level then
        if n + 1 = t.arg.toNat then
          s.finishStep l .ok (x.spanCounter - delay) first t.arg none false true
        else s.setLane l { x with activity := .period first (n + 1) (x.spanCounter - delay) }
      else s
    | _ => s

/-- INC announces an accepted edge to all four lanes, and accepts the level (07, R104, R106). -/
def State.acceptEdge (s : State) (i : InLine) : State :=
  let level := !(s.inc.lines[i]).accepted
  let stamp := (s.inc.lines[i]).runStart
  let s1 := { s with inc := s.inc.accept i }
  allLanes.foldl (fun s l => s.deliverEdge l i level stamp) s1

/-- Every edge to be accepted at this boundary, line by line. -/
def State.acceptEdges (s : State) : State :=
  allInLines.foldl (fun s i => if s.inc.edgeDue i then s.acceptEdge i else s) s

/-! ## Completions at a boundary -/

/-- A span counter has reached 0xFFFFFFFF with no edge to end the span (07, R111). -/
def Lane.overrangeDue (x : Lane) : Bool :=
  x.state == .stepping && x.spanCounter == 0xFFFFFFFF#32 &&
    match x.activity with
    | .widthLeave _ => true
    | .period _ _ _ => true
    | _ => false

/-- OVERRANGE (07, R114, R117). -/
def State.overrangeStep (s : State) (l : LaneId) : State :=
  match (s.lane l).activity with
  | .widthLeave enter => s.finishStep l .overrange 0xFFFFFFFF enter 1 none false true
  | .period first n _ =>
    s.finishStep l .overrange 0xFFFFFFFF first (BitVec.ofNat 8 n) none false true
  | _ => s

/-- The window counter has reached the window (06, R94); OVERRANGE at the same boundary goes first (07,
R111). -/
def Lane.windowDue (x : Lane) : Bool :=
  x.state == .stepping && x.windowOf != 0 && x.windowCounter == x.windowOf && !x.overrangeDue &&
    match x.activity with
    | .edge => true
    | .widthEnter => true
    | .widthLeave _ => true
    | .periodFirst => true
    | .period _ _ _ => true
    | _ => false

/-- TIMEOUT: the plan goes on under GO_ON_TIMEOUT and otherwise concludes TIMED_OUT (06, R94; values 07,
R112, R114, R117). -/
def State.timeoutStep (s : State) (l : LaneId) : State :=
  let x := s.lane l
  let t := x.request
  let verdict := if flagGoOn x.flags then none else some PlanOutcome.timedOut
  let ends (value stamp : Word) (aux : Byte) : State :=
    s.finishStep l .timeout value stamp aux verdict false true
  match x.activity with
  | .edge => ends x.windowOf s.epoch (levelByte (s.inc.levelAfter (Fin.ofNat 8 t.line.toNat)))
  | .widthEnter => ends 0 s.epoch 0
  | .widthLeave enter => ends x.spanCounter enter 1
  | .periodFirst => ends 0 s.epoch 0
  | .period first n span => ends span first (BitVec.ofNat 8 n)
  | _ => s

def Lane.holdDue (x : Lane) : Bool :=
  x.state == .stepping && x.activity == .hold && x.counter == x.request.paramA

/-- HOLD completes (08, R125). -/
def State.holdStep (s : State) (l : LaneId) : State :=
  let x := s.lane l
  s.finishStep l .ok x.request.paramA (x.startTick + x.request.paramA) 0 none false true

def Lane.untilDue (x : Lane) (now : Word) : Bool :=
  x.state == .stepping && x.activity == .untilEpoch && !x.fresh && reached now x.request.paramA

/-- UNTIL completes at a later boundary (08, R126). -/
def State.untilStep (s : State) (l : LaneId) : State :=
  s.finishStep l .ok 0 (s.lane l).request.paramA 0 none false true

/-- A PULSE phase counter has reached its phase's length (08, R128). -/
def Lane.pulseDue (x : Lane) : Bool :=
  x.state == .stepping &&
    match x.activity with
    | .pulse _ active => x.counter == (if active then x.request.paramA else x.request.paramB)
    | _ => false

/-- The phase that ends is the rest phase of the last pulse (08, R128). -/
def Lane.pulseEnds (x : Lane) : Bool :=
  x.pulseDue &&
    match x.activity with
    | .pulse n active => !active && n == x.request.arg.toNat
    | _ => false

/-- A PULSE changes phase, or completes after its last rest phase (08, R128). -/
def State.pulseStep (s : State) (l : LaneId) : State :=
  let x := s.lane l
  let t := x.request
  match x.activity with
  | .pulse n true =>
    (s.setLane l { x with activity := .pulse (n + 1) false, counter := 0 }).drive l t.outLine
      (!pulseActive t.mode)
  | .pulse n false =>
    if n = t.arg.toNat then
      s.finishStep l .ok (BitVec.setWidth 32 t.arg) x.startTick (levelByte (pulseActive t.mode)) none
        false true
    else
      (s.setLane l { x with activity := .pulse n true, counter := 0 }).drive l t.outLine
        (pulseActive t.mode)
  | _ => s

def Lane.tallyDue (x : Lane) : Bool :=
  x.state == .stepping && x.counter == x.request.paramA &&
    match x.activity with
    | .tally _ => true
    | _ => false

/-- A TALLY's gate ends (07, R115). -/
def State.tallyStep (s : State) (l : LaneId) : State :=
  match (s.lane l).activity with
  | .tally n => s.finishStep l .ok n (s.lane l).startTick 0 none false true
  | _ => s

/-! ## Recall and halt (06, R95 to R97; 08, R129) -/

/-- The completion of a lane's running step at this boundary, if it completes: an edge accepted on its
line first, then the end its counters bring (06, R96). -/
def State.completeRunning (s : State) (l : LaneId) : State :=
  let i : InLine := Fin.ofNat 8 (s.lane l).request.line.toNat
  let s1 :=
    if s.inc.edgeDue i then s.deliverEdge l i (!(s.inc.lines[i]).accepted) (s.inc.lines[i]).runStart
    else s
  let x := s1.lane l
  if x.overrangeDue then s1.overrangeStep l
  else if x.windowDue then s1.timeoutStep l
  else if x.holdDue then s1.holdStep l
  else if x.untilDue s1.epoch then s1.untilStep l
  else if x.pulseEnds then s1.pulseStep l
  else if x.tallyDue then s1.tallyStep l
  else s1

/-- An instant step that follows a completion at this same boundary completes at it too (08, worked
example, and R127; log 16). -/
def State.chainInstant (s : State) (l : LaneId) : State :=
  let x := s.lane l
  match x.activity with
  | .wait k false true =>
    if x.beginDue && (x.steps.getD k StepReq.zero).instantAt s.epoch then s.beginStep l k else s
  | _ => s

/-- PULSE's pulses completed at this boundary: those whose trailing edge lies at or before it (08,
R129). -/
def Lane.pulsesNow (x : Lane) : Word :=
  match x.activity with
  | .pulse n active =>
    BitVec.ofNat 32 (if active && x.counter == x.request.paramA then n + 1 else n)
  | _ => 0

/-- The qualifier read of a lane's CHECK is given up (09, R131, R138). -/
def State.giveUpCheck (s : State) (l : LaneId) : State :=
  s.abandon (fun a => a == .qualifier l false || a == .qualifier l true)

/-- The step a recall or halt ends gets its result, PULSE's line its rest level, and a CHECK's read is
given up (06, R96; 08, R129; 09, R138). -/
def State.cutRunning (s : State) (l : LaneId) (code : ResultCode) : State :=
  let x := s.lane l
  let y := x.record code x.pulsesNow s.epoch 0
  let s1 := s.setLane l y
  match x.activity with
  | .pulse _ _ => s1.drive l x.request.outLine (!pulseActive x.request.mode)
  | .check _ => s1.giveUpCheck l
  | _ => s1

/-- A recall or halt flag takes effect on a lane in LOADING or STEPPING; the halt governs (06, R95 to
R97). -/
def State.flagEffect (s : State) (l : LaneId) : State :=
  let x := s.lane l
  let o : PlanOutcome := if x.halt then .halted else .recalled
  let code : ResultCode := if x.halt then .halted else .recalled
  match x.state with
  | .loading =>
    (s.abandon (fun a => a == .loadHost l || a == .loadStep l)).conclude l o 0
  | .stepping =>
    match x.activity with
    | .none => s
    | .wait _ _ _ => s.conclude l o (BitVec.ofNat 8 x.lastDone)
    | _ => (s.cutRunning l code).conclude l o (BitVec.ofNat 8 x.step)
  | _ => s

/-- The boundary for a lane whose recall or halt flag is set (06, R96, R97). -/
def State.flaggedBoundary (s : State) (l : LaneId) : State :=
  if (s.lane l).activity.isRunning then
    (((s.completeRunning l).chainInstant l).chainInstant l).flagEffect l
  else s.flagEffect l

/-! ## Tears (06, R98, R100; 02, R32) -/

/-- The settle word has passed its check: a tear has no effect (06, R100). -/
def Lane.pastSettleCheck (x : Lane) : Bool :=
  match x.access with
  | .settleWrite w => w == 3
  | .settleCount => true
  | _ => false

/-- A lane learns of a tear: reads and checks stop at once (06, R95, R98). A check of a result write
already raised may still return; a check of a settle write is given up with the settle (log 14). A CHECK goes
on until the boundary at which the lane stops, so that the return of its read is still its own (09, R131,
R138; log 13). -/
def State.learnTear (s : State) (l : LaneId) : State :=
  let x := s.lane l
  if x.state = .free ∨ x.tear = true ∨ x.pastSettleCheck = true then s
  else
    let access := match x.access with
      | .settleCheck _ => SlotAccess.idle
      | a => a
    (s.setLane l { x with tear := true, access := access }).abandon (fun a =>
      a == .loadHost l || a == .loadStep l || a == .settleCheck l)

/-- A stopped torn lane whose every access has returned and whose fault counts are done goes FREE and
reports a tear release to SMON and to ADMU (06, R98; 05, R78). -/
def State.tearFinish (s : State) (l : LaneId) : State :=
  let x := s.lane l
  if x.stopped && !s.laneOutstanding l && x.faultCounts == 0 then
    ((s.ready (.tearRelease x.slot)).freeTheLane l).walk
  else s

/-- A torn lane stops at a boundary: the running step ends without a result, a CHECK's read being given up,
claims go with the lines to idle, and the list is dropped but for an entry whose check or write is in hand
(06, R98; 09, R138). Its report that it has gone FREE is an event of its own (05, R78). -/
def State.tearStop (s : State) (l : LaneId) : State :=
  let x := s.lane l
  if x.tear && !x.stopped then
    let kept := match x.access with
      | .check _ => x.list.take 1
      | .write _ => x.list.take 1
      | _ => []
    (((s.setLane l { x with
        state := .closing, activity := .none, loaded := false, loadDue := false, stopped := true,
        outcome := none, claimed := 0, list := kept }).giveUpCheck l).releaseClaims l false).walk
  else s

/-! ## Faults (06, R93, R98) -/

/-- A bus error on the lane's memory path concludes the plan and is counted; an error on a check or a
write drops the list, one on a qualifier or load read does not touch it (06, R86, R93). The count is asked for at
the instant of the error: for a qualifier read, after which R93 has the lane go on writing the list's entries and
'then' ask, it is asked for beside those writes and not after them, DESIGN CHOICE (log 40). -/
def State.laneFault (s : State) (l : LaneId) (o : PlanOutcome) (lastStep : Byte) (code : FaultCode)
    (dropList : Bool) : State :=
  let x := s.lane l
  ((s.setLane l { x with
      state := .closing, activity := .none, loaded := false, loadDue := false,
      outcome := some (o, lastStep), faultCounts := x.faultCounts + 1,
      list := if dropList then [] else x.list,
      access := if dropList then .idle else x.access }).giveUpCheck l).count (.fault code) (.lane l)

/-- A bus error on a torn lane's checked write is counted, and nothing else follows but its tear release (06,
R98); a step that runs until the lane stops ends with no result, a CHECK's read being given up (06, R93; 09,
R138). -/
def State.tornWriteFault (s : State) (l : LaneId) : State :=
  let x := s.lane l
  ((s.setLane l { x with
    activity := .none, faultCounts := x.faultCounts + 1, access := .idle, list := [] }).giveUpCheck l).count
      (.fault .writeErr) (.lane l)

/-! ## The end of a settle (06, R99; 05, R77) -/

/-- KEEP_LEVELS applies for the outcomes DONE, PASSED and FAILED (06, R99). -/
def Lane.keepsLevels (x : Lane) : Bool :=
  flagKeep x.flags &&
    match x.outcome with
    | some (.done, _) => true
    | some (.passed, _) => true
    | some (.failed, _) => true
    | _ => false

/-- The count of the settlement is done: CAUSE.SETTLED, completion to SMON, claims and lane back to
ADMU, a walk (06, R99). -/
def State.laneSettled (s : State) (l : LaneId) : State :=
  let x := s.lane l
  ((((s.notify (flagNotify x.flags)).ready (.completion x.slot)).releaseClaims l x.keepsLevels).freeTheLane
    l).walk

/-- The counter set reports to a lane: a settlement, or a fault it waited for. -/
def State.laneCounted (s : State) (l : LaneId) (kind : CountKind) : State :=
  match kind with
  | .settlement _ _ => s.laneSettled l
  | _ =>
    let x := s.lane l
    let s1 := s.setLane l { x with faultCounts := x.faultCounts - 1 }
    if x.stopped then s1.tearFinish l else s1.pump l

end Sys2Proof.Machine
end

