-- ==== Sys2Proof/Machine/MonitorOps.lean ====
section
/-! DEFINITION. The Slot Monitor: pieces of work, sweeps, visits, discovery, takes, settles and the
reports of the counter set to SMON (04, R47 to R60, R63; 02, R21, R22). -/

namespace Sys2Proof.Machine

/-- The pieces that belong to a sweep (04, R49). -/
def Piece.ofSweep : Piece → Bool
  | .config => true
  | .visit _ => true
  | .closing => true
  | _ => false

/-- The piece under way goes on to another stage. -/
def State.setWork (s : State) (w : Work) : State :=
  match s.smon.piece with
  | none => s
  | some (p, _) => s.setPiece p w

/-- The first waiting piece is taken when none is under way. A sweep's piece begins at once: the
configuration read, the visit's host word read, or the closing request. Settles of removed plans and
lanes' reports begin by their own commands (04, R48, R49). -/
def State.takeNext (s : State) : State :=
  match s.smon.piece, s.smon.waiting with
  | none, p :: rest =>
    let s1 := { s with smon := { s.smon with waiting := rest } }
    match p with
    | .config => (s1.setPiece p .config).raise .config (s1.area 0x04) none
    | .visit k => (s1.setPiece p (.visit k)).raise .hostWord (s1.hostWordAddr k) none
    | .closing => (s1.setPiece p (.counting .endPiece)).count (.sweepClose s1.smon.noted) .smon
    | _ => s
  | _, _ => s

/-- A sweep starts: the epoch is noted and its first piece becomes ready (04, R48). -/
def State.startSweep (s : State) : State :=
  ({ s with smon := { s.smon with inProgress := true, noted := s.epoch } }).ready .config

/-- A sweep request, heard only in RUNNING (04, R47, R63). -/
def State.sweepRequest (s : State) : State :=
  if s.engc.engine ≠ .running then s
  else if s.smon.inProgress then { s with smon := { s.smon with pendingSweep := true } }
  else s.startSweep.takeNext

/-- The sweep ends: a pending sweep starts at once, or the in-progress flag is cleared (04, R47). -/
def State.endSweep (s : State) : State :=
  if s.smon.pendingSweep then
    ({ s with smon := { s.smon with pendingSweep := false } }).startSweep
  else { s with smon := { s.smon with inProgress := false } }

/-- After a sweep's piece: the next becomes ready (04, R48), or outside RUNNING the sweep is given up
(04, R63). -/
def State.readyAfter (s : State) (p : Piece) : State :=
  if !p.ofSweep then s
  else if s.engc.engine ≠ .running then { s with smon := { s.smon with inProgress := false } }
  else match p with
    | .config => s.ready (.visit 0)
    | .visit k =>
      if h : k.val + 1 < 16 then
        if k.val + 1 < s.engc.slotCount then s.ready (.visit ⟨k.val + 1, h⟩) else s.ready .closing
      else s.ready .closing
    | _ => s.endSweep

/-- The piece under way leaves SMON's hands. -/
def State.dropPiece (s : State) : State := { s with smon := { s.smon with piece := none } }

/-- The piece under way ends and the next waiting piece is taken. -/
def State.endPiece (s : State) : State :=
  match s.smon.piece with
  | none => s
  | some (p, _) => (s.dropPiece.readyAfter p).takeNext

/-- SMON asks its counter set and waits for the report (04, R49). -/
def State.smonCount (s : State) (kind : CountKind) (next : AfterCount) : State :=
  (s.setWork (.counting next)).count kind .smon

/-- SMON counts a fault and the piece ends after it (04, R62). -/
def State.smonFault (s : State) (code : FaultCode) : State := s.smonCount (.fault code) .endPiece

/-- Discovery begins by reading the posting record (04, R56). -/
def State.startDiscovery (s : State) (k : SlotId) (post : Half) : State :=
  (s.setWork (.record k post [])).raise .record (s.recordAddr k 0) none

/-- SMON has a settle to carry out (04, R58): it begins with the command REMOVAL_SETTLE. -/
def State.settleDue (s : State) (k : SlotId) (seq : Half) (o : PlanOutcome) (notify : Bool)
    (discover : Option Half) : State :=
  s.setWork (.settleDue
    { slot := k, seq := seq, outcome := o, notify := notify, settledEpoch := 0, discover := discover })

/-- Write i of a settle made by SMON (04, R58; 02, R23). -/
def State.smonSettleWrite (s : State) (j : SettleJob) (i : Nat) : State :=
  (s.setWork (.settle j i)).raise .smonSettle (s.slotWord j.slot (settleWordOffset i))
    (some (settleWord i (unlanedOutcome j.outcome) 0 j.settledEpoch j.seq))

/-- SMON begins the settle sequence, at the epoch that settled_epoch records (02, R23). -/
def State.beginSettle (s : State) (j : SettleJob) : State :=
  s.smonSettleWrite { j with settledEpoch := s.epoch } 0

def Removal.outcome : Removal → PlanOutcome
  | .late => .late
  | .halted => .halted

/-- Whether a removal settle for the slot is waiting, and its NOTIFY flag. -/
def waitingNotify (k : SlotId) : List Piece → Bool
  | [] => false
  | .removal j _ n :: ps => if j = k then n else waitingNotify k ps
  | _ :: ps => waitingNotify k ps

def Piece.isRemovalOf (k : SlotId) : Piece → Bool
  | .removal j _ _ => j == k
  | _ => false

/-- The visit carries out the slot's pending settle itself; it is not carried out a second time (04,
R53, R58). -/
def State.visitPending (s : State) (k : SlotId) (why : Removal)
    (discover : Option Half) : State :=
  let notify := waitingNotify k s.smon.waiting
  ({ s with smon := { s.smon with
      waiting := s.smon.waiting.filter (fun p => !p.isRemovalOf k) } }).settleDue k (s.mirror k).knownSeq
    why.outcome notify discover

/-- The lane still holds the slot's plan: a notice from a visit is meant for that plan (log 15). -/
def State.laneHolds (s : State) (l : LaneId) (k : SlotId) : Bool :=
  (s.lane l).state != .free && (s.lane l).slot == k

/-- A visit to a slot whose mirror names a lane, or none (04, R54). A changed post_seq is a tear in every engine state
in which the visit's read returns: in DRAINING too, also for a post made there, where R54 and R63 let the visit
finish and R28 and R33 say that no sweep runs, DESIGN CHOICE (log 37). -/
def State.visitRunning (s : State) (k : SlotId) (post : Half) (seen : Option Half) : State :=
  let m := s.mirror k
  match m.lane with
  | none => s.endPiece
  | some l =>
    if post = m.knownSeq then
      if seen = some m.knownSeq ∧ s.laneHolds l k = true then
        (s.setLane l { s.lane l with recallFlag := true }).endPiece
      else s.endPiece
    else
      let s1 := s.setMirror k { m with state := .tearing }
      (if s.laneHolds l k then s1.learnTear l else s1).endPiece

/-- A post that the visit's read has shown was made in DRAINING: it waits in memory for the next run (02, R18,
R33; 13, R172). One that memory held when DRAINING began was made before it (log 32). -/
def State.postWaits (s : State) (post : Half) : Bool :=
  s.engc.engine == .draining && s.smon.hostWordAtDrain.map postSeq != some post

/-- The recall that a visit sees: the recall_seq that it has read, but in DRAINING none that was written there, for
sweeps see no recall then (02, R28). One that memory held when DRAINING began was made before it (log 32). -/
def State.recallSeen (s : State) (recallNo : Half) : Option Half :=
  if s.engc.engine = .draining ∧ s.smon.hostWordAtDrain.map recallSeq ≠ some recallNo then none
  else some recallNo

/-- The recall of this post in this slot has been seen by a sweep and the post is not yet taken: it is in force
whatever recall_seq the host has written since (02, R28). -/
def State.recallStands (s : State) (k : SlotId) (post : Half) : Bool :=
  s.smon.recalls[k] == some { area := s.regp.area, post := post }

/-- What a visit's read does to the recall that is in force for the slot's post (02, R28; log 36). A recall seen now,
or seen before for this same post, is in force for it, whether the visit goes on to discover the post or leaves it,
because the slot is RUNNING or TEARING; but none is noted for a post made in DRAINING, when sweeps see no recall (log
32). A recall of another post is gone, for the host has withdrawn that post (R16, R20), and where known_seq is the post
no recall waits for a take. -/
def State.noteVisit (s : State) (k : SlotId) (post recallNo : Half) : State :=
  s.setRecall k
    (if post ≠ (s.mirror k).knownSeq ∧
        ((s.recallSeen recallNo = some post ∧ s.postWaits post = false) ∨ s.recallStands k post = true) then
      some { area := s.regp.area, post := post }
    else none)

/-- The decision of a visit, from the mirror entry as it stands (04, R53, R54, R55). A visit whose read is
outstanding when DRAINING begins finishes, with its discovery, for a post made before DRAINING (R53, R63; 05,
R80); a post made in DRAINING waits in memory (02, R18, R33; 13, R172), and a recall written in DRAINING is not seen
(R28), so that a post made before it is then judged without a recall and ends HALTED: how R28 and R172 go together
with R53 and R63 there is the model's reading (log 32). A torn queued plan's mirror goes IDLE at the removal, before
the tear's count is reported: R31, R33 and R53 name both and fix no order, DESIGN CHOICE (log 34). A RUNNING slot found
re-posted in DRAINING is torn, DESIGN CHOICE (log 37). -/
def State.visitDecision (s : State) (k : SlotId) (post recallNo : Half) : State :=
  let m := s.mirror k
  let seen := s.recallSeen recallNo
  let leave := post == m.knownSeq || s.postWaits post
  match m.state with
  | .idle => if leave then s.endPiece else s.startDiscovery k post
  | .queued =>
    match m.pendingOutcome with
    | some why => s.visitPending k why (if leave then none else some post)
    | none =>
      if post = m.knownSeq then
        if seen = some m.knownSeq then
          ((s.removeEntry k).walk).settleDue k m.knownSeq .recalled (s.entryNotify k) none
        else s.endPiece
      else
        ((((s.removeEntry k).walk).setMirror k { m with state := .idle, lane := none })).smonCount .tear
          (.tornVisit k post)
  | .running => s.visitRunning k post seen
  | .tearing => s.endPiece

/-- The judgement of a posting record (04, R56): the outcome of a refusal, or none. A recall is the one that is in
force for the post, seen in this visit or an earlier one (02, R28). The NOWAIT test is not asked in DRAINING (05,
R80; log 17). -/
def State.judge (s : State) (k : SlotId) (p : Posting) (post : Half) : Option PlanOutcome :=
  if p.bad then some .malformed
  else if s.recallStands k post then some .recalled
  else if flagNowait p.flags && s.engc.engine != .draining && s.linesBusy p.lines then some .linesBusy
  else none

/-- The take's first write: taken_epoch (02, R21). -/
def State.startTake (s : State) (j : TakeJob) : State :=
  (s.setWork (.takeEpoch j)).raise .takeEpoch (s.takenAddr j.slot) (some s.epoch)

/-- The take's second write: the part word, settle_seq from the settle copy (02, R21). -/
def State.takePartWrite (s : State) (j : TakeJob) : State :=
  (s.setWork (.takePart j)).raise .takePart (s.partWordAddr j.slot)
    (some (partWord j.post (s.mirror j.slot).settleCopy))

/-- The take has landed (02, R21; 04, R57): a refused plan is settled; any other joins the queue. No recall waits
for the slot's take any longer. -/
def State.taken (s : State) (j : TakeJob) (sweepFirst : Bool) : State :=
  let s := s.setRecall j.slot none
  let m := s.mirror j.slot
  match j.refusal with
  | some o =>
    (s.setMirror j.slot { m with knownSeq := j.post }).settleDue j.slot j.post o
      (flagNotify j.posting.flags) none
  | none =>
    let n := s.smon.discovery + 1
    let s1 := ({ s with smon := { s.smon with discovery := n } }).setMirror j.slot
      { m with knownSeq := j.post, state := .queued, lane := none, pendingOutcome := none }
    let e : Entry :=
      { slot := j.slot, seq := j.post, posting := j.posting, discovery := n, eligible := false }
    let p := Piece.visit j.slot
    let s2 := s1.dropPiece
    (if sweepFirst then (s2.readyAfter p).join e else (s2.join e).readyAfter p).takeNext

/-- The settlement of SMON's own settle has been counted (04, R58; 02, R23). -/
def State.smonSettled (s : State) (j : SettleJob) : State :=
  let s1 := (s.notify j.notify).setMirror j.slot
    { s.mirror j.slot with state := .idle, lane := none, pendingOutcome := none }
  match j.discover with
  | none => s1.endPiece
  | some post => s1.startDiscovery j.slot post

/-- The counter set reports to SMON. -/
def State.smonCounted (s : State) : State :=
  match s.smon.piece with
  | some (_, .counting next) =>
    match next with
    | .endPiece => s.endPiece
    | .tornVisit k post => (s.setCause causeTorn).startDiscovery k post
    | .tornRelease => ((s.setCause causeTorn).sweepRequest).endPiece
    | .settled j => s.smonSettled j
  | _ => s

/-- A reload's table is applied to INC and OUTD at one instant (04, R51). -/
def State.applyReload (s : State) (table : List Word) : State :=
  { s with inc := s.inc.reload table, outd := outdReload table s.outd }

/-- The first waiting piece, when SMON has none under way. -/
def State.nextPiece (s : State) : Option Piece :=
  match s.smon.piece with
  | none => s.smon.waiting.head?
  | some _ => none

/-- A piece begins by its own command. -/
def State.beginPiece (s : State) (p : Piece) (w : Work) : State :=
  ({ s with smon := { s.smon with waiting := s.smon.waiting.tail } }).setPiece p w

end Sys2Proof.Machine
end

