-- ==== Sys2Proof/Machine/EngineOps.lean ====
section
/-! DEFINITION. Engine Control: enabling, LOADING, draining, stalling, OFF and the resets (10, R139 to
R153), and what a write to CONTROL does (11, R155 to R157). -/

namespace Sys2Proof.Machine

/-! ## Stalling (10, R148, R149) -/

/-- Entry to STALLED. `b` is the access under way at that instant, if there is one. -/
def State.stall (s : State) (code : FaultCode) (b : Option OnBus) : State :=
  ({ s.emptyBus b with
      engc := { s.engc with engine := .stalled, faultCode := code, loading := none }
      lanes := Vector.replicate 4 Lane.empty
      admu := { queue := [], claims := Vector.replicate 4 Claim.reset, pool := Vector.replicate 4 true }
      outd := outdStall s.outd
      smon := { s.smon with
        inProgress := false, pendingSweep := false, piece := none, waiting := [], counts := [],
        secondWord := false } }).setCause causeStall |>.stopTicks

/-! ## OFF (10, R142, R145, R147, R150) -/

/-- The engine enters OFF from LOADING or DRAINING: ENABLE reads 0 and tick boundaries stop. -/
def State.enterOff (s : State) : State :=
  ({ s with
      engc := { s.engc with engine := .off, loading := none }
      regp := { s.regp with enable := false } }).stopTicks

/-- An enable that fails in LOADING (10, R142). -/
def State.enableFails (s : State) (code : FaultCode) : State :=
  (({ s with engc := { s.engc with faultCode := code } }).setCause causeFault).enterOff

/-- STALLED is left for OFF; the tick boundaries have stopped already (10, R150). -/
def State.leaveStalled (s : State) : State :=
  { s with engc := { s.engc with engine := .off }, regp := { s.regp with enable := false } }

/-! ## Draining (10, R146, R147) -/

/-- The two conditions that end DRAINING (10, R147). -/
def State.drainDone (s : State) : Bool :=
  s.engc.engine == .draining && s.admu.queue.isEmpty && allLanes.all (fun l => s.admu.pool[l])
    && s.smon.piece.isNone && s.smon.waiting.isEmpty && s.smon.counts.isEmpty

/-- SMON on entry to DRAINING: the pending flag is cleared, no sweep piece waits any longer, and the
in-progress flag is cleared unless a sweep piece is under way (04, R63). -/
def Monitor.drain (m : Monitor) : Monitor :=
  { m with
    pendingSweep := false
    waiting := m.waiting.filter (fun p => !p.ofSweep)
    inProgress := match m.piece with
      | some (p, _) => m.inProgress && p.ofSweep
      | none => false }

/-- Where a visit's host word read is outstanding, the host word that memory holds for the visited slot: at the
entry to DRAINING it tells a post or a recall made before from one made after (02, R18, R28, R33; log 32). -/
def State.visitedHostWord (s : State) : Option Word :=
  match s.smon.piece with
  | some (_, .visit k) => some (Memory.read s.mem (s.hostWordAddr k))
  | _ => none

/-- Entry to DRAINING but for the queue's removals: ENABLE, SMON, the halt flags and kept lines (10,
R146). -/
def State.beginDrain (s : State) : State :=
  { s with
    engc := { s.engc with engine := .draining }
    regp := { s.regp with enable := false }
    smon := { s.smon.drain with hostWordAtDrain := s.visitedHostWord }
    lanes := tabulate4 (fun l =>
      if (s.lanes[l]).state = .free then s.lanes[l] else { s.lanes[l] with halt := true })
    outd := outdDrain s.outd }

/-- Entry to DRAINING, and the test of its end made on entry (10, R146, R147). -/
def State.enterDraining (s : State) : State :=
  let s1 := haltEntries s.admu.queue s.beginDrain
  if s1.drainDone then s1.enterOff else s1

/-! ## Enabling and LOADING (10, R140, R141, R143, R144) -/

def Loading.start : Loading :=
  { phase := .magic, magic := 0, configSeq := 0, table := [], got := [], orphans := [],
    settledEpoch := 0, stopping := false }

def State.setLoading (s : State) (x : Loading) : State :=
  { s with engc := { s.engc with loading := some x } }

/-- An enable request in OFF (10, R140). -/
def State.enableRequest (s : State) : State :=
  if s.regp.area = 0 then
    ({ s with engc := { s.engc with faultCode := .badArea } }).setCause causeFault
  else
    ({ s with
        engc := { s.engc with engine := .loading, faultCode := .none, loading := some Loading.start }
        regp := { s.regp with enable := true }
        tbu := { s.tbu with prescaler := 0, epoch := 0 }
        inc := { s.inc with sampling := false }
        admu := Admission.reset
        smon := { s.smon with discovery := 0 }
        mport := [] }).raise .loading (s.area 0x00) none

/-- The next LOADING read (10, R141). -/
def State.loadingRead (s : State) (x : Loading) (addr : Word) : State :=
  (s.setLoading x).raise .loading addr none

/-- Entry to RUNNING: the sweep timer restarts and the first sweep is requested (10, R144; 03, R46). -/
def State.enterRunning (s : State) : State :=
  ({ s with
      engc := { s.engc with engine := .running, loading := none }
      tbu := { s.tbu with timer := 0 } }).sweepRequest

/-- The line table read at LOADING is applied to INC and OUTD at one instant (10, R144). -/
def State.applyLoading (s : State) (table : List Word) : State :=
  { s with inc := s.inc.apply table, outd := outdApply table s.outd }

/-- ENGC's write i of an orphan's settle (10, R143). -/
def State.orphanWrite (s : State) (x : Loading) (k : SlotId) (seq : Half) (i : Nat) : State :=
  (s.setLoading { x with phase := .orphanWrite i }).raise .orphanSettle
    (s.slotWord k (settleWordOffset i))
    (some (settleWord i (unlanedOutcome .orphaned) 0 x.settledEpoch seq))

/-- The next orphan's settle, or, with none left, the application of the line table and the config_ack
write (10, R143, R144). -/
def State.nextOrphan (s : State) (x : Loading) : State :=
  match x.orphans with
  | (k, seq) :: _ => s.orphanWrite { x with settledEpoch := s.epoch } k seq 0
  | [] =>
    ((s.applyLoading x.table).setLoading { x with phase := .configAck }).raise .configAck (s.area 0x08)
      (some (ackTornWord x.configSeq s.smon.counters.tornTotal))

/-- The counters loaded from the four counter words, in the order read (10, R141; 12, R164). -/
def Counters.ofWords (c : Counters) (ws : List Word) : Counters :=
  { c with
    settleTotal := ws.getD 0 0, sweepTotal := ws.getD 1 0, tornTotal := high16 (ws.getD 2 0),
    orphanTotal := low16 (ws.getD 3 0), faultTotal := high16 (ws.getD 3 0) }

/-- Offset of counter word i in the order LOADING reads them (10, R141; 12, R164). -/
def counterWordOffset (i : Nat) : Word :=
  if i = 0 then 0x0C else if i = 1 then 0x10 else if i = 2 then 0x08 else 0x18

/-- Entries for slots n to 15 take their reset values (10, R141; log 22). -/
def State.resetMirrorsFrom (s : State) (n : Nat) : State :=
  allSlots.foldl (fun s k => if n ≤ k.val then s.setMirror k Mirror.reset else s) s

/-- A part word read at LOADING (10, R141, R143; 02, R16): known_seq is take_seq; a slot whose take_seq
and settle_seq differ is an orphan; otherwise the settle copy is the take_seq read. -/
def State.notePart (s : State) (x : Loading) (k : SlotId) (w : Word) : State × Loading :=
  let t := takeSeq w
  let m := s.mirror k
  if t = settleSeq w then
    (s.setMirror k { Mirror.reset with knownSeq := t, settleCopy := t }, x)
  else
    (s.setMirror k { Mirror.reset with knownSeq := t, settleCopy := m.settleCopy },
      { x with orphans := x.orphans ++ [(k, t)] })

/-- A LOADING read has returned a word (10, R141). Nothing is done with the post_seq and recall_seq of a host word:
a post or a recall is left for the first sweep. -/
def State.loadingData (s : State) (x : Loading) (w : Word) : State :=
  match x.phase with
  | .magic => s.loadingRead { x with phase := .slots, magic := w } (s.area 0x04)
  | .slots =>
    if x.magic ≠ Config.magic ∨ slotsGood (slotsInUse w) = false then s.enableFails .badArea
    else
      ({ s with engc := { s.engc with slotCount := (slotsInUse w).toNat } }).loadingRead
        { x with phase := .table, configSeq := configSeq w } (s.lineTableAddr 0)
  | .table =>
    let got := x.got ++ [w]
    if got.length < 3 then s.loadingRead { x with got := got } (s.lineTableAddr got.length)
    else if lineTableGood got then
      s.loadingRead { x with phase := .counters, table := got, got := [] } (s.area (counterWordOffset 0))
    else s.enableFails .badConfig
  | .counters =>
    let got := x.got ++ [w]
    if got.length < 4 then s.loadingRead { x with got := got } (s.area (counterWordOffset got.length))
    else
      (s.setCounters (s.smon.counters.ofWords got)).loadingRead
        { x with phase := .hostWord 0, got := [] } (s.hostWordAddr 0)
  | .hostWord k => s.loadingRead { x with phase := .partWord k } (s.partWordAddr k)
  | .partWord k =>
    let (s1, y) := s.notePart x k w
    if h : k.val + 1 < 16 then
      if k.val + 1 < s.engc.slotCount then
        s1.loadingRead { y with phase := .hostWord ⟨k.val + 1, h⟩ } (s.hostWordAddr ⟨k.val + 1, h⟩)
      else (s1.resetMirrorsFrom s.engc.slotCount).nextOrphan y
    else s1.nextOrphan y
  | _ => s

/-- An orphan's settle write has landed (10, R143). -/
def State.orphanWritten (s : State) (x : Loading) (i : Nat) : State :=
  match x.orphans with
  | [] => s
  | (k, seq) :: _ =>
    if i < 3 then s.orphanWrite x k seq (i + 1)
    else (s.setLoading { x with phase := .orphanSettled }).count (.settlement k seq) .engc

/-- The counter set reports to ENGC: the settlement, then the orphan; then the next orphan (10, R143). -/
def State.engcCounted (s : State) (x : Loading) : State :=
  match x.phase with
  | .orphanSettled => (s.setLoading { x with phase := .orphanCounted }).count .orphan .engc
  | .orphanCounted => s.nextOrphan { x with orphans := x.orphans.tail }
  | _ => s

/-! ## Resets (10, R153; 11, R157) -/

/-- Every unit at its reset values. Memory, the queue of commands and the pins are not the part's to
reset; the access on the bus ends as the memory system decides (01, R14). -/
def State.resetUnits (s : State) (onBus : OnBus) (regp : RegPort) : State :=
  { State.reset with
    pending := s.pending
    regp := regp
    inc := { State.reset.inc with pins := s.inc.pins }
    mem := (s.dropBus onBus).mem
    instant := s.instant
    freeIndex := s.freeIndex }

/-- A soft reset keeps AREA (10, R153). -/
def State.softReset (s : State) (onBus : OnBus) : State :=
  s.resetUnits onBus { RegPort.reset with area := s.regp.area, response := .normal }

/-- A hardware reset: RESETn is low and AREA is cleared (10, R153; 11, R162). -/
def State.hardReset (s : State) (onBus : OnBus) : State :=
  s.resetUnits onBus { RegPort.reset with resetLow := true }

/-! ## CONTROL (11, R155, R156) -/

/-- TICKDIV takes a new value only in OFF and only from a code in 0–4 (03, R37). -/
def State.writeTickdiv (s : State) (w : Word) : State :=
  if s.engc.engine = .off ∧ (ctlTickdiv w).toNat ≤ 4 then
    { s with regp := { s.regp with tickdiv := ctlTickdiv w } }
  else s

/-- A write that changes SWEEP sets it and restarts the sweep timer (03, R46). The new period holds at once, in
every engine state: that the counting in LOADING after a change made in OFF is already under it, where R46 has the
change take effect at the entry to RUNNING and R45 has CONTROL.SWEEP select the period, is the model's choice
(DESIGN CHOICE, log 33). -/
def State.writeSweep (s : State) (w : Word) : State :=
  if ctlSweep w = s.regp.sweep then s
  else { s with regp := { s.regp with sweep := ctlSweep w }, tbu := { s.tbu with timer := 0 } }

/-- ENABLE by the engine state the write finds (11, R156; 10, R145). -/
def State.writeEnable (s : State) (w : Word) : State :=
  if ctlEnable w then
    if s.engc.engine = .off then s.enableRequest else s
  else
    match s.engc.engine with
    | .off => s
    | .loading =>
      match s.engc.loading with
      | none => s
      | some x => ({ s with regp := { s.regp with enable := false } }).setLoading { x with stopping := true }
    | .running => s.enterDraining
    | .draining => s
    | .stalled => s.leaveStalled

/-- The fields of a CONTROL write other than ENABLE and SOFTRESET, and the port's normal response (11, R155,
R156). -/
def State.writeFields (s : State) (w : Word) : State :=
  let s1 := (s.writeTickdiv w).writeSweep w
  { s1 with regp := { s1.regp with mask := ctlMask w, response := .normal } }

/-- A CONTROL write, whole: every field acts in the same event (11, R156). SOFTRESET disregards the
others (11, R157). While RESETn is low the access is answered with the error response (11, R154). -/
def State.controlWrite (s : State) (w : Word) (onBus : OnBus) : State :=
  if s.regp.resetLow then { s with regp := { s.regp with response := .error } }
  else if ctlSoftReset w then s.softReset onBus
  else (s.writeFields w).writeEnable w

end Sys2Proof.Machine
end

