-- ==== Sys2Proof/Machine/Qualification.lean ====
section
/-! DEFINITION. The CHECK step's evaluation (09, R130 to R137). -/

namespace Sys2Proof.Machine

/-- The source data a current result gives: OK, MATCH, MISS and OVERRANGE give their value, the others
none (09, R132). -/
def Current.data (c : Current) : Option Word :=
  match c.code with
  | .ok => some c.value
  | .matched => some c.value
  | .miss => some c.value
  | .overrange => some c.value
  | .timeout => none
  | .skipped => none
  | .noData => none
  | .recalled => none
  | .halted => none

/-- The test's truth on the masked value (09, R133). -/
def testTrue (test : BitVec 2) (mask value low high m : Word) : Bool :=
  if test = 0 then m == (value &&& mask)
  else if test = 1 then decide (low ≤ m) && decide (m ≤ high)
  else decide (m < low) || decide (high < m)

/-- Code and value of a CHECK from its mode, its source data and the four qualifier words read (09,
R133, R134). -/
def checkResult (mode : Byte) (source : Option Word) (q : List Word) : ResultCode × Word :=
  match source with
  | none => (.noData, 0)
  | some v =>
    let m := v &&& q.getD 0 0
    let hit := testTrue (checkTest mode) (q.getD 0 0) (q.getD 1 0) (q.getD 2 0) (q.getD 3 0) m
    (if hit != checkInvert mode then .matched else .miss, m)

/-- A CHECK whose code is MATCH takes its match action, any other its miss action (09, R135). -/
def checkAction (mode : Byte) (code : ResultCode) : CheckAction :=
  if code = .matched then matchAction mode else missAction mode

def CheckAction.verdict : CheckAction → Option PlanOutcome
  | .continue => none
  | .skipNext => none
  | .concludePass => some .passed
  | .concludeFail => some .failed

/-- The source's current result in this pass (09, R132). -/
def Lane.sourceData (x : Lane) : Option Word :=
  match x.results[x.request.line.toNat]? with
  | some (some c) => c.data
  | _ => none

/-- The fourth qualifier read has returned: the CHECK completes, between boundaries, and acts (09, R131,
R134, R135). The next step, or the skip, waits for the following boundary. -/
def State.evaluateCheck (s : State) (l : LaneId) (q : List Word) : State :=
  let x := s.lane l
  let mode := x.request.mode
  let r := checkResult mode x.sourceData q
  let a := checkAction mode r.1
  s.finishStep l r.1 r.2 s.epoch a.number a.verdict (a == .skipNext) false

end Sys2Proof.Machine
end

