-- ==== Sys2Proof/Machine/Instant.lean ====
section
/-! DEFINITION. Instants. A tick boundary's own work; the events that become due at an instant without a
command from outside; their completion before anything later happens (log 4); and the return of a bus
access. -/

namespace Sys2Proof.Machine

/-! ## The tick boundary (03, R40) -/

/-- The sweep timer's count after a boundary (03, R45). -/
def timerTick (sweep : BitVec 2) (timer : Nat) : Nat := if sweepPeriod sweep = 0 then 0 else timer + 1

/-- The epoch advances, inputs are sampled, and the counters of running steps are raised (03, R38, R39,
R44; 07, R103). -/
def State.openBoundary (s : State) (pins : Byte) : State :=
  let now := s.tbu.epoch + 1
  { s with
    tbu := { prescaler := 0, epoch := now, timer := timerTick s.regp.sweep s.tbu.timer }
    inc := s.inc.sampleAll now pins
    lanes := tabulate4 (fun l => (s.lanes[l]).tick) }

/-- Flags and tears take effect on a lane (06, R95 to R98): the tear governs. -/
def State.boundaryLane (s : State) (l : LaneId) : State :=
  let x := s.lane l
  if x.tear then s.tearStop l
  else if (x.recallFlag || x.halt) && (x.state == .loading || x.state == .stepping) then s.flaggedBoundary l
  else s

/-- Tick boundaries occur in this state (03, R38). -/
def State.ticking (s : State) : Bool := s.engc.engine.ticking && !s.regp.resetLow

/-- The sweep timer has reached its period, and its count has not yet returned to 0 (03, R45). Only a boundary
raises the count, and the expiry is still due where a DISABLE taken before it has ended tick boundaries: the count
then returns to 0 with no request (03, R45, R46; log 19). -/
def State.timerDue (s : State) : Bool :=
  sweepPeriod s.regp.sweep != 0 && decide (sweepPeriod s.regp.sweep ≤ s.tbu.timer)

/-- The sweep timer expires: the count returns to 0 and, in RUNNING, a sweep is requested (03, R45). -/
def State.timerExpires (s : State) : State :=
  ({ s with tbu := { s.tbu with timer := 0 } }).sweepRequest

/-- One unit's event at a boundary, where it has one. The pieces of SMON's work that it makes ready wait in the order
of the acts; a tear release or the timer's configuration piece stands so before or after all the removals of ADMU's
event, and not between two of them, where R49 would let it, DESIGN CHOICE (log 41). -/
def State.boundaryAct (s : State) : Actor → State
  | .lane l => s.boundaryLane l
  | .laneFree l => if (s.lane l).tear then s.tearFinish l else s
  | .admission => s.admissionTick
  | .timer => if s.timerDue then s.timerExpires else s

/-- Everything TICK_BOUNDARY itself does: the units named act in the order given, and then the lanes, with the
reports of those that go FREE last; a lane that has acted has nothing more to do (04, R49; 05, R69, R76;
log 20). No other command comes between its acts (log 38). -/
def State.boundary (s : State) (t : TickInput) : State :=
  (t.order ++ allLanes.map Actor.lane ++ allLanes.map Actor.laneFree).foldl State.boundaryAct
    (s.openBoundary t.pins)

/-! ## Events due at an instant -/

/-- Events that the state itself makes due, each a row of the table. -/
inductive Due where
  | acceptedEdge (line : InLine)
  | overrange (lane : LaneId)
  | windowExpiry (lane : LaneId)
  | hold (lane : LaneId)
  | untilReached (lane : LaneId)
  | pulse (lane : LaneId)
  | tallyGateEnd (lane : LaneId)
  | loadCompletion (lane : LaneId)
  | stepBegin (lane : LaneId)
  | sweepTimerExpiry
  | eligible
  | latenessLimit
  | removalSettle
  | completionReport
  | tearRelease
  | drainEnd
deriving DecidableEq, Repr

/-- The order in which they are completed when no command has asked for another (log 4): the timer, edges,
then the lanes' completions, then what begins at the boundary, ADMU, SMON and ENGC. -/
def Due.all : List Due :=
  .sweepTimerExpiry :: allInLines.map .acceptedEdge ++ allLanes.map .overrange ++ allLanes.map .windowExpiry
    ++ allLanes.map .hold ++ allLanes.map .untilReached ++ allLanes.map .pulse
    ++ allLanes.map .tallyGateEnd ++ allLanes.map .loadCompletion ++ allLanes.map .stepBegin
    ++ [.eligible, .latenessLimit, .removalSettle, .completionReport, .tearRelease, .drainEnd]

/-- The settle SMON is to begin: the one its piece has come to, or a waiting removal settle (04, R58). -/
def State.settleToBegin (s : State) : Option SettleJob :=
  match s.smon.piece with
  | some (_, .settleDue j) => some j
  | _ => none

def Due.holds (s : State) : Due → Bool
  | .acceptedEdge i => s.inc.edgeDue i
  | .overrange l => (s.lane l).overrangeDue
  | .windowExpiry l => (s.lane l).windowDue
  | .hold l => (s.lane l).holdDue
  | .untilReached l => (s.lane l).untilDue s.epoch
  | .pulse l => (s.lane l).pulseDue
  | .tallyGateEnd l => (s.lane l).tallyDue
  | .loadCompletion l => (s.lane l).loadCompletionDue
  | .stepBegin l => (s.lane l).beginDue
  | .sweepTimerExpiry => s.timerDue
  | .eligible => s.eligibleDue
  | .latenessLimit => s.firstLate.isSome
  | .removalSettle =>
    s.settleToBegin.isSome ||
      match s.nextPiece with
      | some (.removal _ _ _) => true
      | _ => false
  | .completionReport =>
    match s.nextPiece with
    | some (.completion _) => true
    | _ => false
  | .tearRelease =>
    match s.nextPiece with
    | some (.tearRelease _) => true
    | _ => false
  | .drainEnd => s.drainDone

/-- SMON begins a settle (04, R58; 02, R23). -/
def State.beginDueSettle (s : State) : State :=
  match s.settleToBegin with
  | some j => s.beginSettle j
  | none =>
    match s.nextPiece with
    | some (.removal k why notify) =>
      (s.beginPiece (.removal k why notify) (.counting .endPiece)).beginSettle
        { slot := k, seq := (s.mirror k).knownSeq, outcome := why.outcome, notify := notify,
          settledEpoch := 0, discover := none }
    | _ => s

/-- SMON handles a completion report (04, R59). -/
def State.handleCompletion (s : State) : State :=
  match s.nextPiece with
  | some (.completion k) =>
    let m := s.mirror k
    let s1 := (s.beginPiece (.completion k) (.counting .endPiece)).setMirror k
      { m with state := .idle, lane := none }
    (if m.state = .tearing then s1.sweepRequest else s1).endPiece
  | _ => s

/-- SMON handles a tear release: the mirror goes IDLE and the tear is counted (04, R60). -/
def State.handleTearRelease (s : State) : State :=
  match s.nextPiece with
  | some (.tearRelease k) =>
    let m := s.mirror k
    ((s.beginPiece (.tearRelease k) (.counting .tornRelease)).setMirror k
      { m with state := .idle, lane := none }).count .tear .smon
  | _ => s

/-- The effect of an event that is due. An eligibility test and a lateness limit are parts of ADMU's one event
for the boundary, which is taken whole (05, R69, R76). -/
def Due.act (s : State) : Due → State
  | .acceptedEdge i => s.acceptEdge i
  | .overrange l => s.overrangeStep l
  | .windowExpiry l => s.timeoutStep l
  | .hold l => s.holdStep l
  | .untilReached l => s.untilStep l
  | .pulse l => s.pulseStep l
  | .tallyGateEnd l => s.tallyStep l
  | .loadCompletion l => s.completeLoad l
  | .stepBegin l => s.beginWaiting l
  | .sweepTimerExpiry => s.timerExpires
  | .eligible => s.admissionTick
  | .latenessLimit => s.admissionTick
  | .removalSettle => s.beginDueSettle
  | .completionReport => s.handleCompletion
  | .tearRelease => s.handleTearRelease
  | .drainEnd => s.enterOff

/-- An event takes place if it is due; one that is not due does not happen (log 3). -/
def State.runDue (s : State) (e : Due) : State := if e.holds s then e.act s else s

/-- The first event due, in the order of completion. -/
def State.nextDue (s : State) : Option Due := Due.all.find? (fun e => e.holds s)

/-- Completes events due, one after another, at most so many. -/
def finishLoop : Nat → State → State
  | 0, s => s
  | n + 1, s =>
    match s.nextDue with
    | none => s
    | some e => finishLoop n (e.act s)

/-- More events than one instant can hold. -/
def instantBound : Nat := 128

/-- Every event due at this instant has taken place, and a boundary that was current is past (log 4). -/
def State.finishInstant (s : State) : State :=
  let s1 := finishLoop instantBound s
  { s1 with lanes := tabulate4 (fun l => (s1.lanes[l]).closeBoundary) }

/-- What a command from outside meets: the instant before it finished, and a new instant (log 4). That every
command from outside opens a new one is the model's choice (DESIGN CHOICE, log 9): requests raised by two such
events of one instant, a read's return and a boundary say, may join the order list in either order (06, R91; 09,
R131; 11, R161), and here they join in the order of the queue. It also completes first what a boundary has left due,
ADMU's event and the timer's expiry among it, so that no command that meets this state comes between, DESIGN CHOICE
(log 38). -/
def State.settled (s : State) : State := s.finishInstant.nextInstant

/-- A register read: the value the port answers, or none for an error response; nothing changes (11,
R154). A read at the instant of a change of STATUS or EPOCH may return the value before or after it (R158;
03, R39; 05, R79); here it is taken after every event due at its instant, DESIGN CHOICE (log 25). -/
def State.readRegister (s : State) (offset : BitVec 6) : Option Word :=
  s.finishInstant.registerValue offset

/-- The level on an output pin (08, R118, R124). OUTD holds the last level commanded for the line (R127), and a pin
takes of the levels commanded at one boundary the last alone: it is the level that OUTD holds once every event due at
the instant has taken place. No such event moves a line but a step's command, so a level that changes by another event,
such as a release, is on the pin at the instant of that event (R118). -/
def State.outputPin (s : State) (o : OutLine) : Bool := (s.finishInstant.outd[o]).level

/-! ## The return of a bus access (11, R161) -/

/-- Memory after the host's writes, and then after the access carried. -/
def memoryAfter (r : BusReturn) (req : Request) (m : List Host.Cell) : List Host.Cell :=
  Memory.carry (Memory.hostWrites m r.hostWrites) req r.reply

/-- The request has been carried: memory has what it left, the order list is without it. -/
def State.carried (s : State) (r : BusReturn) (req : Request) (rest : List Request) : State :=
  { s with
    mport := rest
    mem := memoryAfter r req s.mem
    inc := { s.inc with pins := r.pins } }

/-- The return of a bus access to the units that `accepts` names; `handle` gets the request, whether it
failed, and the word memory now holds there. With no such access on the bus the event does not happen
(log 3). A return of the instant of a tick boundary comes before the whole of the boundary or after ADMU's event and
all else that is due there, never between two acts of the boundary (05, R69, R76), DESIGN CHOICE (log 38). -/
def State.busEvent (s : State) (accepts : Access → Bool) (r : BusReturn)
    (handle : State → Request → Bool → Word → State) : State :=
  let s1 := s.settled
  match pickRequest s1.mport r.pick with
  | none => s
  | some (req, rest) =>
    if accepts req.access then
      let s2 := s1.carried r req rest
      handle s2 req (replyFailed r.reply) (Memory.read s2.mem req.addr)
    else s

/-- A request that its lane has given up has returned: discarded, and a stopped lane may go FREE (06,
R98; 11, R161). -/
def State.discarded (s : State) (req : Request) : State :=
  match req.access.lane? with
  | some l => s.tearFinish l
  | none => s

end Sys2Proof.Machine
end

