-- ==== Sys2Proof/Machine/Engine.lean ====
section
/-! DEFINITION. The commands of ENGC: LOADING_READ, CONFIG_ACK_WRITE, DRAIN_END (10). -/

namespace Sys2Proof.Machine

/-- A LOADING read has returned: judged, or discarded when LOADING has been told to stop (10, R141, R142,
R145; 11, R156). -/
def State.loadingReturned (s : State) (failed : Bool) (w : Word) : State :=
  match s.engc.loading with
  | none => s
  | some x =>
    if x.stopping then s.enterOff
    else if failed then s.enableFails .readErr
    else s.loadingData x w

/-- LOADING_READ (10, R141). -/
def execLoadingRead (r : BusReturn) (s : State) : Host.Outcome State Fault Refusal :=
  .next (s.busEvent (· == .loading) r (fun s _ failed w => s.loadingReturned failed w))

/-- ENGC's config_ack write has completed (10, R144, R145, R148): the copy takes the value and the engine
enters RUNNING. -/
def State.configAckReturned (s : State) (failed : Bool) (b : Option OnBus) : State :=
  match s.engc.loading with
  | none => s
  | some x =>
    if failed then s.stall .headerLost b
    else
      let s1 := s.setCounters { s.smon.counters with ackCopy := x.configSeq }
      if x.stopping then s1.enterOff else s1.enterRunning

/-- CONFIG_ACK_WRITE (10, R144). -/
def execConfigAckWrite (r : BusReturn) (s : State) : Host.Outcome State Fault Refusal :=
  .next (s.busEvent (· == .configAck) r (fun s _ failed _ => s.configAckReturned failed r.atStall))

/-- DRAIN_END (10, R147). -/
def execDrainEnd (s : State) : Host.Outcome State Fault Refusal := .next (s.runDue .drainEnd)

end Sys2Proof.Machine
end

