-- ==== Sys2Proof/Machine/LaneBus.lean ====
section
/-! DEFINITION. The commands of the lanes' memory accesses: LOAD_READ, PRE_WRITE_CHECK, RESULT_WRITE,
QUALIFIER_READ, CHECK (06, R84 to R93; 09, R131). -/

namespace Sys2Proof.Machine

/-- The load read of word i of the step records, three words a record (06, R84). -/
def State.raiseLoad (s : State) (l : LaneId) (i : Nat) : State :=
  s.raise (.loadStep l) (s.stepAddr (s.lane l).slot (i / 3) (BitVec.ofNat 32 (4 * (i % 3)))) none

/-- A bus error on a load read (06, R84, R86). -/
def State.loadFault (s : State) (l : LaneId) : State := s.laneFault l .fetchFault 0 .readErr false

/-- The load's host word has returned (06, R84). -/
def State.loadHostReturned (s : State) (l : LaneId) (failed : Bool) (w : Word) : State :=
  let x := s.lane l
  if failed then s.loadFault l
  else if postSeq w ≠ x.seq then s.learnTear l
  else
    (s.setLane l (if recallSeq w = x.seq then { x with recallFlag := true } else x)).raiseLoad l 0

/-- A step record word has returned; after the last the steps are judged (06, R84 to R86). -/
def State.loadStepReturned (s : State) (l : LaneId) (failed : Bool) (w : Word) : State :=
  let x := s.lane l
  if failed then s.loadFault l
  else
    let words := x.loadWords ++ [w]
    let s1 := s.setLane l { x with loadWords := words }
    if words.length < 3 * x.stepCount.toNat then s1.raiseLoad l words.length
    else
      let steps := stepsOf words
      match firstBad x.outMask 0 steps with
      | some i =>
        (s.setLane l { x with loadWords := words, steps := steps }).conclude l .malformed
          (BitVec.ofNat 8 i)
      | none => s.setLane l { x with loadWords := words, steps := steps, loaded := true, loadDue := false }

/-- LOAD_READ (06, R84). -/
def execLoadRead (r : BusReturn) (s : State) : Host.Outcome State Fault Refusal :=
  .next (s.busEvent
    (fun a => match a with
      | .loadHost _ => true
      | .loadStep _ => true
      | _ => false) r
    (fun s req failed w =>
      if req.abandoned then s.discarded req
      else match req.access with
        | .loadHost l => s.loadHostReturned l failed w
        | .loadStep l => s.loadStepReturned l failed w
        | _ => s))

/-- The write of word i of the lane's oldest result is raised (06, R91). -/
def State.raiseResult (s : State) (l : LaneId) (i : Nat) (e : StepResult) : State :=
  s.raise (.result l) (s.stepAddr (s.lane l).slot e.step (resultOffset i)) (some (e.word i))

/-- The check before result word i has returned (06, R92, R93; 06, R98 for a lane that has learned of a
tear). -/
def State.listCheckReturned (s : State) (l : LaneId) (failed : Bool) (w : Word) : State :=
  let x := s.lane l
  match x.access, x.list with
  | .check i, e :: _ =>
    let own := postSeq w = x.seq
    if x.tear then
      if failed = false ∧ own then (s.setLane l { x with access := .write i }).raiseResult l i e
      else (s.setLane l { x with access := .idle, list := [] }).tearFinish l
    else if failed then s.laneFault l .fetchFault (BitVec.ofNat 8 e.step) .readErr true
    else if own then
      (s.setLane l { x with
        access := .write i, recallFlag := x.recallFlag || recallSeq w == x.seq }).raiseResult l i e
    else (s.setLane l { x with access := .idle }).learnTear l
  | _, _ => s

/-- Write i of the lane's settle is raised (02, R23; 06, R99). -/
def State.raiseSettle (s : State) (l : LaneId) (i : Nat) : State :=
  let x := s.lane l
  let o := x.outcome.getD (.done, 0)
  s.raise (.laneSettle l) (s.slotWord x.slot (settleWordOffset i))
    (some (settleWord i (outcomeWord o.1 o.2 (BitVec.ofNat 8 l.val) (byte0 x.passesDone)) x.startedEpoch
      x.settledEpoch x.seq))

/-- The check before settle write i has returned (02, R26; 06, R92). -/
def State.settleCheckReturned (s : State) (l : LaneId) (failed : Bool) (w : Word) (b : Option OnBus) :
    State :=
  let x := s.lane l
  match x.access with
  | .settleCheck i =>
    if failed then s.stall .settleLost b
    else if postSeq w = x.seq then (s.setLane l { x with access := .settleWrite i }).raiseSettle l i
    else (s.setLane l { x with access := .idle }).learnTear l
  | _ => s

/-- PRE_WRITE_CHECK (06, R92). -/
def execPreWriteCheck (r : BusReturn) (s : State) : Host.Outcome State Fault Refusal :=
  .next (s.busEvent
    (fun a => match a with
      | .check _ => true
      | .settleCheck _ => true
      | _ => false) r
    (fun s req failed w =>
      if req.abandoned then s.discarded req
      else match req.access with
        | .check l => s.listCheckReturned l failed w
        | .settleCheck l => s.settleCheckReturned l failed w r.atStall
        | _ => s))

/-- A result word write has completed (06, R91, R93, R98). -/
def State.resultReturned (s : State) (l : LaneId) (failed : Bool) : State :=
  let x := s.lane l
  match x.access, x.list with
  | .write i, e :: rest =>
    if x.tear then
      if failed then s.tornWriteFault l
      else
        (s.setLane l { x with access := .idle, list := if x.stopped || i == 2 then rest else x.list }
          ).tearFinish l
    else if failed then s.laneFault l .writeFault (BitVec.ofNat 8 e.step) .writeErr true
    else if i < 2 then
      (s.setLane l { x with access := .check (i + 1) }).raise (.check l) (s.hostWordAddr x.slot) none
    else (s.setLane l { x with access := .idle, list := rest }).pump l
  | _, _ => s

/-- RESULT_WRITE (06, R91). -/
def execResultWrite (r : BusReturn) (s : State) : Host.Outcome State Fault Refusal :=
  .next (s.busEvent
    (fun a => match a with
      | .result _ => true
      | _ => false) r
    (fun s req failed _ => match req.access with
      | .result l => s.resultReturned l failed
      | _ => s))

/-- A qualifier word has returned (09, R131): the next read is raised, after the fourth the CHECK is
evaluated, and a bus error concludes the plan FETCH_FAULT. Until the boundary at which it stops, a lane that
has learned of a tear takes the return in the same way, but raises no further read (06, R95, R98; log 13). -/
def State.qualifierReturned (s : State) (l : LaneId) (failed : Bool) (w : Word) : State :=
  let x := s.lane l
  match x.activity with
  | .check got =>
    if failed then s.laneFault l .fetchFault (BitVec.ofNat 8 x.step) .readErr false
    else
      let all := got ++ [w]
      if all.length < 4 then
        let s1 := s.setLane l { x with activity := .check all }
        if x.tear then s1
        else s1.raise (.qualifier l (all.length == 3)) (s.qualifierAddr x.request.arg.toNat all.length) none
      else s.evaluateCheck l all
  | _ => s

/-- CHECK (09, R131 to R137): the fourth qualifier read returns. -/
def execCheck (r : BusReturn) (s : State) : Host.Outcome State Fault Refusal :=
  .next (s.busEvent
    (fun a => match a with
      | .qualifier _ last => last
      | _ => false) r
    (fun s req failed w =>
      if req.abandoned then s.discarded req
      else match req.access with
        | .qualifier l _ => s.qualifierReturned l failed w
        | _ => s))

/-- QUALIFIER_READ (09, R131): one of the first three qualifier reads returns. -/
def execQualifierRead (r : BusReturn) (s : State) : Host.Outcome State Fault Refusal :=
  .next (s.busEvent
    (fun a => match a with
      | .qualifier _ last => !last
      | _ => false) r
    (fun s req failed w =>
      if req.abandoned then s.discarded req
      else match req.access with
        | .qualifier l _ => s.qualifierReturned l failed w
        | _ => s))

end Sys2Proof.Machine
end

