-- ==== Sys2Proof/Machine/Registers.lean ====
section
/-! DEFINITION. The commands of the register port and of RESETn: ENABLE_REQUEST, DISABLE, SOFTRESET,
TICKDIV, SWEEP, MASK, AREA_WRITE, NUDGE, CAUSE_CLEAR, IGNORED_REGISTER_WRITE, HARDWARE_RESET,
RESET_RELEASE, REGISTER_ERROR_RESPONSE (11). -/

namespace Sys2Proof.Machine

/-- The slave port's answer to an access. -/
def State.respond (s : State) (a : PortResponse) : State :=
  { s with regp := { s.regp with response := a } }

/-- What a command meets that may be taken before the events still due at its instant: with `early` the
state as it stands, and otherwise the state in which they have taken place (03, R46; log 19). -/
def State.met (s : State) (early : Bool) : State := if early then s else s.settled

/-- A CONTROL write of a word with nothing said of the bus: SOFTRESET's own row says it. -/
def State.control1 (s : State) (w : Word) : State := s.controlWrite w { pick := 0, reply := .ok }

/-- ENABLE_REQUEST (10, R140; 11, R156): a CONTROL write with ENABLE 1. In OFF it is an enable request;
elsewhere ENABLE keeps its value and the other fields act. -/
def execEnableRequest (w : Word) (s : State) : Host.Outcome State Fault Refusal :=
  .next (s.settled.control1 w)

/-- The host's writes to memory that came before a command are in memory (01, R3; log 2). -/
def State.hostWrote (s : State) (hs : List HostWrite) : State := { s with mem := Memory.hostWrites s.mem hs }

/-- DISABLE (11, R156; 10, R145, R146, R150): a CONTROL write with ENABLE 0, by engine state. One that takes
the engine out of RUNNING at the instant of an expiry may be taken before it or after it (03, R46): the
operand says which (log 19). What the host wrote to memory before it is there first (log 2). -/
def execDisable (w : PlacedWrite) (s : State) : Host.Outcome State Fault Refusal :=
  .next (((s.met w.early).hostWrote w.hostWrites).control1 w.word)

/-- SOFTRESET (11, R157; 10, R153). -/
def execSoftreset (w : Word) (onBus : OnBus) (s : State) : Host.Outcome State Fault Refusal :=
  .next (s.settled.controlWrite w onBus)

/-- TICKDIV (03, R37): a CONTROL write carrying TICKDIV, with its other fields. -/
def execTickdiv (w : Word) (s : State) : Host.Outcome State Fault Refusal := .next (s.settled.control1 w)

/-- SWEEP (03, R46): a CONTROL write carrying SWEEP, with its other fields. A write that changes SWEEP
and is taken before an expiry of the same boundary restarts the count, and there is no expiry there
(log 19). -/
def execSweep (w : Word) (early : Bool) (s : State) : Host.Outcome State Fault Refusal :=
  .next ((s.met early).control1 w)

/-- MASK (11, R160): a CONTROL write carrying MASK, with its other fields; IRQ follows at once. -/
def execMask (w : Word) (s : State) : Host.Outcome State Fault Refusal := .next (s.settled.control1 w)

/-- AREA_WRITE (11, R158): stored with its low 8 bits cleared in OFF, ignored elsewhere. -/
def execAreaWrite (w : Word) (s : State) : Host.Outcome State Fault Refusal :=
  let s1 := s.settled
  .next (
    if s1.regp.resetLow then s1.respond .error
    else if s1.engc.engine = .off then
      ({ s1 with regp := { s1.regp with area := w &&& 0xFFFFFF00#32 } }).respond .normal
    else s1.respond .normal)

/-- NUDGE (04, R47; 11, R158): any value; a sweep request in RUNNING, otherwise no trace. -/
def execNudge (_w : Word) (s : State) : Host.Outcome State Fault Refusal :=
  let s1 := s.settled
  .next (if s1.regp.resetLow then s1.respond .error else (s1.respond .normal).sweepRequest)

/-- CAUSE_CLEAR (11, R159): each bit written as 1 is cleared. An event that sets the bit at the instant of
the write leaves it set, in either order (R159): such a pair is written with CAUSE_CLEAR first in the queue,
and a CAUSE_CLEAR that follows the event in the queue is one at a later instant (log 31). -/
def execCauseClear (w : Word) (s : State) : Host.Outcome State Fault Refusal :=
  .next (
    if s.regp.resetLow then s.respond .error
    else ({ s with regp := { s.regp with
      cause := s.regp.cause &&& ~~~ (w.extractLsb' 0 4) } }).respond .normal)

/-- IGNORED_REGISTER_WRITE (11, R154, R158): a word write to STATUS, EPOCH or a reserved offset is
ignored. A term that names another offset is not this event (log 3). -/
def execIgnoredRegisterWrite (offset : BitVec 6) (_w : Word) (s : State) :
    Host.Outcome State Fault Refusal :=
  .next (
    if s.regp.resetLow then s.respond .error
    else if 0x10 ≤ offset.toNat ∧ offset.toNat % 4 = 0 then s.respond .normal
    else s)

/-- HARDWARE_RESET (10, R153; 11, R162): every unit at its reset values from any state, AREA cleared,
RESETn low. -/
def execHardwareReset (onBus : OnBus) (s : State) : Host.Outcome State Fault Refusal :=
  .next (s.settled.hardReset onBus)

/-- RESET_RELEASE (11, R162): the rising edge of RESETn ends the reset and the port accepts accesses. -/
def execResetRelease (s : State) : Host.Outcome State Fault Refusal :=
  .next { s with regp := { s.regp with resetLow := false } }

/-- REGISTER_ERROR_RESPONSE (11, R154): a byte, halfword or unaligned access, or any access while RESETn
is low, is answered with the error response and changes nothing. An access that is none of these is
not this event (log 3). -/
def execRegisterErrorResponse (a : PortAccess) (s : State) : Host.Outcome State Fault Refusal :=
  .next (
    if s.regp.resetLow || a.size != .word || a.offset.toNat % 4 != 0 then s.respond .error else s)

end Sys2Proof.Machine
end

