-- ==== Sys2Proof/Machine/SlotMonitor.lean ====
section
/-! DEFINITION. The commands of SMON and of the settle sequence: CONFIGURATION_CHECK, LINE_TABLE_RELOAD,
SLOT_VISIT, DISCOVERY, TAKE, REMOVAL_SETTLE, SETTLE_WRITE, COUNTER_WRITE, COMPLETION_REPORT,
TEAR_RELEASE (04; 02, R21 to R27). -/

namespace Sys2Proof.Machine

/-- The configuration check's read has returned (04, R50). -/
def State.configReturned (s : State) (failed : Bool) (w : Word) : State :=
  if failed then s.smonFault .readErr
  else if configSeq w = s.smon.counters.ackCopy then s.endPiece
  else (s.setWork (.reload (configSeq w) [])).raise .lineTable (s.lineTableAddr 0) none

/-- CONFIGURATION_CHECK (04, R50). -/
def execConfigurationCheck (r : BusReturn) (s : State) : Host.Outcome State Fault Refusal :=
  .next (s.busEvent (· == .config) r (fun s _ failed w => s.configReturned failed w))

/-- A line table read of a reload has returned; the third is judged and applied (04, R51). -/
def State.reloadReturned (s : State) (failed : Bool) (w : Word) : State :=
  match s.smon.piece with
  | some (_, .reload seq got) =>
    if failed then s.smonFault .badConfig
    else
      let all := got ++ [w]
      if all.length < 3 then
        (s.setWork (.reload seq all)).raise .lineTable (s.lineTableAddr all.length) none
      else if lineTableGood all then (s.applyReload all).smonCount (.configAck seq) .endPiece
      else s.smonFault .badConfig
  | _ => s

/-- LINE_TABLE_RELOAD (04, R51). -/
def execLineTableReload (r : BusReturn) (s : State) : Host.Outcome State Fault Refusal :=
  .next (s.busEvent (· == .lineTable) r (fun s _ failed w => s.reloadReturned failed w))

/-- A visit's host word has returned (04, R53, R54): the recall that it shows is noted (02, R28), and SMON decides. -/
def State.visitReturned (s : State) (failed : Bool) (w : Word) : State :=
  match s.smon.piece with
  | some (_, .visit k) =>
    if failed then s.smonFault .readErr
    else (s.noteVisit k (postSeq w) (recallSeq w)).visitDecision k (postSeq w) (recallSeq w)
  | _ => s

/-- SLOT_VISIT (04, R53, R54, R55). -/
def execSlotVisit (r : BusReturn) (s : State) : Host.Outcome State Fault Refusal :=
  .next (s.busEvent (· == .hostWord) r (fun s _ failed w => s.visitReturned failed w))

/-- A posting record word has returned; the fifth is judged and the take begins (04, R56, R57). After a read error
the mirror is as it was, and a recall seen for the post stays in force for the next discovery (02, R28). -/
def State.recordReturned (s : State) (failed : Bool) (w : Word) : State :=
  match s.smon.piece with
  | some (_, .record k post got) =>
    if failed then s.smonFault .readErr
    else
      let all := got ++ [w]
      if all.length < 5 then
        (s.setWork (.record k post all)).raise .record (s.recordAddr k all.length) none
      else
        let p := Posting.ofWords all
        s.startTake { slot := k, post := post, posting := p, refusal := s.judge k p post }
  | _ => s

/-- DISCOVERY (04, R56). -/
def execDiscovery (r : BusReturn) (s : State) : Host.Outcome State Fault Refusal :=
  .next (s.busEvent (· == .record) r (fun s _ failed w => s.recordReturned failed w))

/-- A write of the take has completed (02, R21, R22). A failed one leaves the post untaken, the mirror as it was, and
a recall seen for the post in force (02, R28). -/
def State.takeReturned (s : State) (failed sweepFirst : Bool) : State :=
  match s.smon.piece with
  | some (_, .takeEpoch j) => if failed then s.smonFault .writeErr else s.takePartWrite j
  | some (_, .takePart j) => if failed then s.smonFault .writeErr else s.taken j sweepFirst
  | _ => s

/-- TAKE (02, R21; 04, R57). -/
def execTake (r : BusReturn) (sweepFirst : Bool) (s : State) : Host.Outcome State Fault Refusal :=
  .next (s.busEvent (fun a => a == .takeEpoch || a == .takePart) r
    (fun s _ failed _ => s.takeReturned failed sweepFirst))

/-- REMOVAL_SETTLE (04, R58). -/
def execRemovalSettle (s : State) : Host.Outcome State Fault Refusal := .next (s.runDue .removalSettle)

/-- A settle write of SMON has completed (02, R23, R25). -/
def State.smonSettleReturned (s : State) (failed : Bool) (b : Option OnBus) : State :=
  match s.smon.piece with
  | some (_, .settle j i) =>
    if failed then s.stall .settleLost b
    else if i < 3 then s.smonSettleWrite j (i + 1)
    else s.smonCount (.settlement j.slot j.seq) (.settled j)
  | _ => s

/-- A settle write of ENGC, for an orphan, has completed (10, R143, R145). -/
def State.orphanSettleReturned (s : State) (failed : Bool) (b : Option OnBus) : State :=
  match s.engc.loading with
  | none => s
  | some x =>
    if failed then s.stall .settleLost b
    else if x.stopping then s.enterOff
    else match x.phase with
      | .orphanWrite i => s.orphanWritten x i
      | _ => s

/-- A settle write of a lane has completed (02, R23, R25; 06, R98, R99, R100): one that fails stalls the
engine, whether or not the lane has learned of a tear meanwhile; one that lands for a torn plan is the last
of its settle (log 14). -/
def State.laneSettleReturned (s : State) (l : LaneId) (failed : Bool) (b : Option OnBus) : State :=
  let x := s.lane l
  match x.access with
  | .settleWrite i =>
    if failed then s.stall .settleLost b
    else if x.tear then (s.setLane l { x with access := .idle }).tearFinish l
    else if i < 3 then
      (s.setLane l { x with access := .settleCheck (i + 1) }).raise (.settleCheck l)
        (s.hostWordAddr x.slot) none
    else (s.setLane l { x with access := .settleCount }).count (.settlement x.slot x.seq) (.lane l)
  | _ => s

/-- SETTLE_WRITE (02, R23): whichever unit settles. -/
def execSettleWrite (r : BusReturn) (s : State) : Host.Outcome State Fault Refusal :=
  .next (s.busEvent
    (fun a => match a with
      | .smonSettle => true
      | .orphanSettle => true
      | .laneSettle _ => true
      | _ => false) r
    (fun s req failed _ => match req.access with
      | .smonSettle => s.smonSettleReturned failed r.atStall
      | .orphanSettle => s.orphanSettleReturned failed r.atStall
      | .laneSettle l => s.laneSettleReturned l failed r.atStall
      | _ => s))

/-- The requester is told that its request is done (04, R61). -/
def State.report (s : State) (req : CountReq) : State :=
  match req.requester with
  | .smon => s.smonCounted
  | .lane l => s.laneCounted l req.kind
  | .engc =>
    match s.engc.loading with
    | none => s
    | some x => s.engcCounted x

/-- LOADING has been told to stop (10, R145). -/
def State.stoppingLoad (s : State) : Bool :=
  match s.engc.loading with
  | some x => x.stopping
  | none => false

/-- A write of the counter set has completed (04, R61, R62; 10, R145). -/
def State.counterReturned (s : State) (failed : Bool) (b : Option OnBus) : State :=
  if failed then s.stall .headerLost b
  else match s.smon.counts with
    | [] => s
    | req :: _ =>
      let second := match req.kind with
        | .sweepClose _ => !s.smon.secondWord
        | _ => false
      if second then s.serveSecond
      else if s.stoppingLoad then
        let s1 := s.countEffect req.kind
        ({ s1 with smon := { s1.smon with counts := [], secondWord := false } }).enterOff
      else ((s.countEffect req.kind).nextCount).report req

/-- COUNTER_WRITE (04, R61). -/
def execCounterWrite (r : BusReturn) (s : State) : Host.Outcome State Fault Refusal :=
  .next (s.busEvent (· == .counter) r (fun s _ failed _ => s.counterReturned failed r.atStall))

/-- COMPLETION_REPORT (04, R59). -/
def execCompletionReport (s : State) : Host.Outcome State Fault Refusal :=
  .next (s.runDue .completionReport)

/-- TEAR_RELEASE (04, R60). -/
def execTearRelease (s : State) : Host.Outcome State Fault Refusal := .next (s.runDue .tearRelease)

end Sys2Proof.Machine
end

