-- ==== Sys2Proof/Machine/Ticks.lean ====
section
/-! DEFINITION. The commands of the timebase and of tick boundaries: TICK_BOUNDARY, ACCEPTED_EDGE,
WINDOW_EXPIRY, HOLD, UNTIL, PULSE, TALLY_GATE_END, OVERRANGE, SWEEP_TIMER_EXPIRY, ELIGIBLE,
LATENESS_LIMIT, LOAD_COMPLETION, STEP_BEGIN. Each event takes place if it is due and is otherwise no
event (log 3). -/

namespace Sys2Proof.Machine

/-- TICK_BOUNDARY (03, R40): the epoch advances, inputs are sampled, counters are raised, and recall, halt
and tear flags take effect. In OFF and STALLED no tick boundary occurs (03, R38). -/
def execTickBoundary (t : TickInput) (s : State) : Host.Outcome State Fault Refusal :=
  let s1 := s.settled
  .next (if s1.ticking then s1.boundary t else s)

/-- ACCEPTED_EDGE (07, R104 to R106). -/
def execAcceptedEdge (line : InLine) (s : State) : Host.Outcome State Fault Refusal :=
  .next (s.runDue (.acceptedEdge line))

/-- WINDOW_EXPIRY (06, R94): edges of the same boundary are taken first. -/
def execWindowExpiry (lane : LaneId) (s : State) : Host.Outcome State Fault Refusal :=
  .next (s.acceptEdges.runDue (.windowExpiry lane))

/-- HOLD (08, R125). -/
def execHold (lane : LaneId) (s : State) : Host.Outcome State Fault Refusal :=
  .next (s.runDue (.hold lane))

/-- UNTIL (08, R126). -/
def execUntil (lane : LaneId) (s : State) : Host.Outcome State Fault Refusal :=
  .next (s.runDue (.untilReached lane))

/-- PULSE (08, R128). -/
def execPulse (lane : LaneId) (s : State) : Host.Outcome State Fault Refusal :=
  .next (s.runDue (.pulse lane))

/-- TALLY_GATE_END (07, R115): edges of the gate's last boundary are counted first. -/
def execTallyGateEnd (lane : LaneId) (s : State) : Host.Outcome State Fault Refusal :=
  .next (s.acceptEdges.runDue (.tallyGateEnd lane))

/-- OVERRANGE (07, R111): an edge of the same boundary ends the span first. -/
def execOverrange (lane : LaneId) (s : State) : Host.Outcome State Fault Refusal :=
  .next (s.acceptEdges.runDue (.overrange lane))

/-- SWEEP_TIMER_EXPIRY (03, R45). -/
def execSweepTimerExpiry (s : State) : Host.Outcome State Fault Refusal :=
  .next (s.runDue .sweepTimerExpiry)

/-- ELIGIBLE (05, R66, R76): with an eligibility test due, ADMU's event for the boundary. -/
def execEligible (s : State) : Host.Outcome State Fault Refusal := .next (s.runDue .eligible)

/-- LATENESS_LIMIT (05, R75, R76): with a limit reached, ADMU's event for the boundary, in which every
eligibility test due is applied first. -/
def execLatenessLimit (s : State) : Host.Outcome State Fault Refusal := .next (s.runDue .latenessLimit)

/-- LOAD_COMPLETION (06, R86). -/
def execLoadCompletion (lane : LaneId) (s : State) : Host.Outcome State Fault Refusal :=
  .next (s.runDue (.loadCompletion lane))

/-- STEP_BEGIN (06, R87). -/
def execStepBegin (lane : LaneId) (s : State) : Host.Outcome State Fault Refusal :=
  .next (s.runDue (.stepBegin lane))

end Sys2Proof.Machine
end

