-- ==== Sys2Proof/Machine/Dispatch.lean ====
section
/-! DEFINITION. One arm per command. -/

namespace Sys2Proof.Machine

def exec (i : Instr) (s : State) : Host.Outcome State Fault Refusal :=
  match i with
  | .enableRequest w => Sys2Proof.Machine.execEnableRequest w s
  | .disable w => Sys2Proof.Machine.execDisable w s
  | .softreset w b => Sys2Proof.Machine.execSoftreset w b s
  | .tickdiv w => Sys2Proof.Machine.execTickdiv w s
  | .sweep w e => Sys2Proof.Machine.execSweep w e s
  | .mask w => Sys2Proof.Machine.execMask w s
  | .areaWrite w => Sys2Proof.Machine.execAreaWrite w s
  | .nudge w => Sys2Proof.Machine.execNudge w s
  | .causeClear w => Sys2Proof.Machine.execCauseClear w s
  | .ignoredRegisterWrite o w => Sys2Proof.Machine.execIgnoredRegisterWrite o w s
  | .hardwareReset b => Sys2Proof.Machine.execHardwareReset b s
  | .resetRelease => Sys2Proof.Machine.execResetRelease s
  | .tickBoundary t => Sys2Proof.Machine.execTickBoundary t s
  | .acceptedEdge n => Sys2Proof.Machine.execAcceptedEdge n s
  | .windowExpiry l => Sys2Proof.Machine.execWindowExpiry l s
  | .hold l => Sys2Proof.Machine.execHold l s
  | .untilReached l => Sys2Proof.Machine.execUntil l s
  | .pulse l => Sys2Proof.Machine.execPulse l s
  | .tallyGateEnd l => Sys2Proof.Machine.execTallyGateEnd l s
  | .overrange l => Sys2Proof.Machine.execOverrange l s
  | .sweepTimerExpiry => Sys2Proof.Machine.execSweepTimerExpiry s
  | .eligible => Sys2Proof.Machine.execEligible s
  | .latenessLimit => Sys2Proof.Machine.execLatenessLimit s
  | .configurationCheck r => Sys2Proof.Machine.execConfigurationCheck r s
  | .lineTableReload r => Sys2Proof.Machine.execLineTableReload r s
  | .slotVisit r => Sys2Proof.Machine.execSlotVisit r s
  | .discovery r => Sys2Proof.Machine.execDiscovery r s
  | .take r f => Sys2Proof.Machine.execTake r f s
  | .removalSettle => Sys2Proof.Machine.execRemovalSettle s
  | .settleWrite r => Sys2Proof.Machine.execSettleWrite r s
  | .counterWrite r => Sys2Proof.Machine.execCounterWrite r s
  | .completionReport => Sys2Proof.Machine.execCompletionReport s
  | .tearRelease => Sys2Proof.Machine.execTearRelease s
  | .loadingRead r => Sys2Proof.Machine.execLoadingRead r s
  | .configAckWrite r => Sys2Proof.Machine.execConfigAckWrite r s
  | .drainEnd => Sys2Proof.Machine.execDrainEnd s
  | .loadRead r => Sys2Proof.Machine.execLoadRead r s
  | .loadCompletion l => Sys2Proof.Machine.execLoadCompletion l s
  | .stepBegin l => Sys2Proof.Machine.execStepBegin l s
  | .preWriteCheck r => Sys2Proof.Machine.execPreWriteCheck r s
  | .resultWrite r => Sys2Proof.Machine.execResultWrite r s
  | .check r => Sys2Proof.Machine.execCheck r s
  | .qualifierRead r => Sys2Proof.Machine.execQualifierRead r s
  | .registerErrorResponse a => Sys2Proof.Machine.execRegisterErrorResponse a s

end Sys2Proof.Machine
end

