-- ==== Sys2Proof/WellFormed.lean ====
section
/-! DEFINITION. Which commands are well formed: the term is the event its row names. `exec` gives
every term a meaning all the same. -/

namespace Sys2Proof

/-- Bit 0 of a CONTROL word is ENABLE and bit 1 SOFTRESET (12, R169). -/
def enableBit (w : Word) : Bool := w.getLsbD 0

def softResetBit (w : Word) : Bool := w.getLsbD 1

/-- Offsets whose writes are ignored: STATUS, EPOCH and 0x18 to 0x3F, word aligned (11, R154). -/
def ignoredOffset (o : BitVec 6) : Bool := 0x10 ≤ o.toNat && o.toNat % 4 == 0

/-- An access the port answers with its error response whatever the state: a byte or halfword access,
or an address that is no multiple of four (11, R154). -/
def PortAccess.malformed (a : PortAccess) : Bool :=
  a.size != .word || a.offset.toNat % 4 != 0

/-- The host writes whole aligned words (01, R3; a host's byte write is the word with its other bytes
kept, 12, R163). -/
def HostWrite.aligned (h : HostWrite) : Bool := h.addr.toNat % 4 == 0

def BusReturn.wf (r : BusReturn) : Bool := r.hostWrites.all HostWrite.aligned

/-- The term is the event that its row names. An access at RESETn low is a REGISTER_ERROR_RESPONSE
whatever its form, so that row has no check of its own here. -/
def Instr.wf : Instr → Bool
  | .enableRequest w => enableBit w && !softResetBit w
  | .disable w => !enableBit w.word && !softResetBit w.word && w.hostWrites.all HostWrite.aligned
  | .softreset w _ => softResetBit w
  | .tickdiv w => !softResetBit w
  | .sweep w _ => !softResetBit w
  | .mask w => !softResetBit w
  | .areaWrite _ => true
  | .nudge _ => true
  | .causeClear _ => true
  | .ignoredRegisterWrite o _ => ignoredOffset o
  | .hardwareReset _ => true
  | .resetRelease => true
  | .tickBoundary _ => true
  | .acceptedEdge _ => true
  | .windowExpiry _ => true
  | .hold _ => true
  | .untilReached _ => true
  | .pulse _ => true
  | .tallyGateEnd _ => true
  | .overrange _ => true
  | .sweepTimerExpiry => true
  | .eligible => true
  | .latenessLimit => true
  | .configurationCheck r => r.wf
  | .lineTableReload r => r.wf
  | .slotVisit r => r.wf
  | .discovery r => r.wf
  | .take r _ => r.wf
  | .removalSettle => true
  | .settleWrite r => r.wf
  | .counterWrite r => r.wf
  | .completionReport => true
  | .tearRelease => true
  | .loadingRead r => r.wf
  | .configAckWrite r => r.wf
  | .drainEnd => true
  | .loadRead r => r.wf
  | .loadCompletion _ => true
  | .stepBegin _ => true
  | .preWriteCheck r => r.wf
  | .resultWrite r => r.wf
  | .check r => r.wf
  | .qualifierRead r => r.wf
  | .registerErrorResponse _ => true

end Sys2Proof
end

