-- ==== Sys2Proof/Safety.lean ====
section
/-! DEFINITION. The properties that the statements speak of: invariants of the machine, which commands
carry an access, the state that a returning access meets, and what the completion of a step leaves. -/

namespace Sys2Proof.Machine

/-! ## Invariants -/

/-- Memory is in its one canonical form. -/
def State.MemoryCanonical (s : State) : Prop := Memory.wf s.mem = true

/-- The low 8 bits of AREA are 0 (01, R1). -/
def State.AreaAligned (s : State) : Prop := s.regp.area &&& 0xFF#32 = 0

/-- The divisor code in force is one of 0 to 4 (03, R37). -/
def State.DivisorLegal (s : State) : Prop := s.regp.tickdiv.toNat ≤ 4

/-- The slot count is at most sixteen (01, R2, R4). -/
def State.SlotCountLegal (s : State) : Prop := s.engc.slotCount ≤ 16

/-- A lane's write-behind list holds at most two results, and at most one while a step runs; only a
STEPPING lane runs a step, and a LOADING lane holds no result (06, R90). -/
structure Lane.ListBounded (x : Lane) : Prop where
  two : x.list.length ≤ 2
  running : x.activity.isRunning = true → x.list.length ≤ 1 ∧ x.state = .stepping
  loading : x.state = .loading → x.list = []

def State.ListsBounded (s : State) : Prop := ∀ l : LaneId, (s.lane l).ListBounded

/-- A slot has one entry in the admission queue at most (05, R64). -/
def State.OneEntryPerSlot (s : State) : Prop := (s.admu.queue.map Entry.slot).Nodup

/-- OUTD's claimers agree with the owners in ADMU's claim table, and an owner is a lane that is out of the
pool and has not stopped for a tear; no line has an owner in OFF, LOADING and STALLED; and a slot has one entry
in the queue at most (05, R64, R67, R68, R78, R81; 08, R118). -/
structure State.ClaimsAgree (s : State) : Prop where
  driver : ∀ o : OutLine, (s.outd[o]).claimer = (s.admu.claims[o]).owner
  busy : ∀ (o : OutLine) (l : LaneId), (s.admu.claims[o]).owner = some l → s.admu.pool[l] = false
  stopped : ∀ (o : OutLine) (l : LaneId), (s.admu.claims[o]).owner = some l → (s.lane l).stopped = false
  idle : s.engc.engine ≠ .running → s.engc.engine ≠ .draining →
    ∀ o : OutLine, (s.admu.claims[o]).owner = none
  loading : s.engc.loading ≠ none → s.engc.engine = .loading
  single : s.OneEntryPerSlot

/-! ## Commands that carry an access -/

/-- The return that a command brings. -/
def busReturnOf : Instr → Option BusReturn
  | .configurationCheck r => some r
  | .lineTableReload r => some r
  | .slotVisit r => some r
  | .discovery r => some r
  | .take r _ => some r
  | .settleWrite r => some r
  | .counterWrite r => some r
  | .loadingRead r => some r
  | .configAckWrite r => some r
  | .loadRead r => some r
  | .preWriteCheck r => some r
  | .resultWrite r => some r
  | .check r => some r
  | .qualifierRead r => some r
  | _ => none

/-- What is on the bus at a command that may reset the part. -/
def onBusOf : Instr → Option OnBus
  | .softreset _ b => some b
  | .hardwareReset b => some b
  | .enableRequest _ => some { pick := 0, reply := .ok }
  | .disable _ => some { pick := 0, reply := .ok }
  | .tickdiv _ => some { pick := 0, reply := .ok }
  | .sweep _ _ => some { pick := 0, reply := .ok }
  | .mask _ => some { pick := 0, reply := .ok }
  | _ => none

/-- The return `r` brings back the request `req`, and `rest` is the order list without it. -/
def Returns (s : State) (r : BusReturn) (req : Request) (rest : List Request) : Prop :=
  pickRequest s.settled.mport r.pick = some (req, rest)

/-- The state that the returning access meets: the instant before it is finished, the host's writes and the
access itself are in memory, and the order list is without it. -/
def State.afterReturn (s : State) (r : BusReturn) (req : Request) (rest : List Request) : State :=
  s.settled.carried r req rest

/-- The word that memory holds at the access's address once it has been carried: what a read returns. -/
def State.wordReturned (s : State) (r : BusReturn) (req : Request) (rest : List Request) : Word :=
  Memory.read (s.afterReturn r req rest).mem req.addr

/-- The state that a command which may reset the part meets: a write placed early meets the state as it stands
(log 19), any other the state in which the instant before it is finished, and the host's writes that a DISABLE
brings are in memory (log 2). -/
def State.metBy (s : State) : Instr → State
  | .disable w => (s.met w.early).hostWrote w.hostWrites
  | .sweep _ e => s.met e
  | _ => s.settled

/-- A request as it joins the order list in a state. -/
def State.requestOf (s : State) (a : Access) (addr : Word) (data : Option Word) : Request :=
  { access := a, addr := addr, data := data, abandoned := false, instant := s.instant }

/-- The order list in which lane l, having learned of a tear, has given up its load reads and its settle check: they
are still carried, and their results discarded (06, R84, R95, R98; 11, R161). -/
def givenUpBy (l : LaneId) (q : List Request) : List Request :=
  q.map (fun r =>
    if r.access = .loadHost l ∨ r.access = .loadStep l ∨ r.access = .settleCheck l then
      { r with abandoned := true }
    else r)

/-! ## What commands leave -/

/-- A lane that is FREE with its context empty, its flags clear, its list empty and its counters at 0 (06,
R83, R101; 03, R44). -/
def Lane.Clear (x : Lane) : Prop :=
  x = { state := .free, slot := 0, seq := 0, stepCount := 0, passes := 0, window := 0, flags := 0,
        outMask := 0, claimed := 0, loadWords := [], loaded := false, loadDue := false, steps := [],
        results := Vector.replicate 12 none, step := 0, passesDone := 0, startedEpoch := 0, startTick := 0,
        fresh := false, lastDone := 0, recallFlag := false, halt := false, tear := false, stopped := false,
        outcome := none, list := [], access := .idle, settledEpoch := 0, activity := .none,
        windowCounter := 0, counter := 0, spanCounter := 0, faultCounts := 0 }

/-- Every unit but the register port holds the values that its chapter gives after a reset; the levels on
the input pins are not the part's (10, R153). `noted` and `runStart` are the model's choice (log 11). -/
structure State.UnitsReset (s : State) : Prop where
  timebase : s.tbu = { prescaler := 0, epoch := 0, timer := 0 }
  engine : s.engc = { engine := .off, faultCode := .none, slotCount := 0, loading := none }
  sweep : s.smon.inProgress = false ∧ s.smon.pendingSweep = false ∧ s.smon.noted = 0
  work : s.smon.piece = none ∧ s.smon.waiting = [] ∧ s.smon.counts = [] ∧
    s.smon.secondWord = false ∧ s.smon.hostWordAtDrain = none
  mirror : ∀ k : SlotId, s.mirror k =
    { knownSeq := 0, state := .idle, lane := none, settleCopy := 0, pendingOutcome := none }
  recalls : ∀ k : SlotId, s.smon.recalls[k] = none
  counters : s.smon.discovery = 0 ∧ s.smon.counters =
    { settleTotal := 0, sweepTotal := 0, tornTotal := 0, orphanTotal := 0, faultTotal := 0, ackCopy := 0 }
  admission : s.admu.queue = [] ∧
    (∀ o : OutLine, s.admu.claims[o] = { owner := none, reservation := none }) ∧
    ∀ l : LaneId, s.admu.pool[l] = true
  lanes : ∀ l : LaneId, (s.lane l).Clear
  inputs : s.inc.sampling = false ∧
    ∀ i : InLine, s.inc.lines[i] = { filterCode := 0, accepted := false, run := 0, runStart := 0 }
  outputs : ∀ o : OutLine, s.outd[o] = { level := false, idle := false, keep := false, claimer := none }
  orderList : s.mport = []

/-- Nothing but lane l, the order list and the output levels differs. -/
structure OnlyLane (s t : State) (l : LaneId) : Prop where
  pending : t.pending = s.pending
  regp : t.regp = s.regp
  tbu : t.tbu = s.tbu
  engc : t.engc = s.engc
  smon : t.smon = s.smon
  admu : t.admu = s.admu
  inc : t.inc = s.inc
  mem : t.mem = s.mem
  instant : t.instant = s.instant
  freeIndex : t.freeIndex = s.freeIndex
  others : ∀ k : LaneId, k ≠ l → t.lane k = s.lane k

/-- Nothing but lane l, the order list and the counter set differs. -/
structure OnlyLaneAndCounts (s t : State) (l : LaneId) : Prop where
  pending : t.pending = s.pending
  regp : t.regp = s.regp
  tbu : t.tbu = s.tbu
  engc : t.engc = s.engc
  mirror : t.smon.mirror = s.smon.mirror
  work : t.smon.piece = s.smon.piece ∧ t.smon.waiting = s.smon.waiting
  sweep : t.smon.inProgress = s.smon.inProgress ∧ t.smon.pendingSweep = s.smon.pendingSweep
  admu : t.admu = s.admu
  inc : t.inc = s.inc
  outd : t.outd = s.outd
  mem : t.mem = s.mem
  others : ∀ k : LaneId, k ≠ l → t.lane k = s.lane k

/-- Nothing but SMON and the order list differs. -/
structure OnlyMonitor (s t : State) : Prop where
  pending : t.pending = s.pending
  regp : t.regp = s.regp
  tbu : t.tbu = s.tbu
  engc : t.engc = s.engc
  admu : t.admu = s.admu
  lanes : t.lanes = s.lanes
  inc : t.inc = s.inc
  outd : t.outd = s.outd
  mem : t.mem = s.mem

/-- Step k of lane x has completed with this result, the lane having become y: the result joins the list
with the pass number and is the step's current result, every other current result being as it was, step k is
the one completed most recently, no step runs, and a pass whose last step it was is counted (06, R83, R88 to
R90). -/
structure Completed (x y : Lane) (k : Nat) (code : ResultCode) (value stamp : Word) (aux : Byte) : Prop where
  list : y.list = x.list ++
    [{ step := k, code := code, value := value, stamp := stamp, aux := aux, pass := x.passNumber }]
  lastDone : y.lastDone = k
  ended : y.activity.isRunning = false
  passes : y.passesDone = if k + 1 = x.stepCount.toNat then x.passesDone + 1 else x.passesDone
  current : ∀ (j : Nat) (h : j < 12),
    y.results[j] = if j = k then some { code := code, value := value } else x.results[j]

/-- Where the plan of lane x stands once step k has completed with no verdict, the lane having become y (06,
R87 to R89; 09, R136). Before the last step of the pass it waits for the next step, which may begin at the
same boundary with `same` and otherwise at the following one, and is to be passed over with `skip`. After the
last step of a pass that is not the plan's last, step 0 waits for the following boundary. After the last step
of the last pass the plan concludes DONE. -/
structure PassGoesOn (x y : Lane) (k : Nat) (skip same : Bool) : Prop where
  next : k + 1 ≠ x.stepCount.toNat →
    y.activity = .wait (k + 1) skip same ∧ y.state = x.state ∧ y.outcome = x.outcome
  again : k + 1 = x.stepCount.toNat → x.passes = 0 ∨ x.passesDone + 1 ≠ BitVec.setWidth 32 x.passes →
    y.activity = .wait 0 false false ∧ y.state = x.state ∧ y.outcome = x.outcome
  done : k + 1 = x.stepCount.toNat → x.passes ≠ 0 → x.passesDone + 1 = BitVec.setWidth 32 x.passes →
    y.state = .closing ∧ y.activity = .none ∧ y.outcome = some (.done, BitVec.ofNat 8 k)

/-- Step k of lane x has ended with this result, the lane having become y, and the plan goes on, the next step
of the pass at the same boundary. -/
def StepEnds (x y : Lane) (k : Nat) (code : ResultCode) (value stamp : Word) (aux : Byte) : Prop :=
  Completed x y k code value stamp aux ∧ PassGoesOn x y k false true

/-- Entry to STALLED with a fault code, from a state, with `b` under way on the bus (10, R149): the state after
differs from it as the rule says, and memory by no more than that access. -/
structure StalledFrom (s t : State) (code : FaultCode) (b : Option OnBus) : Prop where
  engine : t.engc.engine = .stalled
  faultCode : t.engc.faultCode = code
  enable : t.regp.enable = s.regp.enable
  cause : t.regp.cause = s.regp.cause ||| causeStall
  epoch : t.tbu.epoch = s.tbu.epoch
  orderList : t.mport = []
  lanes : ∀ l : LaneId, (t.lane l).Clear
  queue : t.admu.queue = []
  claims : ∀ o : OutLine, t.admu.claims[o] = { owner := none, reservation := none }
  pool : ∀ l : LaneId, t.admu.pool[l] = true
  lines : ∀ o : OutLine, (t.outd[o]).claimer = none ∧ (t.outd[o]).keep = false ∧
    (t.outd[o]).idle = (s.outd[o]).idle ∧ (t.outd[o]).level = (s.outd[o]).idle
  flags : t.smon.inProgress = false ∧ t.smon.pendingSweep = false
  work : t.smon.piece = none ∧ t.smon.waiting = [] ∧ t.smon.counts = []
  mirror : t.smon.mirror = s.smon.mirror ∧ t.smon.counters = s.smon.counters
  memory : b = none ∨ s.mport = [] → t.mem = s.mem
  underWay : ∀ (o : OnBus) (two : Request) (rest : List Request), b = some o →
    pickRequest s.mport o.pick = some (two, rest) → t.mem = Memory.carry s.mem two o.reply

/-- A sweep request has been heard in a state: a sweep is in progress; where one was already in progress
another is pending, and where none was it has noted the epoch and its configuration piece waits or is under way
(04, R47, R48). -/
def SweepRequested (s t : State) : Prop :=
  t.smon.inProgress = true ∧ (s.smon.inProgress = true → t.smon.pendingSweep = true) ∧
    (s.smon.inProgress = false → t.smon.noted = s.tbu.epoch ∧
      (.config ∈ t.smon.waiting ∨ t.smon.piece = some (.config, .config)))

/-- SMON's pieces of work in their order: the one under way, then those that wait. -/
def Monitor.pieces (m : Monitor) : List Piece := (m.piece.map Prod.fst).toList ++ m.waiting

/-- The piece of work p has ended in a state (04, R47 to R49, R63). In RUNNING a sweep's next piece becomes ready
behind those that wait: after the configuration check the visit of slot 0, after the visit of slot k that of slot
k + 1 below the slot count and otherwise the closing, and after the closing a pending sweep. Outside RUNNING the
sweep is given up. The piece at the head is then under way, and a sweep's has begun; a settle or a lane's report at
the head begins by its own command. -/
structure PieceEnded (s t : State) (p : Piece) : Prop where
  config : p = .config → s.engc.engine = .running → t.smon.pieces = s.smon.waiting ++ [.visit 0]
  visit : ∀ k next : SlotId, p = .visit k → s.engc.engine = .running → next.val = k.val + 1 →
    next.val < s.engc.slotCount → t.smon.pieces = s.smon.waiting ++ [.visit next]
  lastVisit : ∀ k : SlotId, p = .visit k → s.engc.engine = .running →
    s.engc.slotCount ≤ k.val + 1 ∨ k.val = 15 → t.smon.pieces = s.smon.waiting ++ [.closing]
  again : p = .closing → s.engc.engine = .running → s.smon.pendingSweep = true →
    t.smon.pieces = s.smon.waiting ++ [.config] ∧ t.smon.pendingSweep = false ∧
      t.smon.inProgress = true ∧ t.smon.noted = s.tbu.epoch
  sweepEnds : p = .closing → s.engc.engine = .running → s.smon.pendingSweep = false →
    t.smon.pieces = s.smon.waiting ∧ t.smon.inProgress = false
  givenUp : p.ofSweep = true → s.engc.engine ≠ .running →
    t.smon.pieces = s.smon.waiting ∧ t.smon.inProgress = false
  other : p.ofSweep = false → t.smon.pieces = s.smon.waiting ∧ t.smon.inProgress = s.smon.inProgress
  keeps : p ≠ .closing → t.smon.noted = s.smon.noted ∧ t.smon.pendingSweep = s.smon.pendingSweep
  waits : t.smon.piece = none → ∀ q : Piece, t.smon.waiting.head? = some q → q.ofSweep = false
  begins : ∀ (q : Piece) (w : Work), t.smon.piece = some (q, w) →
    (q = .config ∧ w = .config ∧
      t.mport.getLast? = some (s.requestOf .config (s.regp.area + 0x04#32) none)) ∨
    (∃ k : SlotId, q = .visit k ∧ w = .visit k ∧
      t.mport.getLast? = some (s.requestOf .hostWord (s.hostWordAddr k) none)) ∨
    (q = .closing ∧ w = .counting .endPiece ∧
      t.smon.counts.getLast? = some { kind := .sweepClose t.smon.noted, requester := .smon })

/-- Step k, whose request is q, has begun on lane l at the boundary at which s stands; x is the lane as the step
finds it. HOLD of 0, UNTIL already reached and SET end at once; the others run, their counters at 0, and CHECK
has the read of its qualifier's mask word raised; SET and PULSE drive their claimed line (06, R87, R88; 08, R125
to R128; 09, R131). -/
structure StepBegun (s t : State) (l : LaneId) (k : Nat) (x : Lane) (q : StepReq) : Prop where
  holdZero : q.kind = 1 → q.paramA = 0 → StepEnds x (t.lane l) k .ok 0 s.tbu.epoch 0
  hold : q.kind = 1 → q.paramA ≠ 0 → (t.lane l).activity = .hold
  untilReached : q.kind = 2 → reached s.tbu.epoch q.paramA = true →
    StepEnds x (t.lane l) k .ok (s.tbu.epoch - q.paramA) s.tbu.epoch 1
  untilAhead : q.kind = 2 → reached s.tbu.epoch q.paramA = false → (t.lane l).activity = .untilEpoch
  edge : q.kind = 3 → (t.lane l).activity = .edge
  width : q.kind = 4 → (t.lane l).activity = .widthEnter
  tally : q.kind = 5 → (t.lane l).activity = .tally 0
  period : q.kind = 6 → (t.lane l).activity = .periodFirst
  set : q.kind = 7 → StepEnds x (t.lane l) k .ok (levelWord (q.mode == 1)) s.tbu.epoch
    (levelByte (s.outd[q.outLine]).level)
  pulse : q.kind = 8 → (t.lane l).activity = .pulse 0 true
  check : q.kind = 9 → (t.lane l).activity = .check [] ∧
    t.mport = s.mport ++ [s.requestOf (.qualifier l false) (s.qualifierAddr q.arg.toNat 0) none]
  lines : ∀ o : OutLine, t.outd[o] =
    if q.kind = 7 ∧ o = q.outLine ∧ (s.outd[o]).claimer = some l then
      { s.outd[o] with level := q.mode == 1 }
    else if q.kind = 8 ∧ o = q.outLine ∧ (s.outd[o]).claimer = some l then
      { s.outd[o] with level := !q.mode.getLsbD 0 }
    else s.outd[o]
  runs : (t.lane l).activity.isRunning = true → (t.lane l).results = x.results ∧
    (t.lane l).list = x.list ∧ (t.lane l).passesDone = x.passesDone ∧ (t.lane l).counter = 0 ∧
    (t.lane l).windowCounter = 0 ∧ (t.lane l).spanCounter = 0
  place : 1 ≤ q.kind.toNat → q.kind.toNat ≤ 9 → (t.lane l).step = k ∧ (t.lane l).startTick = s.tbu.epoch

/-- ADMU has taken its event for a tick boundary, whole: every eligibility test and every lateness limit has been
applied, and an entry that has left the queue has been started, or its slot waits LATE with its reservations cleared
and its removal settle ready (05, R66, R69, R75, R76; 04, R58). Where a slot has one entry, which of the two, and
NOTIFY, are that entry's own. -/
structure AdmissionTaken (s t : State) : Prop where
  eligible : ∀ e ∈ t.admu.queue, eligibleAt s.tbu.epoch e.posting = true → e.eligible = true
  inTime : ∀ e ∈ t.admu.queue, latenessReached s.tbu.epoch e.posting = false
  leaves : ∀ e ∈ s.admu.queue,
    { e with eligible := e.eligible || eligibleAt s.tbu.epoch e.posting } ∈ t.admu.queue ∨
    (t.mirror e.slot).state = .running ∨
    ((t.mirror e.slot).pendingOutcome = some .late ∧
      (∀ o : OutLine, (t.admu.claims[o]).reservation ≠ some e.slot) ∧
      ∃ notify : Bool, .removal e.slot .late notify ∈ t.smon.waiting ∧
        ((s.admu.queue.map Entry.slot).Nodup →
          latenessReached s.tbu.epoch e.posting = true ∧ notify = e.posting.flags.getLsbD 0))

/-- The torn lane l goes FREE: its tear release waits for SMON and it is back in the pool, where in RUNNING the
walk that follows may start another plan on it at once (06, R98; 05, R78). -/
structure TornLaneFreed (s t : State) (l : LaneId) : Prop where
  report : t.smon.waiting = s.smon.waiting ++ [.tearRelease (s.lane l).slot]
  lane : ((t.lane l).Clear ∧ t.admu.pool[l] = true) ∨
    (s.engc.engine = .running ∧ (t.lane l).state = .loading ∧ t.admu.pool[l] = false ∧
      (t.lane l).list = [] ∧ (t.lane l).tear = false ∧ (t.lane l).stopped = false ∧
      (t.lane l).recallFlag = false ∧ (t.lane l).halt = false)

/-- An access that lane l had given up has returned: its result is discarded. A stopped lane with nothing else
outstanding and no fault count to wait for goes FREE, and otherwise nothing changes but what the return itself
brings (06, R98; 11, R161). -/
structure ReturnDiscarded (s t : State) (l : LaneId) : Prop where
  frees : (s.lane l).stopped = true → s.laneOutstanding l = false → (s.lane l).faultCounts = 0 →
    TornLaneFreed s t l
  waits : (s.lane l).stopped = false ∨ s.laneOutstanding l = true ∨ (s.lane l).faultCounts ≠ 0 → t = s

/-- LOADING, told to stop, has let the access under way return and has ended in OFF (10, R145; 11, R156): no cause,
no other fault code, no further access, and what memory, the inputs and the outputs held is as it was. -/
structure LoadingStopped (s t : State) (rest : List Request) : Prop where
  engine : t.engc.engine = .off ∧ t.engc.loading = none
  faultCode : t.engc.faultCode = s.engc.faultCode
  enable : t.regp.enable = false
  cause : t.regp.cause = s.regp.cause
  epoch : t.tbu.epoch = s.tbu.epoch
  orderList : t.mport = rest
  mem : t.mem = s.mem
  inc : t.inc = s.inc
  outd : t.outd = s.outd

end Sys2Proof.Machine
end

