-- ==== Sys2Proof/Certificates/Slice0/Obligations.lean ====
section
/-! DEFINITION. The statements for the provers. Where a statement speaks of what a command from outside
meets, it says `s.settled`: the state in which the instant before has been finished (log 4). -/

open Sys2Proof Sys2Proof.Machine

/-! ## The machine -/

/-- A step runs the command at the front of the queue on the rest of the queue. -/
def Obligations.FrontCommandRuns : Prop :=
  ∀ (c : Instr) (rest : List Instr) (s : State), s.pending = c :: rest →
    step s = exec c { s with pending := rest }

/-- No command ends in a fault or a refusal (the model's choice, log 3 and log 26), and none touches the
queue. With no command waiting the block idles (the model's choice, log 5). -/
def Obligations.CommandsAnswerNextAndEmptyQueueIdles : Prop :=
  (∀ (c : Instr) (s : State), ∃ t : State, exec c s = .next t ∧ t.pending = s.pending) ∧
  (∀ s : State, s.pending = [] → step s = .next s)

/-! ## Memory -/

/-- Memory changes only by the host's writes and the one access that a return brings back, by the access under
way at a stall, or by the access that is on the bus at a reset (01, R3, R14; 10, R149; 11, R161). Host writes
that a return or a DISABLE carries, what a failed write leaves, and which access is under way are operands (logs 2
and 8). The access that MPORT carries is the one raised first (11, R161), or another raised at that same instant: an
operand names it, and one that names no such access names the first (log 9). -/
def Obligations.MemoryChangesOnlyByTheAccess : Prop :=
  (∀ (c : Instr) (s t : State), exec c s = .next t →
    (busReturnOf c = none → onBusOf c = none → t.mem = s.mem) ∧
    (∀ r : BusReturn, busReturnOf c = some r → t.mem = s.mem ∨
      ∃ req rest, Returns s r req rest ∧
        (t.mem = memoryAfter r req s.mem ∨
          ∃ (b : OnBus) (two : Request) (rest' : List Request), t.engc.engine = .stalled ∧
            r.atStall = some b ∧ pickRequest rest b.pick = some (two, rest') ∧
            t.mem = Memory.carry (memoryAfter r req s.mem) two b.reply)) ∧
    (∀ b : OnBus, onBusOf c = some b → t.mem = (s.metBy c).mem ∨
      ∃ req rest, pickRequest (s.metBy c).mport b.pick = some (req, rest) ∧
        t.mem = Memory.carry (s.metBy c).mem req b.reply) ∧
    (∀ w, c = .disable w → (s.metBy c).mem = Memory.hostWrites s.mem w.hostWrites) ∧
    ((∀ w, c ≠ .disable w) → (s.metBy c).mem = s.mem)) ∧
  (∀ n : Nat, pickRequest [] n = none) ∧
  (∀ (a : Request) (q : List Request) (n : Nat),
    (∀ h : n < (a :: q).length, (∀ x ∈ (a :: q).take (n + 1), x.instant = a.instant) →
      pickRequest (a :: q) n = some ((a :: q)[n], (a :: q).eraseIdx n)) ∧
    (¬ (n < (a :: q).length ∧ ∀ x ∈ (a :: q).take (n + 1), x.instant = a.instant) →
      pickRequest (a :: q) n = some (a, q)))

/-- An access changes no byte outside the word it writes, a read changes none, and a write that succeeds
leaves its word there (01, R3; 12, R163). -/
def Obligations.AccessChangesOnlyItsWord : Prop :=
  ∀ (m : List Host.Cell) (req : Request) (reply : BusReply),
    (∀ a : Nat, req.data = none ∨ a < wordAddr req.addr ∨ wordAddr req.addr + 4 ≤ a →
      Memory.byte (Memory.carry m req reply) a = Memory.byte m a) ∧
    (∀ w : Word, req.data = some w → Memory.wf m = true →
      Memory.read (Memory.carry m req .ok) req.addr = w)

/-- AREA, TICKDIV, SWEEP, MASK, the epoch and the levels last seen on the input pins change only by the commands
that own them: AREA by AREA_WRITE and a hardware reset, TICKDIV, SWEEP and MASK by a CONTROL write or a reset,
the epoch by a tick boundary, a CONTROL write or a reset, the levels by a tick boundary or the return of an
access, which carry them (11, R155 to R158; 03, R39; 07, R103, R107). A recall that a sweep has seen for a post not
yet taken stays as it is but for the return of a slot visit's read or of a take's write, and a command that may reset
the part (02, R28; 10, R141); that it is held beside the mirror is the model's choice (log 36). -/
def Obligations.ConfigurationChangesOnlyByItsWrites : Prop :=
  ∀ (c : Instr) (s t : State), exec c s = .next t →
    ((∀ w, c ≠ .areaWrite w) → (∀ b, c ≠ .hardwareReset b) → t.regp.area = s.regp.area) ∧
    (onBusOf c = none → t.regp.tickdiv = s.regp.tickdiv ∧ t.regp.sweep = s.regp.sweep ∧
      t.regp.mask = s.regp.mask) ∧
    (onBusOf c = none → (∀ x, c ≠ .tickBoundary x) → t.tbu.epoch = s.tbu.epoch) ∧
    (busReturnOf c = none → (∀ x, c ≠ .tickBoundary x) → t.inc.pins = s.inc.pins) ∧
    (∀ r : BusReturn, busReturnOf c = some r → t.inc.pins = s.inc.pins ∨ t.inc.pins = r.pins) ∧
    (∀ x : TickInput, c = .tickBoundary x → t.inc.pins = s.inc.pins ∨ t.inc.pins = x.pins) ∧
    (onBusOf c = none → (∀ r, c ≠ .slotVisit r) → (∀ r f, c ≠ .take r f) →
      t.smon.recalls = s.smon.recalls)

/-! ## Invariants -/

/-- Every step keeps memory in its canonical form. -/
def Obligations.MemoryStaysCanonical : Prop :=
  ∀ s t : State, s.MemoryCanonical → step s = .next t → t.MemoryCanonical

/-- Every step keeps AREA on a 256-byte boundary (01, R1; 11, R158). Every step keeps the divisor code in 0 to
4 and the slot count at most 16 (03, R37; 01, R2, R4). -/
def Obligations.RegisterFieldsStayLegal : Prop :=
  (∀ s t : State, s.AreaAligned → step s = .next t → t.AreaAligned) ∧
  (∀ s t : State, s.DivisorLegal ∧ s.SlotCountLegal → step s = .next t →
    t.DivisorLegal ∧ t.SlotCountLegal)

/-- Every step keeps every write-behind list within its bound (06, R90). -/
def Obligations.WriteBehindListsStayBounded : Prop :=
  ∀ s t : State, s.ListsBounded → step s = .next t → t.ListsBounded

/-- Every step keeps OUTD's claimers in agreement with ADMU's owners, owners out of the pool and not stopped for a
tear, no line owned in OFF, LOADING and STALLED, and one entry at most for each slot in the admission queue (05, R64,
R67, R68, R78, R81; 08, R118). -/
def Obligations.ClaimsStayInAgreement : Prop :=
  ∀ s t : State, s.ClaimsAgree → step s = .next t → t.ClaimsAgree

/-- The invariants hold in the state after reset. -/
def Obligations.InvariantsHoldAtReset : Prop :=
  State.reset.MemoryCanonical ∧ State.reset.AreaAligned ∧ State.reset.DivisorLegal ∧
    State.reset.SlotCountLegal ∧ State.reset.ListsBounded ∧ State.reset.ClaimsAgree

/-! ## Resets -/

/-- The state after reset: every unit at its reset values, the engine OFF, CONTROL, AREA and CAUSE 0, IRQ low,
STATUS as R158 gives it (10, R153; 11, R155 to R159). That the noted epoch, the run starts and the port's
record of its answer start at 0, and that RESETn is released, are the model's choice (logs 11 and 12). -/
def Obligations.StateAfterReset : Prop :=
  State.reset.UnitsReset ∧ State.reset.readRegister 0x00 = some 0 ∧
    State.reset.readRegister 0x04 = some 0 ∧ State.reset.readRegister 0x0C = some 0 ∧
    State.reset.readRegister 0x10 = some 0x21000000#32 ∧ State.reset.readRegister 0x14 = some 0 ∧
    State.reset.irq = false

/-- A hardware reset takes every unit to its reset values from any state, clears AREA, CONTROL and CAUSE,
holds IRQ low and makes no write: memory differs only by the access that was on the bus. RESET_RELEASE then
only lets the port accept accesses (10, R153; 11, R160, R162; 01, R14). A soft reset takes every unit to its
reset values, keeps AREA, clears CONTROL and CAUSE whatever else the write carries, is answered with the
normal response, and makes no write (10, R153; 11, R157). The noted epoch and the run starts returning to 0
are the model's choice (log 11), and what is on the bus is an operand (log 8). -/
def Obligations.ResetsTakeUnitsToResetValues : Prop :=
  ((∀ (s : State) (b : OnBus), ∃ t : State, exec (.hardwareReset b) s = .next t ∧ t.UnitsReset ∧
    t.regp.area = 0 ∧ t.control = 0 ∧ t.regp.cause = 0 ∧ t.irq = false ∧ t.regp.resetLow = true ∧
    (s.settled.mport = [] → t.mem = s.mem) ∧
    (∀ req rest, pickRequest s.settled.mport b.pick = some (req, rest) →
      t.mem = Memory.carry s.mem req b.reply)) ∧
  (∀ s : State, exec .resetRelease s = .next { s with regp := { s.regp with resetLow := false } })) ∧
  (∀ (s : State) (w : Word) (b : OnBus), s.regp.resetLow = false → softResetBit w = true →
    ∃ t : State, exec (.softreset w b) s = .next t ∧ t.UnitsReset ∧ t.regp.area = s.regp.area ∧
      t.control = 0 ∧ t.regp.cause = 0 ∧ t.irq = false ∧ t.regp.response = .normal ∧
      (s.settled.mport = [] → t.mem = s.mem) ∧
      (∀ req rest, pickRequest s.settled.mport b.pick = some (req, rest) →
        t.mem = Memory.carry s.mem req b.reply))

/-! ## The register port -/

/-- AREA is stored with its low 8 bits cleared in OFF and ignored in every other state; nothing else changes
but the port's response (11, R158). CAUSE_CLEAR clears the bits written as 1 and leaves the others and
everything else; the access is answered with the normal response (11, R159). -/
def Obligations.AreaAndCauseWritesTakeEffect : Prop :=
  (∀ (s : State) (w : Word), s.regp.resetLow = false →
    exec (.areaWrite w) s = .next { s.settled with regp := { s.settled.regp with
      area := if s.settled.engc.engine = .off then w &&& 0xFFFFFF00#32 else s.regp.area
      response := .normal } }) ∧
  (∀ (s : State) (w : Word), s.regp.resetLow = false → ∃ c : BitVec 4,
    (∀ i : Fin 4, c.getLsbD i.val = (s.regp.cause.getLsbD i.val && !w.getLsbD i.val)) ∧
    exec (.causeClear w) s = .next { s with regp := { s.regp with cause := c, response := .normal } })

/-- R160: IRQ is high while some CAUSE bit is set whose MASK bit is set, and low otherwise and while RESETn is
low; it depends on nothing else; a CONTROL write's MASK acts at once, also on a CAUSE bit set before, and
whether the write disables, enables or does neither; and it is low after either reset. `s.metBy c` is the
state that the write meets (logs 4 and 19). -/
def Obligations.IrqFollowsCauseAndMask : Prop :=
  (∀ s : State, s.irq = true ↔ s.regp.resetLow = false ∧
    ∃ i : Fin 4, s.regp.cause.getLsbD i.val = true ∧ s.regp.mask.getLsbD i.val = true) ∧
  (∀ s t : State, s.regp.cause = t.regp.cause → s.regp.mask = t.regp.mask →
    s.regp.resetLow = t.regp.resetLow → s.irq = t.irq) ∧
  (∀ (s : State) (w : Word) (early : Bool) (hs : List HostWrite), s.regp.resetLow = false →
    softResetBit w = false →
    ∀ c ∈ [Instr.mask w, .disable { word := w, early := early, hostWrites := hs }, .enableRequest w,
        .tickdiv w, .sweep w early],
      ∃ t : State, exec c s = .next t ∧ t.regp.mask = w.extractLsb' 8 4 ∧
        ∀ i : Fin 4, (s.metBy c).regp.cause.getLsbD i.val = true → w.getLsbD (8 + i.val) = true →
          t.irq = true) ∧
  (∀ (s : State) (c : BitVec 4) (i : Fin 4), s.regp.resetLow = false → c.getLsbD i.val = true →
    s.regp.mask.getLsbD i.val = true → (s.setCause c).irq = true) ∧
  (∀ (s t : State) (w : Word), exec (.causeClear w) s = .next t →
    s.regp.cause &&& s.regp.mask &&& ~~~ (w.extractLsb' 0 4) = 0 → s.regp.resetLow = false →
    t.irq = false) ∧
  (∀ (s t : State) (b : OnBus), exec (.hardwareReset b) s = .next t → t.irq = false) ∧
  (∀ (s t : State) (w : Word) (b : OnBus), s.regp.resetLow = false → softResetBit w = true →
    exec (.softreset w b) s = .next t → t.irq = false)

/-- NUDGE is a sweep request in RUNNING and leaves no trace but the response in any other state (04, R47; 11, R158).
The sweep timer's expiry returns its count to 0 and, in RUNNING only, requests a sweep; it is due when the count has
reached the period that SWEEP selects, 1024, 16384 or 262144, and never with SWEEP 0 (03, R45). An expiry that is not
due does not happen (log 3), and one that a DISABLE has overtaken still returns the count to 0 (log 19). -/
def Obligations.NudgeAndTimerRequestSweeps : Prop :=
  (∀ (s : State) (w : Word), s.regp.resetLow = false →
    (s.settled.engc.engine = .running →
      ∃ t : State, exec (.nudge w) s = .next t ∧ SweepRequested s.settled t ∧ t.engc = s.settled.engc ∧
        t.smon.mirror = s.settled.smon.mirror ∧ t.mem = s.mem) ∧
    (s.settled.engc.engine ≠ .running →
      exec (.nudge w) s =
        .next { s.settled with regp := { s.settled.regp with response := .normal } })) ∧
  (∀ s : State, s.timerDue = true →
    (s.engc.engine = .running →
      ∃ t : State, exec .sweepTimerExpiry s = .next t ∧ t.tbu.timer = 0 ∧ t.tbu.epoch = s.tbu.epoch ∧
        SweepRequested s t ∧ t.smon.mirror = s.smon.mirror ∧ t.mem = s.mem) ∧
    (s.engc.engine ≠ .running →
      exec .sweepTimerExpiry s = .next { s with tbu := { s.tbu with timer := 0 } })) ∧
  (∀ s : State,
    (s.timerDue = true ↔ (s.regp.sweep = 1 ∧ 1024 ≤ s.tbu.timer) ∨
      (s.regp.sweep = 2 ∧ 16384 ≤ s.tbu.timer) ∨ (s.regp.sweep = 3 ∧ 262144 ≤ s.tbu.timer)) ∧
    (s.timerDue = false → exec .sweepTimerExpiry s = .next s))

/-- A word write to STATUS, EPOCH or a reserved offset changes nothing, and an access that is not one aligned
word, or that meets RESETn low, is answered with the error response and changes nothing (11, R154, R158). The
`response` field is the model's record of the answer. -/
def Obligations.IgnoredAndRefusedAccesses : Prop :=
  (∀ (s : State) (o : BitVec 6) (w : Word), s.regp.resetLow = false → 0x10 ≤ o.toNat →
    o.toNat % 4 = 0 → exec (.ignoredRegisterWrite o w) s =
      .next { s with regp := { s.regp with response := .normal } }) ∧
  (∀ (s : State) (a : PortAccess),
    s.regp.resetLow = true ∨ a.size ≠ .word ∨ a.offset.toNat % 4 ≠ 0 →
    exec (.registerErrorResponse a) s =
      .next { s with regp := { s.regp with response := .error } })

/-- The registers read their fields at their bit positions, reserved offsets and NUDGE read 0, and no register can
be read while RESETn is low or at an offset that is no multiple of four (11, R154 to R158; 12, R169). -/
def Obligations.RegistersReadTheirFields : Prop :=
  (∀ s : State, s.control.getLsbD 0 = s.regp.enable ∧ s.control.getLsbD 1 = false ∧
    s.control.extractLsb' 2 3 = s.regp.tickdiv ∧ s.control.extractLsb' 5 2 = s.regp.sweep ∧
    s.control.getLsbD 7 = false ∧ s.control.extractLsb' 8 4 = s.regp.mask ∧
    s.control.extractLsb' 12 20 = 0) ∧
  (∀ s : State, s.status.extractLsb' 0 3 = s.engc.engine.code ∧ s.status.getLsbD 3 = false ∧
    (∀ l : LaneId, s.status.getLsbD (4 + l.val) = ((s.lane l).state != .free)) ∧
    s.status.extractLsb' 8 5 = BitVec.ofNat 5 s.admu.queue.length ∧ s.status.extractLsb' 13 3 = 0 ∧
    s.status.extractLsb' 16 8 = s.engc.faultCode.code ∧ s.status.extractLsb' 24 8 = 0x21#8) ∧
  (∀ s : State, s.regp.resetLow = false →
    s.registerValue 0x00 = some s.control ∧ s.registerValue 0x04 = some s.regp.area ∧
    s.registerValue 0x08 = some 0 ∧ s.registerValue 0x0C = some (BitVec.setWidth 32 s.regp.cause) ∧
    s.registerValue 0x10 = some s.status ∧ s.registerValue 0x14 = some s.tbu.epoch ∧
    ∀ o : BitVec 6, 0x18 ≤ o.toNat → o.toNat % 4 = 0 → s.registerValue o = some 0) ∧
  (∀ (s : State) (o : BitVec 6), s.regp.resetLow = true ∨ o.toNat % 4 ≠ 0 → s.registerValue o = none)

/-- TICKDIV takes a new value only in OFF and only from a code in 0 to 4 (03, R37). A write that changes SWEEP
sets it and restarts the sweep timer; one that does not leaves the timer. At the instant of the timer's expiry
the write is taken after it, the expiry having requested its sweep, or before it, and then there is none (03,
R46; 04, R47; the operand is log 19). That each row carries the whole CONTROL word is the model's choice (log 6). -/
def Obligations.TickdivAndSweepWritesTakeEffect : Prop :=
  (∀ (s : State) (w : Word), s.regp.resetLow = false → softResetBit w = false →
    ∃ t : State, exec (.tickdiv w) s = .next t ∧ t.mem = s.mem ∧ t.regp.area = s.regp.area ∧
      t.regp.tickdiv =
        if s.settled.engc.engine = .off ∧ (w.extractLsb' 2 3).toNat ≤ 4 then w.extractLsb' 2 3
        else s.regp.tickdiv) ∧
  (∀ (s : State) (w : Word) (early : Bool), s.regp.resetLow = false → softResetBit w = false →
    ∃ t : State, exec (.sweep w early) s = .next t ∧ t.regp.sweep = w.extractLsb' 5 2 ∧ t.mem = s.mem ∧
      (w.extractLsb' 5 2 ≠ s.regp.sweep → t.tbu.timer = 0) ∧
      (w.extractLsb' 5 2 = s.regp.sweep → early = true → t.tbu.timer = s.tbu.timer) ∧
      (w.extractLsb' 5 2 = s.regp.sweep → early = false → t.tbu.timer = s.settled.tbu.timer) ∧
      (early = true → enableBit w = true → s.engc.engine = .running →
        t.smon = s.smon ∧ (w.extractLsb' 5 2 ≠ s.regp.sweep → t.timerDue = false))) ∧
  (∀ (s : State) (w : Word), s.regp.resetLow = false → softResetBit w = false → enableBit w = true →
    s.engc.engine = .running → s.timerDue = true →
    ∃ t : State, exec (.sweep w false) s = .next t ∧ SweepRequested s t)

/-- An enable request with AREA 0 is refused: the engine stays OFF, FAULT_CODE becomes BAD_AREA, CAUSE.FAULT
is set, ENABLE, the epoch, the order list and memory are unchanged (10, R140). An enable request with AREA not
0 enters LOADING: ENABLE 1, epoch and prescaler 0, FAULT_CODE NONE, sampling off, ADMU at its enable values,
discovery number 0, and the read of the word holding magic raised (10, R140, R141). In LOADING, RUNNING,
DRAINING and STALLED a write with ENABLE 1 changes neither ENABLE nor the engine (11, R156). -/
def Obligations.EnableRequestIsJudgedByArea : Prop :=
  (∀ (s : State) (w : Word), s.regp.resetLow = false → enableBit w = true → softResetBit w = false →
    s.settled.engc.engine = .off → s.regp.area = 0 →
    ∃ t : State, exec (.enableRequest w) s = .next t ∧ t.engc.engine = .off ∧
      t.engc.faultCode = .badArea ∧ t.regp.enable = s.settled.regp.enable ∧
      t.regp.cause = s.settled.regp.cause ||| causeFault ∧ t.tbu.epoch = s.tbu.epoch ∧
      t.mport = s.settled.mport ∧ t.mem = s.mem ∧ t.smon = s.settled.smon ∧ t.outd = s.settled.outd) ∧
  ((∀ (s : State) (w : Word), s.regp.resetLow = false → enableBit w = true → softResetBit w = false →
    s.settled.engc.engine = .off → s.regp.area ≠ 0 →
    ∃ t : State, exec (.enableRequest w) s = .next t ∧ t.engc.engine = .loading ∧
      t.engc.faultCode = .none ∧ t.regp.enable = true ∧ t.tbu.epoch = 0 ∧ t.tbu.prescaler = 0 ∧
      t.inc.sampling = false ∧ t.inc.lines = s.settled.inc.lines ∧ t.admu = Admission.reset ∧
      t.smon.discovery = 0 ∧ t.outd = s.settled.outd ∧ t.regp.cause = s.settled.regp.cause ∧
      t.mport = [t.requestOf .loading s.regp.area none] ∧ t.mem = s.mem) ∧
  (∀ (s : State) (w : Word), s.regp.resetLow = false → enableBit w = true → softResetBit w = false →
    s.settled.engc.engine ≠ .off →
    ∃ t : State, exec (.enableRequest w) s = .next t ∧ t.engc = s.settled.engc ∧
      t.regp.enable = s.settled.regp.enable ∧ t.tbu.epoch = s.tbu.epoch ∧ t.mem = s.mem))

/-- A CONTROL write with ENABLE 0 acts by the engine state it finds: no change in OFF and DRAINING; in LOADING ENABLE
reads 0 and loading is to stop; in RUNNING the drain begins, and it is over at once where no plan is queued or on a
lane and SMON has no work but waiting sweep pieces; from STALLED to OFF with the epoch, FAULT_CODE and the output
levels held (11, R156; 10, R145, R146, R147, R150). That ENABLE reads 0 from the write itself in LOADING is the
model's reading (log 23); `early` places the write before the events still due at its instant (03, R46; log 19), and
the host's writes to memory that precede it come in its operand (log 2). -/
def Obligations.DisableByEngineState : Prop :=
  ∀ (s m : State) (w : PlacedWrite), m = s.metBy (.disable w) → s.regp.resetLow = false →
    enableBit w.word = false → softResetBit w.word = false →
    ∃ t : State, exec (.disable w) s = .next t ∧ t.mem = Memory.hostWrites s.mem w.hostWrites ∧
      m.mem = t.mem ∧ t.tbu.epoch = s.tbu.epoch ∧
      t.regp.area = s.regp.area ∧ t.regp.cause = m.regp.cause ∧ t.engc.faultCode = m.engc.faultCode ∧
      (m.engc.engine = .off ∨ m.engc.engine = .draining →
        t.engc = m.engc ∧ t.regp.enable = m.regp.enable ∧ t.outd = m.outd) ∧
      (m.engc.engine = .stalled →
        t.engc.engine = .off ∧ t.regp.enable = false ∧ t.outd = m.outd ∧ t.mport = m.mport) ∧
      (∀ x, m.engc.engine = .loading → m.engc.loading = some x →
        t.engc.engine = .loading ∧ t.regp.enable = false ∧
          t.engc.loading = some { x with stopping := true } ∧ t.mport = m.mport) ∧
      (m.engc.engine = .running →
        (t.engc.engine = .draining ∨ t.engc.engine = .off) ∧ t.regp.enable = false ∧
        (t.engc.engine = .draining ↔ (∃ l : LaneId, m.admu.pool[l] = false) ∨ m.admu.queue ≠ [] ∨
          m.smon.piece ≠ none ∨ m.smon.counts ≠ [] ∨
          ∃ p ∈ m.smon.waiting, p ≠ .config ∧ p ≠ .closing ∧ ∀ k, p ≠ .visit k))

/-- Entry to DRAINING: the queue is emptied, each removed slot waits HALTED for its settle, the settles in queue
order with the NOTIFY flags of their postings, the removed entries' reservations are cleared, owners stay, every
lane not FREE has its halt flag, no sweep is pending and no sweep piece waits, the piece under way goes on, kept
lines go to their idle levels and claimed lines are unchanged (10, R146; 05, R80; 04, R58, R63; 06, R95; 08, R123).
Where a visit's read is outstanding the model notes the host word that memory then holds for its slot, to tell a post
or a recall made before from one made after (02, R18, R28, R33; 13, R172; log 32). -/
def Obligations.DrainEntryHaltsEverything : Prop :=
  ∀ (s m : State) (w : PlacedWrite), m = s.metBy (.disable w) → s.regp.resetLow = false →
    enableBit w.word = false → softResetBit w.word = false → m.engc.engine = .running →
    ∃ t : State, exec (.disable w) s = .next t ∧ t.admu.queue = [] ∧
      (∀ e ∈ m.admu.queue, (t.mirror e.slot).pendingOutcome = some .halted ∧
        ∀ o : OutLine, (t.admu.claims[o]).reservation ≠ some e.slot) ∧
      (∀ o : OutLine, (t.admu.claims[o]).owner = (m.admu.claims[o]).owner ∧
        ((∀ e ∈ m.admu.queue, (m.admu.claims[o]).reservation ≠ some e.slot) →
          t.admu.claims[o] = m.admu.claims[o])) ∧
      ((m.admu.queue.map Entry.slot).Nodup →
        t.smon.waiting = m.smon.waiting.filter (fun p => !p.ofSweep) ++
          m.admu.queue.map (fun e => .removal e.slot .halted (e.posting.flags.getLsbD 0))) ∧
      (∀ l : LaneId, (m.lane l).state ≠ .free → (t.lane l).halt = true) ∧
      t.smon.pendingSweep = false ∧ t.smon.piece = m.smon.piece ∧
      (m.smon.piece = none → t.smon.inProgress = false) ∧
      (∀ p k, m.smon.piece = some (p, .visit k) →
        t.smon.hostWordAtDrain = some (Memory.read m.mem (m.hostWordAddr k))) ∧
      (∀ o : OutLine, (m.outd[o]).claimer ≠ none → t.outd[o] = m.outd[o]) ∧
      (∀ o : OutLine, (m.outd[o]).claimer = none → (m.outd[o]).keep = true →
        (t.outd[o]).level = (m.outd[o]).idle ∧ (t.outd[o]).keep = false)

/-! ## Time and inputs -/

/-- At a tick boundary the epoch rises by one, all eight lines are sampled if INC samples, the sweep timer counts, and
the counters of running steps are raised by one up to 0xFFFFFFFF; then the units act in the order given, then the
lanes, then the torn lanes that go FREE: a tear stops its lane, a recall or halt takes effect in LOADING and STEPPING
(O55, O56 say how), in RUNNING ADMU applies its tests in one event, and a timer that has reached its period expires.
Memory is not touched. Where tick boundaries do not occur nothing happens (03, R38 to R40, R44, R45; 05, R69, R76,
R78; 06, R87, R95, R98; 07, R103). The run-length filter on one sample (07, R104). The order is an operand (log 20),
and no command comes between those acts (the model's choice, log 38). -/
def Obligations.TickBoundaryAdvancesEpochAndSamples : Prop :=
  (∀ (s : State) (x : TickInput),
    (s.settled.ticking = true →
      exec (.tickBoundary x) s = .next ((x.order ++ [Actor.lane 0, Actor.lane 1, Actor.lane 2, Actor.lane 3] ++
        [Actor.laneFree 0, Actor.laneFree 1, Actor.laneFree 2, Actor.laneFree 3]).foldl
          State.boundaryAct (s.settled.openBoundary x.pins)) ∧
      ∃ t : State, exec (.tickBoundary x) s = .next t ∧ t.tbu.epoch = s.tbu.epoch + 1 ∧
        (.timer ∉ x.order → t.tbu.timer = if s.regp.sweep = 0 then 0 else s.settled.tbu.timer + 1) ∧
        t.inc.pins = x.pins ∧ t.inc.sampling = s.settled.inc.sampling ∧
        (s.settled.inc.sampling = false → t.inc.lines = s.settled.inc.lines) ∧
        (s.settled.inc.sampling = true → ∀ i : InLine, t.inc.lines[i] =
          (s.settled.inc.lines[i]).sample (s.tbu.epoch + 1) (x.pins.getLsbD i.val)) ∧
        t.mem = s.mem ∧ t.regp = s.settled.regp ∧ t.engc = s.settled.engc ∧
        (∀ l : LaneId, s.settled.admu.pool[l] = false → (s.settled.lane l).tear = false →
          (s.settled.lane l).recallFlag = false → (s.settled.lane l).halt = false →
          t.lane l = (s.settled.lane l).tick)) ∧
    (s.settled.ticking = false → exec (.tickBoundary x) s = .next s)) ∧
  (∀ (s : State) (l : LaneId),
    ((s.lane l).tear = true → s.boundaryAct (.lane l) = s.tearStop l) ∧
    ((s.lane l).tear = false → (s.lane l).recallFlag = true ∨ (s.lane l).halt = true →
      (s.lane l).state = .loading ∨ (s.lane l).state = .stepping →
      s.boundaryAct (.lane l) = s.flaggedBoundary l) ∧
    ((s.lane l).tear = false → ((s.lane l).recallFlag = false ∧ (s.lane l).halt = false) ∨
      ((s.lane l).state ≠ .loading ∧ (s.lane l).state ≠ .stepping) → s.boundaryAct (.lane l) = s) ∧
    ((s.lane l).tear = true → s.boundaryAct (.laneFree l) = s.tearFinish l) ∧
    ((s.lane l).tear = false → s.boundaryAct (.laneFree l) = s)) ∧
  (∀ s : State, (s.engc.engine = .running → AdmissionTaken s (s.boundaryAct .admission)) ∧
    (s.engc.engine ≠ .running → s.boundaryAct .admission = s)) ∧
  (∀ s : State, (s.timerDue = false → s.boundaryAct .timer = s) ∧
    (s.timerDue = true → s.engc.engine ≠ .running →
      s.boundaryAct .timer = { s with tbu := { s.tbu with timer := 0 } }) ∧
    (s.timerDue = true → s.engc.engine = .running →
      SweepRequested s (s.boundaryAct .timer) ∧
      (s.boundaryAct .timer).tbu = { s.tbu with timer := 0 } ∧ (s.boundaryAct .timer).engc = s.engc ∧
      (s.boundaryAct .timer).smon.mirror = s.smon.mirror ∧ (s.boundaryAct .timer).admu = s.admu ∧
      (s.boundaryAct .timer).lanes = s.lanes ∧ (s.boundaryAct .timer).mem = s.mem)) ∧
  (∀ x : Lane, ∃ c n w : Word, ∃ a : Activity,
    x.tick = { x with fresh := false, loadDue := x.loaded, activity := a, counter := c, spanCounter := n,
                      windowCounter := w } ∧
    (∀ k skip due, x.activity = .wait k skip due → a = .wait k skip true) ∧
    ((∀ k skip due, x.activity ≠ .wait k skip due) → a = x.activity) ∧
    c = (match x.activity with
      | .hold => saturate x.counter
      | .edge => saturate x.counter
      | .tally _ => saturate x.counter
      | .pulse _ _ => saturate x.counter
      | _ => x.counter) ∧
    n = (match x.activity with
      | .widthLeave _ => saturate x.spanCounter
      | .period _ _ _ => saturate x.spanCounter
      | _ => x.spanCounter) ∧
    w = (if x.windowOf = 0 then x.windowCounter else match x.activity with
      | .edge => saturate x.windowCounter
      | .widthEnter => saturate x.windowCounter
      | .widthLeave _ => saturate x.windowCounter
      | .periodFirst => saturate x.windowCounter
      | .period _ _ _ => saturate x.windowCounter
      | _ => x.windowCounter)) ∧
  (∀ c : Word, saturate c = if c = 0xFFFFFFFF#32 then 0xFFFFFFFF#32 else c + 1) ∧
  (∀ (now : Word) (level : Bool) (x : InputLine),
    (level = x.accepted → x.sample now level = { x with run := 0 }) ∧
    (level ≠ x.accepted → x.run = 0 → x.sample now level = { x with run := 1, runStart := now }) ∧
    (level ≠ x.accepted → x.run ≠ 0 → x.sample now level = { x with run := x.run + 1 }) ∧
    (x.filterCode.toNat ≤ 4 → x.length = [1, 2, 4, 8, 16].getD x.filterCode.toNat 0))

/-- An epoch value is reached when (now − t) mod 2^32 is below 2^31: the present and the past half of the
range are, the half ahead and the value exactly 2^31 ahead are not, and a value not reached becomes reached
exactly when the epoch comes to it (03, R42, R43). -/
def Obligations.ReachedJudgesByDistance : Prop :=
  (∀ now t : Word, reached now t = true ↔ (now - t).toNat < 2147483648) ∧
  (∀ t d : Word, d.toNat < 2147483648 → reached (t + d) t = true) ∧
  (∀ now d : Word, 0 < d.toNat → d.toNat ≤ 2147483648 → reached now (now + d) = false) ∧
  (∀ now d : Word, 2147483648 < d.toNat → reached now (now + d) = true) ∧
  (∀ now t : Word, reached now t = false → (reached (now + 1) t = true ↔ now + 1 = t))

/-- ACCEPTED_EDGE, due when INC samples and the line's run has reached its length: the line takes the new level and
its run count returns to 0, other lines are unchanged, and a STEPPING lane whose EDGE step, begun at an earlier
boundary, waits for that direction on that line completes OK with the ticks waited, the stamp and the new level, 1 for
high and 0 for low, and the plan goes on (07, R104, R106, R112; 06, R87 to R89). A lane that runs no step on that
line, or whose step began at this boundary, or that runs no EDGE, WIDTH, TALLY or PERIOD step, whatever the line byte
of its step, is left (07, R106, R110). Mode 1 is RISE, 2 FALL and 3 EITHER (07, R112,
R115, R116; 12, R167). -/
def Obligations.AcceptedEdgeCompletesEdge : Prop :=
  (∀ (s : State) (i : InLine), s.inc.edgeDue i = true →
    ∃ t : State, exec (.acceptedEdge i) s = .next t ∧
      t.inc.lines[i] = { s.inc.lines[i] with accepted := !(s.inc.lines[i]).accepted, run := 0 } ∧
      (∀ j : InLine, j ≠ i → t.inc.lines[j] = s.inc.lines[j]) ∧ t.mem = s.mem ∧ t.outd = s.outd ∧
      t.smon = s.smon ∧ t.admu = s.admu ∧
      ∀ l : LaneId, (s.lane l).state = .stepping → (s.lane l).fresh = false →
        (s.lane l).request.line.toNat = i.val → (s.lane l).activity = .edge →
        (directionMatches (s.lane l).request.mode (!(s.inc.lines[i]).accepted) = true →
          StepEnds (s.lane l) (t.lane l) (s.lane l).step .ok (s.lane l).counter
            (s.inc.lines[i]).runStart (levelByte (!(s.inc.lines[i]).accepted))) ∧
        (directionMatches (s.lane l).request.mode (!(s.inc.lines[i]).accepted) = false →
          t.lane l = s.lane l)) ∧
  (∀ (s t : State) (i : InLine) (l : LaneId), exec (.acceptedEdge i) s = .next t →
    (s.lane l).state ≠ .stepping ∨ (s.lane l).fresh = true ∨ (s.lane l).request.line.toNat ≠ i.val ∨
      (s.lane l).activity = .none ∨ (∃ k skip due, (s.lane l).activity = .wait k skip due) ∨
      (s.lane l).activity = .hold ∨ (s.lane l).activity = .untilEpoch ∨
      (∃ n active, (s.lane l).activity = .pulse n active) ∨ (∃ got, (s.lane l).activity = .check got) →
    t.lane l = s.lane l) ∧
  (∀ (s : State) (i : InLine),
    (s.inc.edgeDue i = true ↔ s.inc.sampling = true ∧ (s.inc.lines[i]).length ≤ (s.inc.lines[i]).run) ∧
    (s.inc.edgeDue i = false → exec (.acceptedEdge i) s = .next s)) ∧
  (∀ (mode : Byte) (level : Bool), directionMatches mode level = true ↔
    mode = 3 ∨ (mode = 1 ∧ level = true) ∨ (mode = 2 ∧ level = false)) ∧
  (levelByte true = 1 ∧ levelByte false = 0)

/-- WIDTH and PERIOD on an accepted edge: the first edge gives the stamp and starts the span counter at the edge's
delay; the edge that ends the span completes the step with the counter less that edge's delay, and the plan goes on
(07, R111, R113, R116; 06, R87 to R89). An edge of the other direction leaves the step as it was (07, R113, R116). -/
def Obligations.SpansRunBetweenStamps : Prop :=
  ∀ (s : State) (i : InLine) (l : LaneId), s.inc.edgeDue i = true → (s.lane l).state = .stepping →
    (s.lane l).fresh = false → (s.lane l).request.line.toNat = i.val →
    ∃ t : State, exec (.acceptedEdge i) s = .next t ∧
      ((s.lane l).activity = .widthEnter ∧
          (!(s.inc.lines[i]).accepted) ≠ ((s.lane l).request.mode == 1) ∨
        (∃ enter, (s.lane l).activity = .widthLeave enter) ∧
          (!(s.inc.lines[i]).accepted) = ((s.lane l).request.mode == 1) ∨
        ((s.lane l).activity = .periodFirst ∨ ∃ first n span, (s.lane l).activity = .period first n span) ∧
          directionMatches (s.lane l).request.mode (!(s.inc.lines[i]).accepted) = false →
        t.lane l = s.lane l) ∧
      ((s.lane l).activity = .widthEnter →
        (!(s.inc.lines[i]).accepted) = ((s.lane l).request.mode == 1) →
        (t.lane l).activity = .widthLeave (s.inc.lines[i]).runStart ∧
          (t.lane l).spanCounter = s.tbu.epoch - (s.inc.lines[i]).runStart) ∧
      (∀ enter : Word, (s.lane l).activity = .widthLeave enter →
        (!(s.inc.lines[i]).accepted) ≠ ((s.lane l).request.mode == 1) →
        StepEnds (s.lane l) (t.lane l) (s.lane l).step .ok
          ((s.lane l).spanCounter - (s.tbu.epoch - (s.inc.lines[i]).runStart)) enter 2) ∧
      ((s.lane l).activity = .periodFirst →
        directionMatches (s.lane l).request.mode (!(s.inc.lines[i]).accepted) = true →
        (t.lane l).activity = .period (s.inc.lines[i]).runStart 0 0 ∧
          (t.lane l).spanCounter = s.tbu.epoch - (s.inc.lines[i]).runStart) ∧
      (∀ (first : Word) (n : Nat) (span : Word), (s.lane l).activity = .period first n span →
        directionMatches (s.lane l).request.mode (!(s.inc.lines[i]).accepted) = true →
        (n + 1 = (s.lane l).request.arg.toNat →
          StepEnds (s.lane l) (t.lane l) (s.lane l).step .ok
            ((s.lane l).spanCounter - (s.tbu.epoch - (s.inc.lines[i]).runStart)) first
            (s.lane l).request.arg) ∧
        (n + 1 ≠ (s.lane l).request.arg.toNat →
          (t.lane l).activity = .period first (n + 1)
            ((s.lane l).spanCounter - (s.tbu.epoch - (s.inc.lines[i]).runStart)) ∧
          (t.lane l).list = (s.lane l).list))

/-- TALLY: a matching edge in the gate raises the tally, an edge of the other direction leaves it, and the one that
brings it to the stop count completes the step with aux 1; at the gate's end, edges of that boundary counted first,
the step completes with aux 0; the plan then goes on (07, R115; 06, R87 to R89). -/
def Obligations.TallyCountsEdgesInItsGate : Prop :=
  (∀ (s : State) (i : InLine) (l : LaneId) (n : Word), s.inc.edgeDue i = true →
    (s.lane l).state = .stepping → (s.lane l).fresh = false →
    (s.lane l).request.line.toNat = i.val → (s.lane l).activity = .tally n →
    ∃ t : State, exec (.acceptedEdge i) s = .next t ∧
      (directionMatches (s.lane l).request.mode (!(s.inc.lines[i]).accepted) = true →
        ((s.lane l).request.paramB ≠ 0 ∧ n + 1 = (s.lane l).request.paramB →
          StepEnds (s.lane l) (t.lane l) (s.lane l).step .ok (n + 1) (s.lane l).startTick 1) ∧
        (¬ ((s.lane l).request.paramB ≠ 0 ∧ n + 1 = (s.lane l).request.paramB) →
          (t.lane l).activity = .tally (n + 1) ∧ (t.lane l).list = (s.lane l).list)) ∧
      (directionMatches (s.lane l).request.mode (!(s.inc.lines[i]).accepted) = false →
        t.lane l = s.lane l)) ∧
  (∀ (s : State) (l : LaneId) (n : Word), (s.acceptEdges.lane l).state = .stepping →
    (s.acceptEdges.lane l).activity = .tally n →
    (s.acceptEdges.lane l).counter = (s.acceptEdges.lane l).request.paramA →
    ∃ t : State, exec (.tallyGateEnd l) s = .next t ∧ OnlyLane s.acceptEdges t l ∧
      t.outd = s.acceptEdges.outd ∧
      StepEnds (s.acceptEdges.lane l) (t.lane l) (s.acceptEdges.lane l).step .ok n
        (s.acceptEdges.lane l).startTick 0)

/-! ## The timed ends of steps -/

/-- HOLD completes when its counter reaches param_a, and a waiting UNTIL at the boundary that reaches its
target. The plan then goes on: the next step waits for the same boundary, step 0 of the next pass for the
following one, and after the last step of the last pass it concludes DONE (08, R125, R126; 06, R87 to R89). -/
def Obligations.HoldAndUntilComplete : Prop :=
  (∀ (s : State) (l : LaneId), (s.lane l).state = .stepping → (s.lane l).activity = .hold →
    (s.lane l).counter = (s.lane l).request.paramA →
    ∃ t : State, exec (.hold l) s = .next t ∧ OnlyLane s t l ∧ t.outd = s.outd ∧
      StepEnds (s.lane l) (t.lane l) (s.lane l).step .ok (s.lane l).request.paramA
        ((s.lane l).startTick + (s.lane l).request.paramA) 0) ∧
  (∀ (s : State) (l : LaneId), (s.lane l).state = .stepping → (s.lane l).activity = .untilEpoch →
    (s.lane l).fresh = false → reached s.tbu.epoch (s.lane l).request.paramA = true →
    ∃ t : State, exec (.untilReached l) s = .next t ∧ OnlyLane s t l ∧ t.outd = s.outd ∧
      StepEnds (s.lane l) (t.lane l) (s.lane l).step .ok 0 (s.lane l).request.paramA 0)

/-- PULSE changes phase when the phase counter reaches the phase's length, and completes after the rest phase of its
last pulse, its value the pulses and its aux the active level, 1 for high and 0 for low, the plan then going on; it
moves its line only if its lane has claimed it (08, R124, R128; 06, R87 to R89). -/
def Obligations.PulsePhases : Prop :=
  (∀ (s : State) (l : LaneId) (n : Nat), (s.lane l).state = .stepping →
    ((s.lane l).activity = .pulse n true → (s.lane l).counter = (s.lane l).request.paramA →
      ∃ t : State, exec (.pulse l) s = .next t ∧ OnlyLane s t l ∧
        (t.lane l).activity = .pulse (n + 1) false ∧ (t.lane l).counter = 0 ∧
        (t.lane l).list = (s.lane l).list ∧
        ∀ o : OutLine, t.outd[o] =
          if o = (s.lane l).request.outLine ∧ (s.outd[o]).claimer = some l then
            { s.outd[o] with level := !pulseActive (s.lane l).request.mode }
          else s.outd[o]) ∧
    ((s.lane l).activity = .pulse n false → (s.lane l).counter = (s.lane l).request.paramB →
      n ≠ (s.lane l).request.arg.toNat →
      ∃ t : State, exec (.pulse l) s = .next t ∧ OnlyLane s t l ∧
        (t.lane l).activity = .pulse n true ∧ (t.lane l).counter = 0 ∧
        (t.lane l).list = (s.lane l).list ∧
        ∀ o : OutLine, t.outd[o] =
          if o = (s.lane l).request.outLine ∧ (s.outd[o]).claimer = some l then
            { s.outd[o] with level := pulseActive (s.lane l).request.mode }
          else s.outd[o]) ∧
    ((s.lane l).activity = .pulse n false → (s.lane l).counter = (s.lane l).request.paramB →
      n = (s.lane l).request.arg.toNat →
      ∃ t : State, exec (.pulse l) s = .next t ∧ OnlyLane s t l ∧ t.outd = s.outd ∧
        StepEnds (s.lane l) (t.lane l) (s.lane l).step .ok
          (BitVec.setWidth 32 (s.lane l).request.arg) (s.lane l).startTick
          (levelByte (pulseActive (s.lane l).request.mode)))) ∧
  (∀ mode : Byte, pulseActive mode = !mode.getLsbD 0) ∧
  (levelByte true = 1 ∧ levelByte false = 0)

/-- A window that expires, with the boundary's edges taken first, completes the step TIMEOUT with the values its
kind gives: EDGE the window, the boundary and the accepted level after it, WIDTH and PERIOD what they have
measured. Under GO_ON_TIMEOUT the plan goes on, and otherwise it concludes TIMED_OUT at that step (06, R94; 07,
R112, R114, R117). The windows of the kinds (06, R94). A span counter at 0xFFFFFFFF with no edge at that boundary
to end the span ends the step OVERRANGE with that value, before a window of that boundary (07, R111, R114, R117).
With no edge at the boundary the state that the command meets is the state itself. A level is 1 for high and 0 for
low. -/
def Obligations.WindowAndOverrangeEndSteps : Prop :=
  (∀ (s : State) (l : LaneId) (x : Lane) (value stamp : Word) (aux : Byte),
    s.acceptEdges.lane l = x → x.state = .stepping → x.windowOf ≠ 0 → x.windowCounter = x.windowOf →
    (x.activity = .edge ∧ value = x.windowOf ∧ stamp = s.tbu.epoch ∧
        aux = levelByte (s.acceptEdges.inc.lines[Fin.ofNat 8 x.request.line.toNat]).accepted) ∨
      ((x.activity = .widthEnter ∨ x.activity = .periodFirst) ∧ value = 0 ∧ stamp = s.tbu.epoch ∧
        aux = 0) ∨
      (x.activity = .widthLeave stamp ∧ x.spanCounter ≠ 0xFFFFFFFF#32 ∧ value = x.spanCounter ∧
        aux = 1) ∨
      (∃ n, x.activity = .period stamp n value ∧ x.spanCounter ≠ 0xFFFFFFFF#32 ∧
        aux = BitVec.ofNat 8 n) →
    ∃ t : State, exec (.windowExpiry l) s = .next t ∧ OnlyLane s.acceptEdges t l ∧
      t.outd = s.acceptEdges.outd ∧
      Completed x (t.lane l) x.step .timeout value stamp aux ∧
      (x.flags.getLsbD 3 = true → PassGoesOn x (t.lane l) x.step false true) ∧
      (x.flags.getLsbD 3 = false → (t.lane l).state = .closing ∧ (t.lane l).activity = .none ∧
        (t.lane l).outcome = some (.timedOut, BitVec.ofNat 8 x.step))) ∧
  (∀ x : Lane,
    (x.request.kind = 3 → x.windowOf = if x.request.paramB ≠ 0 then x.request.paramB else x.window) ∧
    (x.request.kind = 4 ∨ x.request.kind = 6 → x.windowOf = x.window) ∧
    (x.request.kind ≠ 3 → x.request.kind ≠ 4 → x.request.kind ≠ 6 → x.windowOf = 0)) ∧
  (∀ s : State, ((∀ i : InLine, s.inc.edgeDue i = false) → s.acceptEdges = s) ∧
    ∀ i : InLine, (s.acceptEdges.inc.lines[i]).accepted =
      if s.inc.edgeDue i then !(s.inc.lines[i]).accepted else (s.inc.lines[i]).accepted) ∧
  (∀ (s : State) (l : LaneId) (x : Lane), s.acceptEdges.lane l = x → x.state = .stepping →
    x.spanCounter = 0xFFFFFFFF#32 →
    (∀ enter, x.activity = .widthLeave enter →
      ∃ t : State, exec (.overrange l) s = .next t ∧ OnlyLane s.acceptEdges t l ∧
        t.outd = s.acceptEdges.outd ∧
        StepEnds x (t.lane l) x.step .overrange 0xFFFFFFFF#32 enter 1) ∧
    (∀ first n span, x.activity = .period first n span →
      ∃ t : State, exec (.overrange l) s = .next t ∧ OnlyLane s.acceptEdges t l ∧
        t.outd = s.acceptEdges.outd ∧
        StepEnds x (t.lane l) x.step .overrange 0xFFFFFFFF#32 first (BitVec.ofNat 8 n))) ∧
  (levelByte true = 1 ∧ levelByte false = 0)

/-! ## Lanes: loads and beginnings of steps -/

/-- A good load completes at its tick of completion: that tick is started_epoch and the start tick of step 0
of pass 1, with no pass completed and every current result cleared, and step 0 begins by its kind (06, R86 to
R88; 08, R125 to R128; 09, R131). -/
def Obligations.LoadCompletionBeginsStepZero : Prop :=
  ∀ (s : State) (l : LaneId), (s.lane l).state = .loading → (s.lane l).loaded = true →
    (s.lane l).loadDue = true → (s.lane l).tear = false →
    1 ≤ ((s.lane l).steps.getD 0 StepReq.zero).kind.toNat →
    ((s.lane l).steps.getD 0 StepReq.zero).kind.toNat ≤ 9 →
    ∃ t : State, exec (.loadCompletion l) s = .next t ∧ OnlyLane s t l ∧
      (t.lane l).startedEpoch = s.tbu.epoch ∧ (t.lane l).startTick = s.tbu.epoch ∧ (t.lane l).step = 0 ∧
      ((t.lane l).state = .stepping ∨ (t.lane l).state = .closing) ∧
      StepBegun s t l 0 { s.lane l with
          state := .stepping, passesDone := 0, results := Vector.replicate 12 none }
        ((s.lane l).steps.getD 0 StepReq.zero)

/-- A waiting step begins at a boundary when the list has room, its counters at 0 and, at step 0, every current result
cleared. HOLD of 0, UNTIL already reached and SET are instant and end at once, UNTIL with the ticks past its target
and aux 1, SET with the level it drives and the level its line had, 1 for high and 0 for low; SET and PULSE drive
their claimed line. The other steps run, CHECK with the read of its qualifier's mask word raised. A step passed over
completes SKIPPED and does nothing else (06, R87, R88; 08, R125 to R128; 09, R131, R136). That a step passed over
counts as the one completed most recently is the model's reading (log 29). A pin shows the level that OUTD holds once
nothing is due at the instant any more, and the events due, taken one by one, show no level in between, as long as the
instant holds at most 128 of them (the model's bound, log 4); two SETs of one line at one boundary show the second's
level alone, where nothing else is due (08, R118, R124). -/
def Obligations.StepBegins : Prop :=
  (∀ (s : State) (l : LaneId) (k : Nat) (x : Lane) (q : StepReq),
    x = { s.lane l with results := if k = 0 then Vector.replicate 12 none else (s.lane l).results } →
    q = (s.lane l).steps.getD k StepReq.zero →
    (s.lane l).state = .stepping → (s.lane l).tear = false → (s.lane l).list.length < 2 →
    ((s.lane l).activity = .wait k true true →
      ∃ t : State, exec (.stepBegin l) s = .next t ∧ OnlyLane s t l ∧ t.outd = s.outd ∧
        StepEnds (s.lane l) (t.lane l) k .skipped 0 s.tbu.epoch 0) ∧
    ((s.lane l).activity = .wait k false true →
      ∃ t : State, exec (.stepBegin l) s = .next t ∧ OnlyLane s t l ∧ StepBegun s t l k x q)) ∧
  (levelWord true = 1 ∧ levelWord false = 0 ∧ levelByte true = 1 ∧ levelByte false = 0) ∧
  (∀ (s : State) (o : OutLine), s.nextDue = none → s.outputPin o = (s.outd[o]).level) ∧
  (∀ (s : State) (e : Due) (o : OutLine), s.nextDue = some e → (finishLoop 127 (e.act s)).nextDue = none →
    (e.act s).outputPin o = s.outputPin o) ∧
  (∀ (s : State) (l : LaneId) (k : Nat) (a b : StepReq) (o : OutLine),
    a = (s.lane l).steps.getD k StepReq.zero → b = (s.lane l).steps.getD (k + 1) StepReq.zero →
    a.kind = 7 → b.kind = 7 → a.outLine = o → b.outLine = o → (s.outd[o]).claimer = some l →
    (s.lane l).state = .stepping → (s.lane l).tear = false → (s.lane l).list = [] →
    (s.lane l).activity = .wait k false true → k + 1 ≠ (s.lane l).stepCount.toNat →
    ∃ t u : State, exec (.stepBegin l) s = .next t ∧ exec (.stepBegin l) t = .next u ∧
      (t.outd[o]).level = (a.mode == 1) ∧ (u.outd[o]).level = (b.mode == 1) ∧
      (u.nextDue = none → u.outputPin o = (b.mode == 1) ∧
        (t.nextDue = some (.stepBegin l) → t.outputPin o = (b.mode == 1) ∧
          (s.nextDue = some (.stepBegin l) → s.outputPin o = (b.mode == 1)))))

/-! ## Admission -/

/-- After a walk in RUNNING, a lane is left free only if every eligible entry still in the queue is blocked by
a line (05, R70, R71). A walk visits the entries from the head while a lane is free: it passes over an ineligible
one, starts an eligible one on the lowest-numbered lane in the pool if its lines are all free to it, and otherwise
reserves for it and goes on; outside RUNNING no walk is made (05, R69 to R72). A line is free to an entry when it has
no owner and its reservation is absent, the entry's own, or of an entry that stands after it (05, R70). Reserving
takes every line of out_mask whose reservation is absent or of an entry that stands after it, and changes no other
line and no owner (05, R72). -/
def Obligations.WalkLeavesNoStartableEntry : Prop :=
  (∀ s : State, s.engc.engine = .running → s.walk.freeLane ≠ none →
    ∀ (earlier : List Entry) (e : Entry) (later : List Entry),
      s.walk.admu.queue = earlier ++ e :: later → e.eligible = true →
      linesFreeTo s.walk.admu.claims e later = false) ∧
  (∀ s : State, (s.engc.engine = .running → s.walk = walkFrom [] s.admu.queue s) ∧
    (s.engc.engine ≠ .running → s.walk = s)) ∧
  (∀ (s : State) (kept : List Entry),
    walkFrom kept [] s = { s with admu := { s.admu with queue := kept } } ∧
    ∀ (e : Entry) (later : List Entry),
      (s.freeLane = none →
        walkFrom kept (e :: later) s = { s with admu := { s.admu with queue := kept ++ e :: later } }) ∧
      (s.freeLane ≠ none → e.eligible = false →
        walkFrom kept (e :: later) s = walkFrom (kept ++ [e]) later s) ∧
      (∀ l : LaneId, s.freeLane = some l → e.eligible = true →
        linesFreeTo s.admu.claims e later = true →
        walkFrom kept (e :: later) s = walkFrom kept later (s.startPlan e l)) ∧
      (s.freeLane ≠ none → e.eligible = true → linesFreeTo s.admu.claims e later = false →
        walkFrom kept (e :: later) s = walkFrom (kept ++ [e]) later
          { s with admu := { s.admu with claims := reserveFor e later s.admu.claims } })) ∧
  (∀ s : State,
    (s.freeLane = none ↔ ∀ l : LaneId, s.admu.pool[l] = false) ∧
    ∀ l : LaneId, s.freeLane = some l ↔
      s.admu.pool[l] = true ∧ ∀ j : LaneId, j.val < l.val → s.admu.pool[j] = false) ∧
  (∀ (v : Vector Claim 4) (e : Entry) (later : List Entry),
    (linesFreeTo v e later = true ↔ ∀ o : OutLine, e.posting.outMask.getLsbD o.val = true →
      (v[o]).owner = none ∧ ((v[o]).reservation = none ∨ (v[o]).reservation = some e.slot ∨
        ∃ x ∈ later, (v[o]).reservation = some x.slot)) ∧
    ∀ o : OutLine,
      (e.posting.outMask.getLsbD o.val = true →
        (v[o]).reservation = none ∨ (∃ x ∈ later, (v[o]).reservation = some x.slot) →
        (reserveFor e later v)[o] = { v[o] with reservation := some e.slot }) ∧
      (e.posting.outMask.getLsbD o.val = false ∨
          ((v[o]).reservation ≠ none ∧ ∀ x ∈ later, (v[o]).reservation ≠ some x.slot) →
        (reserveFor e later v)[o] = v[o]))

/-- A start is one act: the lane leaves the pool and owns exactly the entry's lines beside what it owned, no
reservation is left on them nor for the entry, OUTD has the claimer and no keep flag and no level changes, the
mirror shows RUNNING on that lane, the lane begins LOADING with the slot, the sequence number and the header copy that
the entry carries, step_count, passes, window, flags and out_mask, and with the lines of out_mask as its claimed lines,
the rest of its context being empty and its flags clear, and its first read is raised (05, R71; 08, R120; 06, R83,
R84). -/
def Obligations.StartIsOneAct : Prop :=
  ∀ (s : State) (e : Entry) (l : LaneId),
    (s.startPlan e l).admu.pool[l] = false ∧
    (∀ k : LaneId, k ≠ l → (s.startPlan e l).admu.pool[k] = s.admu.pool[k] ∧
      (s.startPlan e l).lane k = s.lane k) ∧
    (∀ o : OutLine, e.posting.outMask.getLsbD o.val = true →
      (s.startPlan e l).admu.claims[o] = { owner := some l, reservation := none } ∧
      (s.startPlan e l).outd[o] = { s.outd[o] with claimer := some l, keep := false }) ∧
    (∀ o : OutLine, e.posting.outMask.getLsbD o.val = false →
      ((s.startPlan e l).admu.claims[o]).owner = (s.admu.claims[o]).owner ∧
      (s.startPlan e l).outd[o] = s.outd[o]) ∧
    (∀ o : OutLine, ((s.startPlan e l).admu.claims[o]).reservation ≠ some e.slot) ∧
    ((s.startPlan e l).mirror e.slot).state = .running ∧
    ((s.startPlan e l).mirror e.slot).lane = some l ∧
    ((s.startPlan e l).mirror e.slot).knownSeq = (s.mirror e.slot).knownSeq ∧
    (∀ x : Lane, x.Clear → (s.startPlan e l).lane l =
      { x with
        state := .loading, slot := e.slot, seq := e.seq, stepCount := e.posting.stepCount,
        passes := e.posting.passes, window := e.posting.window, flags := e.posting.flags,
        outMask := e.posting.outMask, claimed := e.posting.outMask.extractLsb' 0 4 }) ∧
    (s.startPlan e l).mport = s.mport ++ [s.requestOf (.loadHost l) (s.hostWordAddr e.slot) none]

/-- A release clears the lane's owners and claimers; its lines keep their levels with the keep flag set only
when asked in RUNNING and otherwise go to their idle levels; other lines and every reservation are unchanged
(05, R77, R78; 08, R121). -/
def Obligations.ReleaseDrivesIdleOrKeeps : Prop :=
  ∀ (s : State) (l : LaneId) (kept : Bool) (o : OutLine),
    ((s.releaseClaims l kept).admu.claims[o]).reservation = (s.admu.claims[o]).reservation ∧
    ((s.releaseClaims l kept).admu.claims[o]).owner =
      (if (s.admu.claims[o]).owner = some l then none else (s.admu.claims[o]).owner) ∧
    ((s.outd[o]).claimer ≠ some l → (s.releaseClaims l kept).outd[o] = s.outd[o]) ∧
    ((s.outd[o]).claimer = some l → kept = true → s.engc.engine = .running →
      (s.releaseClaims l kept).outd[o] = { s.outd[o] with claimer := none, keep := true }) ∧
    ((s.outd[o]).claimer = some l → kept = false ∨ s.engc.engine ≠ .running →
      (s.releaseClaims l kept).outd[o] =
        { s.outd[o] with claimer := none, keep := false, level := (s.outd[o]).idle })

/-- ELIGIBLE and LATENESS_LIMIT take ADMU's event for the boundary whole. Every entry whose start_epoch is
reached and that still waits is eligible, no entry whose limit is reached waits any longer, and an entry that
leaves the queue has been started, or its slot waits LATE, no line is reserved for it and its removal settle waits
for SMON (05, R66, R69, R75, R76; 04, R58). -/
def Obligations.EligibleAndLatenessTestsTakeEffect : Prop :=
  (∀ s : State, s.eligibleDue = true →
    ∃ t : State, exec .eligible s = .next t ∧ t.tbu = s.tbu ∧ t.mem = s.mem ∧ AdmissionTaken s t) ∧
  (∀ (s : State) (k : SlotId), s.firstLate = some k →
    ∃ t : State, exec .latenessLimit s = .next t ∧ t.tbu = s.tbu ∧ t.mem = s.mem ∧ AdmissionTaken s t ∧
      ((t.mirror k).state = .running ∨ (t.mirror k).pendingOutcome = some .late)) ∧
  (∀ s : State, s.engc.engine = .running →
    (s.eligibleDue = true ↔ ∃ e ∈ s.admu.queue, e.eligible = false ∧
      eligibleAt s.tbu.epoch e.posting = true) ∧
    (s.firstLate ≠ none ↔ ∃ e ∈ s.admu.queue, latenessReached s.tbu.epoch e.posting = true))

/-! ## The Slot Monitor -/

/-- CONFIGURATION_CHECK: a read error is counted READ_ERR; config_seq equal to the copy ends the piece with no
reload, in RUNNING the visit of slot 0 following, and outside it the sweep being given up; a difference raises the
first line table read (04, R48 to R50, R63). -/
def Obligations.ConfigurationCheckDecides : Prop :=
  ∀ (s : State) (r : BusReturn) (req : Request) (rest : List Request) (p : Piece) (k : Work),
    Returns s r req rest → req.access = .config →
    (s.afterReturn r req rest).smon.piece = some (p, k) →
    ∃ t : State, exec (.configurationCheck r) s = .next t ∧ OnlyMonitor (s.afterReturn r req rest) t ∧
      t.smon.mirror = (s.afterReturn r req rest).smon.mirror ∧
      (replyFailed r.reply = true →
        t.smon.counts = (s.afterReturn r req rest).smon.counts ++
          [{ kind := .fault .readErr, requester := .smon }] ∧
        t.smon.piece = some (p, .counting .endPiece)) ∧
      (replyFailed r.reply = false →
        configSeq (s.wordReturned r req rest) ≠ (s.afterReturn r req rest).smon.counters.ackCopy →
        t.smon.piece = some (p, .reload (configSeq (s.wordReturned r req rest)) []) ∧
        t.mport = rest ++ [(s.afterReturn r req rest).requestOf .lineTable
          (s.regp.area + 0x20#32) none]) ∧
      (replyFailed r.reply = false →
        configSeq (s.wordReturned r req rest) = (s.afterReturn r req rest).smon.counters.ackCopy →
        PieceEnded (s.afterReturn r req rest) t p) ∧
      (replyFailed r.reply = false → p = .config →
        configSeq (s.wordReturned r req rest) = (s.afterReturn r req rest).smon.counters.ackCopy →
        (s.afterReturn r req rest).engc.engine = .running →
        (s.afterReturn r req rest).smon.waiting = [] →
        t.smon.piece = some (.visit 0, .visit 0) ∧
        t.mport = rest ++ [(s.afterReturn r req rest).requestOf .hostWord
          (s.regp.area + 0x100#32) none])

/-- LINE_TABLE_RELOAD: the first and the second word each bring the next read; the third word of a good table
applies it and asks for config_ack. In INC a line whose
code changes takes the new code and loses its run, and no other line changes; in OUTD an unclaimed line whose
idle level changes goes to it at once and gives up a kept level, and any other keeps its level. A read error or
a bad table is counted BAD_CONFIG and the settings in force are kept (04, R51; 07, R108; 08, R122). That a read
error at the first or second word goes straight to that count and ends the reload, with no further read, is the
model's reading (log 10). A table is good when its eight codes are 0 to 4 and its four levels 0 or 1 (01, R6). -/
def Obligations.ReloadAppliesWholeTables : Prop :=
  (∀ (s u : State) (r : BusReturn) (req : Request) (rest : List Request) (p : Piece) (seq : Half)
    (a b c : Word), Returns s r req rest → req.access = .lineTable → u = s.afterReturn r req rest →
    c = s.wordReturned r req rest → u.smon.piece = some (p, .reload seq [a, b]) →
    ∃ t : State, exec (.lineTableReload r) s = .next t ∧ t.smon.piece = some (p, .counting .endPiece) ∧
      t.inc.sampling = u.inc.sampling ∧ t.inc.pins = u.inc.pins ∧
      (replyFailed r.reply = false → lineTableGood [a, b, c] = true →
        (∀ i : InLine, t.inc.lines[i] =
          if filterCode [a, b, c] i = (u.inc.lines[i]).filterCode then u.inc.lines[i]
          else { u.inc.lines[i] with filterCode := filterCode [a, b, c] i, run := 0 }) ∧
        (∀ o : OutLine, (t.outd[o]).claimer = (u.outd[o]).claimer ∧
          (t.outd[o]).idle = (idleByte [a, b, c] o != 0) ∧
          ((u.outd[o]).claimer = none → (u.outd[o]).idle ≠ (idleByte [a, b, c] o != 0) →
            (t.outd[o]).level = (idleByte [a, b, c] o != 0) ∧ (t.outd[o]).keep = false) ∧
          ((u.outd[o]).claimer ≠ none ∨ (u.outd[o]).idle = (idleByte [a, b, c] o != 0) →
            (t.outd[o]).level = (u.outd[o]).level ∧ (t.outd[o]).keep = (u.outd[o]).keep)) ∧
        t.smon.counts = u.smon.counts ++ [{ kind := .configAck seq, requester := .smon }]) ∧
      (replyFailed r.reply = true ∨ lineTableGood [a, b, c] = false →
        t.inc = u.inc ∧ t.outd = u.outd ∧
        t.smon.counts = u.smon.counts ++ [{ kind := .fault .badConfig, requester := .smon }])) ∧
  (∀ (s u : State) (r : BusReturn) (req : Request) (rest : List Request) (p : Piece) (seq : Half)
    (got : List Word), Returns s r req rest → req.access = .lineTable → u = s.afterReturn r req rest →
    u.smon.piece = some (p, .reload seq got) → got.length < 2 →
    ∃ t : State, exec (.lineTableReload r) s = .next t ∧ OnlyMonitor u t ∧ t.smon.mirror = u.smon.mirror ∧
      (replyFailed r.reply = false →
        t.smon.piece = some (p, .reload seq (got ++ [s.wordReturned r req rest])) ∧
        t.mport = rest ++ [u.requestOf .lineTable (u.lineTableAddr (got.length + 1)) none]) ∧
      (replyFailed r.reply = true → t.smon.piece = some (p, .counting .endPiece) ∧
        t.smon.counts = u.smon.counts ++ [{ kind := .fault .badConfig, requester := .smon }])) ∧
  (∀ a b c : Word,
    (∀ i : InLine, filterCode [a, b, c] i =
      (if i.val < 4 then a else b).extractLsb' (8 * (i.val % 4)) 8) ∧
    (∀ o : OutLine, idleByte [a, b, c] o = c.extractLsb' (8 * o.val) 8) ∧
    (lineTableGood [a, b, c] = true ↔ (∀ i : InLine, (filterCode [a, b, c] i).toNat ≤ 4) ∧
      ∀ o : OutLine, (idleByte [a, b, c] o).toNat ≤ 1))

/-- SLOT_VISIT by the mirror entry: an IDLE slot with a changed post_seq has its posting record read; a RUNNING
slot's recall sets the lane's flag and a changed post_seq makes the slot TEARING; a queued plan's tear leaves the
queue, clears its reservations and is counted, its recall leaves the queue likewise and is settled RECALLED; a queued
slot with a pending outcome is settled with it in this visit, not a second time, and a changed post_seq is then
discovered; an unchanged slot is left; a read error skips the slot (04, R53, R54, R58; 05, R73). A visit with no
further work ends its piece: in RUNNING the visit of the next slot below the slot count follows, or the closing, and
outside RUNNING the sweep is given up (04, R48, R49, R63). In DRAINING the visit that was under way discovers a post
that memory held when DRAINING began (05, R80); a post made in DRAINING waits in memory (02, R18, R33; 13, R172), and
a recall written there is not seen (02, R28). That the two are told apart by the host word that memory held then is
the model's reading (log 32). That a torn queued plan's mirror goes IDLE at the removal is its choice (log 34), and
that a notice for a lane that no longer holds the plan ends there its reading (log 15). That a RUNNING slot re-posted
in DRAINING is torn by that visit is its choice (log 37). A lane told of the tear gives up the reads of its load that
are outstanding, or the check of its settle (06, R84, R95, R98; for the check log 14). A recall that the visit sees
for a post that known_seq is not, or that an earlier sweep saw for the same post, is in force for it from then on, in
every state of the slot, and no longer where another post is read (02, R20, R28); that one is held beside the mirror,
and goes when another post is read, is the model's choice (log 36). -/
def Obligations.SlotVisitDecides : Prop :=
  (∀ (s u : State) (r : BusReturn) (req : Request) (rest : List Request) (p : Piece) (k : SlotId)
    (post recallNo known : Half) (seen : Option Half), Returns s r req rest → req.access = .hostWord →
    u = s.afterReturn r req rest → u.smon.piece = some (p, .visit k) →
    post = (s.wordReturned r req rest).extractLsb' 0 16 →
    recallNo = (s.wordReturned r req rest).extractLsb' 16 16 → known = (u.mirror k).knownSeq →
    seen = (if u.engc.engine = .draining ∧
      u.smon.hostWordAtDrain.map (fun w => w.extractLsb' 16 16) ≠ some recallNo then none else some recallNo) →
    ∃ t : State, exec (.slotVisit r) s = .next t ∧
      (replyFailed r.reply = false →
        t.smon.recalls[k] =
          (if post ≠ known ∧
              (u.smon.recalls[k] = some { area := s.regp.area, post := post } ∨
                (seen = some post ∧ (u.engc.engine = .draining →
                  u.smon.hostWordAtDrain.map (fun w => w.extractLsb' 0 16) = some post))) then
            some { area := s.regp.area, post := post }
          else none) ∧
        ∀ j : SlotId, j ≠ k → t.smon.recalls[j] = u.smon.recalls[j]) ∧
      (replyFailed r.reply = true →
        t.smon.mirror = u.smon.mirror ∧ t.smon.recalls = u.smon.recalls ∧
        t.smon.counts = u.smon.counts ++ [{ kind := .fault .readErr, requester := .smon }] ∧
        t.smon.piece = some (p, .counting .endPiece)) ∧
      (replyFailed r.reply = false → (u.mirror k).state = .idle →
        t.smon.mirror = u.smon.mirror ∧ t.lanes = u.lanes ∧ t.admu = u.admu ∧
        (post ≠ known → u.engc.engine ≠ .draining ∨
            u.smon.hostWordAtDrain.map (fun w => w.extractLsb' 0 16) = some post →
          t.smon.piece = some (p, .record k post []) ∧
          t.mport = rest ++ [u.requestOf .record (u.recordAddr k 0) none]) ∧
        (post = known ∨ (u.engc.engine = .draining ∧
            u.smon.hostWordAtDrain.map (fun w => w.extractLsb' 0 16) ≠ some post) →
          PieceEnded u t p)) ∧
      (replyFailed r.reply = false → (u.mirror k).state = .tearing →
        t.smon.mirror = u.smon.mirror ∧ (∀ l : LaneId, t.lane l = u.lane l) ∧ PieceEnded u t p) ∧
      (∀ l : LaneId, replyFailed r.reply = false → (u.mirror k).state = .running →
        (u.mirror k).lane = some l → (u.lane l).state ≠ .free → (u.lane l).slot = k →
        PieceEnded u t p ∧
        (post = known → t.smon.mirror = u.smon.mirror ∧
          (seen = some known → (t.lane l).recallFlag = true) ∧
          (seen ≠ some known → t.lane l = u.lane l)) ∧
        (post ≠ known → (t.mirror k).state = .tearing ∧
          ((u.lane l).pastSettleCheck = false → (t.lane l).tear = true) ∧
          ((u.lane l).pastSettleCheck = false → (u.lane l).tear = false →
            ∃ raised : List Request, t.mport = givenUpBy l rest ++ raised) ∧
          ((u.lane l).pastSettleCheck = true → t.lane l = u.lane l))) ∧
      (∀ l : LaneId, replyFailed r.reply = false → (u.mirror k).state = .running →
        (u.mirror k).lane = some l → (u.lane l).state = .free ∨ (u.lane l).slot ≠ k →
        PieceEnded u t p ∧ t.lanes = u.lanes ∧ t.admu = u.admu ∧
        (post = known → t.smon.mirror = u.smon.mirror) ∧
        (post ≠ known → t.mirror k = { u.mirror k with state := .tearing })) ∧
      (replyFailed r.reply = false → (u.mirror k).state = .running → (u.mirror k).lane = none →
        PieceEnded u t p ∧ t.smon.mirror = u.smon.mirror ∧ t.lanes = u.lanes) ∧
      (replyFailed r.reply = false → (u.mirror k).state = .queued →
        (u.mirror k).pendingOutcome = none →
        (post ≠ known → t.inQueue k = false ∧ (t.mirror k).state = .idle ∧
          (t.mirror k).knownSeq = known ∧
          (∀ o : OutLine, (t.admu.claims[o]).reservation ≠ some k) ∧
          t.smon.counts = u.smon.counts ++ [{ kind := .tear, requester := .smon }] ∧
          t.smon.piece = some (p, .counting (.tornVisit k post))) ∧
        (post = known → seen = some known → t.inQueue k = false ∧
          (∀ o : OutLine, (t.admu.claims[o]).reservation ≠ some k) ∧
          t.smon.piece = some (p, .settleDue
            { slot := k, seq := known, outcome := .recalled, notify := u.entryNotify k,
              settledEpoch := 0, discover := none })) ∧
        (post = known → seen ≠ some known → t.admu = u.admu ∧ t.smon.mirror = u.smon.mirror ∧
          PieceEnded u t p)) ∧
      (∀ why : Removal, replyFailed r.reply = false → (u.mirror k).state = .queued →
        (u.mirror k).pendingOutcome = some why →
        t.smon.mirror = u.smon.mirror ∧
        (∀ q : Piece, q ∈ t.smon.waiting ↔ q ∈ u.smon.waiting ∧ ∀ w n, q ≠ .removal k w n) ∧
        ∃ notify : Bool,
          t.smon.piece = some (p, .settleDue
            { slot := k, seq := known, outcome := (match why with | .late => .late | .halted => .halted),
              notify := notify, settledEpoch := 0,
              discover :=
                if post = known ∨ (u.engc.engine = .draining ∧
                    u.smon.hostWordAtDrain.map (fun w => w.extractLsb' 0 16) ≠ some post) then none
                else some post }) ∧
          (∀ before w n after, u.smon.waiting = before ++ .removal k w n :: after →
            (∀ q ∈ before, ∀ w n, q ≠ .removal k w n) → notify = n))) ∧
  (∀ x : Lane, x.pastSettleCheck = true ↔ x.access = .settleWrite 3 ∨ x.access = .settleCount) ∧
  (∀ s : State, (∀ k : SlotId, s.inQueue k = true ↔ ∃ e ∈ s.admu.queue, e.slot = k) ∧
    (s.OneEntryPerSlot → ∀ e ∈ s.admu.queue, s.entryNotify e.slot = e.posting.flags.getLsbD 0))

/-- DISCOVERY: a read error on any of the five words is counted READ_ERR and the mirror is kept; the first four words
each bring the next read, and the fifth brings the judgement, in the order MALFORMED, RECALLED for a recall of the
post that this visit or an earlier sweep has seen, LINES_BUSY, accepted, and the take's first write, taken_epoch (04, R56, R57; 02, R21, R28). The
record's fields (12, R165), what makes it malformed (01, R9; 04, R56), and when a line it names is busy (05, R74). The
NOWAIT test is not asked in DRAINING (05, R80; log 17). That an error on one of the first four words goes straight to
that count and ends the piece, with no further read, is the model's reading (log 10). The recall seen stays in force
also after such an error (02, R28); the field that holds it is the model's choice (log 36). -/
def Obligations.DiscoveryJudgesAndTakes : Prop :=
  (∀ (s u : State) (r : BusReturn) (req : Request) (rest : List Request) (p : Piece) (k : SlotId)
    (post : Half) (a b c d e : Word), Returns s r req rest → req.access = .record →
    u = s.afterReturn r req rest → e = s.wordReturned r req rest →
    u.smon.piece = some (p, .record k post [a, b, c, d]) →
    ∃ t : State, exec (.discovery r) s = .next t ∧ OnlyMonitor u t ∧ t.smon.mirror = u.smon.mirror ∧
      t.smon.recalls = u.smon.recalls ∧
      (replyFailed r.reply = true → t.smon.piece = some (p, .counting .endPiece) ∧
        t.smon.counts = u.smon.counts ++ [{ kind := .fault .readErr, requester := .smon }]) ∧
      (replyFailed r.reply = false → ∃ refusal : Option PlanOutcome,
        t.smon.piece = some (p, .takeEpoch
          { slot := k, post := post, posting := Posting.ofWords [a, b, c, d, e], refusal := refusal }) ∧
        t.mport = rest ++ [u.requestOf .takeEpoch (u.takenAddr k) (some s.tbu.epoch)] ∧
        ((Posting.ofWords [a, b, c, d, e]).bad = true → refusal = some .malformed) ∧
        ((Posting.ofWords [a, b, c, d, e]).bad = false →
          u.smon.recalls[k] = some { area := s.regp.area, post := post } → refusal = some .recalled) ∧
        ((Posting.ofWords [a, b, c, d, e]).bad = false →
          u.smon.recalls[k] ≠ some { area := s.regp.area, post := post } → u.engc.engine = .running →
          refusal = if b.getLsbD 1 = true ∧ u.linesBusy (a.extractLsb' 16 4) = true then some .linesBusy
            else none) ∧
        ((Posting.ofWords [a, b, c, d, e]).bad = false →
          u.smon.recalls[k] ≠ some { area := s.regp.area, post := post } → u.engc.engine = .draining →
          refusal = none))) ∧
  (∀ (s u : State) (r : BusReturn) (req : Request) (rest : List Request) (p : Piece) (k : SlotId)
    (post : Half) (got : List Word), Returns s r req rest → req.access = .record →
    u = s.afterReturn r req rest → u.smon.piece = some (p, .record k post got) → got.length < 4 →
    ∃ t : State, exec (.discovery r) s = .next t ∧ OnlyMonitor u t ∧ t.smon.mirror = u.smon.mirror ∧
      t.smon.recalls = u.smon.recalls ∧
      (replyFailed r.reply = false →
        t.smon.piece = some (p, .record k post (got ++ [s.wordReturned r req rest])) ∧
        t.mport = rest ++ [u.requestOf .record (u.recordAddr k (got.length + 1)) none]) ∧
      (replyFailed r.reply = true → t.smon.piece = some (p, .counting .endPiece) ∧
        t.smon.counts = u.smon.counts ++ [{ kind := .fault .readErr, requester := .smon }])) ∧
  (∀ a b c d e : Word, Posting.ofWords [a, b, c, d, e] =
    { stepCount := a.extractLsb' 0 8, priority := a.extractLsb' 8 8, outMask := a.extractLsb' 16 8,
      passes := a.extractLsb' 24 8, flags := b, window := c, startEpoch := d, slack := e }) ∧
  (∀ p : Posting, p.bad = true ↔ p.stepCount.toNat = 0 ∨ 12 < p.stepCount.toNat ∨
    3 < p.priority.toNat ∨ 15 < p.outMask.toNat) ∧
  (∀ (s : State) (m : BitVec 4), s.linesBusy m = true ↔ ∃ o : OutLine, m.getLsbD o.val = true ∧
    ((s.admu.claims[o]).owner ≠ none ∨ (s.admu.claims[o]).reservation ≠ none))

/-- TAKE: after taken_epoch the part word is written with take_seq, in bits 15 to 0, the post and settle_seq, in bits
31 to 16, the settle copy; once it has landed known_seq is the post. An accepted plan is handed to ADMU under the next
discovery number: its entry stands in the queue, or has been started, or waits LATE; in DRAINING it waits HALTED, its
settle ready. In RUNNING, where its limit is not reached, the visit ends and the sweep goes on (04, R48, R49). It
takes its place after every waiting entry of its own or a higher priority and before every one of a lower, which keeps
the queue ordered by priority and then by discovery number where every waiting number of its priority is earlier than
its own (05, R65), and, in a state that no run reaches, in place of one that its slot already has (R64; log 35). A refused
plan is settled; a failed write is counted WRITE_ERR, and the mirror and a recall seen for the post are kept; once the
take has landed no recall waits for it (02, R21, R22, R28; 04, R57; 05, R65, R69, R75, R80; 12, R165). The field that
holds the recall is the model's choice (log 36). Where discovery numbers of one priority lie 2^31 or more apart, that
R65's words on a joining entry decide the place, against its comparison, is its choice too (log 39). -/
def Obligations.TakeWritesThenQueues : Prop :=
  (∀ (s u : State) (r : BusReturn) (f : Bool) (req : Request) (rest : List Request) (p : Piece)
    (j : TakeJob), Returns s r req rest → req.access = .takeEpoch → u = s.afterReturn r req rest →
    u.smon.piece = some (p, .takeEpoch j) →
    ∃ t : State, exec (.take r f) s = .next t ∧ OnlyMonitor u t ∧ t.smon.mirror = u.smon.mirror ∧
      t.smon.recalls = u.smon.recalls ∧
      (replyFailed r.reply = false →
        t.mport = rest ++ [u.requestOf .takePart (u.partWordAddr j.slot)
          (some (partWord j.post (u.mirror j.slot).settleCopy))]) ∧
      (replyFailed r.reply = true → t.smon.piece = some (p, .counting .endPiece) ∧
        t.smon.counts = u.smon.counts ++ [{ kind := .fault .writeErr, requester := .smon }])) ∧
  (∀ (s u : State) (r : BusReturn) (f : Bool) (req : Request) (rest : List Request) (p : Piece)
    (j : TakeJob) (e : Entry), Returns s r req rest → req.access = .takePart →
    u = s.afterReturn r req rest → u.smon.piece = some (p, .takePart j) →
    e = { slot := j.slot, seq := j.post, posting := j.posting, discovery := u.smon.discovery + 1,
          eligible := eligibleAt s.tbu.epoch j.posting } →
    ∃ t : State, exec (.take r f) s = .next t ∧
      (replyFailed r.reply = true →
        t.smon.mirror = u.smon.mirror ∧ t.smon.recalls = u.smon.recalls ∧
        t.smon.piece = some (p, .counting .endPiece) ∧
        t.smon.counts = u.smon.counts ++ [{ kind := .fault .writeErr, requester := .smon }]) ∧
      (replyFailed r.reply = false → (t.mirror j.slot).knownSeq = j.post ∧
        t.smon.recalls[j.slot] = none ∧
        ∀ k : SlotId, k ≠ j.slot → t.smon.recalls[k] = u.smon.recalls[k]) ∧
      (replyFailed r.reply = false → j.refusal = none →
        t.smon.discovery = u.smon.discovery + 1 ∧
        ((t.mirror j.slot).state = .queued ∨ (t.mirror j.slot).state = .running)) ∧
      (replyFailed r.reply = false → j.refusal = none →
        (u.engc.engine = .running →
          e ∈ t.admu.queue ∨
          (∃ l : LaneId, (t.lane l).state = .loading ∧ (t.lane l).slot = j.slot ∧
            (t.lane l).seq = j.post ∧ (t.mirror j.slot).state = .running ∧
            (t.mirror j.slot).lane = some l) ∨
          (t.mirror j.slot).pendingOutcome = some .late) ∧
        (u.engc.engine = .running → (∀ l : LaneId, u.admu.pool[l] = false) →
          latenessReached s.tbu.epoch j.posting = false →
          t.admu.queue = insertEntry e (u.admu.queue.filter (fun x => x.slot != j.slot))) ∧
        (u.engc.engine = .running → latenessReached s.tbu.epoch j.posting = false →
          PieceEnded u t (.visit j.slot)) ∧
        (u.engc.engine = .draining → t.inQueue j.slot = false ∧
          (∀ o : OutLine, (t.admu.claims[o]).reservation ≠ some j.slot) ∧
          .removal j.slot .halted (j.posting.flags.getLsbD 0) ∈ t.smon.waiting ∧
          (t.mirror j.slot).pendingOutcome = some .halted)) ∧
      (∀ o, replyFailed r.reply = false → j.refusal = some o →
        t.smon.discovery = u.smon.discovery ∧ t.admu = u.admu ∧
        t.smon.piece = some (p, .settleDue
          { slot := j.slot, seq := j.post, outcome := o, notify := j.posting.flags.getLsbD 0,
            settledEpoch := 0, discover := none }))) ∧
  (∀ (e : Entry) (q : List Entry), ∃ front back : List Entry, q = front ++ back ∧
    insertEntry e q = front ++ e :: back ∧
    (∀ x ∈ front, e.posting.priority.toNat ≤ x.posting.priority.toNat) ∧
    (∀ x, back.head? = some x → x.posting.priority.toNat < e.posting.priority.toNat) ∧
    (q.Pairwise (fun a b => b.posting.priority.toNat ≤ a.posting.priority.toNat) →
      ∀ x ∈ back, x.posting.priority.toNat < e.posting.priority.toNat)) ∧
  (∀ (e : Entry) (q : List Entry), q.Pairwise (fun a b => a.before b = true) →
    (∀ x ∈ q, x.posting.priority = e.posting.priority → earlier x.discovery e.discovery = true) →
    (insertEntry e q).Pairwise (fun a b => a.before b = true)) ∧
  (∀ a b : Entry, a.before b = true ↔ b.posting.priority.toNat < a.posting.priority.toNat ∨
    (a.posting.priority = b.posting.priority ∧ a.discovery ≠ b.discovery ∧
      (b.discovery - a.discovery).toNat < 2147483648)) ∧
  (∀ (now : Word) (p : Posting),
    (eligibleAt now p = true ↔ p.flags.getLsbD 2 = true → reached now p.startEpoch = true) ∧
    (latenessReached now p = true ↔ p.flags.getLsbD 2 = true ∧ p.slack ≠ 0 ∧
      reached now (p.startEpoch + p.slack) = true)) ∧
  (∀ take settle : Half, (partWord take settle).extractLsb' 0 16 = take ∧
    (partWord take settle).extractLsb' 16 16 = settle)

/-- REMOVAL_SETTLE: SMON begins a settle that its piece has come to (a refusal, a recall, a visit's pending
outcome), or else the settle of a removed plan that waits: the outcome word with last_step 0xFF, lane 0xFF and
passes_done 0 is written, and the epoch at which it begins is recorded (04, R58; 02, R23, R36). -/
def Obligations.RemovalSettleBegins : Prop :=
  (∀ (s : State) (k : SlotId) (why : Removal) (notify : Bool),
    s.nextPiece = some (.removal k why notify) →
    ∃ t : State, exec .removalSettle s = .next t ∧ OnlyMonitor s t ∧
      t.smon.piece = some (.removal k why notify, .settle
        { slot := k, seq := (s.mirror k).knownSeq, outcome := why.outcome, notify := notify,
          settledEpoch := s.tbu.epoch, discover := none } 0) ∧
      t.mport = s.mport ++ [s.requestOf .smonSettle (s.slotWord k 0x1C#32)
        (some (quad8 0 0xFF#8 0xFF#8 why.outcome.code))] ∧
      t.smon.mirror = s.smon.mirror) ∧
  (∀ (s : State) (p : Piece) (j : SettleJob), s.smon.piece = some (p, .settleDue j) →
    ∃ t : State, exec .removalSettle s = .next t ∧ OnlyMonitor s t ∧
      t.smon.piece = some (p, .settle { j with settledEpoch := s.tbu.epoch } 0) ∧
      t.mport = s.mport ++ [s.requestOf .smonSettle (s.slotWord j.slot 0x1C#32)
        (some (quad8 0 0xFF#8 0xFF#8 j.outcome.code))] ∧
      t.smon.mirror = s.smon.mirror ∧ t.smon.waiting = s.smon.waiting) ∧
  (Removal.late.outcome = .late ∧ Removal.halted.outcome = .halted) ∧
  (∀ s : State, (s.smon.piece = none → s.nextPiece = s.smon.waiting.head?) ∧
    (s.smon.piece ≠ none → s.nextPiece = none))

/-- SETTLE_WRITE, SMON's and a lane's: after the first, second and third write the next is made, a lane's
after a check; after the settle word the settlement is counted for that slot and sequence number (02, R23,
R24, R26). A write of the outcome word or an epoch that is outstanding when its lane learns of a tear lands and is the
last of its settle: no further check or write is raised and no count asked for, and the lane, once it has stopped with
nothing outstanding, goes FREE with a tear release (02, R26; 06, R98, R100). That it lands, and is the last, is the
model's reading (log 14), and so is that the lane waits for every fault count it asked for (log 18). -/
def Obligations.SettleWritesFollowInOrder : Prop :=
  (∀ (s : State) (r : BusReturn) (req : Request) (rest : List Request) (p : Piece) (j : SettleJob)
    (i : Nat), Returns s r req rest → req.access = .smonSettle → replyFailed r.reply = false →
    (s.afterReturn r req rest).smon.piece = some (p, .settle j i) →
    ∃ t : State, exec (.settleWrite r) s = .next t ∧ OnlyMonitor (s.afterReturn r req rest) t ∧
      t.smon.mirror = (s.afterReturn r req rest).smon.mirror ∧
      (i < 3 → t.smon.piece = some (p, .settle j (i + 1)) ∧
        t.mport = rest ++ [(s.afterReturn r req rest).requestOf .smonSettle
          ((s.afterReturn r req rest).slotWord j.slot (settleWordOffset (i + 1)))
          (some (settleWord (i + 1) (unlanedOutcome j.outcome) 0 j.settledEpoch j.seq))]) ∧
      (3 ≤ i → t.smon.piece = some (p, .counting (.settled j)) ∧
        t.smon.counts = (s.afterReturn r req rest).smon.counts ++
          [{ kind := .settlement j.slot j.seq, requester := .smon }])) ∧
  (∀ (s : State) (r : BusReturn) (req : Request) (rest : List Request) (l : LaneId) (i : Nat),
    Returns s r req rest → req.access = .laneSettle l → replyFailed r.reply = false →
    ((s.afterReturn r req rest).lane l).access = .settleWrite i →
    ((s.afterReturn r req rest).lane l).tear = false →
    ∃ t : State, exec (.settleWrite r) s = .next t ∧
      OnlyLaneAndCounts (s.afterReturn r req rest) t l ∧
      (i < 3 → (t.lane l).access = .settleCheck (i + 1) ∧
        t.mport = rest ++ [(s.afterReturn r req rest).requestOf (.settleCheck l)
          ((s.afterReturn r req rest).hostWordAddr ((s.afterReturn r req rest).lane l).slot) none]) ∧
      (3 ≤ i → (t.lane l).access = .settleCount ∧
        t.smon.counts = (s.afterReturn r req rest).smon.counts ++
          [{ kind := .settlement ((s.afterReturn r req rest).lane l).slot
              ((s.afterReturn r req rest).lane l).seq, requester := .lane l }])) ∧
  (∀ (s u : State) (r : BusReturn) (req : Request) (rest : List Request) (l : LaneId) (i : Nat),
    Returns s r req rest → req.access = .laneSettle l → replyFailed r.reply = false →
    u = s.afterReturn r req rest → (u.lane l).access = .settleWrite i → i < 3 → (u.lane l).tear = true →
    ∃ t : State, exec (.settleWrite r) s = .next t ∧ t.smon.counts = u.smon.counts ∧
      ((u.lane l).stopped = true → u.laneOutstanding l = false → (u.lane l).faultCounts = 0 →
        TornLaneFreed u t l) ∧
      ((u.lane l).stopped = false ∨ u.laneOutstanding l = true ∨ (u.lane l).faultCounts ≠ 0 →
        OnlyLaneAndCounts u t l ∧ t.mport = rest ∧
        t.lane l = { u.lane l with access := .idle }))

/-- Where the words of a settle go and what they hold: outcome word, started_epoch, settled_epoch, and last
the part word with take_seq and settle_seq equal (02, R17, R23; 12, R165). The three words of a result go out
in the order value, stamp, head, at their places in the step record (01, R12; 12, R166, R168). The addresses of
the Exchange Area, modulo 2^32: the line table, the qualifier entries, and in each slot the host word, the part
word, the posting record, taken_epoch and the step records (01, R1, R2; 12, R164 to R166). -/
def Obligations.SettleAndResultWordsHaveTheirPlaces : Prop :=
  (∀ (outcome started settled : Word) (seq : Half),
    (settleWordOffset 0 = 0x1C#32 ∧ settleWord 0 outcome started settled seq = outcome) ∧
    (settleWordOffset 1 = 0x24#32 ∧ settleWord 1 outcome started settled seq = started) ∧
    (settleWordOffset 2 = 0x28#32 ∧ settleWord 2 outcome started settled seq = settled) ∧
    (settleWordOffset 3 = 0x04#32 ∧ takeSeq (settleWord 3 outcome started settled seq) = seq ∧
      settleSeq (settleWord 3 outcome started settled seq) = seq)) ∧
  (∀ e : StepResult,
    (resultOffset 0 = 0x10#32 ∧ e.word 0 = e.value) ∧ (resultOffset 1 = 0x14#32 ∧ e.word 1 = e.stamp) ∧
    (resultOffset 2 = 0x0C#32 ∧ (e.word 2).extractLsb' 0 8 = e.code.code ∧
      (e.word 2).extractLsb' 8 8 = e.pass ∧ (e.word 2).extractLsb' 16 8 = e.aux ∧
      (e.word 2).extractLsb' 24 8 = 0)) ∧
  (∀ s : State,
    (∀ i : Nat, s.lineTableAddr i = s.regp.area + BitVec.ofNat 32 (0x20 + 4 * i)) ∧
    (∀ e i : Nat, s.qualifierAddr e i = s.regp.area + BitVec.ofNat 32 (0x40 + 0x10 * e + 4 * i)) ∧
    ∀ k : SlotId,
      slotOffset k = BitVec.ofNat 32 (0x100 + 0x160 * k.val) ∧
      (∀ offset : Word, s.slotWord k offset =
        s.regp.area + BitVec.ofNat 32 (0x100 + 0x160 * k.val) + offset) ∧
      s.hostWordAddr k = s.slotWord k 0x00 ∧ s.partWordAddr k = s.slotWord k 0x04 ∧
      s.takenAddr k = s.slotWord k 0x20 ∧
      (∀ i : Nat, s.recordAddr k i = s.slotWord k (BitVec.ofNat 32 (0x08 + 4 * i))) ∧
      ∀ (j : Nat) (offset : Word), s.stepAddr k j offset =
        s.slotWord k (BitVec.ofNat 32 (0x40 + 0x18 * j) + offset))

/-- COUNTER_WRITE: when a request is done a settlement has set the slot's settle copy, a fault has set FAULT_CODE and
CAUSE.FAULT, a config_ack has set the copy, and a tear of SMON's has set CAUSE.TORN, after which a torn queued slot is
discovered, and a torn lane's release requests a sweep in RUNNING. A count that SMON waits for as the last of its
piece, or a settle with nothing to discover after it, ends the piece: in RUNNING a sweep's next piece follows, and
outside RUNNING the sweep is given up. SMON's own settle frees its mirror entry, and a lane's settle sets
CAUSE.SETTLED for NOTIFY, reports completion, and gives claims and lane back, the lines keeping their levels only for
KEEP_LEVELS with DONE, PASSED or FAILED in RUNNING. A sweep close writes sweep_total after its first word and then
ends the sweep, a pending one starting at once. A request that waits behind the one done is served next, as one that
finds the set idle (O45 says how), in the order in which they came (04, R47 to R49, R53, R58, R60, R61, R63; 10, R151;
02, R24, R27; 05, R77; 06, R99). -/
def Obligations.CounterWriteBringsItsEffect : Prop :=
  ∀ (s u : State) (r : BusReturn) (req : Request) (rest : List Request) (q : CountReq)
    (qs : List CountReq), Returns s r req rest → req.access = .counter → replyFailed r.reply = false →
    u = s.afterReturn r req rest → u.smon.counts = q :: qs →
    ∃ t : State, exec (.counterWrite r) s = .next t ∧
      (∀ k seq, q.kind = .settlement k seq → (t.mirror k).settleCopy = seq) ∧
      (∀ code, q.kind = .fault code → t.engc.faultCode = code ∧ t.regp.cause.getLsbD 2 = true) ∧
      (∀ v, q.kind = .configAck v → t.smon.counters.ackCopy = v) ∧
      (∀ p, q.kind = .tear → q.requester = .smon → u.engc.loading = none →
        u.smon.piece = some (p, .counting .tornRelease) → t.regp.cause.getLsbD 1 = true ∧
          (u.engc.engine = .running → p.ofSweep = false → SweepRequested u t) ∧
          (u.engc.engine ≠ .running → PieceEnded u t p)) ∧
      (∀ p, q.requester = .smon → u.engc.loading = none →
        u.smon.secondWord = true ∨ (∀ n, q.kind ≠ .sweepClose n) →
        u.smon.piece = some (p, .counting .endPiece) → PieceEnded u t p) ∧
      (∀ p k post, q.kind = .tear → q.requester = .smon → u.engc.loading = none →
        u.smon.piece = some (p, .counting (.tornVisit k post)) →
        t.regp.cause.getLsbD 1 = true ∧ t.smon.piece = some (p, .record k post []) ∧
          (qs = [] → t.mport = rest ++ [u.requestOf .record (u.recordAddr k 0) none])) ∧
      (∀ k seq p j, q.kind = .settlement k seq → q.requester = .smon → u.engc.loading = none →
        u.smon.piece = some (p, .counting (.settled j)) →
        (j.notify = true → t.regp.cause.getLsbD 0 = true) ∧
        (j.notify = false → t.regp.cause = u.regp.cause) ∧
        (t.mirror j.slot).state = .idle ∧ (t.mirror j.slot).lane = none ∧
        (t.mirror j.slot).pendingOutcome = none ∧
        (t.mirror j.slot).knownSeq = (u.mirror j.slot).knownSeq ∧
        (j.discover = none → PieceEnded u t p) ∧
        ∀ post, j.discover = some post → t.smon.piece = some (p, .record j.slot post [])) ∧
      (∀ k seq l, q.kind = .settlement k seq → q.requester = .lane l → u.engc.loading = none →
        ((u.lane l).flags.getLsbD 0 = true → t.regp.cause.getLsbD 0 = true) ∧
        ((u.lane l).flags.getLsbD 0 = false → t.regp.cause = u.regp.cause) ∧
        .completion (u.lane l).slot ∈ t.smon.waiting ∧
        (((t.lane l).Clear ∧ t.admu.pool[l] = true ∧ ∀ o : OutLine, (t.admu.claims[o]).owner ≠ some l) ∨
          (u.engc.engine = .running ∧ (t.lane l).state = .loading)) ∧
        ∀ o : OutLine, (u.outd[o]).claimer = some l → (t.outd[o]).level =
          if u.engc.engine = .running ∧ (u.lane l).flags.getLsbD 4 = true ∧
              (u.lane l).outcome.any (fun d => d.1 = .done ∨ d.1 = .passed ∨ d.1 = .failed) = true then
            (u.outd[o]).level
          else (u.outd[o]).idle) ∧
      (∀ (p2 : CountReq) (more : List CountReq) (v : State), qs = p2 :: more → u.engc.loading = none →
        u.smon.secondWord = true ∨ (∀ n, q.kind ≠ .sweepClose n) →
        v = ({ u with smon := { u.smon with
          counts := []
          counters := match q.kind with
            | .configAck a => { u.smon.counters with ackCopy := a }
            | _ => u.smon.counters } }).count p2.kind p2.requester →
        t.smon.counters = v.smon.counters ∧ t.smon.secondWord = false ∧
          (∃ added, t.smon.counts = qs ++ added) ∧ ∃ raised, t.mport = v.mport ++ raised) ∧
      (∀ n, q.kind = .sweepClose n → u.smon.secondWord = false →
        t.smon.counts = q :: qs ∧ t.smon.secondWord = true ∧
        t.mport = rest ++ [u.requestOf .counter (s.regp.area + 0x10#32)
          (some u.smon.counters.sweepTotal)]) ∧
      (∀ n, q.kind = .sweepClose n → u.smon.secondWord = true → q.requester = .smon →
        u.engc.loading = none → u.smon.piece = some (.closing, .counting .endPiece) →
        t.smon.inProgress = (u.smon.pendingSweep && u.engc.engine == .running) ∧
        (u.engc.engine = .running → u.smon.pendingSweep = true →
          t.smon.pendingSweep = false ∧ t.smon.noted = s.tbu.epoch ∧
          (.config ∈ t.smon.waiting ∨ t.smon.piece = some (.config, .config))))

/-- A request that finds the counter set idle raises its counter by one and writes its word, from the set's
values, at its place in the header; a pair of fields is written together (04, R61; 01, R3, R5; 12, R164). That
a counter is raised when its request begins is the model's reading (log 30). -/
def Obligations.CounterRequestWritesItsWord : Prop :=
  ∀ (s : State) (q : Requester), s.smon.counts = [] →
    (∀ k seq, (s.count (.settlement k seq) q).smon.counters =
        { s.smon.counters with settleTotal := s.smon.counters.settleTotal + 1 } ∧
      (s.count (.settlement k seq) q).mport = s.mport ++ [s.requestOf .counter (s.regp.area + 0x0C#32)
        (some (s.smon.counters.settleTotal + 1))]) ∧
    (∀ n, (s.count (.sweepClose n) q).smon.counters =
        { s.smon.counters with sweepTotal := s.smon.counters.sweepTotal + 1 } ∧
      (s.count (.sweepClose n) q).mport = s.mport ++ [s.requestOf .counter (s.regp.area + 0x14#32)
        (some n)]) ∧
    ((s.count .tear q).smon.counters =
        { s.smon.counters with tornTotal := s.smon.counters.tornTotal + 1 } ∧
      (s.count .tear q).mport = s.mport ++ [s.requestOf .counter (s.regp.area + 0x08#32)
        (some ((s.smon.counters.tornTotal + 1) ++ s.smon.counters.ackCopy))]) ∧
    ((s.count .orphan q).smon.counters =
        { s.smon.counters with orphanTotal := s.smon.counters.orphanTotal + 1 } ∧
      (s.count .orphan q).mport = s.mport ++ [s.requestOf .counter (s.regp.area + 0x18#32)
        (some (s.smon.counters.faultTotal ++ (s.smon.counters.orphanTotal + 1)))]) ∧
    (∀ code, (s.count (.fault code) q).smon.counters =
        { s.smon.counters with faultTotal := s.smon.counters.faultTotal + 1 } ∧
      (s.count (.fault code) q).mport = s.mport ++ [s.requestOf .counter (s.regp.area + 0x18#32)
        (some ((s.smon.counters.faultTotal + 1) ++ s.smon.counters.orphanTotal))]) ∧
    (∀ v, (s.count (.configAck v) q).smon.counters = s.smon.counters ∧
      (s.count (.configAck v) q).mport = s.mport ++ [s.requestOf .counter (s.regp.area + 0x08#32)
        (some (s.smon.counters.tornTotal ++ v))])

/-- COMPLETION_REPORT: the mirror entry goes IDLE with known_seq kept; from TEARING, in RUNNING, a sweep is requested
and no tear is counted (04, R47, R59), and otherwise the pieces that wait behind it follow (04, R49). TEAR_RELEASE:
the mirror entry goes IDLE with known_seq kept at the torn plan's value, and one tear joins the counter set's requests
(04, R60). -/
def Obligations.LaneReportsFreeTheSlot : Prop :=
  (∀ (s : State) (k : SlotId), s.nextPiece = some (.completion k) →
    ∃ t : State, exec .completionReport s = .next t ∧ OnlyMonitor s t ∧ (t.mirror k).state = .idle ∧
      (t.mirror k).lane = none ∧ (t.mirror k).knownSeq = (s.mirror k).knownSeq ∧
      (∀ j : SlotId, j ≠ k → t.mirror j = s.mirror j) ∧
      (∀ q ∈ t.smon.counts, q.kind = .tear → q ∈ s.smon.counts) ∧
      ((s.mirror k).state = .tearing → s.engc.engine = .running → SweepRequested s t) ∧
      ((s.mirror k).state ≠ .tearing ∨ s.engc.engine ≠ .running →
        t.smon.pieces = s.smon.waiting.tail ∧ t.smon.inProgress = s.smon.inProgress)) ∧
  (∀ (s : State) (k : SlotId), s.nextPiece = some (.tearRelease k) →
    ∃ t : State, exec .tearRelease s = .next t ∧ OnlyMonitor s t ∧ (t.mirror k).state = .idle ∧
      (t.mirror k).lane = none ∧ (t.mirror k).knownSeq = (s.mirror k).knownSeq ∧
      (∀ j : SlotId, j ≠ k → t.mirror j = s.mirror j) ∧
      t.smon.counts = s.smon.counts ++ [{ kind := .tear, requester := .smon }] ∧
      t.smon.piece = some (.tearRelease k, .counting .tornRelease))

/-! ## Engine Control -/

/-- LOADING_READ: the reads of the header and of the slots follow in their order, each word bringing the next
read. READ_ERR, BAD_AREA and BAD_CONFIG end LOADING: OFF, ENABLE 0, CAUSE.FAULT, no access raised, the epoch held.
A good header sets the slot count, and the four counter words give the counters their values, of 32 bits or of
the half of the word that is theirs (10, R141, R142; 01, R4, R5; 12, R164). LOADING told to stop by a DISABLE enters
OFF when its access returns: a read, error or not, an orphan's settle write or a counter write that has landed;
FAULT_CODE and CAUSE are kept (10, R145; 11, R156). Nothing is done with the post_seq and recall_seq of a host word
read: but for the next read, every unit stays as it is (10, R141). A recall seen in an earlier run stays as it is (02,
R28), the model's choice (log 36). -/
def Obligations.LoadingReadsAreJudged : Prop :=
  (∀ (s u : State) (r : BusReturn) (req : Request) (rest : List Request) (x : Loading) (w : Word),
    Returns s r req rest → req.access = .loading → u = s.afterReturn r req rest →
    w = s.wordReturned r req rest → u.engc.loading = some x → x.stopping = false →
    ∃ t : State, exec (.loadingRead r) s = .next t ∧ t.tbu.epoch = s.tbu.epoch ∧
      (∀ code : FaultCode,
        (replyFailed r.reply = true ∧ code = .readErr) ∨
        (replyFailed r.reply = false ∧ x.phase = .slots ∧ code = .badArea ∧
          (x.magic ≠ 0x4C4A4804#32 ∨ w.extractLsb' 0 8 = 0 ∨ 16 < (w.extractLsb' 0 8).toNat)) ∨
        (replyFailed r.reply = false ∧ x.phase = .table ∧ code = .badConfig ∧ x.got.length = 2 ∧
          lineTableGood (x.got ++ [w]) = false) →
        t.engc.engine = .off ∧ t.engc.faultCode = code ∧ t.regp.enable = false ∧
          t.regp.cause = u.regp.cause ||| causeFault ∧ t.mport = rest ∧
          t.smon = u.smon ∧ t.outd = u.outd) ∧
      (replyFailed r.reply = false → x.phase = .slots → x.magic = 0x4C4A4804#32 →
        0 < (w.extractLsb' 0 8).toNat → (w.extractLsb' 0 8).toNat ≤ 16 →
        t.engc.slotCount = (w.extractLsb' 0 8).toNat) ∧
      (∀ a b c, replyFailed r.reply = false → x.phase = .counters → x.got = [a, b, c] →
        t.smon.counters = { u.smon.counters with
          settleTotal := a, sweepTotal := b, tornTotal := c.extractLsb' 16 16,
          orphanTotal := w.extractLsb' 0 16, faultTotal := w.extractLsb' 16 16 }) ∧
      (∀ (next : Word) (y : Loading),
        (x.phase = .magic ∧ next = 0x04 ∧ y = { x with phase := .slots, magic := w }) ∨
        (x.phase = .slots ∧ x.magic = 0x4C4A4804#32 ∧ 0 < (w.extractLsb' 0 8).toNat ∧
          (w.extractLsb' 0 8).toNat ≤ 16 ∧ next = 0x20 ∧
          y = { x with phase := .table, configSeq := w.extractLsb' 16 16 }) ∨
        (x.phase = .table ∧ x.got.length < 2 ∧ next = 0x20 + BitVec.ofNat 32 (4 * (x.got.length + 1)) ∧
          y = { x with got := x.got ++ [w] }) ∨
        (x.phase = .table ∧ x.got.length = 2 ∧ lineTableGood (x.got ++ [w]) = true ∧ next = 0x0C ∧
          y = { x with phase := .counters, table := x.got ++ [w], got := [] }) ∨
        (x.phase = .counters ∧ x.got.length < 3 ∧ next = [0x10, 0x08, 0x18].getD x.got.length 0 ∧
          y = { x with got := x.got ++ [w] }) ∨
        (x.phase = .counters ∧ x.got.length = 3 ∧ next = 0x100 ∧
          y = { x with phase := .hostWord 0, got := [] }) ∨
        (∃ k : SlotId, x.phase = .hostWord k ∧ next = slotOffset k + 0x04 ∧
          y = { x with phase := .partWord k }) →
        replyFailed r.reply = false →
        t.engc.loading = some y ∧ t.mport = rest ++ [u.requestOf .loading (s.regp.area + next) none]) ∧
      (∀ k : SlotId, replyFailed r.reply = false → x.phase = .hostWord k →
        t.smon = u.smon ∧ t.regp = u.regp ∧ t.tbu = u.tbu ∧ t.admu = u.admu ∧ t.lanes = u.lanes ∧
        t.inc = u.inc ∧ t.outd = u.outd ∧ t.mem = u.mem ∧ t.engc = { u.engc with loading := t.engc.loading }) ∧
      t.smon.recalls = u.smon.recalls) ∧
  (∀ (s u : State) (r : BusReturn) (req : Request) (rest : List Request) (x : Loading),
    Returns s r req rest → u = s.afterReturn r req rest → u.engc.loading = some x → x.stopping = true →
    (req.access = .loading →
      ∃ t : State, exec (.loadingRead r) s = .next t ∧ LoadingStopped u t rest ∧ t.smon = u.smon) ∧
    (req.access = .orphanSettle → replyFailed r.reply = false →
      ∃ t : State, exec (.settleWrite r) s = .next t ∧ LoadingStopped u t rest ∧ t.smon = u.smon) ∧
    (∀ (q : CountReq) (qs : List CountReq), req.access = .counter → replyFailed r.reply = false →
      u.smon.counts = q :: qs → q.kind = .orphan ∨ (∃ k seq, q.kind = .settlement k seq) →
      ∃ t : State, exec (.counterWrite r) s = .next t ∧ LoadingStopped u t rest ∧ t.smon.counts = [] ∧
        t.smon.counters = u.smon.counters ∧
        ∀ k seq, q.kind = .settlement k seq → (t.mirror k).settleCopy = seq))

/-- LOADING_READ of a part word: take_seq is known_seq, and a slot whose take_seq and settle_seq differ joins the
orphans; the next slot's host word is read. After the last slot the first orphan's settle begins, or, with no
orphan, the line table is applied to INC and OUTD at one instant and the word of config_ack and torn_total is
written (10, R141, R143, R144; 01, R4; 07, R107; 08, R119). An orphan's settle makes its four writes, naming
ORPHANED with 0xFF, 0xFF, 0 and 0; then the settlement is counted, the settle copy following at the count, then
the orphan, and then the next orphan or the line table has its turn (10, R143; 02, R23, R36). When entries n to 15
are reset, and a settled slot's copy set, is the model's reading (log 22); that a line's run start keeps its
value is the model's choice (log 11). -/
def Obligations.LastPartWordAppliesTableOrSettlesOrphans : Prop :=
  (∀ (s u : State) (r : BusReturn) (req : Request) (rest : List Request) (x : Loading) (k : SlotId)
    (take settle : Half) (orphans : List (SlotId × Half)),
    Returns s r req rest → req.access = .loading → replyFailed r.reply = false →
    u = s.afterReturn r req rest → u.engc.loading = some x → x.stopping = false → x.phase = .partWord k →
    take = (s.wordReturned r req rest).extractLsb' 0 16 →
    settle = (s.wordReturned r req rest).extractLsb' 16 16 →
    orphans = x.orphans ++ (if take = settle then [] else [(k, take)]) →
    ∃ t : State, exec (.loadingRead r) s = .next t ∧
      (t.mirror k).state = .idle ∧ (t.mirror k).lane = none ∧ (t.mirror k).pendingOutcome = none ∧
      (k.val < u.engc.slotCount → (t.mirror k).knownSeq = take ∧
        (take = settle → (t.mirror k).settleCopy = take)) ∧
      (∀ j : SlotId, j.val < k.val → k.val < u.engc.slotCount → t.mirror j = u.mirror j) ∧
      (∀ next : SlotId, next.val = k.val + 1 → next.val < u.engc.slotCount →
        t.engc.loading = some { x with phase := .hostWord next, orphans := orphans } ∧
        t.mport = rest ++ [u.requestOf .loading (u.hostWordAddr next) none]) ∧
      (u.engc.slotCount = k.val + 1 →
        (∀ j : SlotId, k.val < j.val → t.mirror j =
          { knownSeq := 0, state := .idle, lane := none, settleCopy := 0, pendingOutcome := none }) ∧
        (orphans = [] →
          t.inc.sampling = true ∧
          (∀ i : InLine, t.inc.lines[i] = { u.inc.lines[i] with
            filterCode := filterCode x.table i, accepted := r.pins.getLsbD i.val, run := 0 }) ∧
          (∀ o : OutLine, t.outd[o] = { u.outd[o] with
            idle := idleByte x.table o != 0, level := idleByte x.table o != 0, keep := false }) ∧
          t.mport = rest ++ [u.requestOf .configAck (s.regp.area + 0x08#32)
            (some (u.smon.counters.tornTotal ++ x.configSeq))]) ∧
        (∀ j seq more, orphans = (j, seq) :: more →
          t.engc.loading = some { x with
            phase := .orphanWrite 0, orphans := orphans, settledEpoch := s.tbu.epoch } ∧
          t.mport = rest ++ [u.requestOf .orphanSettle (u.slotWord j 0x1C#32)
            (some (quad8 0 0xFF#8 0xFF#8 12#8))]))) ∧
  (∀ (s u : State) (r : BusReturn) (req : Request) (rest : List Request) (x : Loading) (k : SlotId)
    (seq : Half) (more : List (SlotId × Half)) (i : Nat),
    Returns s r req rest → req.access = .orphanSettle → replyFailed r.reply = false →
    u = s.afterReturn r req rest → u.engc.loading = some x → x.stopping = false →
    x.phase = .orphanWrite i → x.orphans = (k, seq) :: more →
    ∃ t : State, exec (.settleWrite r) s = .next t ∧
      (i < 3 → t.engc.loading = some { x with phase := .orphanWrite (i + 1) } ∧
        t.mport = rest ++ [u.requestOf .orphanSettle (u.slotWord k (settleWordOffset (i + 1)))
          (some (settleWord (i + 1) (quad8 0 0xFF#8 0xFF#8 12#8) 0 x.settledEpoch seq))]) ∧
      (3 ≤ i → t.engc.loading = some { x with phase := .orphanSettled } ∧
        t.smon.counts = u.smon.counts ++ [{ kind := .settlement k seq, requester := .engc }])) ∧
  (∀ (s u : State) (r : BusReturn) (req : Request) (rest : List Request) (x : Loading) (k : SlotId)
    (seq : Half), Returns s r req rest → req.access = .counter → replyFailed r.reply = false →
    u = s.afterReturn r req rest → u.engc.loading = some x → x.stopping = false →
    (x.phase = .orphanSettled → u.smon.counts = [{ kind := .settlement k seq, requester := .engc }] →
      ∃ t : State, exec (.counterWrite r) s = .next t ∧ (t.mirror k).settleCopy = seq ∧
        t.engc.loading = some { x with phase := .orphanCounted } ∧
        t.smon.counts = [{ kind := .orphan, requester := .engc }]) ∧
    (x.phase = .orphanCounted → u.smon.counts = [{ kind := .orphan, requester := .engc }] →
      ∃ t : State, exec (.counterWrite r) s = .next t ∧ t.smon.counts = [] ∧
        (x.orphans.tail = [] → t.inc.sampling = true ∧
          t.engc.loading = some { x with phase := .configAck, orphans := [] } ∧
          t.mport = rest ++ [u.requestOf .configAck (s.regp.area + 0x08#32)
            (some (u.smon.counters.tornTotal ++ x.configSeq))]) ∧
        (∀ j next more, x.orphans.tail = (j, next) :: more →
          t.engc.loading = some { x with
            phase := .orphanWrite 0, orphans := (j, next) :: more, settledEpoch := s.tbu.epoch } ∧
          t.mport = rest ++ [u.requestOf .orphanSettle (u.slotWord j 0x1C#32)
            (some (quad8 0 0xFF#8 0xFF#8 12#8))])))

/-- CONFIG_ACK_WRITE: the copy takes the value and the engine enters RUNNING, which restarts the sweep timer
and requests the first sweep; told to stop, the engine enters OFF instead (10, R144, R145; 03, R46). -/
def Obligations.ConfigAckEntersRunning : Prop :=
  ∀ (s : State) (r : BusReturn) (req : Request) (rest : List Request) (x : Loading),
    Returns s r req rest → req.access = .configAck → replyFailed r.reply = false →
    (s.afterReturn r req rest).engc.loading = some x →
    ∃ t : State, exec (.configAckWrite r) s = .next t ∧ t.smon.counters.ackCopy = x.configSeq ∧
      t.engc.loading = none ∧
      (x.stopping = false → t.engc.engine = .running ∧ t.tbu.timer = 0 ∧
        SweepRequested (s.afterReturn r req rest) t) ∧
      (x.stopping = true → t.engc.engine = .off ∧ t.regp.enable = false)

/-- DRAIN_END: with the queue empty, every lane in the pool and SMON idle, the engine enters OFF and the epoch
holds (10, R147; 03, R39). -/
def Obligations.DrainEndEntersOff : Prop :=
  ∀ s : State, s.engc.engine = .draining → s.admu.queue = [] → (∀ l : LaneId, s.admu.pool[l] = true) →
    s.smon.piece = none → s.smon.waiting = [] → s.smon.counts = [] →
    ∃ t : State, exec .drainEnd s = .next t ∧ t.engc.engine = .off ∧ t.regp.enable = false ∧
      t.tbu.epoch = s.tbu.epoch ∧ t.engc.faultCode = s.engc.faultCode ∧ t.regp.cause = s.regp.cause ∧
      t.outd = s.outd ∧ t.mem = s.mem ∧ t.ticking = false

/-- A settle write of SMON, of ENGC or of a lane, whether or not the lane has learned of a tear, a check before a
settle write, a write of the counter set or the config_ack write that fails stalls the engine; an access under
way at that instant ends as the memory system decides (10, R148, R149; 02, R25, R26; 04, R62; 06, R101). -/
def Obligations.FailedHandOffStalls : Prop :=
  ∀ (s u : State) (r : BusReturn) (req : Request) (rest : List Request),
    Returns s r req rest → replyFailed r.reply = true → u = s.afterReturn r req rest →
    (∀ p j i, req.access = .smonSettle → u.smon.piece = some (p, .settle j i) →
      ∃ t, exec (.settleWrite r) s = .next t ∧ StalledFrom u t .settleLost r.atStall) ∧
    (∀ x, req.access = .orphanSettle → u.engc.loading = some x →
      ∃ t, exec (.settleWrite r) s = .next t ∧ StalledFrom u t .settleLost r.atStall) ∧
    (∀ l i, req.access = .laneSettle l → (u.lane l).access = .settleWrite i →
      ∃ t, exec (.settleWrite r) s = .next t ∧ StalledFrom u t .settleLost r.atStall) ∧
    (∀ l i, req.access = .settleCheck l → req.abandoned = false →
      (u.lane l).access = .settleCheck i →
      ∃ t, exec (.preWriteCheck r) s = .next t ∧ StalledFrom u t .settleLost r.atStall) ∧
    (req.access = .counter →
      ∃ t, exec (.counterWrite r) s = .next t ∧ StalledFrom u t .headerLost r.atStall) ∧
    (∀ x, req.access = .configAck → u.engc.loading = some x →
      ∃ t, exec (.configAckWrite r) s = .next t ∧ StalledFrom u t .headerLost r.atStall)

/-! ## Lanes on the bus -/

/-- LOAD_READ of the host word: another post_seq is a tear and no further read is raised, an equal recall_seq sets the
recall flag, and the load goes on with the first word of step record 0. Each step word brings the next; a bus error on any load read concludes
FETCH_FAULT with last_step 0 and is counted READ_ERR. After the last step word the steps are judged in index order: a
bad step concludes MALFORMED with its index, and a good load waits for its tick of completion (06, R84, R85, R86). A
read that the lane has given up is carried and its result discarded (06, R95, R98; 11, R161); that a stopped lane then
waits for every fault count it asked for is the model's reading (log 18). The fields of a step
record, R85's table of good steps, and the first bad step, the one of lowest index (06, R85; 12, R166, R167). -/
def Obligations.LoadReadsAndJudgesTheSteps : Prop :=
  (∀ (s u : State) (r : BusReturn) (req : Request) (rest : List Request) (l : LaneId) (w : Word),
    Returns s r req rest → req.abandoned = false → u = s.afterReturn r req rest →
    w = s.wordReturned r req rest → (u.lane l).state = .loading → (u.lane l).access = .idle →
    (u.lane l).tear = false →
    (req.access = .loadHost l → ∃ t : State, exec (.loadRead r) s = .next t ∧ OnlyLaneAndCounts u t l ∧
      (replyFailed r.reply = false → w.extractLsb' 0 16 ≠ (u.lane l).seq →
        (t.lane l).tear = true ∧ t.mport = givenUpBy l rest) ∧
      (replyFailed r.reply = false → w.extractLsb' 0 16 = (u.lane l).seq →
        t.mport = rest ++ [u.requestOf (.loadStep l) (u.stepAddr (u.lane l).slot 0 0) none] ∧
        (w.extractLsb' 16 16 = (u.lane l).seq → (t.lane l).recallFlag = true) ∧
        (w.extractLsb' 16 16 ≠ (u.lane l).seq →
          (t.lane l).recallFlag = (u.lane l).recallFlag))) ∧
    (req.access = .loadStep l → replyFailed r.reply = false →
      (u.lane l).loadWords.length + 1 < 3 * (u.lane l).stepCount.toNat →
      ∃ t : State, exec (.loadRead r) s = .next t ∧ OnlyLaneAndCounts u t l ∧
        t.lane l = { u.lane l with loadWords := (u.lane l).loadWords ++ [w] } ∧
        t.mport = rest ++ [u.requestOf (.loadStep l) (u.stepAddr (u.lane l).slot
          (((u.lane l).loadWords.length + 1) / 3)
          (BitVec.ofNat 32 (4 * (((u.lane l).loadWords.length + 1) % 3)))) none]) ∧
    (req.access = .loadHost l ∨ req.access = .loadStep l → replyFailed r.reply = true →
      ∃ t : State, exec (.loadRead r) s = .next t ∧ OnlyLaneAndCounts u t l ∧
        (t.lane l).state = .closing ∧ (t.lane l).outcome = some (.fetchFault, 0) ∧
        t.smon.counts = u.smon.counts ++ [{ kind := .fault .readErr, requester := .lane l }])) ∧
  (∀ (s : State) (r : BusReturn) (req : Request) (rest : List Request) (l : LaneId),
    Returns s r req rest → req.abandoned = true → req.access = .loadHost l ∨ req.access = .loadStep l →
    ∃ t : State, exec (.loadRead r) s = .next t ∧ ReturnDiscarded (s.afterReturn r req rest) t l) ∧
  (∀ (s : State) (r : BusReturn) (req : Request) (rest : List Request) (l : LaneId),
    Returns s r req rest → req.access = .loadStep l → req.abandoned = false →
    replyFailed r.reply = false →
    ((s.afterReturn r req rest).lane l).loadWords.length + 1 =
      3 * ((s.afterReturn r req rest).lane l).stepCount.toNat →
    ∃ t : State, exec (.loadRead r) s = .next t ∧
      OnlyLaneAndCounts (s.afterReturn r req rest) t l ∧
      (t.lane l).steps =
        stepsOf (((s.afterReturn r req rest).lane l).loadWords ++ [s.wordReturned r req rest]) ∧
      (firstBad ((s.afterReturn r req rest).lane l).outMask 0 (t.lane l).steps = none →
        (t.lane l).loaded = true ∧ (t.lane l).loadDue = false ∧ t.mport = rest ∧
          (t.lane l).state = ((s.afterReturn r req rest).lane l).state) ∧
      (∀ i, firstBad ((s.afterReturn r req rest).lane l).outMask 0 (t.lane l).steps = some i →
        (t.lane l).state = .closing ∧ (t.lane l).outcome = some (.malformed, BitVec.ofNat 8 i))) ∧
  (stepsOf [] = [] ∧ ∀ (w a b : Word) (ws : List Word), stepsOf (w :: a :: b :: ws) =
    { kind := w.extractLsb' 0 8, line := w.extractLsb' 8 8, mode := w.extractLsb' 16 8,
      arg := w.extractLsb' 24 8, paramA := a, paramB := b } :: stepsOf ws) ∧
  (∀ (outMask : Byte) (i : Nat) (t : StepReq), stepGood outMask i t = true ↔
    t.kind = 1 ∨ t.kind = 2 ∨
    (t.kind = 3 ∧ t.line.toNat ≤ 7 ∧ (t.mode = 1 ∨ t.mode = 2 ∨ t.mode = 3)) ∨
    (t.kind = 4 ∧ t.line.toNat ≤ 7 ∧ (t.mode = 0 ∨ t.mode = 1)) ∨
    (t.kind = 5 ∧ t.line.toNat ≤ 7 ∧ (t.mode = 1 ∨ t.mode = 2 ∨ t.mode = 3) ∧ t.paramA ≠ 0) ∨
    (t.kind = 6 ∧ t.line.toNat ≤ 7 ∧ (t.mode = 1 ∨ t.mode = 2) ∧ t.arg ≠ 0) ∨
    (t.kind = 7 ∧ t.line.toNat ≤ 3 ∧ outMask.getLsbD t.line.toNat = true ∧
      (t.mode = 0 ∨ t.mode = 1)) ∨
    (t.kind = 8 ∧ t.line.toNat ≤ 3 ∧ outMask.getLsbD t.line.toNat = true ∧ t.paramA ≠ 0 ∧
      t.paramB ≠ 0 ∧ t.arg ≠ 0) ∨
    (t.kind = 9 ∧ t.line.toNat < i ∧ t.arg.toNat ≤ 7 ∧ t.mode.extractLsb' 0 2 ≠ 3)) ∧
  (∀ (outMask : Byte) (ts : List StepReq),
    (firstBad outMask 0 ts = none ↔ ∀ (i : Nat) (h : i < ts.length), stepGood outMask i ts[i] = true) ∧
    (∀ i : Nat, firstBad outMask 0 ts = some i ↔
      ∃ h : i < ts.length, stepGood outMask i ts[i] = false ∧
        ∀ (j : Nat) (hj : j < i), stepGood outMask j (ts[j]'(Nat.lt_trans hj h)) = true))

/-- PRE_WRITE_CHECK, first of a lane that has not learned of a tear: the plan's own post_seq lets the write go ahead,
another post_seq is a tear and nothing is written. Before a result word an equal recall_seq sets the recall flag,
and a bus error concludes FETCH_FAULT and drops the list. Before write i of the settle, the word written is the
outcome word with the lane's number and the passes completed modulo 256, started_epoch, settled_epoch, or the
part word, and a recall does nothing (06, R92, R93, R99, R100; 02, R23, R26, R36). A check that a torn lane had
raised before it learned of the tear: the plan's own host word makes its write the checked write; another or an
error drops the list with no write and no fault counted, and a stopped lane with nothing else outstanding goes
FREE (06, R98; 02, R32). That it waits for every fault count it asked for is the model's reading (log 18). The result
of a check that the lane has given up is discarded (06, R98; 11, R161); that a check of its settle is given up when the
lane learns of a tear, so that its return is discarded, error or not, is the model's reading too (log 14). -/
def Obligations.PreWriteCheckGuardsTheWrite : Prop :=
  (∀ (s : State) (r : BusReturn) (req : Request) (rest : List Request) (l : LaneId),
    Returns s r req rest → req.abandoned = true → req.access = .check l ∨ req.access = .settleCheck l →
    ∃ t : State, exec (.preWriteCheck r) s = .next t ∧ ReturnDiscarded (s.afterReturn r req rest) t l) ∧
  (∀ (s u : State) (r : BusReturn) (req : Request) (rest : List Request) (l : LaneId) (i : Nat)
    (w : Word) (e : StepResult) (more : List StepResult),
    Returns s r req rest → req.access = .check l → req.abandoned = false →
    u = s.afterReturn r req rest → w = s.wordReturned r req rest →
    (u.lane l).access = .check i → (u.lane l).list = e :: more → (u.lane l).tear = false →
    (u.lane l).state ≠ .free →
    ∃ t : State, exec (.preWriteCheck r) s = .next t ∧ OnlyLaneAndCounts u t l ∧
      (replyFailed r.reply = false → w.extractLsb' 0 16 = (u.lane l).seq →
        (t.lane l).access = .write i ∧
        t.mport = rest ++ [u.requestOf (.result l)
          (u.stepAddr (u.lane l).slot e.step (resultOffset i)) (some (e.word i))] ∧
        (w.extractLsb' 16 16 = (u.lane l).seq → (t.lane l).recallFlag = true)) ∧
      (replyFailed r.reply = false → w.extractLsb' 0 16 ≠ (u.lane l).seq →
        (t.lane l).tear = true ∧ (t.lane l).access = .idle ∧ t.mport = givenUpBy l rest) ∧
      (replyFailed r.reply = true →
        (t.lane l).state = .closing ∧
        (t.lane l).outcome = some (.fetchFault, BitVec.ofNat 8 e.step) ∧ (t.lane l).list = [] ∧
        t.smon.counts = u.smon.counts ++ [{ kind := .fault .readErr, requester := .lane l }])) ∧
  (∀ (s u : State) (r : BusReturn) (req : Request) (rest : List Request) (l : LaneId) (i : Nat)
    (w : Word) (o : PlanOutcome) (last : Byte),
    Returns s r req rest → req.access = .settleCheck l → req.abandoned = false →
    replyFailed r.reply = false → u = s.afterReturn r req rest → w = s.wordReturned r req rest →
    (u.lane l).access = .settleCheck i → (u.lane l).tear = false → (u.lane l).state ≠ .free →
    (u.lane l).outcome = some (o, last) →
    ∃ t : State, exec (.preWriteCheck r) s = .next t ∧ OnlyLaneAndCounts u t l ∧
      (w.extractLsb' 0 16 = (u.lane l).seq →
        t.lane l = { u.lane l with access := .settleWrite i } ∧
        t.mport = rest ++ [u.requestOf (.laneSettle l)
          (u.slotWord (u.lane l).slot (settleWordOffset i))
          (some (settleWord i
            (quad8 ((u.lane l).passesDone.extractLsb' 0 8) (BitVec.ofNat 8 l.val) last o.code)
            (u.lane l).startedEpoch (u.lane l).settledEpoch (u.lane l).seq))]) ∧
      (w.extractLsb' 0 16 ≠ (u.lane l).seq →
        (t.lane l).tear = true ∧ (t.lane l).access = .idle ∧ t.mport = givenUpBy l rest)) ∧
  (∀ (s u : State) (r : BusReturn) (req : Request) (rest : List Request) (l : LaneId) (i : Nat)
    (w : Word) (e : StepResult) (more : List StepResult),
    Returns s r req rest → req.access = .check l → req.abandoned = false →
    u = s.afterReturn r req rest → w = s.wordReturned r req rest →
    (u.lane l).access = .check i → (u.lane l).list = e :: more → (u.lane l).tear = true →
    ∃ t : State, exec (.preWriteCheck r) s = .next t ∧ t.smon.counts = u.smon.counts ∧
      (replyFailed r.reply = false → w.extractLsb' 0 16 = (u.lane l).seq →
        OnlyLaneAndCounts u t l ∧ t.lane l = { u.lane l with access := .write i } ∧
        t.mport = rest ++ [u.requestOf (.result l)
          (u.stepAddr (u.lane l).slot e.step (resultOffset i)) (some (e.word i))]) ∧
      (replyFailed r.reply = true ∨ w.extractLsb' 0 16 ≠ (u.lane l).seq →
        ((u.lane l).stopped = true → u.laneOutstanding l = false → (u.lane l).faultCounts = 0 →
          TornLaneFreed u t l) ∧
        ((u.lane l).stopped = false ∨ u.laneOutstanding l = true ∨ (u.lane l).faultCounts ≠ 0 →
          OnlyLaneAndCounts u t l ∧ t.mport = rest ∧
          t.lane l = { u.lane l with access := .idle, list := [] })))

/-- RESULT_WRITE, first of a lane that has not learned of a tear: value and stamp are followed by the next check, the
head's completion takes the entry off the list, and the lane goes on with the next entry. A bus error concludes
WRITE_FAULT with the step whose write failed and drops the list (06, R91, R93). The report of a fault's count lowers
the counts that the lane waits for by one, and with none left, the list empty, no access in hand and the outcome
decided the lane begins its settle (06, R93, R99). A lane that closes to settle with
nothing left to write, by a conclusion or by the last head, begins the settle with the check of its first write
and the epoch of that instant (06, R99). The checked write of a torn lane is its last: one that fails is counted
WRITE_ERR, and a stopped lane goes FREE with a tear release once the write, and the count of one that failed, is
done and nothing else is outstanding (06, R98; 02, R32). That it waits for every count it asked for is the model's
reading (log 18). -/
def Obligations.ResultWriteAdvancesTheList : Prop :=
  (∀ (s u : State) (r : BusReturn) (req : Request) (rest : List Request) (l : LaneId) (i : Nat)
    (e : StepResult) (more : List StepResult),
    Returns s r req rest → req.access = .result l → u = s.afterReturn r req rest →
    (u.lane l).access = .write i → (u.lane l).list = e :: more → (u.lane l).tear = false →
    ∃ t : State, exec (.resultWrite r) s = .next t ∧ OnlyLaneAndCounts u t l ∧
      (replyFailed r.reply = false → i < 2 →
        (t.lane l).access = .check (i + 1) ∧ (t.lane l).list = e :: more ∧
        t.mport = rest ++ [u.requestOf (.check l) (u.hostWordAddr (u.lane l).slot) none]) ∧
      (replyFailed r.reply = false → 2 ≤ i →
        (t.lane l).list = more ∧ (t.lane l).state = (u.lane l).state ∧
        (more ≠ [] → (t.lane l).access = .check 0 ∧
          t.mport = rest ++ [u.requestOf (.check l) (u.hostWordAddr (u.lane l).slot) none]) ∧
        (more = [] → (u.lane l).state = .closing → (u.lane l).outcome ≠ none →
          (u.lane l).faultCounts = 0 →
          (t.lane l).access = .settleCheck 0 ∧ (t.lane l).settledEpoch = s.tbu.epoch ∧
          t.mport = rest ++ [u.requestOf (.settleCheck l) (u.hostWordAddr (u.lane l).slot) none]) ∧
        (more = [] → (u.lane l).state ≠ .closing →
          (t.lane l).access = .idle ∧ t.mport = rest)) ∧
      (replyFailed r.reply = true →
        (t.lane l).state = .closing ∧
        (t.lane l).outcome = some (.writeFault, BitVec.ofNat 8 e.step) ∧ (t.lane l).list = [] ∧
        t.smon.counts = u.smon.counts ++ [{ kind := .fault .writeErr, requester := .lane l }])) ∧
  (∀ (s : State) (l : LaneId) (o : PlanOutcome) (last : Byte), (s.lane l).tear = false →
    (s.lane l).access = .idle →
    ((s.conclude l o last).lane l).state = .closing ∧
    ((s.conclude l o last).lane l).outcome = some (o, last) ∧
    ((s.lane l).list = [] → (s.lane l).faultCounts = 0 →
      ((s.conclude l o last).lane l).access = .settleCheck 0 ∧
      ((s.conclude l o last).lane l).settledEpoch = s.tbu.epoch ∧
      (s.conclude l o last).mport =
        s.mport ++ [s.requestOf (.settleCheck l) (s.hostWordAddr (s.lane l).slot) none]) ∧
    ((s.lane l).list ≠ [] →
      ((s.conclude l o last).lane l).access = .check 0 ∧
      (s.conclude l o last).mport =
        s.mport ++ [s.requestOf (.check l) (s.hostWordAddr (s.lane l).slot) none])) ∧
  (∀ (s u : State) (r : BusReturn) (req : Request) (rest : List Request) (l : LaneId) (i : Nat)
    (e : StepResult) (more : List StepResult),
    Returns s r req rest → req.access = .result l → u = s.afterReturn r req rest →
    (u.lane l).access = .write i → (u.lane l).list = e :: more → (u.lane l).tear = true →
    ∃ t : State, exec (.resultWrite r) s = .next t ∧
      (replyFailed r.reply = true → OnlyLaneAndCounts u t l ∧ (t.lane l).activity = .none ∧
        (t.lane l).access = .idle ∧ (t.lane l).list = [] ∧ (t.lane l).stopped = (u.lane l).stopped ∧
        (t.lane l).faultCounts = (u.lane l).faultCounts + 1 ∧
        t.smon.counts = u.smon.counts ++ [{ kind := .fault .writeErr, requester := .lane l }]) ∧
      (replyFailed r.reply = false → t.smon.counts = u.smon.counts ∧
        ((u.lane l).stopped = true → u.laneOutstanding l = false → (u.lane l).faultCounts = 0 →
          TornLaneFreed u t l) ∧
        ((u.lane l).stopped = false ∨ u.laneOutstanding l = true ∨ (u.lane l).faultCounts ≠ 0 →
          OnlyLaneAndCounts u t l ∧ t.mport = rest ∧
          t.lane l = { u.lane l with
            access := .idle
            list := if (u.lane l).stopped = true ∨ i = 2 then more else e :: more }))) ∧
  (∀ (s u : State) (r : BusReturn) (req : Request) (rest : List Request) (l : LaneId) (code : FaultCode)
    (qs : List CountReq), Returns s r req rest → req.access = .counter → replyFailed r.reply = false →
    u = s.afterReturn r req rest → u.engc.loading = none →
    u.smon.counts = { kind := .fault code, requester := .lane l } :: qs →
    ∃ t : State, exec (.counterWrite r) s = .next t ∧
      ((u.lane l).stopped = true →
        (u.laneOutstanding l = false → (u.lane l).faultCounts = 1 → TornLaneFreed u t l) ∧
        (u.laneOutstanding l = true ∨ 1 < (u.lane l).faultCounts →
          t.lane l = { u.lane l with faultCounts := (u.lane l).faultCounts - 1 })) ∧
      ((u.lane l).stopped = false →
        (t.lane l).faultCounts = (u.lane l).faultCounts - 1 ∧ (t.lane l).state = (u.lane l).state ∧
        (t.lane l).outcome = (u.lane l).outcome ∧ (t.lane l).list = (u.lane l).list ∧
        ((u.lane l).tear = false → (u.lane l).access = .idle → (u.lane l).list = [] →
          (u.lane l).state = .closing → (u.lane l).outcome ≠ none → (u.lane l).faultCounts = 1 →
          (t.lane l).access = .settleCheck 0 ∧ (t.lane l).settledEpoch = s.tbu.epoch ∧
          t.mport.getLast? =
            some (u.requestOf (.settleCheck l) (u.hostWordAddr (u.lane l).slot) none)) ∧
        ((u.lane l).tear = true ∨ (u.lane l).access ≠ .idle ∨ ((u.lane l).list = [] ∧
            ((u.lane l).state ≠ .closing ∨ (u.lane l).outcome = none ∨ 1 < (u.lane l).faultCounts)) →
          t.lane l = { u.lane l with faultCounts := (u.lane l).faultCounts - 1 })))

/-- A recall or halt at whose boundary the running step completes lets it: a conclusion that this brings stands, and
otherwise the plan concludes RECALLED or HALTED with that step as last_step, or with an instant step (SET, HOLD of 0,
UNTIL already reached) that follows it at the same boundary (that it may is the model's reading, log 16). One that
takes effect while a step runs that nothing completes at this boundary ends the step with that code, value 0 but for
PULSE's completed pulses, and the boundary's epoch; the plan concludes with that step, a PULSE's claimed line goes to
its rest level, and a CHECK's read is given up (09, R138). Where no step runs the plan concludes with the step
completed most recently and no result is added. In LOADING it concludes with last_step 0, no result is added and its
load reads are given up. The halt governs (06, R83, R87 to R89, R94 to R97; 08, R129). -/
def Obligations.RecallOrHaltEndsTheRunningStep : Prop :=
  (∀ (s : State) (l : LaneId), (s.lane l).state = .stepping → (s.lane l).activity.isRunning = true →
    ((s.completeRunning l).lane l).activity.isRunning = true →
    OnlyLane s (s.flaggedBoundary l) l ∧
    ((s.flaggedBoundary l).lane l).state = .closing ∧
    ((s.flaggedBoundary l).lane l).activity = .none ∧
    ((s.flaggedBoundary l).lane l).outcome =
      some (if (s.lane l).halt = true then .halted else .recalled, BitVec.ofNat 8 (s.lane l).step) ∧
    ((s.flaggedBoundary l).lane l).list = (s.lane l).list ++
      [{ step := (s.lane l).step, code := if (s.lane l).halt = true then .halted else .recalled,
         value := (s.lane l).pulsesNow, stamp := s.tbu.epoch, aux := 0,
         pass := (s.lane l).passNumber }] ∧
    ((∀ n b, (s.lane l).activity ≠ .pulse n b) → (s.lane l).pulsesNow = 0 ∧
      (s.flaggedBoundary l).outd = s.outd) ∧
    (∀ n b, (s.lane l).activity = .pulse n b →
      (s.outd[(s.lane l).request.outLine]).claimer = some l →
      ((s.flaggedBoundary l).outd[(s.lane l).request.outLine]).level =
        !pulseActive (s.lane l).request.mode) ∧
    (∀ got, (s.lane l).activity = .check got → ∀ q ∈ (s.flaggedBoundary l).mport, ∀ last : Bool,
      q.access = .qualifier l last → q.abandoned = true)) ∧
  (∀ (s : State) (l : LaneId) (k : Nat) (skip due : Bool), (s.lane l).state = .stepping →
    (s.lane l).activity = .wait k skip due →
    OnlyLane s (s.flaggedBoundary l) l ∧ (s.flaggedBoundary l).outd = s.outd ∧
    ((s.flaggedBoundary l).lane l).state = .closing ∧
    ((s.flaggedBoundary l).lane l).activity = .none ∧
    ((s.flaggedBoundary l).lane l).outcome =
      some (if (s.lane l).halt = true then .halted else .recalled,
        BitVec.ofNat 8 (s.lane l).lastDone) ∧
    ((s.flaggedBoundary l).lane l).list = (s.lane l).list) ∧
  (∀ (s : State) (l : LaneId), (s.lane l).state = .loading → (s.lane l).activity = .none →
    OnlyLane s (s.flaggedBoundary l) l ∧ (s.flaggedBoundary l).outd = s.outd ∧
    ((s.flaggedBoundary l).lane l).state = .closing ∧
    ((s.flaggedBoundary l).lane l).activity = .none ∧
    ((s.flaggedBoundary l).lane l).outcome =
      some (if (s.lane l).halt = true then .halted else .recalled, 0) ∧
    ((s.flaggedBoundary l).lane l).list = (s.lane l).list ∧
    ((s.flaggedBoundary l).lane l).passesDone = (s.lane l).passesDone ∧
    ((s.flaggedBoundary l).lane l).startedEpoch = (s.lane l).startedEpoch ∧
    ∀ q ∈ (s.flaggedBoundary l).mport,
      q.access = .loadHost l ∨ q.access = .loadStep l → q.abandoned = true) ∧
  (∀ (s t : State) (l : LaneId) (c : Instr) (x : Lane), x = s.lane l → x.state = .stepping →
    (∀ i : InLine, s.inc.edgeDue i = false) → exec c s = .next t →
    (c = .hold l ∧ x.activity = .hold ∧ x.counter = x.request.paramA) ∨
    (c = .untilReached l ∧ x.activity = .untilEpoch ∧ x.fresh = false ∧
      reached s.tbu.epoch x.request.paramA = true) ∨
    (c = .pulse l ∧ x.activity = .pulse x.request.arg.toNat false ∧ x.counter = x.request.paramB) ∨
    (c = .tallyGateEnd l ∧ (∃ n, x.activity = .tally n) ∧ x.counter = x.request.paramA) ∨
    (c = .overrange l ∧ x.spanCounter = 0xFFFFFFFF#32 ∧
      ((∃ enter, x.activity = .widthLeave enter) ∨ ∃ first n span, x.activity = .period first n span)) ∨
    (c = .windowExpiry l ∧ x.windowOf ≠ 0 ∧ x.windowCounter = x.windowOf ∧
      (x.activity = .edge ∨ x.activity = .widthEnter ∨ x.activity = .periodFirst ∨
        (x.spanCounter ≠ 0xFFFFFFFF#32 ∧ ((∃ enter, x.activity = .widthLeave enter) ∨
          ∃ first n span, x.activity = .period first n span)))) →
    s.completeRunning l = t) ∧
  (∀ (s t : State) (l : LaneId) (i : InLine), s.inc.edgeDue i = true →
    (s.lane l).request.line.toNat = i.val → exec (.acceptedEdge i) s = .next t →
    (t.lane l).activity.isRunning = false → (s.completeRunning l).lane l = t.lane l) ∧
  (∀ (s u : State) (l : LaneId) (o : PlanOutcome), (s.lane l).activity.isRunning = true →
    u = s.completeRunning l → o = (if (s.lane l).halt = true then .halted else .recalled) →
    ((u.lane l).state = .closing → s.flaggedBoundary l = u) ∧
    (∀ (k : Nat) (skip due : Bool), (u.lane l).activity = .wait k skip due → (u.lane l).state = .stepping →
      (skip = true ∨ due = false ∨ 2 ≤ (u.lane l).list.length ∨ (u.lane l).tear = true ∨
          ((u.lane l).steps.getD k StepReq.zero).instantAt s.tbu.epoch = false →
        ((s.flaggedBoundary l).lane l).state = .closing ∧
        ((s.flaggedBoundary l).lane l).outcome = some (o, BitVec.ofNat 8 (u.lane l).lastDone) ∧
        ((s.flaggedBoundary l).lane l).list = (u.lane l).list ∧
        ((s.flaggedBoundary l).lane l).passesDone = (u.lane l).passesDone) ∧
      (∀ t : State, skip = false → due = true → (u.lane l).list.length < 2 → (u.lane l).tear = false →
        ((u.lane l).steps.getD k StepReq.zero).instantAt s.tbu.epoch = true →
        exec (.stepBegin l) u = .next t →
        ((t.lane l).state = .closing → s.flaggedBoundary l = t) ∧
        ((t.lane l).state = .stepping →
          ((s.flaggedBoundary l).lane l).state = .closing ∧
          ((s.flaggedBoundary l).lane l).outcome = some (o, BitVec.ofNat 8 k) ∧
          ((s.flaggedBoundary l).lane l).list = (t.lane l).list)))) ∧
  (∀ x : Lane,
    (∀ n active, x.activity = .pulse n active →
      x.pulsesNow = BitVec.ofNat 32 (if active = true ∧ x.counter = x.request.paramA then n + 1 else n)) ∧
    x.passNumber.toNat = (x.passesDone.toNat + 1) % 256) ∧
  (∀ (q : StepReq) (now : Word), q.instantAt now = true ↔
    (q.kind = 1 ∧ q.paramA = 0) ∨ (q.kind = 2 ∧ reached now q.paramA = true) ∨ q.kind = 7)

/-- A torn lane stops at the boundary, in RUNNING and in DRAINING: its claims are released with its lines to idle, no
step runs, a CHECK's read is given up, no outcome is left to settle, and of its list at most the entry whose check or
write is in hand remains. The lane stays closing and out of the pool. Its report that it goes FREE is an event of its
own: with nothing outstanding it is made at that boundary, its tear release waits for SMON, and in RUNNING the walk
that follows may start another plan on the lane at once; while accesses or fault counts are outstanding, each a
request of the lane that is still on the order list, it is not made (06, R98; 05, R69, R76, R78; 09, R138). That the
lane waits for all its fault counts is the model's reading (log 18). -/
def Obligations.TornLaneStopsAtTheBoundary : Prop :=
  (∀ (s t : State) (l : LaneId), t = s.tearStop l → (s.lane l).tear = true → (s.lane l).stopped = false →
    s.engc.engine = .draining ∨ (s.engc.engine = .running ∧ s.admu.pool[l] = false) →
    (∀ o : OutLine, (s.outd[o]).claimer = some l →
      (t.outd[o]).level = (s.outd[o]).idle ∧ (t.outd[o]).keep = false) ∧
    (s.engc.engine = .draining →
      ∀ o : OutLine, (s.outd[o]).claimer = some l → t.outd[o] =
        { s.outd[o] with claimer := none, keep := false, level := (s.outd[o]).idle }) ∧
    (t.lane l).state = .closing ∧ (t.lane l).tear = true ∧ (t.lane l).stopped = true ∧
    (t.lane l).activity = .none ∧ (t.lane l).outcome = none ∧ (t.lane l).list.length ≤ 1 ∧
    ((∀ i, (s.lane l).access ≠ .check i) → (∀ i, (s.lane l).access ≠ .write i) → (t.lane l).list = []) ∧
    (∀ o : OutLine, (t.admu.claims[o]).owner ≠ some l) ∧ t.admu.pool[l] = s.admu.pool[l] ∧
    t.smon.waiting = s.smon.waiting ∧ t.smon.counts = s.smon.counts ∧
    (∀ q ∈ t.mport, ∀ last : Bool, q.access = .qualifier l last → q.abandoned = true) ∧
    (s.laneOutstanding l = true ∨ (s.lane l).faultCounts ≠ 0 → t.tearFinish l = t) ∧
    (s.laneOutstanding l = false → (s.lane l).faultCounts = 0 →
      TornLaneFreed t (t.tearFinish l) l ∧
      ((t.tearFinish l).admu.pool[l] = true →
        ∀ o : OutLine, ((t.tearFinish l).admu.claims[o]).owner ≠ some l))) ∧
  (∀ (s : State) (l : LaneId), s.laneOutstanding l = true ↔ ∃ q ∈ s.mport,
    q.access = .loadHost l ∨ q.access = .loadStep l ∨ q.access = .check l ∨ q.access = .result l ∨
      q.access = .settleCheck l ∨ q.access = .laneSettle l ∨ ∃ last, q.access = .qualifier l last)

/-! ## Qualification -/

/-- R133: the masked value and the tests. -/
def Obligations.CheckTestsTheMaskedValue : Prop :=
  ∀ (mode : Byte) (v mask value low high : Word),
    (checkResult mode (some v) [mask, value, low, high]).2 = v &&& mask ∧
    (mode.extractLsb' 0 2 = 0 → mode.getLsbD 2 = false →
      ((checkResult mode (some v) [mask, value, low, high]).1 = .matched ↔ v &&& mask = value &&& mask)) ∧
    (mode.extractLsb' 0 2 = 1 → mode.getLsbD 2 = false →
      ((checkResult mode (some v) [mask, value, low, high]).1 = .matched ↔
        low ≤ v &&& mask ∧ v &&& mask ≤ high)) ∧
    (mode.extractLsb' 0 2 = 2 → mode.getLsbD 2 = false →
      ((checkResult mode (some v) [mask, value, low, high]).1 = .matched ↔
        v &&& mask < low ∨ high < v &&& mask)) ∧
    ((checkResult mode (some v) [mask, value, low, high]).1 = .matched ∨
      (checkResult mode (some v) [mask, value, low, high]).1 = .miss) ∧
    ((checkResult (mode ^^^ 4#8) (some v) [mask, value, low, high]).1 = .matched ↔
      (checkResult mode (some v) [mask, value, low, high]).1 = .miss) ∧
    (∀ value' : Word, mode.extractLsb' 0 2 ≠ 0 →
      checkResult mode (some v) [mask, value', low, high] =
        checkResult mode (some v) [mask, value, low, high]) ∧
    (∀ low' high' : Word, mode.extractLsb' 0 2 = 0 →
      checkResult mode (some v) [mask, value, low', high'] =
        checkResult mode (some v) [mask, value, low, high]) ∧
    (high < low → mode.extractLsb' 0 2 = 1 → mode.getLsbD 2 = false →
      (checkResult mode (some v) [mask, value, low, high]).1 = .miss) ∧
    (high < low → mode.extractLsb' 0 2 = 2 → mode.getLsbD 2 = false →
      (checkResult mode (some v) [mask, value, low, high]).1 = .matched) ∧
    (∀ mode' : Byte, mode.extractLsb' 0 2 = 1 → mode.getLsbD 2 = true → mode'.extractLsb' 0 2 = 2 →
      mode'.getLsbD 2 = false → checkResult mode (some v) [mask, value, low, high] =
        checkResult mode' (some v) [mask, value, low, high]) ∧
    (checkResult mode none [mask, value, low, high]).1 = .noData

/-- CHECK: at the fourth read the step completes with the code and value of the test on its source's data, the
epoch of the return and the number of the action, the match action for MATCH and the miss action otherwise. A
verdict concludes the plan at once with last_step the CHECK, CONTINUE goes on with the next step at the following
boundary, and SKIP_NEXT leaves it to be passed over. A source whose current result is OK, MATCH, MISS or
OVERRANGE gives its value as data, any other none. A bus error on the fourth read concludes FETCH_FAULT without a
result and is counted READ_ERR (09, R131, R132, R134 to R137; 06, R93; 12, R167). The result of a read that the lane
has given up is discarded (09, R138; 11, R161). That the fourth read of a lane that has learned of a tear and not yet
stopped still completes the CHECK, or concludes FETCH_FAULT and is counted, is the model's reading (log 13), and so is
that a stopped lane waits for every fault count it asked for (log 18). That the count is asked for at once, beside the
writes of the list's entries, is its choice (log 40). -/
def Obligations.CheckCompletesAndActs : Prop :=
  (∀ (s : State) (r : BusReturn) (req : Request) (rest : List Request) (l : LaneId),
    Returns s r req rest → req.abandoned = true → req.access = .qualifier l true →
    ∃ t : State, exec (.check r) s = .next t ∧ ReturnDiscarded (s.afterReturn r req rest) t l) ∧
  (∀ (s u : State) (r : BusReturn) (req : Request) (rest : List Request) (l : LaneId) (x : Lane)
    (a b c d value : Word) (code : ResultCode) (action : BitVec 2),
    Returns s r req rest → req.access = .qualifier l true → req.abandoned = false →
    u = s.afterReturn r req rest → x = u.lane l → d = s.wordReturned r req rest →
    x.activity = .check [a, b, c] → checkResult x.request.mode x.sourceData [a, b, c, d] = (code, value) →
    action = (if code = .matched then x.request.mode.extractLsb' 3 2
      else x.request.mode.extractLsb' 5 2) →
    (replyFailed r.reply = false →
      ∃ t : State, exec (.check r) s = .next t ∧ OnlyLane u t l ∧ t.outd = u.outd ∧
        Completed x (t.lane l) x.step code value s.tbu.epoch (BitVec.setWidth 8 action) ∧
        (action = 0 → PassGoesOn x (t.lane l) x.step false false) ∧
        (action = 1 → PassGoesOn x (t.lane l) x.step true false) ∧
        (action = 2 → (t.lane l).state = .closing ∧ (t.lane l).activity = .none ∧
          (t.lane l).outcome = some (.passed, BitVec.ofNat 8 x.step)) ∧
        (action = 3 → (t.lane l).state = .closing ∧ (t.lane l).activity = .none ∧
          (t.lane l).outcome = some (.failed, BitVec.ofNat 8 x.step))) ∧
    (replyFailed r.reply = true →
      ∃ t : State, exec (.check r) s = .next t ∧ OnlyLaneAndCounts u t l ∧
        (t.lane l).list = x.list ∧ (t.lane l).state = .closing ∧ (t.lane l).activity = .none ∧
        (t.lane l).outcome = some (.fetchFault, BitVec.ofNat 8 x.step) ∧
        t.smon.counts = u.smon.counts ++ [{ kind := .fault .readErr, requester := .lane l }])) ∧
  (∀ (x : Lane) (h : x.request.line.toNat < 12),
    (x.results[x.request.line.toNat] = none → x.sourceData = none) ∧
    ∀ c : Current, x.results[x.request.line.toNat] = some c →
      (c.code = .ok ∨ c.code = .matched ∨ c.code = .miss ∨ c.code = .overrange →
        x.sourceData = some c.value) ∧
      (c.code ≠ .ok → c.code ≠ .matched → c.code ≠ .miss → c.code ≠ .overrange → x.sourceData = none))

/-- QUALIFIER_READ: each of the first three words brings the read of the next, but not for a lane that has learned
of a tear (the model's reading, log 13), and a bus error on any read that returns before the lane has stopped the
CHECK ends the CHECK without a result, concludes FETCH_FAULT with the CHECK's index and is counted READ_ERR, the list
being kept (09, R131, R138; 06, R93, R95). That such a read of a lane that has learned of a tear is still the CHECK's
own is the same reading (log 13), and that the count is asked for at once, beside the writes of the list's entries,
the model's choice (log 40). The result of a read that the lane has given up is discarded (09, R138; 11, R161); that a
stopped lane then waits for every fault count it asked for is its reading (log 18). -/
def Obligations.QualifierReadsFollowInOrder : Prop :=
  (∀ (s : State) (r : BusReturn) (req : Request) (rest : List Request) (l : LaneId),
    Returns s r req rest → req.abandoned = true → req.access = .qualifier l false →
    ∃ t : State, exec (.qualifierRead r) s = .next t ∧ ReturnDiscarded (s.afterReturn r req rest) t l) ∧
  ∀ (s u : State) (r : BusReturn) (req : Request) (rest : List Request) (l : LaneId) (got : List Word),
    Returns s r req rest → req.access = .qualifier l false → req.abandoned = false →
    u = s.afterReturn r req rest → (u.lane l).activity = .check got → got.length < 3 →
    ∃ t : State, exec (.qualifierRead r) s = .next t ∧ OnlyLaneAndCounts u t l ∧
      (t.lane l).list = (u.lane l).list ∧
      (replyFailed r.reply = false →
        (t.lane l).activity = .check (got ++ [s.wordReturned r req rest]) ∧
        ((u.lane l).tear = true → t.mport = rest) ∧
        ((u.lane l).tear = false →
          t.mport = rest ++ [u.requestOf (.qualifier l (got.length == 2))
            (u.qualifierAddr (u.lane l).request.arg.toNat (got.length + 1)) none])) ∧
      (replyFailed r.reply = true →
        (t.lane l).state = .closing ∧ (t.lane l).activity = .none ∧
        (t.lane l).outcome = some (.fetchFault, BitVec.ofNat 8 (u.lane l).step) ∧
        t.smon.counts = u.smon.counts ++ [{ kind := .fault .readErr, requester := .lane l }])

/-- R170: the numbers of the outcome codes, the step result codes, the engine states, the fault codes and
the step kinds, which the part writes in the outcome word and the result head, shows in STATUS, and judges
in a step record; NOT_RUN, 0, is no result the part writes. -/
def Obligations.CodesHaveTheirNumbers : Prop :=
  ([PlanOutcome.done, .passed, .failed, .timedOut, .recalled, .linesBusy, .late, .malformed, .fetchFault,
    .writeFault, .halted, .orphaned].map PlanOutcome.code = [1, 2, 3, 4, 5, 6, 7, 8, 9, 10, 11, 12]) ∧
  ([ResultCode.ok, .timeout, .recalled, .overrange, .skipped, .matched, .miss, .noData, .halted].map
    ResultCode.code = [1, 2, 3, 4, 5, 6, 7, 8, 9]) ∧
  (∀ c : ResultCode, c.code ≠ 0) ∧
  ([Engine.off, .loading, .running, .draining, .stalled].map Engine.code = [0, 1, 2, 3, 4]) ∧
  ([FaultCode.none, .badArea, .readErr, .writeErr, .settleLost, .headerLost, .badConfig].map
    FaultCode.code = [0, 1, 2, 3, 4, 5, 6]) ∧
  (∀ (o : PlanOutcome) (lastStep lane passes : Byte),
    (outcomeWord o lastStep lane passes).extractLsb' 0 8 = o.code) ∧
  (∀ e : StepResult, e.head.extractLsb' 0 8 = e.code.code) ∧
  (∀ s : State, s.status.extractLsb' 0 3 = s.engc.engine.code ∧
    s.status.extractLsb' 16 8 = s.engc.faultCode.code) ∧
  (∀ (m : Byte) (i : Nat) (t : StepReq), t.kind.toNat = 0 ∨ 10 ≤ t.kind.toNat → stepGood m i t = false) ∧
  (∀ (s : State) (l : LaneId) (k : Nat) (t : StepReq), (s.lane l).steps[k]? = some t →
    (t.kind = 1 → t.paramA ≠ 0 → ((s.beginStep l k).lane l).activity = .hold) ∧
    (t.kind = 2 → reached s.tbu.epoch t.paramA = false →
      ((s.beginStep l k).lane l).activity = .untilEpoch) ∧
    (t.kind = 3 → ((s.beginStep l k).lane l).activity = .edge) ∧
    (t.kind = 4 → ((s.beginStep l k).lane l).activity = .widthEnter) ∧
    (t.kind = 5 → ((s.beginStep l k).lane l).activity = .tally 0) ∧
    (t.kind = 6 → ((s.beginStep l k).lane l).activity = .periodFirst) ∧
    (t.kind = 7 → (s.beginStep l k).outd = (s.drive l t.outLine (t.mode == 1)).outd) ∧
    (t.kind = 8 → ((s.beginStep l k).lane l).activity = .pulse 0 true) ∧
    (t.kind = 9 → ((s.beginStep l k).lane l).activity = .check []))
end

