-- ==== Sys2Proof/Laws/State.lean ====
section
/-! SUPPORT. One lemma per field per update of State, true by definition, and the reading back of what an
update of an array wrote. -/

namespace Sys2Proof.Machine

/-! ### State.setLane -/

@[simp] theorem State.setLane_pending (s : State) (l : LaneId) (x : Lane) :
    (s.setLane l x).pending = s.pending := rfl
@[simp] theorem State.setLane_regp (s : State) (l : LaneId) (x : Lane) :
    (s.setLane l x).regp = s.regp := rfl
@[simp] theorem State.setLane_tbu (s : State) (l : LaneId) (x : Lane) :
    (s.setLane l x).tbu = s.tbu := rfl
@[simp] theorem State.setLane_engc (s : State) (l : LaneId) (x : Lane) :
    (s.setLane l x).engc = s.engc := rfl
@[simp] theorem State.setLane_smon (s : State) (l : LaneId) (x : Lane) :
    (s.setLane l x).smon = s.smon := rfl
@[simp] theorem State.setLane_admu (s : State) (l : LaneId) (x : Lane) :
    (s.setLane l x).admu = s.admu := rfl
@[simp] theorem State.setLane_lanes (s : State) (l : LaneId) (x : Lane) :
    (s.setLane l x).lanes = s.lanes.set l x := rfl
@[simp] theorem State.setLane_inc (s : State) (l : LaneId) (x : Lane) :
    (s.setLane l x).inc = s.inc := rfl
@[simp] theorem State.setLane_outd (s : State) (l : LaneId) (x : Lane) :
    (s.setLane l x).outd = s.outd := rfl
@[simp] theorem State.setLane_mport (s : State) (l : LaneId) (x : Lane) :
    (s.setLane l x).mport = s.mport := rfl
@[simp] theorem State.setLane_mem (s : State) (l : LaneId) (x : Lane) :
    (s.setLane l x).mem = s.mem := rfl
@[simp] theorem State.setLane_instant (s : State) (l : LaneId) (x : Lane) :
    (s.setLane l x).instant = s.instant := rfl
@[simp] theorem State.setLane_freeIndex (s : State) (l : LaneId) (x : Lane) :
    (s.setLane l x).freeIndex = s.freeIndex := rfl

/-! ### State.setMirror -/

@[simp] theorem State.setMirror_pending (s : State) (k : SlotId) (m : Mirror) :
    (s.setMirror k m).pending = s.pending := rfl
@[simp] theorem State.setMirror_regp (s : State) (k : SlotId) (m : Mirror) :
    (s.setMirror k m).regp = s.regp := rfl
@[simp] theorem State.setMirror_tbu (s : State) (k : SlotId) (m : Mirror) :
    (s.setMirror k m).tbu = s.tbu := rfl
@[simp] theorem State.setMirror_engc (s : State) (k : SlotId) (m : Mirror) :
    (s.setMirror k m).engc = s.engc := rfl
@[simp] theorem State.setMirror_smon (s : State) (k : SlotId) (m : Mirror) :
    (s.setMirror k m).smon = { s.smon with mirror := s.smon.mirror.set k m } := rfl
@[simp] theorem State.setMirror_admu (s : State) (k : SlotId) (m : Mirror) :
    (s.setMirror k m).admu = s.admu := rfl
@[simp] theorem State.setMirror_lanes (s : State) (k : SlotId) (m : Mirror) :
    (s.setMirror k m).lanes = s.lanes := rfl
@[simp] theorem State.setMirror_inc (s : State) (k : SlotId) (m : Mirror) :
    (s.setMirror k m).inc = s.inc := rfl
@[simp] theorem State.setMirror_outd (s : State) (k : SlotId) (m : Mirror) :
    (s.setMirror k m).outd = s.outd := rfl
@[simp] theorem State.setMirror_mport (s : State) (k : SlotId) (m : Mirror) :
    (s.setMirror k m).mport = s.mport := rfl
@[simp] theorem State.setMirror_mem (s : State) (k : SlotId) (m : Mirror) :
    (s.setMirror k m).mem = s.mem := rfl
@[simp] theorem State.setMirror_instant (s : State) (k : SlotId) (m : Mirror) :
    (s.setMirror k m).instant = s.instant := rfl
@[simp] theorem State.setMirror_freeIndex (s : State) (k : SlotId) (m : Mirror) :
    (s.setMirror k m).freeIndex = s.freeIndex := rfl

/-! ### State.setRecall -/

@[simp] theorem State.setRecall_pending (s : State) (k : SlotId) (x : Option SeenRecall) :
    (s.setRecall k x).pending = s.pending := rfl
@[simp] theorem State.setRecall_regp (s : State) (k : SlotId) (x : Option SeenRecall) :
    (s.setRecall k x).regp = s.regp := rfl
@[simp] theorem State.setRecall_tbu (s : State) (k : SlotId) (x : Option SeenRecall) :
    (s.setRecall k x).tbu = s.tbu := rfl
@[simp] theorem State.setRecall_engc (s : State) (k : SlotId) (x : Option SeenRecall) :
    (s.setRecall k x).engc = s.engc := rfl
@[simp] theorem State.setRecall_smon (s : State) (k : SlotId) (x : Option SeenRecall) :
    (s.setRecall k x).smon = { s.smon with recalls := s.smon.recalls.set k x } := rfl
@[simp] theorem State.setRecall_admu (s : State) (k : SlotId) (x : Option SeenRecall) :
    (s.setRecall k x).admu = s.admu := rfl
@[simp] theorem State.setRecall_lanes (s : State) (k : SlotId) (x : Option SeenRecall) :
    (s.setRecall k x).lanes = s.lanes := rfl
@[simp] theorem State.setRecall_inc (s : State) (k : SlotId) (x : Option SeenRecall) :
    (s.setRecall k x).inc = s.inc := rfl
@[simp] theorem State.setRecall_outd (s : State) (k : SlotId) (x : Option SeenRecall) :
    (s.setRecall k x).outd = s.outd := rfl
@[simp] theorem State.setRecall_mport (s : State) (k : SlotId) (x : Option SeenRecall) :
    (s.setRecall k x).mport = s.mport := rfl
@[simp] theorem State.setRecall_mem (s : State) (k : SlotId) (x : Option SeenRecall) :
    (s.setRecall k x).mem = s.mem := rfl
@[simp] theorem State.setRecall_instant (s : State) (k : SlotId) (x : Option SeenRecall) :
    (s.setRecall k x).instant = s.instant := rfl
@[simp] theorem State.setRecall_freeIndex (s : State) (k : SlotId) (x : Option SeenRecall) :
    (s.setRecall k x).freeIndex = s.freeIndex := rfl

/-! ### State.setPiece -/

@[simp] theorem State.setPiece_pending (s : State) (p : Piece) (w : Work) :
    (s.setPiece p w).pending = s.pending := rfl
@[simp] theorem State.setPiece_regp (s : State) (p : Piece) (w : Work) :
    (s.setPiece p w).regp = s.regp := rfl
@[simp] theorem State.setPiece_tbu (s : State) (p : Piece) (w : Work) :
    (s.setPiece p w).tbu = s.tbu := rfl
@[simp] theorem State.setPiece_engc (s : State) (p : Piece) (w : Work) :
    (s.setPiece p w).engc = s.engc := rfl
@[simp] theorem State.setPiece_smon (s : State) (p : Piece) (w : Work) :
    (s.setPiece p w).smon = { s.smon with piece := some (p, w) } := rfl
@[simp] theorem State.setPiece_admu (s : State) (p : Piece) (w : Work) :
    (s.setPiece p w).admu = s.admu := rfl
@[simp] theorem State.setPiece_lanes (s : State) (p : Piece) (w : Work) :
    (s.setPiece p w).lanes = s.lanes := rfl
@[simp] theorem State.setPiece_inc (s : State) (p : Piece) (w : Work) :
    (s.setPiece p w).inc = s.inc := rfl
@[simp] theorem State.setPiece_outd (s : State) (p : Piece) (w : Work) :
    (s.setPiece p w).outd = s.outd := rfl
@[simp] theorem State.setPiece_mport (s : State) (p : Piece) (w : Work) :
    (s.setPiece p w).mport = s.mport := rfl
@[simp] theorem State.setPiece_mem (s : State) (p : Piece) (w : Work) :
    (s.setPiece p w).mem = s.mem := rfl
@[simp] theorem State.setPiece_instant (s : State) (p : Piece) (w : Work) :
    (s.setPiece p w).instant = s.instant := rfl
@[simp] theorem State.setPiece_freeIndex (s : State) (p : Piece) (w : Work) :
    (s.setPiece p w).freeIndex = s.freeIndex := rfl

/-! ### State.ready -/

@[simp] theorem State.ready_pending (s : State) (p : Piece) :
    (s.ready p).pending = s.pending := rfl
@[simp] theorem State.ready_regp (s : State) (p : Piece) :
    (s.ready p).regp = s.regp := rfl
@[simp] theorem State.ready_tbu (s : State) (p : Piece) :
    (s.ready p).tbu = s.tbu := rfl
@[simp] theorem State.ready_engc (s : State) (p : Piece) :
    (s.ready p).engc = s.engc := rfl
@[simp] theorem State.ready_smon (s : State) (p : Piece) :
    (s.ready p).smon = { s.smon with waiting := s.smon.waiting ++ [p] } := rfl
@[simp] theorem State.ready_admu (s : State) (p : Piece) :
    (s.ready p).admu = s.admu := rfl
@[simp] theorem State.ready_lanes (s : State) (p : Piece) :
    (s.ready p).lanes = s.lanes := rfl
@[simp] theorem State.ready_inc (s : State) (p : Piece) :
    (s.ready p).inc = s.inc := rfl
@[simp] theorem State.ready_outd (s : State) (p : Piece) :
    (s.ready p).outd = s.outd := rfl
@[simp] theorem State.ready_mport (s : State) (p : Piece) :
    (s.ready p).mport = s.mport := rfl
@[simp] theorem State.ready_mem (s : State) (p : Piece) :
    (s.ready p).mem = s.mem := rfl
@[simp] theorem State.ready_instant (s : State) (p : Piece) :
    (s.ready p).instant = s.instant := rfl
@[simp] theorem State.ready_freeIndex (s : State) (p : Piece) :
    (s.ready p).freeIndex = s.freeIndex := rfl

/-! ### State.dropPiece -/

@[simp] theorem State.dropPiece_pending (s : State) :
    s.dropPiece.pending = s.pending := rfl
@[simp] theorem State.dropPiece_regp (s : State) :
    s.dropPiece.regp = s.regp := rfl
@[simp] theorem State.dropPiece_tbu (s : State) :
    s.dropPiece.tbu = s.tbu := rfl
@[simp] theorem State.dropPiece_engc (s : State) :
    s.dropPiece.engc = s.engc := rfl
@[simp] theorem State.dropPiece_smon (s : State) :
    s.dropPiece.smon = { s.smon with piece := none } := rfl
@[simp] theorem State.dropPiece_admu (s : State) :
    s.dropPiece.admu = s.admu := rfl
@[simp] theorem State.dropPiece_lanes (s : State) :
    s.dropPiece.lanes = s.lanes := rfl
@[simp] theorem State.dropPiece_inc (s : State) :
    s.dropPiece.inc = s.inc := rfl
@[simp] theorem State.dropPiece_outd (s : State) :
    s.dropPiece.outd = s.outd := rfl
@[simp] theorem State.dropPiece_mport (s : State) :
    s.dropPiece.mport = s.mport := rfl
@[simp] theorem State.dropPiece_mem (s : State) :
    s.dropPiece.mem = s.mem := rfl
@[simp] theorem State.dropPiece_instant (s : State) :
    s.dropPiece.instant = s.instant := rfl
@[simp] theorem State.dropPiece_freeIndex (s : State) :
    s.dropPiece.freeIndex = s.freeIndex := rfl

/-! ### State.setCounters -/

@[simp] theorem State.setCounters_pending (s : State) (c : Counters) :
    (s.setCounters c).pending = s.pending := rfl
@[simp] theorem State.setCounters_regp (s : State) (c : Counters) :
    (s.setCounters c).regp = s.regp := rfl
@[simp] theorem State.setCounters_tbu (s : State) (c : Counters) :
    (s.setCounters c).tbu = s.tbu := rfl
@[simp] theorem State.setCounters_engc (s : State) (c : Counters) :
    (s.setCounters c).engc = s.engc := rfl
@[simp] theorem State.setCounters_smon (s : State) (c : Counters) :
    (s.setCounters c).smon = { s.smon with counters := c } := rfl
@[simp] theorem State.setCounters_admu (s : State) (c : Counters) :
    (s.setCounters c).admu = s.admu := rfl
@[simp] theorem State.setCounters_lanes (s : State) (c : Counters) :
    (s.setCounters c).lanes = s.lanes := rfl
@[simp] theorem State.setCounters_inc (s : State) (c : Counters) :
    (s.setCounters c).inc = s.inc := rfl
@[simp] theorem State.setCounters_outd (s : State) (c : Counters) :
    (s.setCounters c).outd = s.outd := rfl
@[simp] theorem State.setCounters_mport (s : State) (c : Counters) :
    (s.setCounters c).mport = s.mport := rfl
@[simp] theorem State.setCounters_mem (s : State) (c : Counters) :
    (s.setCounters c).mem = s.mem := rfl
@[simp] theorem State.setCounters_instant (s : State) (c : Counters) :
    (s.setCounters c).instant = s.instant := rfl
@[simp] theorem State.setCounters_freeIndex (s : State) (c : Counters) :
    (s.setCounters c).freeIndex = s.freeIndex := rfl

/-! ### State.setQueue -/

@[simp] theorem State.setQueue_pending (s : State) (q : List Entry) :
    (s.setQueue q).pending = s.pending := rfl
@[simp] theorem State.setQueue_regp (s : State) (q : List Entry) :
    (s.setQueue q).regp = s.regp := rfl
@[simp] theorem State.setQueue_tbu (s : State) (q : List Entry) :
    (s.setQueue q).tbu = s.tbu := rfl
@[simp] theorem State.setQueue_engc (s : State) (q : List Entry) :
    (s.setQueue q).engc = s.engc := rfl
@[simp] theorem State.setQueue_smon (s : State) (q : List Entry) :
    (s.setQueue q).smon = s.smon := rfl
@[simp] theorem State.setQueue_admu (s : State) (q : List Entry) :
    (s.setQueue q).admu = { s.admu with queue := q } := rfl
@[simp] theorem State.setQueue_lanes (s : State) (q : List Entry) :
    (s.setQueue q).lanes = s.lanes := rfl
@[simp] theorem State.setQueue_inc (s : State) (q : List Entry) :
    (s.setQueue q).inc = s.inc := rfl
@[simp] theorem State.setQueue_outd (s : State) (q : List Entry) :
    (s.setQueue q).outd = s.outd := rfl
@[simp] theorem State.setQueue_mport (s : State) (q : List Entry) :
    (s.setQueue q).mport = s.mport := rfl
@[simp] theorem State.setQueue_mem (s : State) (q : List Entry) :
    (s.setQueue q).mem = s.mem := rfl
@[simp] theorem State.setQueue_instant (s : State) (q : List Entry) :
    (s.setQueue q).instant = s.instant := rfl
@[simp] theorem State.setQueue_freeIndex (s : State) (q : List Entry) :
    (s.setQueue q).freeIndex = s.freeIndex := rfl

/-! ### State.setCause -/

@[simp] theorem State.setCause_pending (s : State) (c : BitVec 4) :
    (s.setCause c).pending = s.pending := rfl
@[simp] theorem State.setCause_regp (s : State) (c : BitVec 4) :
    (s.setCause c).regp = { s.regp with cause := s.regp.cause ||| c } := rfl
@[simp] theorem State.setCause_tbu (s : State) (c : BitVec 4) :
    (s.setCause c).tbu = s.tbu := rfl
@[simp] theorem State.setCause_engc (s : State) (c : BitVec 4) :
    (s.setCause c).engc = s.engc := rfl
@[simp] theorem State.setCause_smon (s : State) (c : BitVec 4) :
    (s.setCause c).smon = s.smon := rfl
@[simp] theorem State.setCause_admu (s : State) (c : BitVec 4) :
    (s.setCause c).admu = s.admu := rfl
@[simp] theorem State.setCause_lanes (s : State) (c : BitVec 4) :
    (s.setCause c).lanes = s.lanes := rfl
@[simp] theorem State.setCause_inc (s : State) (c : BitVec 4) :
    (s.setCause c).inc = s.inc := rfl
@[simp] theorem State.setCause_outd (s : State) (c : BitVec 4) :
    (s.setCause c).outd = s.outd := rfl
@[simp] theorem State.setCause_mport (s : State) (c : BitVec 4) :
    (s.setCause c).mport = s.mport := rfl
@[simp] theorem State.setCause_mem (s : State) (c : BitVec 4) :
    (s.setCause c).mem = s.mem := rfl
@[simp] theorem State.setCause_instant (s : State) (c : BitVec 4) :
    (s.setCause c).instant = s.instant := rfl
@[simp] theorem State.setCause_freeIndex (s : State) (c : BitVec 4) :
    (s.setCause c).freeIndex = s.freeIndex := rfl

/-! ### State.setLoading -/

@[simp] theorem State.setLoading_pending (s : State) (x : Loading) :
    (s.setLoading x).pending = s.pending := rfl
@[simp] theorem State.setLoading_regp (s : State) (x : Loading) :
    (s.setLoading x).regp = s.regp := rfl
@[simp] theorem State.setLoading_tbu (s : State) (x : Loading) :
    (s.setLoading x).tbu = s.tbu := rfl
@[simp] theorem State.setLoading_engc (s : State) (x : Loading) :
    (s.setLoading x).engc = { s.engc with loading := some x } := rfl
@[simp] theorem State.setLoading_smon (s : State) (x : Loading) :
    (s.setLoading x).smon = s.smon := rfl
@[simp] theorem State.setLoading_admu (s : State) (x : Loading) :
    (s.setLoading x).admu = s.admu := rfl
@[simp] theorem State.setLoading_lanes (s : State) (x : Loading) :
    (s.setLoading x).lanes = s.lanes := rfl
@[simp] theorem State.setLoading_inc (s : State) (x : Loading) :
    (s.setLoading x).inc = s.inc := rfl
@[simp] theorem State.setLoading_outd (s : State) (x : Loading) :
    (s.setLoading x).outd = s.outd := rfl
@[simp] theorem State.setLoading_mport (s : State) (x : Loading) :
    (s.setLoading x).mport = s.mport := rfl
@[simp] theorem State.setLoading_mem (s : State) (x : Loading) :
    (s.setLoading x).mem = s.mem := rfl
@[simp] theorem State.setLoading_instant (s : State) (x : Loading) :
    (s.setLoading x).instant = s.instant := rfl
@[simp] theorem State.setLoading_freeIndex (s : State) (x : Loading) :
    (s.setLoading x).freeIndex = s.freeIndex := rfl

/-! ### State.raise -/

@[simp] theorem State.raise_pending (s : State) (a : Access) (w : Word) (d : Option Word) :
    (s.raise a w d).pending = s.pending := rfl
@[simp] theorem State.raise_regp (s : State) (a : Access) (w : Word) (d : Option Word) :
    (s.raise a w d).regp = s.regp := rfl
@[simp] theorem State.raise_tbu (s : State) (a : Access) (w : Word) (d : Option Word) :
    (s.raise a w d).tbu = s.tbu := rfl
@[simp] theorem State.raise_engc (s : State) (a : Access) (w : Word) (d : Option Word) :
    (s.raise a w d).engc = s.engc := rfl
@[simp] theorem State.raise_smon (s : State) (a : Access) (w : Word) (d : Option Word) :
    (s.raise a w d).smon = s.smon := rfl
@[simp] theorem State.raise_admu (s : State) (a : Access) (w : Word) (d : Option Word) :
    (s.raise a w d).admu = s.admu := rfl
@[simp] theorem State.raise_lanes (s : State) (a : Access) (w : Word) (d : Option Word) :
    (s.raise a w d).lanes = s.lanes := rfl
@[simp] theorem State.raise_inc (s : State) (a : Access) (w : Word) (d : Option Word) :
    (s.raise a w d).inc = s.inc := rfl
@[simp] theorem State.raise_outd (s : State) (a : Access) (w : Word) (d : Option Word) :
    (s.raise a w d).outd = s.outd := rfl
@[simp] theorem State.raise_mport (s : State) (a : Access) (w : Word) (d : Option Word) :
    (s.raise a w d).mport = s.mport ++ [{ access := a, addr := w, data := d, abandoned := false, instant := s.instant }] := rfl
@[simp] theorem State.raise_mem (s : State) (a : Access) (w : Word) (d : Option Word) :
    (s.raise a w d).mem = s.mem := rfl
@[simp] theorem State.raise_instant (s : State) (a : Access) (w : Word) (d : Option Word) :
    (s.raise a w d).instant = s.instant := rfl
@[simp] theorem State.raise_freeIndex (s : State) (a : Access) (w : Word) (d : Option Word) :
    (s.raise a w d).freeIndex = s.freeIndex := rfl

/-! ### State.abandon -/

@[simp] theorem State.abandon_pending (s : State) (p : Access → Bool) :
    (s.abandon p).pending = s.pending := rfl
@[simp] theorem State.abandon_regp (s : State) (p : Access → Bool) :
    (s.abandon p).regp = s.regp := rfl
@[simp] theorem State.abandon_tbu (s : State) (p : Access → Bool) :
    (s.abandon p).tbu = s.tbu := rfl
@[simp] theorem State.abandon_engc (s : State) (p : Access → Bool) :
    (s.abandon p).engc = s.engc := rfl
@[simp] theorem State.abandon_smon (s : State) (p : Access → Bool) :
    (s.abandon p).smon = s.smon := rfl
@[simp] theorem State.abandon_admu (s : State) (p : Access → Bool) :
    (s.abandon p).admu = s.admu := rfl
@[simp] theorem State.abandon_lanes (s : State) (p : Access → Bool) :
    (s.abandon p).lanes = s.lanes := rfl
@[simp] theorem State.abandon_inc (s : State) (p : Access → Bool) :
    (s.abandon p).inc = s.inc := rfl
@[simp] theorem State.abandon_outd (s : State) (p : Access → Bool) :
    (s.abandon p).outd = s.outd := rfl
@[simp] theorem State.abandon_mport (s : State) (p : Access → Bool) :
    (s.abandon p).mport = s.mport.map (fun r => if p r.access then { r with abandoned := true } else r) := rfl
@[simp] theorem State.abandon_mem (s : State) (p : Access → Bool) :
    (s.abandon p).mem = s.mem := rfl
@[simp] theorem State.abandon_instant (s : State) (p : Access → Bool) :
    (s.abandon p).instant = s.instant := rfl
@[simp] theorem State.abandon_freeIndex (s : State) (p : Access → Bool) :
    (s.abandon p).freeIndex = s.freeIndex := rfl

/-! ### State.nextInstant -/

@[simp] theorem State.nextInstant_pending (s : State) :
    s.nextInstant.pending = s.pending := rfl
@[simp] theorem State.nextInstant_regp (s : State) :
    s.nextInstant.regp = s.regp := rfl
@[simp] theorem State.nextInstant_tbu (s : State) :
    s.nextInstant.tbu = s.tbu := rfl
@[simp] theorem State.nextInstant_engc (s : State) :
    s.nextInstant.engc = s.engc := rfl
@[simp] theorem State.nextInstant_smon (s : State) :
    s.nextInstant.smon = s.smon := rfl
@[simp] theorem State.nextInstant_admu (s : State) :
    s.nextInstant.admu = s.admu := rfl
@[simp] theorem State.nextInstant_lanes (s : State) :
    s.nextInstant.lanes = s.lanes := rfl
@[simp] theorem State.nextInstant_inc (s : State) :
    s.nextInstant.inc = s.inc := rfl
@[simp] theorem State.nextInstant_outd (s : State) :
    s.nextInstant.outd = s.outd := rfl
@[simp] theorem State.nextInstant_mport (s : State) :
    s.nextInstant.mport = s.mport := rfl
@[simp] theorem State.nextInstant_mem (s : State) :
    s.nextInstant.mem = s.mem := rfl
@[simp] theorem State.nextInstant_instant (s : State) :
    s.nextInstant.instant = s.instant + 1 := rfl
@[simp] theorem State.nextInstant_freeIndex (s : State) :
    s.nextInstant.freeIndex = s.freeIndex := rfl

/-! ### State.stopTicks -/

@[simp] theorem State.stopTicks_pending (s : State) :
    s.stopTicks.pending = s.pending := rfl
@[simp] theorem State.stopTicks_regp (s : State) :
    s.stopTicks.regp = s.regp := rfl
@[simp] theorem State.stopTicks_tbu (s : State) :
    s.stopTicks.tbu = { s.tbu with prescaler := BitVec.ofNat 7 ((Config.prescalerPhase s.freeIndex).toNat % divisor s.regp.tickdiv) } := rfl
@[simp] theorem State.stopTicks_engc (s : State) :
    s.stopTicks.engc = s.engc := rfl
@[simp] theorem State.stopTicks_smon (s : State) :
    s.stopTicks.smon = s.smon := rfl
@[simp] theorem State.stopTicks_admu (s : State) :
    s.stopTicks.admu = s.admu := rfl
@[simp] theorem State.stopTicks_lanes (s : State) :
    s.stopTicks.lanes = s.lanes := rfl
@[simp] theorem State.stopTicks_inc (s : State) :
    s.stopTicks.inc = s.inc := rfl
@[simp] theorem State.stopTicks_outd (s : State) :
    s.stopTicks.outd = s.outd := rfl
@[simp] theorem State.stopTicks_mport (s : State) :
    s.stopTicks.mport = s.mport := rfl
@[simp] theorem State.stopTicks_mem (s : State) :
    s.stopTicks.mem = s.mem := rfl
@[simp] theorem State.stopTicks_instant (s : State) :
    s.stopTicks.instant = s.instant := rfl
@[simp] theorem State.stopTicks_freeIndex (s : State) :
    s.stopTicks.freeIndex = s.freeIndex + 1 := rfl

/-! ### State.carried -/

@[simp] theorem State.carried_pending (s : State) (r : BusReturn) (q : Request) (rest : List Request) :
    (s.carried r q rest).pending = s.pending := rfl
@[simp] theorem State.carried_regp (s : State) (r : BusReturn) (q : Request) (rest : List Request) :
    (s.carried r q rest).regp = s.regp := rfl
@[simp] theorem State.carried_tbu (s : State) (r : BusReturn) (q : Request) (rest : List Request) :
    (s.carried r q rest).tbu = s.tbu := rfl
@[simp] theorem State.carried_engc (s : State) (r : BusReturn) (q : Request) (rest : List Request) :
    (s.carried r q rest).engc = s.engc := rfl
@[simp] theorem State.carried_smon (s : State) (r : BusReturn) (q : Request) (rest : List Request) :
    (s.carried r q rest).smon = s.smon := rfl
@[simp] theorem State.carried_admu (s : State) (r : BusReturn) (q : Request) (rest : List Request) :
    (s.carried r q rest).admu = s.admu := rfl
@[simp] theorem State.carried_lanes (s : State) (r : BusReturn) (q : Request) (rest : List Request) :
    (s.carried r q rest).lanes = s.lanes := rfl
@[simp] theorem State.carried_inc (s : State) (r : BusReturn) (q : Request) (rest : List Request) :
    (s.carried r q rest).inc = { s.inc with pins := r.pins } := rfl
@[simp] theorem State.carried_outd (s : State) (r : BusReturn) (q : Request) (rest : List Request) :
    (s.carried r q rest).outd = s.outd := rfl
@[simp] theorem State.carried_mport (s : State) (r : BusReturn) (q : Request) (rest : List Request) :
    (s.carried r q rest).mport = rest := rfl
@[simp] theorem State.carried_mem (s : State) (r : BusReturn) (q : Request) (rest : List Request) :
    (s.carried r q rest).mem = memoryAfter r q s.mem := rfl
@[simp] theorem State.carried_instant (s : State) (r : BusReturn) (q : Request) (rest : List Request) :
    (s.carried r q rest).instant = s.instant := rfl
@[simp] theorem State.carried_freeIndex (s : State) (r : BusReturn) (q : Request) (rest : List Request) :
    (s.carried r q rest).freeIndex = s.freeIndex := rfl

/-! ### State.applyReload -/

@[simp] theorem State.applyReload_pending (s : State) (t : List Word) :
    (s.applyReload t).pending = s.pending := rfl
@[simp] theorem State.applyReload_regp (s : State) (t : List Word) :
    (s.applyReload t).regp = s.regp := rfl
@[simp] theorem State.applyReload_tbu (s : State) (t : List Word) :
    (s.applyReload t).tbu = s.tbu := rfl
@[simp] theorem State.applyReload_engc (s : State) (t : List Word) :
    (s.applyReload t).engc = s.engc := rfl
@[simp] theorem State.applyReload_smon (s : State) (t : List Word) :
    (s.applyReload t).smon = s.smon := rfl
@[simp] theorem State.applyReload_admu (s : State) (t : List Word) :
    (s.applyReload t).admu = s.admu := rfl
@[simp] theorem State.applyReload_lanes (s : State) (t : List Word) :
    (s.applyReload t).lanes = s.lanes := rfl
@[simp] theorem State.applyReload_inc (s : State) (t : List Word) :
    (s.applyReload t).inc = s.inc.reload t := rfl
@[simp] theorem State.applyReload_outd (s : State) (t : List Word) :
    (s.applyReload t).outd = outdReload t s.outd := rfl
@[simp] theorem State.applyReload_mport (s : State) (t : List Word) :
    (s.applyReload t).mport = s.mport := rfl
@[simp] theorem State.applyReload_mem (s : State) (t : List Word) :
    (s.applyReload t).mem = s.mem := rfl
@[simp] theorem State.applyReload_instant (s : State) (t : List Word) :
    (s.applyReload t).instant = s.instant := rfl
@[simp] theorem State.applyReload_freeIndex (s : State) (t : List Word) :
    (s.applyReload t).freeIndex = s.freeIndex := rfl

/-! ### State.applyLoading -/

@[simp] theorem State.applyLoading_pending (s : State) (t : List Word) :
    (s.applyLoading t).pending = s.pending := rfl
@[simp] theorem State.applyLoading_regp (s : State) (t : List Word) :
    (s.applyLoading t).regp = s.regp := rfl
@[simp] theorem State.applyLoading_tbu (s : State) (t : List Word) :
    (s.applyLoading t).tbu = s.tbu := rfl
@[simp] theorem State.applyLoading_engc (s : State) (t : List Word) :
    (s.applyLoading t).engc = s.engc := rfl
@[simp] theorem State.applyLoading_smon (s : State) (t : List Word) :
    (s.applyLoading t).smon = s.smon := rfl
@[simp] theorem State.applyLoading_admu (s : State) (t : List Word) :
    (s.applyLoading t).admu = s.admu := rfl
@[simp] theorem State.applyLoading_lanes (s : State) (t : List Word) :
    (s.applyLoading t).lanes = s.lanes := rfl
@[simp] theorem State.applyLoading_inc (s : State) (t : List Word) :
    (s.applyLoading t).inc = s.inc.apply t := rfl
@[simp] theorem State.applyLoading_outd (s : State) (t : List Word) :
    (s.applyLoading t).outd = outdApply t s.outd := rfl
@[simp] theorem State.applyLoading_mport (s : State) (t : List Word) :
    (s.applyLoading t).mport = s.mport := rfl
@[simp] theorem State.applyLoading_mem (s : State) (t : List Word) :
    (s.applyLoading t).mem = s.mem := rfl
@[simp] theorem State.applyLoading_instant (s : State) (t : List Word) :
    (s.applyLoading t).instant = s.instant := rfl
@[simp] theorem State.applyLoading_freeIndex (s : State) (t : List Word) :
    (s.applyLoading t).freeIndex = s.freeIndex := rfl

/-! ### State.beginPiece -/

@[simp] theorem State.beginPiece_pending (s : State) (p : Piece) (w : Work) :
    (s.beginPiece p w).pending = s.pending := rfl
@[simp] theorem State.beginPiece_regp (s : State) (p : Piece) (w : Work) :
    (s.beginPiece p w).regp = s.regp := rfl
@[simp] theorem State.beginPiece_tbu (s : State) (p : Piece) (w : Work) :
    (s.beginPiece p w).tbu = s.tbu := rfl
@[simp] theorem State.beginPiece_engc (s : State) (p : Piece) (w : Work) :
    (s.beginPiece p w).engc = s.engc := rfl
@[simp] theorem State.beginPiece_smon (s : State) (p : Piece) (w : Work) :
    (s.beginPiece p w).smon = { s.smon with waiting := s.smon.waiting.tail, piece := some (p, w) } := rfl
@[simp] theorem State.beginPiece_admu (s : State) (p : Piece) (w : Work) :
    (s.beginPiece p w).admu = s.admu := rfl
@[simp] theorem State.beginPiece_lanes (s : State) (p : Piece) (w : Work) :
    (s.beginPiece p w).lanes = s.lanes := rfl
@[simp] theorem State.beginPiece_inc (s : State) (p : Piece) (w : Work) :
    (s.beginPiece p w).inc = s.inc := rfl
@[simp] theorem State.beginPiece_outd (s : State) (p : Piece) (w : Work) :
    (s.beginPiece p w).outd = s.outd := rfl
@[simp] theorem State.beginPiece_mport (s : State) (p : Piece) (w : Work) :
    (s.beginPiece p w).mport = s.mport := rfl
@[simp] theorem State.beginPiece_mem (s : State) (p : Piece) (w : Work) :
    (s.beginPiece p w).mem = s.mem := rfl
@[simp] theorem State.beginPiece_instant (s : State) (p : Piece) (w : Work) :
    (s.beginPiece p w).instant = s.instant := rfl
@[simp] theorem State.beginPiece_freeIndex (s : State) (p : Piece) (w : Work) :
    (s.beginPiece p w).freeIndex = s.freeIndex := rfl

/-! ### State.giveUpCheck -/

@[simp] theorem State.giveUpCheck_pending (s : State) (l : LaneId) : (s.giveUpCheck l).pending = s.pending := rfl
@[simp] theorem State.giveUpCheck_regp (s : State) (l : LaneId) : (s.giveUpCheck l).regp = s.regp := rfl
@[simp] theorem State.giveUpCheck_tbu (s : State) (l : LaneId) : (s.giveUpCheck l).tbu = s.tbu := rfl
@[simp] theorem State.giveUpCheck_engc (s : State) (l : LaneId) : (s.giveUpCheck l).engc = s.engc := rfl
@[simp] theorem State.giveUpCheck_smon (s : State) (l : LaneId) : (s.giveUpCheck l).smon = s.smon := rfl
@[simp] theorem State.giveUpCheck_admu (s : State) (l : LaneId) : (s.giveUpCheck l).admu = s.admu := rfl
@[simp] theorem State.giveUpCheck_lanes (s : State) (l : LaneId) : (s.giveUpCheck l).lanes = s.lanes := rfl
@[simp] theorem State.giveUpCheck_inc (s : State) (l : LaneId) : (s.giveUpCheck l).inc = s.inc := rfl
@[simp] theorem State.giveUpCheck_outd (s : State) (l : LaneId) : (s.giveUpCheck l).outd = s.outd := rfl
@[simp] theorem State.giveUpCheck_mem (s : State) (l : LaneId) : (s.giveUpCheck l).mem = s.mem := rfl
@[simp] theorem State.giveUpCheck_instant (s : State) (l : LaneId) : (s.giveUpCheck l).instant = s.instant := rfl
@[simp] theorem State.giveUpCheck_freeIndex (s : State) (l : LaneId) : (s.giveUpCheck l).freeIndex = s.freeIndex := rfl

/-! ### State.hostWrote -/

@[simp] theorem State.hostWrote_pending (s : State) (h : List HostWrite) : (s.hostWrote h).pending = s.pending := rfl
@[simp] theorem State.hostWrote_regp (s : State) (h : List HostWrite) : (s.hostWrote h).regp = s.regp := rfl
@[simp] theorem State.hostWrote_tbu (s : State) (h : List HostWrite) : (s.hostWrote h).tbu = s.tbu := rfl
@[simp] theorem State.hostWrote_engc (s : State) (h : List HostWrite) : (s.hostWrote h).engc = s.engc := rfl
@[simp] theorem State.hostWrote_smon (s : State) (h : List HostWrite) : (s.hostWrote h).smon = s.smon := rfl
@[simp] theorem State.hostWrote_admu (s : State) (h : List HostWrite) : (s.hostWrote h).admu = s.admu := rfl
@[simp] theorem State.hostWrote_lanes (s : State) (h : List HostWrite) : (s.hostWrote h).lanes = s.lanes := rfl
@[simp] theorem State.hostWrote_inc (s : State) (h : List HostWrite) : (s.hostWrote h).inc = s.inc := rfl
@[simp] theorem State.hostWrote_outd (s : State) (h : List HostWrite) : (s.hostWrote h).outd = s.outd := rfl
@[simp] theorem State.hostWrote_mport (s : State) (h : List HostWrite) : (s.hostWrote h).mport = s.mport := rfl
@[simp] theorem State.hostWrote_instant (s : State) (h : List HostWrite) : (s.hostWrote h).instant = s.instant := rfl
@[simp] theorem State.hostWrote_freeIndex (s : State) (h : List HostWrite) : (s.hostWrote h).freeIndex = s.freeIndex := rfl
@[simp] theorem State.hostWrote_mem (s : State) (h : List HostWrite) :
    (s.hostWrote h).mem = Memory.hostWrites s.mem h := rfl

/-! ### State.emptyBus -/

@[simp] theorem State.emptyBus_mport (s : State) (b : Option OnBus) : (s.emptyBus b).mport = [] := by
  unfold State.emptyBus State.dropBus
  (repeat' split) <;> rfl

/-- A stall of the bus touches the order list and memory alone. -/
theorem State.emptyBus_frame (s : State) (b : Option OnBus) :
    s.emptyBus b = { s with mport := [], mem := (s.emptyBus b).mem } := by
  unfold State.emptyBus State.dropBus
  (repeat' split) <;> rfl

/-! ### Arrays -/

@[simp] theorem tabulate4_getElem {α : Type} (f : Fin 4 → α) (n : Nat) (h : n < 4) :
    (tabulate4 f)[n] = f ⟨n, h⟩ := by
  iterate 4 (rcases n with _ | n; · rfl)
  omega

@[simp] theorem tabulate8_getElem {α : Type} (f : Fin 8 → α) (n : Nat) (h : n < 8) :
    (tabulate8 f)[n] = f ⟨n, h⟩ := by
  iterate 8 (rcases n with _ | n; · rfl)
  omega

theorem tabulate4_get {α : Type} (f : Fin 4 → α) (i : Fin 4) : (tabulate4 f)[i] = f i := by simp

theorem tabulate8_get {α : Type} (f : Fin 8 → α) (i : Fin 8) : (tabulate8 f)[i] = f i := by simp

theorem vectorSet_self {α : Type} {n : Nat} (v : Vector α n) (i : Fin n) (x : α) :
    (v.set i x)[i] = x := by simp

theorem vectorSet_other {α : Type} {n : Nat} (v : Vector α n) (i j : Fin n) (x : α) (h : i ≠ j) :
    (v.set i x)[j] = v[j] := by
  have : i.val ≠ j.val := fun e => h (Fin.ext e)
  simp [this]

@[simp] theorem State.setLane_lane (s : State) (l : LaneId) (x : Lane) : (s.setLane l x).lane l = x := by
  simp [State.lane]

theorem State.setLane_other (s : State) (l k : LaneId) (x : Lane) (h : l ≠ k) :
    (s.setLane l x).lane k = s.lane k := by
  simpa [State.lane] using vectorSet_other s.lanes l k x h

@[simp] theorem State.setMirror_mirror (s : State) (k : SlotId) (m : Mirror) :
    (s.setMirror k m).mirror k = m := by simp [State.mirror]

/-- The recall in force for a slot is the one last written there. -/
@[simp] theorem State.setRecall_self (s : State) (k : SlotId) (x : Option SeenRecall) :
    (s.setRecall k x).smon.recalls[k] = x := vectorSet_self ..

theorem State.setRecall_other (s : State) (k j : SlotId) (x : Option SeenRecall) (h : k ≠ j) :
    (s.setRecall k x).smon.recalls[j] = s.smon.recalls[j] := vectorSet_other s.smon.recalls k j x h

@[simp] theorem State.setRecall_mirror (s : State) (k j : SlotId) (x : Option SeenRecall) :
    (s.setRecall k x).mirror j = s.mirror j := rfl

theorem State.setMirror_other (s : State) (k j : SlotId) (m : Mirror) (h : k ≠ j) :
    (s.setMirror k m).mirror j = s.mirror j := by
  simpa [State.mirror] using vectorSet_other s.smon.mirror k j m h

/-- A lane is read from the array of lanes alone. -/
theorem State.lane_of_lanes {s t : State} (h : t.lanes = s.lanes) (l : LaneId) : t.lane l = s.lane l := by
  simp [State.lane, h]

/-- A mirror entry is read from SMON's mirror alone. -/
theorem State.mirror_of_mirror {s t : State} (h : t.smon.mirror = s.smon.mirror) (k : SlotId) :
    t.mirror k = s.mirror k := by
  simp [State.mirror, h]

end Sys2Proof.Machine
end

