-- ==== Sys2Proof/Laws/Memory.lean ====
section
/-! SUPPORT. System memory: what a byte reads after a write, and that every memory operation keeps the
canonical form. -/

namespace Sys2Proof.Machine

/-- The lower bound of `Memory.wfAbove` as a proposition. -/
def AboveBound (lo : Option Nat) (x : Nat) : Prop := ∀ l, lo = some l → l < x

theorem Memory.wfAbove_cons (lo : Option Nat) (a : Nat) (b : Byte) (m : List Host.Cell) :
    Memory.wfAbove lo ((a, b) :: m) = true ↔
      AboveBound lo a ∧ b ≠ Memory.unlisted ∧ Memory.wfAbove (some a) m = true := by
  cases lo <;> simp [Memory.wfAbove, AboveBound, and_assoc]

theorem Memory.wfAbove_weaken {lo lo' : Option Nat} {m : List Host.Cell}
    (h : ∀ x, AboveBound lo x → AboveBound lo' x) (hm : Memory.wfAbove lo m = true) :
    Memory.wfAbove lo' m = true := by
  cases m with
  | nil => rfl
  | cons c m =>
    obtain ⟨a, b⟩ := c
    rw [Memory.wfAbove_cons] at hm ⊢
    exact ⟨h a hm.1, hm.2⟩

theorem AboveBound.trans {lo : Option Nat} {a x : Nat} (h : AboveBound lo a) (hx : a < x) :
    AboveBound lo x := fun l hl => Nat.lt_trans (h l hl) hx

theorem Memory.setByte_wfAbove (m : List Host.Cell) (lo : Option Nat) (x : Nat) (v : Byte)
    (hx : AboveBound lo x) (hm : Memory.wfAbove lo m = true) :
    Memory.wfAbove lo (Memory.setByte m x v) = true := by
  induction m generalizing lo with
  | nil =>
    unfold Memory.setByte
    split
    · rfl
    · rw [Memory.wfAbove_cons]
      exact ⟨hx, by assumption, rfl⟩
  | cons c m ih =>
    obtain ⟨a, b⟩ := c
    have h := (Memory.wfAbove_cons lo a b m).1 hm
    unfold Memory.setByte
    split
    · split
      · exact hm
      · rw [Memory.wfAbove_cons, Memory.wfAbove_cons]
        exact ⟨hx, by assumption, fun l hl => by cases hl; assumption, h.2⟩
    · split
      · subst x
        split
        · exact Memory.wfAbove_weaken (fun y hy => h.1.trans (hy a rfl)) h.2.2
        · rw [Memory.wfAbove_cons]
          exact ⟨h.1, by assumption, h.2.2⟩
      · rw [Memory.wfAbove_cons]
        exact ⟨h.1, h.2.1, ih (some a) (fun l hl => by cases hl; omega) h.2.2⟩

/-- Writing a byte keeps the canonical form. -/
theorem Memory.setByte_wf (m : List Host.Cell) (x : Nat) (v : Byte) (hm : Memory.wf m = true) :
    Memory.wf (Memory.setByte m x v) = true :=
  Memory.setByte_wfAbove m none x v (fun _ hl => by cases hl) hm

theorem Memory.write_wf (m : List Host.Cell) (a w : Word) (hm : Memory.wf m = true) :
    Memory.wf (Memory.write m a w) = true := by
  simp only [Memory.write]
  repeat apply Memory.setByte_wf
  exact hm

theorem Memory.hostWrites_wf (hs : List HostWrite) (m : List Host.Cell) (hm : Memory.wf m = true) :
    Memory.wf (Memory.hostWrites m hs) = true := by
  induction hs generalizing m with
  | nil => exact hm
  | cons h hs ih => exact ih _ (Memory.write_wf m h.addr h.data hm)

theorem Memory.carry_wf (m : List Host.Cell) (q : Request) (r : BusReply) (hm : Memory.wf m = true) :
    Memory.wf (Memory.carry m q r) = true := by
  unfold Memory.carry
  split
  · exact hm
  · exact Memory.write_wf _ _ _ hm

theorem memoryAfter_wf (r : BusReturn) (q : Request) (m : List Host.Cell) (hm : Memory.wf m = true) :
    Memory.wf (memoryAfter r q m) = true :=
  Memory.carry_wf _ q r.reply (Memory.hostWrites_wf _ _ hm)

/-- A byte that a write does not name reads as before, whatever the memory's form. -/
theorem Memory.byte_setByte_other (m : List Host.Cell) (x y : Nat) (v : Byte) (h : y ≠ x) :
    Memory.byte (Memory.setByte m x v) y = Memory.byte m y := by
  induction m with
  | nil =>
    unfold Memory.setByte
    split
    · rfl
    · simp [Memory.byte, Ne.symm h]
  | cons c m ih =>
    obtain ⟨a, b⟩ := c
    unfold Memory.setByte
    split
    · split
      · rfl
      · simp [Memory.byte, Ne.symm h]
    · split
      · subst x
        split <;> simp [Memory.byte, Ne.symm h]
      · simp [Memory.byte, ih]

theorem Memory.byte_below (m : List Host.Cell) (x : Nat) (hm : Memory.wfAbove (some x) m = true) :
    Memory.byte m x = Memory.unlisted := by
  induction m with
  | nil => rfl
  | cons c m ih =>
    obtain ⟨a, b⟩ := c
    have h := (Memory.wfAbove_cons _ a b m).1 hm
    have hx : x < a := h.1 x rfl
    have : Memory.wfAbove (some x) m = true :=
      Memory.wfAbove_weaken (fun y hy l hl => by cases hl; exact Nat.lt_trans hx (hy a rfl)) h.2.2
    simp [Memory.byte, Nat.ne_of_gt hx, ih this]

theorem Memory.byte_setByte_selfAbove (m : List Host.Cell) (lo : Option Nat) (x : Nat) (v : Byte)
    (hm : Memory.wfAbove lo m = true) : Memory.byte (Memory.setByte m x v) x = v := by
  induction m generalizing lo with
  | nil =>
    unfold Memory.setByte
    split <;> simp [Memory.byte, *]
  | cons c m ih =>
    obtain ⟨a, b⟩ := c
    have h := (Memory.wfAbove_cons lo a b m).1 hm
    unfold Memory.setByte
    split
    · rename_i hxa
      split
      · have : Memory.wfAbove (some x) ((a, b) :: m) = true :=
          (Memory.wfAbove_cons _ a b m).2 ⟨fun l hl => by cases hl; exact hxa, h.2⟩
        rw [Memory.byte_below _ _ this]
        exact Eq.symm ‹_›
      · simp [Memory.byte]
    · split
      · subst x
        split
        · rw [Memory.byte_below _ _ h.2.2]
          exact Eq.symm ‹_›
        · simp [Memory.byte]
      · rename_i hne
        simp [Memory.byte, Ne.symm hne, ih (some a) h.2.2]

/-- In a canonical memory the byte written is the byte read. -/
theorem Memory.byte_setByte_self (m : List Host.Cell) (x : Nat) (v : Byte) (hm : Memory.wf m = true) :
    Memory.byte (Memory.setByte m x v) x = v := Memory.byte_setByte_selfAbove m none x v hm

/-- A word write changes no byte outside its word. -/
theorem Memory.byte_write_other (m : List Host.Cell) (a w : Word) (y : Nat)
    (h : y < wordAddr a ∨ wordAddr a + 4 ≤ y) : Memory.byte (Memory.write m a w) y = Memory.byte m y := by
  simp only [Memory.write]
  rw [Memory.byte_setByte_other _ _ _ _ (by omega), Memory.byte_setByte_other _ _ _ _ (by omega),
    Memory.byte_setByte_other _ _ _ _ (by omega), Memory.byte_setByte_other _ _ _ _ (by omega)]

/-- In a canonical memory the word written is the word read. -/
theorem Memory.read_write_self (m : List Host.Cell) (a w : Word) (hm : Memory.wf m = true) :
    Memory.read (Memory.write m a w) a = w := by
  have h1 := Memory.setByte_wf m (wordAddr a) (w.extractLsb' 0 8) hm
  have h2 := Memory.setByte_wf _ (wordAddr a + 1) (w.extractLsb' 8 8) h1
  have h3 := Memory.setByte_wf _ (wordAddr a + 2) (w.extractLsb' 16 8) h2
  simp only [Memory.read, Memory.write]
  rw [Memory.byte_setByte_self _ _ _ h3, Memory.byte_setByte_other _ _ _ _ (by omega : wordAddr a + 2 ≠ wordAddr a + 3),
    Memory.byte_setByte_self _ _ _ h2,
    Memory.byte_setByte_other _ _ _ _ (by omega : wordAddr a + 1 ≠ wordAddr a + 3),
    Memory.byte_setByte_other _ _ _ _ (by omega : wordAddr a + 1 ≠ wordAddr a + 2),
    Memory.byte_setByte_self _ _ _ h1,
    Memory.byte_setByte_other _ _ _ _ (by omega : wordAddr a ≠ wordAddr a + 3),
    Memory.byte_setByte_other _ _ _ _ (by omega : wordAddr a ≠ wordAddr a + 2),
    Memory.byte_setByte_other _ _ _ _ (by omega : wordAddr a ≠ wordAddr a + 1),
    Memory.byte_setByte_self _ _ _ hm]
  ext i hi
  simp only [BitVec.getElem_append, BitVec.getElem_extractLsb']
  repeat' split
  all_goals simp_all [BitVec.getLsbD_eq_getElem]
  all_goals (rw [BitVec.getLsbD_eq_getElem (by omega)]; congr 1; omega)

end Sys2Proof.Machine
end

