-- ==== Sys2Proof/Laws/Frame.lean ====
section
/-! SUPPORT. What no event inside the part changes: the queue of commands, memory, the instant, the
register fields that only a write changes, the epoch, the pins, and the recalls in force for posts not yet taken,
which only a visit's read of a host word or a take changes. One lemma per shared operation. -/

namespace Sys2Proof.Machine

/-- The part of State that events inside the part leave alone; the recalls in force belong to it, since only the
returns of SMON's accesses change them. -/
structure Outside where
  pending : List Instr
  mem : List Host.Cell
  instant : Nat
  area : Word
  tickdiv : BitVec 3
  sweep : BitVec 2
  mask : BitVec 4
  resetLow : Bool
  response : PortResponse
  epoch : Word
  pins : Byte
  recalls : Vector (Option SeenRecall) 16

def State.outside (s : State) : Outside :=
  { pending := s.pending, mem := s.mem, instant := s.instant, area := s.regp.area,
    tickdiv := s.regp.tickdiv, sweep := s.regp.sweep, mask := s.regp.mask, resetLow := s.regp.resetLow,
    response := s.regp.response, epoch := s.tbu.epoch, pins := s.inc.pins,
    recalls := s.smon.recalls }

/-- Outside the part everything is as it was but, it may be, the recalls in force. -/
def OutsideButRecalls (s t : State) : Prop := t.outside = { s.outside with recalls := t.smon.recalls }

theorem OutsideButRecalls.of_outside {s t : State} (h : t.outside = s.outside) : OutsideButRecalls s t := by
  have e : t.smon.recalls = s.smon.recalls := congrArg Outside.recalls h
  unfold OutsideButRecalls
  rw [h, e]
  rfl

/-- An operation that leaves the outside alone may follow. -/
theorem OutsideButRecalls.then {s t u : State} (h : OutsideButRecalls s t) (g : u.outside = t.outside) :
    OutsideButRecalls s u := by
  have e : u.smon.recalls = t.smon.recalls := congrArg Outside.recalls g
  unfold OutsideButRecalls
  rw [g, h, e]

theorem foldl_outside {α : Type} (f : State → α → State) (hf : ∀ s x, (f s x).outside = s.outside)
    (l : List α) (s : State) : (l.foldl f s).outside = s.outside := by
  induction l generalizing s with
  | nil => rfl
  | cons x l ih => rw [List.foldl_cons, ih, hf]

/-! ### Primitive updates -/

@[simp] theorem State.setLane_outside (s : State) (l : LaneId) (x : Lane) :
    (s.setLane l x).outside = s.outside := rfl
@[simp] theorem State.setMirror_outside (s : State) (k : SlotId) (m : Mirror) :
    (s.setMirror k m).outside = s.outside := rfl
theorem State.setRecall_outside (s : State) (k : SlotId) (x : Option SeenRecall) :
    OutsideButRecalls s (s.setRecall k x) := rfl
@[simp] theorem State.setPiece_outside (s : State) (p : Piece) (w : Work) :
    (s.setPiece p w).outside = s.outside := rfl
@[simp] theorem State.ready_outside (s : State) (p : Piece) : (s.ready p).outside = s.outside := rfl
@[simp] theorem State.dropPiece_outside (s : State) : s.dropPiece.outside = s.outside := rfl
@[simp] theorem State.setCounters_outside (s : State) (c : Counters) :
    (s.setCounters c).outside = s.outside := rfl
@[simp] theorem State.setQueue_outside (s : State) (q : List Entry) :
    (s.setQueue q).outside = s.outside := rfl
@[simp] theorem State.setCause_outside (s : State) (c : BitVec 4) : (s.setCause c).outside = s.outside := rfl
@[simp] theorem State.setLoading_outside (s : State) (x : Loading) :
    (s.setLoading x).outside = s.outside := rfl
@[simp] theorem State.raise_outside (s : State) (a : Access) (w : Word) (d : Option Word) :
    (s.raise a w d).outside = s.outside := rfl
@[simp] theorem State.abandon_outside (s : State) (p : Access → Bool) :
    (s.abandon p).outside = s.outside := rfl
@[simp] theorem State.stopTicks_outside (s : State) : s.stopTicks.outside = s.outside := rfl
@[simp] theorem State.beginPiece_outside (s : State) (p : Piece) (w : Work) :
    (s.beginPiece p w).outside = s.outside := rfl
@[simp] theorem State.applyReload_outside (s : State) (t : List Word) :
    (s.applyReload t).outside = s.outside := rfl
@[simp] theorem State.applyLoading_outside (s : State) (t : List Word) :
    (s.applyLoading t).outside = s.outside := rfl

@[simp] theorem State.notify_outside (s : State) (b : Bool) : (s.notify b).outside = s.outside := by
  unfold State.notify; split <;> simp
@[simp] theorem State.drive_outside (s : State) (l : LaneId) (o : OutLine) (b : Bool) :
    (s.drive l o b).outside = s.outside := by
  unfold State.drive; split <;> rfl

/-! ### Admission -/

@[simp] theorem State.startPlan_outside (s : State) (e : Entry) (l : LaneId) :
    (s.startPlan e l).outside = s.outside := rfl
@[simp] theorem walkFrom_outside (kept rest : List Entry) (s : State) :
    (walkFrom kept rest s).outside = s.outside := by
  induction rest generalizing kept s with
  | nil => rfl
  | cons e rest ih =>
    unfold walkFrom
    repeat' split
    all_goals first | rfl | (rw [ih]; rfl) | rw [ih]
@[simp] theorem State.walk_outside (s : State) : s.walk.outside = s.outside := by
  unfold State.walk; split <;> simp
@[simp] theorem State.removeEntry_outside (s : State) (k : SlotId) :
    (s.removeEntry k).outside = s.outside := rfl
@[simp] theorem State.removeAs_outside (s : State) (k : SlotId) (w : Removal) :
    (s.removeAs k w).outside = s.outside := rfl
@[simp] theorem State.lateEntry_outside (s : State) (k : SlotId) : (s.lateEntry k).outside = s.outside := by
  unfold State.lateEntry; dsimp only; split <;> simp
@[simp] theorem State.makeEligible_outside (s : State) : s.makeEligible.outside = s.outside := by
  simp [State.makeEligible]
@[simp] theorem lateAll_outside (n : Nat) (s : State) : (lateAll n s).outside = s.outside := by
  induction n generalizing s with
  | zero => rfl
  | succ n ih => unfold lateAll; split <;> simp [ih]
@[simp] theorem State.admissionTick_outside (s : State) : s.admissionTick.outside = s.outside := by
  unfold State.admissionTick; split <;> simp
@[simp] theorem State.join_outside (s : State) (e : Entry) : (s.join e).outside = s.outside := by
  unfold State.join; dsimp only; repeat' split
  all_goals simp
@[simp] theorem haltEntries_outside (q : List Entry) (s : State) : (haltEntries q s).outside = s.outside := by
  induction q generalizing s with
  | nil => rfl
  | cons e q ih => unfold haltEntries; simp [ih]
@[simp] theorem State.releaseClaims_outside (s : State) (l : LaneId) (b : Bool) :
    (s.releaseClaims l b).outside = s.outside := rfl
@[simp] theorem State.freeTheLane_outside (s : State) (l : LaneId) : (s.freeTheLane l).outside = s.outside := rfl

/-! ### Counter set -/

@[simp] theorem State.serve_outside (s : State) : s.serve.outside = s.outside := by
  unfold State.serve; dsimp only; repeat' split
  all_goals rfl
@[simp] theorem State.count_outside (s : State) (k : CountKind) (r : Requester) :
    (s.count k r).outside = s.outside := by
  unfold State.count; dsimp only; split <;> first | rfl | (rw [State.serve_outside]; rfl)
@[simp] theorem State.serveSecond_outside (s : State) : s.serveSecond.outside = s.outside := rfl
@[simp] theorem State.countEffect_outside (s : State) (k : CountKind) :
    (s.countEffect k).outside = s.outside := by
  unfold State.countEffect; split <;> rfl
@[simp] theorem State.nextCount_outside (s : State) : s.nextCount.outside = s.outside := by
  unfold State.nextCount; rw [State.serve_outside]; rfl

/-! ### Lanes -/

@[simp] theorem State.pump_outside (s : State) (l : LaneId) : (s.pump l).outside = s.outside := by
  unfold State.pump; dsimp only; repeat' split
  all_goals rfl
@[simp] theorem State.conclude_outside (s : State) (l : LaneId) (o : PlanOutcome) (b : Byte) :
    (s.conclude l o b).outside = s.outside := by
  simp [State.conclude]
@[simp] theorem State.finishStep_outside (s : State) (l : LaneId) (c : ResultCode) (v w : Word) (a : Byte)
    (o : Option PlanOutcome) (b d : Bool) : (s.finishStep l c v w a o b d).outside = s.outside := by
  unfold State.finishStep; dsimp only; repeat' split
  all_goals simp
@[simp] theorem State.beginStep_outside (s : State) (l : LaneId) (k : Nat) :
    (s.beginStep l k).outside = s.outside := by
  unfold State.beginStep; dsimp only; repeat' split
  all_goals simp
@[simp] theorem State.beginWaiting_outside (s : State) (l : LaneId) : (s.beginWaiting l).outside = s.outside := by
  unfold State.beginWaiting; repeat' split
  all_goals simp
@[simp] theorem State.completeLoad_outside (s : State) (l : LaneId) : (s.completeLoad l).outside = s.outside := by
  simp [State.completeLoad]
@[simp] theorem State.deliverEdge_outside (s : State) (l : LaneId) (i : InLine) (b : Bool) (w : Word) :
    (s.deliverEdge l i b w).outside = s.outside := by
  unfold State.deliverEdge
  extract_lets x t d
  clear_value x d
  split
  · rfl
  · cases hx : x.activity <;> dsimp only <;> (try split) <;> (try split) <;> simp
@[simp] theorem State.acceptEdge_outside (s : State) (i : InLine) : (s.acceptEdge i).outside = s.outside := by
  unfold State.acceptEdge; dsimp only
  rw [foldl_outside _ (by intros; simp)]; rfl
@[simp] theorem State.acceptEdges_outside (s : State) : s.acceptEdges.outside = s.outside := by
  unfold State.acceptEdges
  exact foldl_outside _ (by intros; split <;> simp) _ _
@[simp] theorem State.overrangeStep_outside (s : State) (l : LaneId) :
    (s.overrangeStep l).outside = s.outside := by
  unfold State.overrangeStep; split <;> simp
@[simp] theorem State.timeoutStep_outside (s : State) (l : LaneId) : (s.timeoutStep l).outside = s.outside := by
  unfold State.timeoutStep
  extract_lets x t v f
  clear_value x v
  cases hx : x.activity <;> simp [f]
@[simp] theorem State.holdStep_outside (s : State) (l : LaneId) : (s.holdStep l).outside = s.outside := by
  simp [State.holdStep]
@[simp] theorem State.untilStep_outside (s : State) (l : LaneId) : (s.untilStep l).outside = s.outside := by
  simp [State.untilStep]
@[simp] theorem State.pulseStep_outside (s : State) (l : LaneId) : (s.pulseStep l).outside = s.outside := by
  unfold State.pulseStep; dsimp only; repeat' split
  all_goals simp
@[simp] theorem State.tallyStep_outside (s : State) (l : LaneId) : (s.tallyStep l).outside = s.outside := by
  unfold State.tallyStep; split <;> simp
@[simp] theorem State.completeRunning_outside (s : State) (l : LaneId) :
    (s.completeRunning l).outside = s.outside := by
  unfold State.completeRunning; dsimp only; repeat' split
  all_goals simp
@[simp] theorem State.chainInstant_outside (s : State) (l : LaneId) : (s.chainInstant l).outside = s.outside := by
  unfold State.chainInstant; dsimp only; repeat' split
  all_goals simp
@[simp] theorem State.giveUpCheck_outside (s : State) (l : LaneId) :
    (s.giveUpCheck l).outside = s.outside := rfl
@[simp] theorem State.cutRunning_outside (s : State) (l : LaneId) (c : ResultCode) :
    (s.cutRunning l c).outside = s.outside := by
  unfold State.cutRunning; dsimp only; split <;> simp
@[simp] theorem State.flagEffect_outside (s : State) (l : LaneId) : (s.flagEffect l).outside = s.outside := by
  unfold State.flagEffect; dsimp only; repeat' split
  all_goals simp
@[simp] theorem State.flaggedBoundary_outside (s : State) (l : LaneId) :
    (s.flaggedBoundary l).outside = s.outside := by
  unfold State.flaggedBoundary; split <;> simp
@[simp] theorem State.learnTear_outside (s : State) (l : LaneId) : (s.learnTear l).outside = s.outside := by
  unfold State.learnTear; dsimp only; split <;> simp
@[simp] theorem State.tearFinish_outside (s : State) (l : LaneId) : (s.tearFinish l).outside = s.outside := by
  unfold State.tearFinish; dsimp only; split <;> simp
@[simp] theorem State.tearStop_outside (s : State) (l : LaneId) : (s.tearStop l).outside = s.outside := by
  unfold State.tearStop; dsimp only; split <;> simp
@[simp] theorem State.laneFault_outside (s : State) (l : LaneId) (o : PlanOutcome) (b : Byte) (c : FaultCode)
    (d : Bool) : (s.laneFault l o b c d).outside = s.outside := by
  simp [State.laneFault]
@[simp] theorem State.tornWriteFault_outside (s : State) (l : LaneId) :
    (s.tornWriteFault l).outside = s.outside := by
  simp [State.tornWriteFault]
@[simp] theorem State.laneSettled_outside (s : State) (l : LaneId) : (s.laneSettled l).outside = s.outside := by
  simp [State.laneSettled]
@[simp] theorem State.laneCounted_outside (s : State) (l : LaneId) (k : CountKind) :
    (s.laneCounted l k).outside = s.outside := by
  unfold State.laneCounted; dsimp only; repeat' split
  all_goals simp
@[simp] theorem State.evaluateCheck_outside (s : State) (l : LaneId) (q : List Word) :
    (s.evaluateCheck l q).outside = s.outside := by
  simp [State.evaluateCheck]

/-! ### Slot Monitor -/

@[simp] theorem State.setWork_outside (s : State) (w : Work) : (s.setWork w).outside = s.outside := by
  unfold State.setWork; split <;> simp
@[simp] theorem State.takeNext_outside (s : State) : s.takeNext.outside = s.outside := by
  unfold State.takeNext; dsimp only; repeat' split
  all_goals first | rfl | (rw [State.count_outside]; rfl)
@[simp] theorem State.startSweep_outside (s : State) : s.startSweep.outside = s.outside := rfl
@[simp] theorem State.sweepRequest_outside (s : State) : s.sweepRequest.outside = s.outside := by
  unfold State.sweepRequest; repeat' split
  all_goals first | rfl | simp
@[simp] theorem State.endSweep_outside (s : State) : s.endSweep.outside = s.outside := by
  unfold State.endSweep; split <;> rfl
@[simp] theorem State.readyAfter_outside (s : State) (p : Piece) : (s.readyAfter p).outside = s.outside := by
  unfold State.readyAfter; repeat' split
  all_goals first | rfl | simp
@[simp] theorem State.endPiece_outside (s : State) : s.endPiece.outside = s.outside := by
  unfold State.endPiece; split <;> simp
@[simp] theorem State.smonCount_outside (s : State) (k : CountKind) (n : AfterCount) :
    (s.smonCount k n).outside = s.outside := by
  simp [State.smonCount]
@[simp] theorem State.smonFault_outside (s : State) (c : FaultCode) : (s.smonFault c).outside = s.outside := by
  simp [State.smonFault]
@[simp] theorem State.startDiscovery_outside (s : State) (k : SlotId) (p : Half) :
    (s.startDiscovery k p).outside = s.outside := by
  simp [State.startDiscovery]
@[simp] theorem State.settleDue_outside (s : State) (k : SlotId) (q : Half) (o : PlanOutcome) (n : Bool)
    (d : Option Half) : (s.settleDue k q o n d).outside = s.outside := by
  simp [State.settleDue]
@[simp] theorem State.smonSettleWrite_outside (s : State) (j : SettleJob) (i : Nat) :
    (s.smonSettleWrite j i).outside = s.outside := by
  simp [State.smonSettleWrite]
@[simp] theorem State.beginSettle_outside (s : State) (j : SettleJob) : (s.beginSettle j).outside = s.outside := by
  simp [State.beginSettle]
@[simp] theorem State.visitPending_outside (s : State) (k : SlotId) (w : Removal) (d : Option Half) :
    (s.visitPending k w d).outside = s.outside := by
  unfold State.visitPending; rw [State.settleDue_outside]; rfl
@[simp] theorem State.visitRunning_outside (s : State) (k : SlotId) (p : Half) (r : Option Half) :
    (s.visitRunning k p r).outside = s.outside := by
  unfold State.visitRunning; dsimp only; repeat' split
  all_goals simp
theorem State.noteVisit_outside (s : State) (k : SlotId) (p r : Half) :
    OutsideButRecalls s (s.noteVisit k p r) := rfl
@[simp] theorem State.visitDecision_outside (s : State) (k : SlotId) (p r : Half) :
    (s.visitDecision k p r).outside = s.outside := by
  unfold State.visitDecision; dsimp only; repeat' split
  all_goals simp
@[simp] theorem State.startTake_outside (s : State) (j : TakeJob) : (s.startTake j).outside = s.outside := by
  simp [State.startTake]
@[simp] theorem State.takePartWrite_outside (s : State) (j : TakeJob) :
    (s.takePartWrite j).outside = s.outside := by
  simp [State.takePartWrite]
/-- A take that has landed leaves no recall in force for its slot. -/
theorem State.taken_outside (s : State) (j : TakeJob) (f : Bool) :
    (s.taken j f).outside = (s.setRecall j.slot none).outside := by
  unfold State.taken; dsimp only; repeat' split
  all_goals first | (simp; done) | (simp; rfl)
@[simp] theorem State.smonSettled_outside (s : State) (j : SettleJob) : (s.smonSettled j).outside = s.outside := by
  unfold State.smonSettled; dsimp only; split <;> simp
@[simp] theorem State.smonCounted_outside (s : State) : s.smonCounted.outside = s.outside := by
  unfold State.smonCounted; repeat' split
  all_goals simp

/-! ### Engine Control -/

/-- A stall changes nothing outside the part but what the access under way leaves in memory. -/
theorem State.stall_outside (s : State) (c : FaultCode) (b : Option OnBus) :
    (s.stall c b).outside = { s.outside with mem := (s.emptyBus b).mem } := by
  unfold State.stall
  rw [State.emptyBus_frame]
  rfl
@[simp] theorem State.enterOff_outside (s : State) : s.enterOff.outside = s.outside := rfl
@[simp] theorem State.enableFails_outside (s : State) (c : FaultCode) : (s.enableFails c).outside = s.outside := rfl
@[simp] theorem State.leaveStalled_outside (s : State) : s.leaveStalled.outside = s.outside := rfl
@[simp] theorem State.beginDrain_outside (s : State) : s.beginDrain.outside = s.outside := rfl
@[simp] theorem State.enterDraining_outside (s : State) : s.enterDraining.outside = s.outside := by
  unfold State.enterDraining; dsimp only
  split <;> simp
@[simp] theorem State.loadingRead_outside (s : State) (x : Loading) (a : Word) :
    (s.loadingRead x a).outside = s.outside := rfl
@[simp] theorem State.enterRunning_outside (s : State) : s.enterRunning.outside = s.outside := by
  unfold State.enterRunning; rw [State.sweepRequest_outside]; rfl
@[simp] theorem State.orphanWrite_outside (s : State) (x : Loading) (k : SlotId) (q : Half) (i : Nat) :
    (s.orphanWrite x k q i).outside = s.outside := rfl
@[simp] theorem State.nextOrphan_outside (s : State) (x : Loading) : (s.nextOrphan x).outside = s.outside := by
  unfold State.nextOrphan; split <;> rfl
@[simp] theorem State.resetMirrorsFrom_outside (s : State) (n : Nat) :
    (s.resetMirrorsFrom n).outside = s.outside := by
  unfold State.resetMirrorsFrom
  exact foldl_outside _ (by intros; split <;> simp) _ _
@[simp] theorem State.notePart_outside (s : State) (x : Loading) (k : SlotId) (w : Word) :
    (s.notePart x k w).1.outside = s.outside := by
  unfold State.notePart; dsimp only; split <;> rfl
@[simp] theorem State.loadingData_outside (s : State) (x : Loading) (w : Word) :
    (s.loadingData x w).outside = s.outside := by
  unfold State.loadingData; dsimp only; repeat' split
  all_goals first | rfl | simp
@[simp] theorem State.orphanWritten_outside (s : State) (x : Loading) (i : Nat) :
    (s.orphanWritten x i).outside = s.outside := by
  unfold State.orphanWritten; repeat' split
  all_goals simp
@[simp] theorem State.engcCounted_outside (s : State) (x : Loading) : (s.engcCounted x).outside = s.outside := by
  unfold State.engcCounted; repeat' split
  all_goals simp

/-! ### Events due at an instant -/

@[simp] theorem State.timerExpires_outside (s : State) : s.timerExpires.outside = s.outside := by
  unfold State.timerExpires; rw [State.sweepRequest_outside]; rfl
@[simp] theorem State.beginDueSettle_outside (s : State) : s.beginDueSettle.outside = s.outside := by
  unfold State.beginDueSettle; repeat' split
  all_goals simp
@[simp] theorem State.handleCompletion_outside (s : State) : s.handleCompletion.outside = s.outside := by
  unfold State.handleCompletion; dsimp only; repeat' split
  all_goals simp
@[simp] theorem State.handleTearRelease_outside (s : State) : s.handleTearRelease.outside = s.outside := by
  unfold State.handleTearRelease; dsimp only; split <;> simp
@[simp] theorem Due.act_outside (s : State) (e : Due) : (e.act s).outside = s.outside := by
  cases e <;> simp [Due.act]
@[simp] theorem State.runDue_outside (s : State) (e : Due) : (s.runDue e).outside = s.outside := by
  unfold State.runDue; split <;> simp
@[simp] theorem finishLoop_outside (n : Nat) (s : State) : (finishLoop n s).outside = s.outside := by
  induction n generalizing s with
  | zero => rfl
  | succ n ih => unfold finishLoop; split <;> simp [ih]

/-- With nothing due there is nothing to complete. -/
theorem finishLoop_of_done (n : Nat) {s : State} (h : s.nextDue = none) : finishLoop n s = s := by
  cases n with
  | zero => rfl
  | succ n => unfold finishLoop; rw [h]

/-- The first event due is completed first. -/
theorem finishLoop_of_due (n : Nat) {s : State} {e : Due} (h : s.nextDue = some e) :
    finishLoop (n + 1) s = finishLoop n (e.act s) := by
  rw [finishLoop.eq_def]
  dsimp only
  rw [h]

/-- Where a bound is enough to complete the instant, one more event changes nothing. -/
theorem finishLoop_succ (n : Nat) {s : State} (h : (finishLoop n s).nextDue = none) :
    finishLoop (n + 1) s = finishLoop n s := by
  induction n generalizing s with
  | zero => exact finishLoop_of_done 1 h
  | succ n ih =>
    cases hd : s.nextDue with
    | none => rw [finishLoop_of_done _ hd, finishLoop_of_done _ hd]
    | some e =>
      rw [finishLoop_of_due _ hd] at h ⊢
      rw [finishLoop_of_due _ hd, ih h]

/-- The pin shows the level that OUTD holds when the events due have taken place. -/
theorem State.outputPin_eq (s : State) (o : OutLine) :
    s.outputPin o = ((finishLoop instantBound s).outd[o]).level := rfl

/-- The completion of an instant leaves what is outside the part's own work alone. -/
@[simp] theorem State.finishInstant_outside (s : State) : s.finishInstant.outside = s.outside :=
  finishLoop_outside instantBound s
@[simp] theorem State.boundaryLane_outside (s : State) (l : LaneId) : (s.boundaryLane l).outside = s.outside := by
  unfold State.boundaryLane; dsimp only; repeat' split
  all_goals simp

@[simp] theorem State.boundaryAct_outside (s : State) (a : Actor) : (s.boundaryAct a).outside = s.outside := by
  unfold State.boundaryAct; repeat' split
  all_goals simp

/-- A command from outside finds everything outside the part's own work as it was, at a new instant. -/
theorem State.settled_outside (s : State) :
    s.settled.outside = { s.outside with instant := s.instant + 1 } := by
  have h := State.finishInstant_outside s
  have e : s.settled.outside = { s.finishInstant.outside with instant := s.finishInstant.instant + 1 } := rfl
  have hi : s.finishInstant.instant = s.instant := congrArg Outside.instant h
  rw [e, h, hi]

/-! ### What a command from outside finds as it was -/

@[simp] theorem State.settled_pending (s : State) : s.settled.pending = s.pending :=
  (congrArg Outside.pending (State.settled_outside s) :)
@[simp] theorem State.settled_mem (s : State) : s.settled.mem = s.mem :=
  (congrArg Outside.mem (State.settled_outside s) :)
@[simp] theorem State.settled_area (s : State) : s.settled.regp.area = s.regp.area :=
  (congrArg Outside.area (State.settled_outside s) :)
@[simp] theorem State.settled_tickdiv (s : State) : s.settled.regp.tickdiv = s.regp.tickdiv :=
  (congrArg Outside.tickdiv (State.settled_outside s) :)
@[simp] theorem State.settled_sweep (s : State) : s.settled.regp.sweep = s.regp.sweep :=
  (congrArg Outside.sweep (State.settled_outside s) :)
@[simp] theorem State.settled_mask (s : State) : s.settled.regp.mask = s.regp.mask :=
  (congrArg Outside.mask (State.settled_outside s) :)
@[simp] theorem State.settled_resetLow (s : State) : s.settled.regp.resetLow = s.regp.resetLow :=
  (congrArg Outside.resetLow (State.settled_outside s) :)
@[simp] theorem State.settled_response (s : State) : s.settled.regp.response = s.regp.response :=
  (congrArg Outside.response (State.settled_outside s) :)
@[simp] theorem State.settled_epoch (s : State) : s.settled.tbu.epoch = s.tbu.epoch :=
  (congrArg Outside.epoch (State.settled_outside s) :)
@[simp] theorem State.settled_pins (s : State) : s.settled.inc.pins = s.inc.pins :=
  (congrArg Outside.pins (State.settled_outside s) :)

@[simp] theorem State.settled_recalls (s : State) : s.settled.smon.recalls = s.smon.recalls :=
  (congrArg Outside.recalls (State.settled_outside s) :)

end Sys2Proof.Machine
end

