-- ==== Sys2Proof/Laws/Lanes.lean ====
section
/-! SUPPORT. Everything that writing on, concluding, completing a step and beginning a step can do: each
changes its own lane, the order list and (for a step that drives) one output line, and nothing else. -/

namespace Sys2Proof.Machine

/-! ### Writing a lane -/

/-- Writing back what a lane holds changes nothing. -/
theorem State.setLane_same (s : State) (l : LaneId) : s.setLane l (s.lane l) = s := by
  have : s.lanes.set l (s.lane l) = s.lanes := by simp [State.lane]
  unfold State.setLane
  rw [this]

@[simp] theorem State.setLane_setLane (s : State) (l : LaneId) (x y : Lane) :
    (s.setLane l x).setLane l y = s.setLane l y := by
  simp [State.setLane]

/-- The lanes of a state with another order list. -/
@[simp] theorem State.mport_lane (s : State) (q : List Request) (l : LaneId) :
    { s with mport := q }.lane l = s.lane l := rfl

/-! ### Going on with the slot's accesses -/

/-- `pump` changes the lane's access and the epoch of its settle, and the order list. -/
theorem State.pump_eq (s : State) (l : LaneId) :
    ∃ (a : SlotAccess) (e : Word) (q : List Request),
      s.pump l = { s.setLane l { s.lane l with access := a, settledEpoch := e } with mport := q } := by
  have same : s = { s.setLane l { s.lane l with
      access := (s.lane l).access, settledEpoch := (s.lane l).settledEpoch } with mport := s.mport } := by
    have h := (State.setLane_same s l).symm
    exact h
  unfold State.pump
  extract_lets x
  split
  · exact ⟨_, _, _, same⟩
  · split
    · exact ⟨.check 0, x.settledEpoch, _, rfl⟩
    · split
      · exact ⟨.settleCheck 0, s.epoch, _, rfl⟩
      · exact ⟨_, _, _, same⟩
    · exact ⟨_, _, _, same⟩

/-- A conclusion writes the lane's state, activity and outcome, and goes on with its accesses. -/
theorem State.conclude_eq (s : State) (l : LaneId) (o : PlanOutcome) (b : Byte) :
    ∃ (a : SlotAccess) (e : Word) (q : List Request),
      s.conclude l o b = { s.setLane l { s.lane l with
        state := .closing, activity := .none, loaded := false, loadDue := false, outcome := some (o, b),
        access := a, settledEpoch := e } with mport := q } := by
  unfold State.conclude
  obtain ⟨a, e, q, h⟩ := State.pump_eq (s.setLane l { s.lane l with
    state := .closing, activity := .none, loaded := false, loadDue := false, outcome := some (o, b) }) l
  refine ⟨a, e, q, ?_⟩
  rw [h, State.setLane_lane, State.setLane_setLane]

/-! ### Completing a step -/

/-- A completion that concludes the plan. -/
theorem State.finishStep_ends (s : State) (l : LaneId) (c : ResultCode) (v w : Word) (a : Byte)
    (verdict : Option PlanOutcome) (skip same : Bool) (o : PlanOutcome)
    (h : (s.lane l).endingWith verdict = some o) :
    ∃ (acc : SlotAccess) (e : Word) (q : List Request),
      s.finishStep l c v w a verdict skip same =
        { s.setLane l { (s.lane l).finished c v w a with
          state := .closing, loaded := false, loadDue := false,
          outcome := some (o, BitVec.ofNat 8 (s.lane l).step), access := acc, settledEpoch := e } with
          mport := q } := by
  unfold State.finishStep
  dsimp only
  rw [h]
  obtain ⟨acc, e, q, h'⟩ := State.conclude_eq (s.setLane l ((s.lane l).finished c v w a)) l o
    (BitVec.ofNat 8 (s.lane l).step)
  refine ⟨acc, e, q, ?_⟩
  dsimp only
  rw [h', State.setLane_lane, State.setLane_setLane]
  rfl

/-- A completion after which the plan goes on. -/
theorem State.finishStep_goesOn (s : State) (l : LaneId) (c : ResultCode) (v w : Word) (a : Byte)
    (verdict : Option PlanOutcome) (skip same : Bool) (h : (s.lane l).endingWith verdict = none) :
    ∃ (acc : SlotAccess) (e : Word) (q : List Request),
      s.finishStep l c v w a verdict skip same =
        { s.setLane l { (s.lane l).finished c v w a with
          activity := (s.lane l).nextWait skip same, access := acc, settledEpoch := e } with
          mport := q } := by
  unfold State.finishStep
  dsimp only
  rw [h]
  obtain ⟨acc, e, q, h'⟩ := State.pump_eq (s.setLane l { (s.lane l).finished c v w a with
    activity := (s.lane l).nextWait skip same }) l
  refine ⟨acc, e, q, ?_⟩
  dsimp only
  rw [h', State.setLane_lane, State.setLane_setLane]

/-- What every completion leaves in its lane, and that nothing outside lane and order list changes. -/
theorem State.finishStep_eq (s : State) (l : LaneId) (c : ResultCode) (v w : Word) (a : Byte)
    (verdict : Option PlanOutcome) (skip same : Bool) :
    ∃ (y : Lane) (q : List Request),
      s.finishStep l c v w a verdict skip same = { s.setLane l y with mport := q } ∧
      y.list = ((s.lane l).finished c v w a).list ∧ y.lastDone = (s.lane l).step ∧
      y.passesDone = (s.lane l).passesAfter ∧ y.activity.isRunning = false ∧
      y.step = (s.lane l).step ∧ y.startTick = (s.lane l).startTick ∧
      y.startedEpoch = (s.lane l).startedEpoch ∧ y.tear = (s.lane l).tear ∧
      y.stopped = (s.lane l).stopped ∧ y.slot = (s.lane l).slot ∧ y.seq = (s.lane l).seq ∧
      y.recallFlag = (s.lane l).recallFlag ∧ y.halt = (s.lane l).halt ∧
      y.steps = (s.lane l).steps ∧ y.results = ((s.lane l).finished c v w a).results ∧
      (y.state = (s.lane l).state ∨ y.state = .closing) ∧
      (∀ o, (s.lane l).endingWith verdict = some o →
        y.state = .closing ∧ y.outcome = some (o, BitVec.ofNat 8 (s.lane l).step) ∧
        y.activity = .none) ∧
      ((s.lane l).endingWith verdict = none →
        y.state = (s.lane l).state ∧ y.outcome = (s.lane l).outcome ∧
        y.activity = (s.lane l).nextWait skip same) := by
  cases h : (s.lane l).endingWith verdict with
  | none =>
    obtain ⟨acc, e, q, h'⟩ := State.finishStep_goesOn s l c v w a verdict skip same h
    refine ⟨_, q, h', ?_⟩
    and_intros
    all_goals first
      | rfl
      | exact .inl rfl
      | exact fun _ ho => nomatch ho
      | exact fun _ => ⟨rfl, rfl, rfl⟩
      | (dsimp only; unfold Lane.nextWait; split <;> rfl)
  | some o =>
    obtain ⟨acc, e, q, h'⟩ := State.finishStep_ends s l c v w a verdict skip same o h
    refine ⟨_, q, h', ?_⟩
    and_intros
    all_goals first
      | rfl
      | exact .inr rfl
      | (intro hn; cases hn; done)
      | (intro o' ho; cases ho; exact ⟨rfl, rfl, rfl⟩)

/-- A state with lane l and the order list rewritten differs from the first in nothing else. -/
theorem OnlyLane.of_write (s : State) (l : LaneId) (y : Lane) (q : List Request) :
    OnlyLane s { s.setLane l y with mport := q } l where
  pending := rfl
  regp := rfl
  tbu := rfl
  engc := rfl
  smon := rfl
  admu := rfl
  inc := rfl
  mem := rfl
  instant := rfl
  freeIndex := rfl
  others := fun _ h => State.setLane_other s l _ y (fun e => h e.symm)

/-- The order list and the output lines rewritten leave all else alone. -/
theorem OnlyLane.of_bus (s : State) (l : LaneId) (q : List Request) (v : Vector OutputLine 4) :
    OnlyLane s { s with mport := q, outd := v } l := by
  constructor <;> first | rfl | exact fun _ _ => rfl

theorem OnlyLane.refl (s : State) (l : LaneId) : OnlyLane s s l := OnlyLane.of_bus s l s.mport s.outd

theorem OnlyLane.of_setLane (s : State) (l : LaneId) (y : Lane) : OnlyLane s (s.setLane l y) l :=
  OnlyLane.of_write s l y s.mport

theorem OnlyLane.of_raise (s : State) (l : LaneId) (a : Access) (w : Word) (d : Option Word) :
    OnlyLane s (s.raise a w d) l := OnlyLane.of_bus s l _ s.outd

theorem OnlyLane.trans {s t u : State} {l : LaneId} (h : OnlyLane s t l) (g : OnlyLane t u l) :
    OnlyLane s u l :=
  ⟨g.pending.trans h.pending, g.regp.trans h.regp, g.tbu.trans h.tbu, g.engc.trans h.engc,
    g.smon.trans h.smon, g.admu.trans h.admu, g.inc.trans h.inc, g.mem.trans h.mem,
    g.instant.trans h.instant, g.freeIndex.trans h.freeIndex,
    fun k hk => (g.others k hk).trans (h.others k hk)⟩

/-- The current results once a step has completed: its own is kept, and the others are as they were. -/
theorem Lane.finished_results (x : Lane) (c : ResultCode) (v w : Word) (a : Byte) (j : Nat) (hj : j < 12) :
    (x.finished c v w a).results[j] =
      if j = x.step then some { code := c, value := v } else x.results[j] := by
  show (x.results.setIfInBounds x.step _)[j] = _
  rw [Vector.getElem_setIfInBounds hj]
  by_cases h : j = x.step <;> simp [h, eq_comm]

/-- A completion changes only its lane and the order list, and completes the step with its result. -/
theorem State.finishStep_completes (s : State) (l : LaneId) (c : ResultCode) (v w : Word) (a : Byte)
    (verdict : Option PlanOutcome) (skip same : Bool) :
    OnlyLane s (s.finishStep l c v w a verdict skip same) l ∧
      (s.finishStep l c v w a verdict skip same).outd = s.outd ∧
      Completed (s.lane l) ((s.finishStep l c v w a verdict skip same).lane l) (s.lane l).step c v w a := by
  obtain ⟨y, q, h, hl, hd, hp, hr, -, -, -, -, -, -, -, -, -, -, hs, -⟩ :=
    State.finishStep_eq s l c v w a verdict skip same
  have hy : (s.finishStep l c v w a verdict skip same).lane l = y := by
    rw [h, State.mport_lane, State.setLane_lane]
  rw [hy]
  refine ⟨h ▸ OnlyLane.of_write s l y q, by rw [h]; rfl, hl, hd, hr, ?_, fun j hj => ?_⟩
  · rw [hp]
    simp [Lane.passesAfter, Lane.atLast]
  · rw [hs]
    exact Lane.finished_results ..

/-- A completion that brings no verdict of its own leaves the plan where R87 to R89 say. -/
theorem State.finishStep_passGoesOn (s : State) (l : LaneId) (c : ResultCode) (v w : Word) (a : Byte)
    (skip same : Bool) :
    PassGoesOn (s.lane l) ((s.finishStep l c v w a none skip same).lane l) (s.lane l).step skip same := by
  obtain ⟨y, q, h, -, -, -, -, -, -, -, -, -, -, -, -, -, -, -, -, ho, hn⟩ :=
    State.finishStep_eq s l c v w a none skip same
  have hy : (s.finishStep l c v w a none skip same).lane l = y := by
    rw [h, State.mport_lane, State.setLane_lane]
  rw [hy]
  constructor
  · intro hk
    have hl : (s.lane l).atLast = false := by simpa [Lane.atLast] using hk
    obtain ⟨h1, h2, h3⟩ := hn (by simp [Lane.endingWith, hl])
    exact ⟨by simpa [Lane.nextWait, hl] using h3, h1, h2⟩
  · intro hk hp
    have hl : (s.lane l).atLast = true := by simpa [Lane.atLast] using hk
    obtain ⟨h1, h2, h3⟩ := hn (by
      rcases hp with hp | hp
      · simp [Lane.endingWith, hp]
      · simpa [Lane.endingWith, Lane.passesAfter, hl] using fun _ => hp)
    exact ⟨by simpa [Lane.nextWait, hl] using h3, h1, h2⟩
  · intro hk h0 hp
    have hl : (s.lane l).atLast = true := by simpa [Lane.atLast] using hk
    obtain ⟨h1, h2, h3⟩ := ho .done (by
      simpa [Lane.endingWith, Lane.passesAfter, hl] using And.intro h0 hp)
    exact ⟨h1, h3, h2⟩

/-- A completion with no verdict, whose next step may begin at the same boundary. -/
theorem State.finishStep_stepEnds (s : State) (l : LaneId) (c : ResultCode) (v w : Word) (a : Byte) :
    StepEnds (s.lane l) ((s.finishStep l c v w a none false true).lane l) (s.lane l).step c v w a :=
  ⟨(State.finishStep_completes ..).2.2, State.finishStep_passGoesOn ..⟩

/-! ### Driving -/

/-- `drive` changes at most the levels of the output lines. -/
theorem State.drive_eq (s : State) (l : LaneId) (o : OutLine) (b : Bool) :
    s.drive l o b = { s with outd := (s.drive l o b).outd } := by
  unfold State.drive
  split <;> rfl

/-- The line a lane drives, and every other line, after the drive (08, R124). -/
theorem State.drive_line (s : State) (l : LaneId) (o p : OutLine) (b : Bool) :
    (s.drive l o b).outd[p] =
      if p = o ∧ (s.outd[p]).claimer = some l then { s.outd[p] with level := b } else s.outd[p] := by
  unfold State.drive
  by_cases hp : p = o
  · subst hp
    by_cases hc : (s.outd[p]).claimer = some l
    · rw [if_pos hc, if_pos ⟨rfl, hc⟩]
      exact vectorSet_self s.outd p _
    · rw [if_neg hc, if_neg (fun h => hc h.2)]
  · refine Eq.trans ?_ (if_neg (fun h => hp h.1)).symm
    split
    · exact vectorSet_other s.outd o p _ (fun h => hp h.symm)
    · rfl

@[simp] theorem State.drive_lanes (s : State) (l : LaneId) (o : OutLine) (b : Bool) :
    (s.drive l o b).lanes = s.lanes := by
  rw [State.drive_eq]

@[simp] theorem State.drive_lane (s : State) (l k : LaneId) (o : OutLine) (b : Bool) :
    (s.drive l o b).lane k = s.lane k :=
  State.lane_of_lanes (by simp) k

theorem OnlyLane.of_drive (s : State) (l : LaneId) (o : OutLine) (b : Bool) :
    OnlyLane s (s.drive l o b) l := by
  rw [State.drive_eq]
  exact OnlyLane.of_bus s l s.mport _

/-! ### What a lane becomes depends on that lane and the epoch alone -/

theorem State.pump_lane_congr {s t : State} {l : LaneId} (h : s.lane l = t.lane l)
    (he : s.epoch = t.epoch) : (s.pump l).lane l = (t.pump l).lane l := by
  unfold State.pump
  rw [h, he]
  dsimp only
  split
  · exact h
  · split
    · show State.lane (State.setLane _ _ _) l = State.lane (State.setLane _ _ _) l
      rw [State.setLane_lane, State.setLane_lane]
    · split
      · show State.lane (State.setLane _ _ _) l = State.lane (State.setLane _ _ _) l
        rw [State.setLane_lane, State.setLane_lane]
      · exact h
    · exact h

theorem State.conclude_lane_congr {s t : State} {l : LaneId} (o : PlanOutcome) (b : Byte)
    (h : s.lane l = t.lane l) (he : s.epoch = t.epoch) :
    (s.conclude l o b).lane l = (t.conclude l o b).lane l := by
  unfold State.conclude
  rw [h]
  exact State.pump_lane_congr (by rw [State.setLane_lane, State.setLane_lane]) he

theorem State.finishStep_lane_congr {s t : State} {l : LaneId} (c : ResultCode) (v w : Word) (a : Byte)
    (verdict : Option PlanOutcome) (skip same : Bool) (h : s.lane l = t.lane l)
    (he : s.epoch = t.epoch) :
    (s.finishStep l c v w a verdict skip same).lane l =
      (t.finishStep l c v w a verdict skip same).lane l := by
  unfold State.finishStep
  rw [h]
  dsimp only
  split
  · exact State.conclude_lane_congr _ _ (by rw [State.setLane_lane, State.setLane_lane]) he
  · exact State.pump_lane_congr (by rw [State.setLane_lane, State.setLane_lane]) he

/-! ### Edges (07, R106) -/

/-- An edge announced to a lane changes that lane and the order list alone. -/
theorem State.deliverEdge_onlyLane (s : State) (l : LaneId) (i : InLine) (b : Bool) (w : Word) :
    OnlyLane s (s.deliverEdge l i b w) l ∧ (s.deliverEdge l i b w).outd = s.outd := by
  have self : OnlyLane s s l := OnlyLane.refl s l
  have fin := fun c v w a verdict skip same =>
    State.finishStep_completes s l c v w a verdict skip same
  have wr := fun y => OnlyLane.of_write s l y s.mport
  unfold State.deliverEdge
  extract_lets x t d
  clear_value x d
  split
  · exact ⟨self, rfl⟩
  · cases hx : x.activity <;> dsimp only <;> (try split) <;> (try split) <;>
      first
        | exact ⟨self, rfl⟩
        | exact ⟨(fin _ _ _ _ _ _ _).1, (fin _ _ _ _ _ _ _).2.1⟩
        | exact ⟨wr _, rfl⟩

/-- What a lane becomes at an announced edge. -/
theorem State.deliverEdge_lane_congr {s t : State} {l : LaneId} (i : InLine) (b : Bool) (w : Word)
    (h : s.lane l = t.lane l) (he : s.epoch = t.epoch) :
    (s.deliverEdge l i b w).lane l = (t.deliverEdge l i b w).lane l := by
  have fin := fun c v w a verdict skip same =>
    State.finishStep_lane_congr (s := s) (t := t) c v w a verdict skip same h he
  unfold State.deliverEdge
  rw [h, he]
  extract_lets x r d
  have hx' : s.lane l = x := h
  clear_value x d
  split
  · exact h
  · cases hx : x.activity <;> dsimp only <;> (try split) <;> (try split) <;>
      first
        | exact h
        | exact fin _ _ _ _ _ _ _
        | rw [State.setLane_lane, State.setLane_lane]

/-- An accepted edge acts on every lane as if it were announced to that lane alone, and changes beside
lanes and order list only INC. -/
theorem State.acceptEdge_lane (s : State) (i : InLine) (l : LaneId) :
    (s.acceptEdge i).lane l =
      (s.deliverEdge l i (!(s.inc.lines[i]).accepted) (s.inc.lines[i]).runStart).lane l := by
  have oth : ∀ (x : State) (k j : LaneId), k ≠ j →
      (x.deliverEdge j i (!(s.inc.lines[i]).accepted) (s.inc.lines[i]).runStart).lane k = x.lane k :=
    fun x k j h => (State.deliverEdge_onlyLane x j i _ _).1.others k h
  have ep : ∀ (x : State) (j : LaneId),
      (x.deliverEdge j i (!(s.inc.lines[i]).accepted) (s.inc.lines[i]).runStart).epoch = x.epoch :=
    fun x j => congrArg Timebase.epoch (State.deliverEdge_onlyLane x j i _ _).1.tbu
  unfold State.acceptEdge
  dsimp only
  have e0 : ({ s with inc := s.inc.accept i } : State).epoch = s.epoch := rfl
  have l0 : ∀ k, ({ s with inc := s.inc.accept i } : State).lane k = s.lane k := fun _ => rfl
  simp only [allLanes, List.foldl_cons, List.foldl_nil]
  match l with
  | 0 =>
    rw [oth _ 0 3 (by decide), oth _ 0 2 (by decide), oth _ 0 1 (by decide)]
    exact State.deliverEdge_lane_congr _ _ _ (l0 0) e0
  | 1 =>
    rw [oth _ 1 3 (by decide), oth _ 1 2 (by decide)]
    exact State.deliverEdge_lane_congr _ _ _ (by rw [oth _ 1 0 (by decide)]; exact l0 1)
      (by rw [ep]; exact e0)
  | 2 =>
    rw [oth _ 2 3 (by decide)]
    exact State.deliverEdge_lane_congr _ _ _
      (by rw [oth _ 2 1 (by decide), oth _ 2 0 (by decide)]; exact l0 2)
      (by rw [ep, ep]; exact e0)
  | 3 =>
    exact State.deliverEdge_lane_congr _ _ _
      (by rw [oth _ 3 2 (by decide), oth _ 3 1 (by decide), oth _ 3 0 (by decide)]; exact l0 3)
      (by rw [ep, ep, ep]; exact e0)

theorem State.acceptEdge_rest (s : State) (i : InLine) :
    (s.acceptEdge i).inc = s.inc.accept i ∧ (s.acceptEdge i).mem = s.mem ∧
      (s.acceptEdge i).outd = s.outd ∧ (s.acceptEdge i).smon = s.smon ∧
      (s.acceptEdge i).admu = s.admu ∧ (s.acceptEdge i).engc = s.engc ∧
      (s.acceptEdge i).regp = s.regp ∧ (s.acceptEdge i).tbu = s.tbu := by
  have all : ∀ (b : Bool) (w : Word) (ls : List LaneId) (x : State),
      (ls.foldl (fun s l => s.deliverEdge l i b w) x).inc = x.inc ∧
      (ls.foldl (fun s l => s.deliverEdge l i b w) x).mem = x.mem ∧
      (ls.foldl (fun s l => s.deliverEdge l i b w) x).outd = x.outd ∧
      (ls.foldl (fun s l => s.deliverEdge l i b w) x).smon = x.smon ∧
      (ls.foldl (fun s l => s.deliverEdge l i b w) x).admu = x.admu ∧
      (ls.foldl (fun s l => s.deliverEdge l i b w) x).engc = x.engc ∧
      (ls.foldl (fun s l => s.deliverEdge l i b w) x).regp = x.regp ∧
      (ls.foldl (fun s l => s.deliverEdge l i b w) x).tbu = x.tbu := by
    intro b w ls
    induction ls with
    | nil => intro x; and_intros <;> rfl
    | cons k ls ih =>
      intro x
      obtain ⟨h, ho⟩ := State.deliverEdge_onlyLane x k i b w
      rw [List.foldl_cons]
      obtain ⟨h1, h2, h3, h4, h5, h6, h7, h8⟩ := ih (x.deliverEdge k i b w)
      exact ⟨h1.trans h.inc, h2.trans h.mem, h3.trans ho, h4.trans h.smon, h5.trans h.admu,
        h6.trans h.engc, h7.trans h.regp, h8.trans h.tbu⟩
  exact all _ _ _ _

/-! ### Beginning a step, by its kind -/

section

variable (s : State) (l : LaneId) (k : Nat)

theorem State.beginStep_hold (h : ((s.lane l).steps.getD k StepReq.zero).kind = 1) :
    s.beginStep l k =
      if ((s.lane l).steps.getD k StepReq.zero).paramA = 0 then
        (s.setLane l (((s.lane l).begun k s.epoch).doing .none)).finishStep l .ok 0 s.epoch 0 none false true
      else s.setLane l (((s.lane l).begun k s.epoch).doing .hold) := by
  unfold State.beginStep
  extract_lets now x t
  have ht : t.kind = 1 := h
  rw [ht]
  rfl

theorem State.beginStep_until (h : ((s.lane l).steps.getD k StepReq.zero).kind = 2) :
    s.beginStep l k =
      if reached s.epoch ((s.lane l).steps.getD k StepReq.zero).paramA then
        (s.setLane l (((s.lane l).begun k s.epoch).doing .none)).finishStep l .ok
          (s.epoch - ((s.lane l).steps.getD k StepReq.zero).paramA) s.epoch 1 none false true
      else s.setLane l (((s.lane l).begun k s.epoch).doing .untilEpoch) := by
  unfold State.beginStep
  extract_lets now x t
  have ht : t.kind = 2 := h
  rw [ht]
  rfl

theorem State.beginStep_edge (h : ((s.lane l).steps.getD k StepReq.zero).kind = 3) :
    s.beginStep l k = s.setLane l (((s.lane l).begun k s.epoch).doing .edge) := by
  unfold State.beginStep
  extract_lets now x t
  have ht : t.kind = 3 := h
  rw [ht]
  rfl

theorem State.beginStep_width (h : ((s.lane l).steps.getD k StepReq.zero).kind = 4) :
    s.beginStep l k = s.setLane l (((s.lane l).begun k s.epoch).doing .widthEnter) := by
  unfold State.beginStep
  extract_lets now x t
  have ht : t.kind = 4 := h
  rw [ht]
  rfl

theorem State.beginStep_tally (h : ((s.lane l).steps.getD k StepReq.zero).kind = 5) :
    s.beginStep l k = s.setLane l (((s.lane l).begun k s.epoch).doing (.tally 0)) := by
  unfold State.beginStep
  extract_lets now x t
  have ht : t.kind = 5 := h
  rw [ht]
  rfl

theorem State.beginStep_period (h : ((s.lane l).steps.getD k StepReq.zero).kind = 6) :
    s.beginStep l k = s.setLane l (((s.lane l).begun k s.epoch).doing .periodFirst) := by
  unfold State.beginStep
  extract_lets now x t
  have ht : t.kind = 6 := h
  rw [ht]
  rfl

theorem State.beginStep_set (h : ((s.lane l).steps.getD k StepReq.zero).kind = 7) :
    s.beginStep l k =
      ((s.setLane l (((s.lane l).begun k s.epoch).doing .none)).drive l
        ((s.lane l).steps.getD k StepReq.zero).outLine
        (((s.lane l).steps.getD k StepReq.zero).mode == 1)).finishStep l .ok
        (levelWord (((s.lane l).steps.getD k StepReq.zero).mode == 1)) s.epoch
        (levelByte (s.outd[((s.lane l).steps.getD k StepReq.zero).outLine]).level) none false true := by
  unfold State.beginStep
  extract_lets now x t
  have ht : t.kind = 7 := h
  rw [ht]
  rfl

theorem State.beginStep_pulse (h : ((s.lane l).steps.getD k StepReq.zero).kind = 8) :
    s.beginStep l k =
      (s.setLane l (((s.lane l).begun k s.epoch).doing (.pulse 0 true))).drive l
        ((s.lane l).steps.getD k StepReq.zero).outLine
        (pulseActive ((s.lane l).steps.getD k StepReq.zero).mode) := by
  unfold State.beginStep
  extract_lets now x t
  have ht : t.kind = 8 := h
  rw [ht]
  rfl

theorem State.beginStep_check (h : ((s.lane l).steps.getD k StepReq.zero).kind = 9) :
    s.beginStep l k =
      (s.setLane l (((s.lane l).begun k s.epoch).doing (.check []))).raise (.qualifier l false)
        (s.qualifierAddr ((s.lane l).steps.getD k StepReq.zero).arg.toNat 0) none := by
  unfold State.beginStep
  extract_lets now x t
  have ht : t.kind = 9 := h
  rw [ht]
  rfl

/-- A step of any kind that begins changes its lane, the order list and at most the level of a line its
lane has claimed, and records its start (06, R87). -/
theorem State.beginStep_facts (h1 : 1 ≤ ((s.lane l).steps.getD k StepReq.zero).kind.toNat)
    (h2 : ((s.lane l).steps.getD k StepReq.zero).kind.toNat ≤ 9) :
    OnlyLane s (s.beginStep l k) l ∧ ((s.beginStep l k).lane l).step = k ∧
      ((s.beginStep l k).lane l).startTick = s.epoch ∧
      ((s.beginStep l k).lane l).startedEpoch = (s.lane l).startedEpoch ∧
      (((s.beginStep l k).lane l).state = (s.lane l).state ∨
        ((s.beginStep l k).lane l).state = .closing) := by
  have hk : ∃ n : Fin 9, ((s.lane l).steps.getD k StepReq.zero).kind = BitVec.ofNat 8 (n.val + 1) := by
    generalize ((s.lane l).steps.getD k StepReq.zero).kind = x at *
    refine ⟨⟨x.toNat - 1, by omega⟩, ?_⟩
    apply BitVec.eq_of_toNat_eq
    simp
    omega
  have plain : ∀ (a : Activity) (t : State),
      t.lane l = ((s.lane l).begun k s.epoch).doing a → OnlyLane s t l →
      OnlyLane s t l ∧ (t.lane l).step = k ∧ (t.lane l).startTick = s.epoch ∧
        (t.lane l).startedEpoch = (s.lane l).startedEpoch ∧
        ((t.lane l).state = (s.lane l).state ∨ (t.lane l).state = .closing) := by
    intro a t ht ho
    rw [ht]
    exact ⟨ho, rfl, rfl, rfl, .inl rfl⟩
  have fin : ∀ (t : State), t.lane l = ((s.lane l).begun k s.epoch).doing .none → OnlyLane s t l →
      ∀ c v w a ve sk sa, OnlyLane s (t.finishStep l c v w a ve sk sa) l ∧
        ((t.finishStep l c v w a ve sk sa).lane l).step = k ∧
        ((t.finishStep l c v w a ve sk sa).lane l).startTick = s.epoch ∧
        ((t.finishStep l c v w a ve sk sa).lane l).startedEpoch = (s.lane l).startedEpoch ∧
        (((t.finishStep l c v w a ve sk sa).lane l).state = (s.lane l).state ∨
          ((t.finishStep l c v w a ve sk sa).lane l).state = .closing) := by
    intro t ht ho c v w a ve sk sa
    refine ⟨ho.trans (State.finishStep_completes ..).1, ?_⟩
    obtain ⟨z, q, h, -, -, -, -, g1, g2, g3, -, -, -, -, -, -, -, -, g4, -⟩ :=
      State.finishStep_eq t l c v w a ve sk sa
    rw [h, State.mport_lane, State.setLane_lane]
    rw [ht] at g1 g2 g3 g4
    exact ⟨g1, g2, g3, g4⟩
  obtain ⟨n, hn⟩ := hk
  match n, hn with
  | 0, hn =>
    rw [State.beginStep_hold s l k hn]
    split
    · exact fin _ (State.setLane_lane ..) (.of_setLane ..) ..
    · exact plain _ _ (State.setLane_lane ..) (.of_setLane ..)
  | 1, hn =>
    rw [State.beginStep_until s l k hn]
    split
    · exact fin _ (State.setLane_lane ..) (.of_setLane ..) ..
    · exact plain _ _ (State.setLane_lane ..) (.of_setLane ..)
  | 2, hn =>
    rw [State.beginStep_edge s l k hn]
    exact plain _ _ (State.setLane_lane ..) (.of_setLane ..)
  | 3, hn =>
    rw [State.beginStep_width s l k hn]
    exact plain _ _ (State.setLane_lane ..) (.of_setLane ..)
  | 4, hn =>
    rw [State.beginStep_tally s l k hn]
    exact plain _ _ (State.setLane_lane ..) (.of_setLane ..)
  | 5, hn =>
    rw [State.beginStep_period s l k hn]
    exact plain _ _ (State.setLane_lane ..) (.of_setLane ..)
  | 6, hn =>
    rw [State.beginStep_set s l k hn]
    exact fin _ (by rw [State.drive_lane, State.setLane_lane])
      ((OnlyLane.of_setLane ..).trans (.of_drive ..)) ..
  | 7, hn =>
    rw [State.beginStep_pulse s l k hn]
    exact plain _ _ (by rw [State.drive_lane, State.setLane_lane])
      ((OnlyLane.of_setLane ..).trans (.of_drive ..))
  | 8, hn =>
    rw [State.beginStep_check s l k hn]
    exact plain _ _ (by rw [State.lane_of_lanes (State.raise_lanes _ _ _ _), State.setLane_lane])
      ((OnlyLane.of_setLane ..).trans (.of_raise ..))

/-- A step of a kind that the load judges bad does not begin (06, R85). -/
theorem State.beginStep_unknown (h : ((s.lane l).steps.getD k StepReq.zero).kind.toNat = 0 ∨
    10 ≤ ((s.lane l).steps.getD k StepReq.zero).kind.toNat) : s.beginStep l k = s := by
  unfold State.beginStep
  extract_lets now x t
  have ht : t = (s.lane l).steps.getD k StepReq.zero := rfl
  rw [← ht] at h
  generalize BitVec.toNat t.kind = n at h ⊢
  split <;> first | rfl | omega

end

end Sys2Proof.Machine
end

