-- ==== Sys2Proof/Laws/Commands.lean ====
section
/-! SUPPORT. What a command does to the queue, to memory and to the register fields that only a write
changes: one lemma for each way a command acts (an event inside the part, the return of an access, a
register write, a reset). -/

namespace Sys2Proof.Machine

/-! ### The returns of accesses, after the access has been carried -/

@[simp] theorem State.discarded_outside (s : State) (q : Request) : (s.discarded q).outside = s.outside := by
  unfold State.discarded; split <;> simp
@[simp] theorem State.configReturned_outside (s : State) (f : Bool) (w : Word) :
    (s.configReturned f w).outside = s.outside := by
  unfold State.configReturned; repeat' split
  all_goals simp
@[simp] theorem State.reloadReturned_outside (s : State) (f : Bool) (w : Word) :
    (s.reloadReturned f w).outside = s.outside := by
  unfold State.reloadReturned; dsimp only; repeat' split
  all_goals simp
theorem State.visitReturned_outside (s : State) (f : Bool) (w : Word) :
    OutsideButRecalls s (s.visitReturned f w) := by
  unfold State.visitReturned; repeat' split
  · exact .of_outside (State.smonFault_outside ..)
  · exact (State.noteVisit_outside ..).then (State.visitDecision_outside ..)
  · exact .of_outside rfl
@[simp] theorem State.recordReturned_outside (s : State) (f : Bool) (w : Word) :
    (s.recordReturned f w).outside = s.outside := by
  unfold State.recordReturned; dsimp only; repeat' split
  all_goals simp
theorem State.takeReturned_outside (s : State) (f b : Bool) :
    OutsideButRecalls s (s.takeReturned f b) := by
  unfold State.takeReturned; repeat' split
  all_goals first
    | exact .of_outside (by simp)
    | exact (State.setRecall_outside ..).then (State.taken_outside ..)

/-- What is outside the part is as it was, or, after a stall, as the access under way at it leaves it. -/
def OutsideButBus (b : Option OnBus) (s t : State) : Prop :=
  t.outside = s.outside ∨ t.outside = { s.outside with mem := (s.emptyBus b).mem }

theorem OutsideButBus.of_stall (s : State) (c : FaultCode) (b : Option OnBus) :
    OutsideButBus b s (s.stall c b) := .inr (State.stall_outside s c b)

theorem State.smonSettleReturned_outside (s : State) (f : Bool) (b : Option OnBus) :
    OutsideButBus b s (s.smonSettleReturned f b) := by
  unfold State.smonSettleReturned; repeat' split
  all_goals first | exact .of_stall .. | exact .inl (by simp)
theorem State.orphanSettleReturned_outside (s : State) (f : Bool) (b : Option OnBus) :
    OutsideButBus b s (s.orphanSettleReturned f b) := by
  unfold State.orphanSettleReturned; repeat' split
  all_goals first | exact .of_stall .. | exact .inl (by simp)
theorem State.laneSettleReturned_outside (s : State) (l : LaneId) (f : Bool) (b : Option OnBus) :
    OutsideButBus b s (s.laneSettleReturned l f b) := by
  unfold State.laneSettleReturned; dsimp only; repeat' split
  all_goals first | exact .of_stall .. | exact .inl (by simp)
@[simp] theorem State.report_outside (s : State) (q : CountReq) : (s.report q).outside = s.outside := by
  unfold State.report; repeat' split
  all_goals simp
theorem State.counterReturned_outside (s : State) (f : Bool) (b : Option OnBus) :
    OutsideButBus b s (s.counterReturned f b) := by
  unfold State.counterReturned
  split
  · exact .of_stall ..
  · refine .inl ?_
    split
    · rfl
    · extract_lets second s1
      split
      · simp
      · split
        · exact State.countEffect_outside _ _
        · simp
@[simp] theorem State.loadingReturned_outside (s : State) (f : Bool) (w : Word) :
    (s.loadingReturned f w).outside = s.outside := by
  unfold State.loadingReturned; repeat' split
  all_goals simp
theorem State.configAckReturned_outside (s : State) (f : Bool) (b : Option OnBus) :
    OutsideButBus b s (s.configAckReturned f b) := by
  unfold State.configAckReturned; dsimp only; repeat' split
  all_goals first | exact .of_stall .. | exact .inl (by simp)
@[simp] theorem State.raiseLoad_outside (s : State) (l : LaneId) (i : Nat) :
    (s.raiseLoad l i).outside = s.outside := rfl
@[simp] theorem State.loadFault_outside (s : State) (l : LaneId) : (s.loadFault l).outside = s.outside := by
  simp [State.loadFault]
@[simp] theorem State.loadHostReturned_outside (s : State) (l : LaneId) (f : Bool) (w : Word) :
    (s.loadHostReturned l f w).outside = s.outside := by
  unfold State.loadHostReturned; dsimp only; repeat' split
  all_goals simp
@[simp] theorem State.loadStepReturned_outside (s : State) (l : LaneId) (f : Bool) (w : Word) :
    (s.loadStepReturned l f w).outside = s.outside := by
  unfold State.loadStepReturned; dsimp only; repeat' split
  all_goals simp
@[simp] theorem State.raiseResult_outside (s : State) (l : LaneId) (i : Nat) (e : StepResult) :
    (s.raiseResult l i e).outside = s.outside := rfl
@[simp] theorem State.listCheckReturned_outside (s : State) (l : LaneId) (f : Bool) (w : Word) :
    (s.listCheckReturned l f w).outside = s.outside := by
  unfold State.listCheckReturned; dsimp only; repeat' split
  all_goals simp
@[simp] theorem State.raiseSettle_outside (s : State) (l : LaneId) (i : Nat) :
    (s.raiseSettle l i).outside = s.outside := rfl
theorem State.settleCheckReturned_outside (s : State) (l : LaneId) (f : Bool) (w : Word)
    (b : Option OnBus) : OutsideButBus b s (s.settleCheckReturned l f w b) := by
  unfold State.settleCheckReturned; dsimp only; repeat' split
  all_goals first | exact .of_stall .. | exact .inl (by simp)
@[simp] theorem State.resultReturned_outside (s : State) (l : LaneId) (f : Bool) :
    (s.resultReturned l f).outside = s.outside := by
  unfold State.resultReturned; dsimp only; repeat' split
  all_goals simp
@[simp] theorem State.qualifierReturned_outside (s : State) (l : LaneId) (f : Bool) (w : Word) :
    (s.qualifierReturned l f w).outside = s.outside := by
  unfold State.qualifierReturned; dsimp only; repeat' split
  all_goals simp

/-! ### The three ways a command acts -/

/-- The return of an access: either nothing happens, or its unit handles it in the state that the access
leaves. -/
theorem State.busEvent_cases (s : State) (accepts : Access → Bool) (r : BusReturn)
    (handle : State → Request → Bool → Word → State) :
    s.busEvent accepts r handle = s ∨
      ∃ req rest, Returns s r req rest ∧ accepts req.access = true ∧
        s.busEvent accepts r handle =
          handle (s.afterReturn r req rest) req (replyFailed r.reply) (s.wordReturned r req rest) := by
  unfold State.busEvent
  dsimp only
  split
  · exact .inl rfl
  · rename_i req rest hp
    split
    · exact .inr ⟨req, rest, hp, ‹_›, rfl⟩
    · exact .inl rfl

/-- What a returning access leaves outside the part. -/
theorem State.afterReturn_outside (s : State) (r : BusReturn) (req : Request) (rest : List Request) :
    (s.afterReturn r req rest).outside =
      { s.outside with
        instant := s.instant + 1, mem := memoryAfter r req s.mem, pins := r.pins } := by
  have e : (s.afterReturn r req rest).outside =
      { s.settled.outside with mem := memoryAfter r req s.settled.outside.mem, pins := r.pins } := rfl
  rw [e, State.settled_outside s]
  rfl

/-- What the return of an access leaves outside the part, where its unit touches nothing there. -/
theorem State.busEvent_outside (s : State) (accepts : Access → Bool) (r : BusReturn)
    (handle : State → Request → Bool → Word → State)
    (hh : ∀ s q f w, (handle s q f w).outside = s.outside) :
    s.busEvent accepts r handle = s ∨
      ∃ req rest, Returns s r req rest ∧ accepts req.access = true ∧
        (s.busEvent accepts r handle).outside =
          { s.outside with
            instant := s.instant + 1, mem := memoryAfter r req s.mem, pins := r.pins } :=
  (s.busEvent_cases accepts r handle).imp_right fun ⟨req, rest, hp, ha, e⟩ =>
    ⟨req, rest, hp, ha, by rw [e, hh, State.afterReturn_outside]⟩

/-- What the return of an access leaves outside the part, where its unit may change the recalls in force. -/
theorem State.busEvent_outsideButRecalls (s : State) (accepts : Access → Bool) (r : BusReturn)
    (handle : State → Request → Bool → Word → State)
    (hh : ∀ s q f w, OutsideButRecalls s (handle s q f w)) :
    s.busEvent accepts r handle = s ∨
      ∃ req rest, Returns s r req rest ∧ accepts req.access = true ∧
        (s.busEvent accepts r handle).outside =
          { s.outside with
            instant := s.instant + 1, mem := memoryAfter r req s.mem, pins := r.pins
            recalls := (s.busEvent accepts r handle).smon.recalls } :=
  (s.busEvent_cases accepts r handle).imp_right fun ⟨req, rest, hp, ha, e⟩ =>
    ⟨req, rest, hp, ha, by rw [e, hh, State.afterReturn_outside]⟩

/-- What the return of an access leaves outside the part, where it may stall the engine. -/
theorem State.busEvent_outsideButBus (s : State) (accepts : Access → Bool) (r : BusReturn)
    (handle : State → Request → Bool → Word → State)
    (hh : ∀ s q f w, OutsideButBus r.atStall s (handle s q f w)) :
    s.busEvent accepts r handle = s ∨
      ∃ req rest, Returns s r req rest ∧ accepts req.access = true ∧
        OutsideButBus r.atStall (s.afterReturn r req rest) (s.busEvent accepts r handle) :=
  (s.busEvent_cases accepts r handle).imp_right fun ⟨req, rest, hp, ha, e⟩ =>
    ⟨req, rest, hp, ha, by rw [e]; exact hh ..⟩

/-- The return of an access that is on the order list: the unit's handling of it, in the state that the
access leaves. -/
theorem State.busEvent_of_returns {s : State} {accepts : Access → Bool} {r : BusReturn} {req : Request}
    {rest : List Request} (handle : State → Request → Bool → Word → State) (h : Returns s r req rest)
    (ha : accepts req.access = true) :
    s.busEvent accepts r handle =
      handle (s.afterReturn r req rest) req (replyFailed r.reply) (s.wordReturned r req rest) := by
  unfold State.busEvent
  dsimp only
  rw [show pickRequest s.settled.mport r.pick = some (req, rest) from h]
  dsimp only
  rw [if_pos ha]
  rfl

/-- The epoch that a returning access meets. -/
@[simp] theorem State.afterReturn_epoch (s : State) (r : BusReturn) (req : Request) (rest : List Request) :
    (s.afterReturn r req rest).tbu.epoch = s.tbu.epoch :=
  (congrArg Outside.epoch (State.settled_outside s) :)

/-- The AREA that a returning access meets. -/
@[simp] theorem State.afterReturn_area (s : State) (r : BusReturn) (req : Request) (rest : List Request) :
    (s.afterReturn r req rest).regp.area = s.regp.area :=
  (congrArg Outside.area (State.settled_outside s) :)

/-- The order list that a returning access leaves. -/
@[simp] theorem State.afterReturn_mport (s : State) (r : BusReturn) (req : Request) (rest : List Request) :
    (s.afterReturn r req rest).mport = rest := rfl

theorem State.writeTickdiv_outside (s : State) (w : Word) :
    (s.writeTickdiv w).outside = s.outside ∨
      ((ctlTickdiv w).toNat ≤ 4 ∧ s.engc.engine = .off ∧
        (s.writeTickdiv w).outside = { s.outside with tickdiv := ctlTickdiv w }) := by
  unfold State.writeTickdiv
  split
  · rename_i h
    exact .inr ⟨h.2, h.1, rfl⟩
  · exact .inl rfl

/-- What the fields of a CONTROL write leave beside ENABLE. -/
theorem State.writeFields_facts (s : State) (w : Word) :
    (s.writeFields w).pending = s.pending ∧ (s.writeFields w).engc = s.engc ∧
      (s.writeFields w).smon = s.smon ∧ (s.writeFields w).admu = s.admu ∧
      (s.writeFields w).lanes = s.lanes ∧ (s.writeFields w).inc = s.inc ∧
      (s.writeFields w).outd = s.outd ∧ (s.writeFields w).mport = s.mport ∧
      (s.writeFields w).mem = s.mem ∧ (s.writeFields w).instant = s.instant ∧
      (s.writeFields w).freeIndex = s.freeIndex ∧
      (s.writeFields w).tbu =
        { s.tbu with timer := if ctlSweep w = s.regp.sweep then s.tbu.timer else 0 } ∧
      (s.writeFields w).regp =
        { s.regp with
          tickdiv := if s.engc.engine = .off ∧ (ctlTickdiv w).toNat ≤ 4 then ctlTickdiv w
            else s.regp.tickdiv
          sweep := ctlSweep w, mask := ctlMask w, response := .normal } := by
  unfold State.writeFields State.writeSweep State.writeTickdiv
  by_cases h1 : s.engc.engine = .off ∧ (ctlTickdiv w).toNat ≤ 4 <;>
    by_cases h2 : ctlSweep w = s.regp.sweep <;> simp [h1, h2]

/-- A CONTROL write that resets nothing. -/
theorem State.controlWrite_plain (s : State) (w : Word) (b : OnBus) (h : s.regp.resetLow = false)
    (hs : ctlSoftReset w = false) : s.controlWrite w b = (s.writeFields w).writeEnable w := by
  unfold State.controlWrite
  rw [if_neg (by simp [h]), if_neg (by simp [hs])]

/-- The removals on entry to DRAINING leave every unit but ADMU and SMON alone. -/
theorem haltEntries_rest (q : List Entry) (s : State) :
    (haltEntries q s).regp = s.regp ∧ (haltEntries q s).tbu = s.tbu ∧
      (haltEntries q s).engc = s.engc ∧ (haltEntries q s).lanes = s.lanes ∧
      (haltEntries q s).inc = s.inc ∧ (haltEntries q s).outd = s.outd ∧
      (haltEntries q s).mport = s.mport ∧ (haltEntries q s).admu.pool = s.admu.pool ∧
      (haltEntries q s).smon.pendingSweep = s.smon.pendingSweep ∧
      (haltEntries q s).smon.inProgress = s.smon.inProgress ∧
      (haltEntries q s).smon.piece = s.smon.piece ∧ (haltEntries q s).smon.counts = s.smon.counts ∧
      (haltEntries q s).smon.counters = s.smon.counters := by
  induction q generalizing s with
  | nil => and_intros <;> rfl
  | cons e q ih => exact ih (s.removeAs e.slot .halted)

/-- What entry to DRAINING leaves in the register port, the timebase and the outputs. -/
theorem State.enterDraining_rest (s : State) :
    s.enterDraining.regp = { s.regp with enable := false } ∧
      s.enterDraining.tbu.epoch = s.tbu.epoch ∧ s.enterDraining.tbu.timer = s.tbu.timer ∧
      s.enterDraining.engc.faultCode = s.engc.faultCode ∧
      (s.enterDraining.engc.engine = .draining ∨ s.enterDraining.engc.engine = .off) ∧
      s.enterDraining.outd = outdDrain s.outd ∧ s.enterDraining.mport = s.mport ∧
      s.enterDraining.inc = s.inc := by
  obtain ⟨h1, h2, h3, -, h5, h6, h7, -⟩ := haltEntries_rest s.admu.queue s.beginDrain
  unfold State.enterDraining
  dsimp only
  split
  · refine ⟨?_, (congrArg Timebase.epoch h2 :), (congrArg Timebase.timer h2 :),
      (congrArg EngineControl.faultCode h3 :), .inr rfl, h6, h7, h5⟩
    exact congrArg (fun r : RegPort => { r with enable := false }) h1
  · exact ⟨h1, (congrArg Timebase.epoch h2 :), (congrArg Timebase.timer h2 :),
      (congrArg EngineControl.faultCode h3 :), .inl (congrArg EngineControl.engine h3 :), h6, h7, h5⟩

/-- What writing ENABLE leaves alone whatever it does. -/
theorem State.writeEnable_rest (s : State) (w : Word) :
    (s.writeEnable w).regp = { s.regp with
        enable := (s.writeEnable w).regp.enable, cause := (s.writeEnable w).regp.cause } ∧
      (s.writeEnable w).mem = s.mem ∧ (s.writeEnable w).pending = s.pending ∧
      (s.writeEnable w).tbu.timer = s.tbu.timer := by
  unfold State.writeEnable State.enableRequest
  repeat' split
  all_goals first
    | exact ⟨rfl, rfl, rfl, rfl⟩
    | exact ⟨by rw [(State.enterDraining_rest s).1],
        congrArg Outside.mem (State.enterDraining_outside s),
        congrArg Outside.pending (State.enterDraining_outside s),
        (State.enterDraining_rest s).2.2.1⟩

/-- The memory, the queue and AREA that a CONTROL write leaves, where it resets nothing. -/
theorem State.controlWrite_keeps (s : State) (w : Word) (b : OnBus)
    (h : s.regp.resetLow = true ∨ ctlSoftReset w = false) :
    (s.controlWrite w b).mem = s.mem ∧ (s.controlWrite w b).pending = s.pending ∧
      (s.controlWrite w b).regp.area = s.regp.area := by
  by_cases hl : s.regp.resetLow = true
  · unfold State.controlWrite
    rw [if_pos hl]
    exact ⟨rfl, rfl, rfl⟩
  · rw [State.controlWrite_plain s w b (by simpa using hl) (h.resolve_left hl)]
    obtain ⟨h1, h2, h3, -⟩ := State.writeEnable_rest (s.writeFields w) w
    obtain ⟨g1, -, -, -, -, -, -, -, g2, -, -, -, g3⟩ := State.writeFields_facts s w
    exact ⟨h2.trans g2, h3.trans g1, by rw [h1, g3]⟩

end Sys2Proof.Machine
end

