-- ==== Sys2Proof/Laws/Monitor.lean ====
section
/-! SUPPORT. What the Slot Monitor's operations change: SMON itself and the order list alone; and the effect
of a request to the counter set. -/

namespace Sys2Proof.Machine

/-- No post waits but in DRAINING. -/
theorem State.postWaits_eq_false {s : State} (p : Half) (h : s.engc.engine ≠ .draining) : s.postWaits p = false := by
  unfold State.postWaits
  simp [h]

/-- Outside DRAINING a visit sees the recall that it has read (02, R28). -/
theorem State.recallSeen_eq {s : State} (r : Half) (h : s.engc.engine ≠ .draining) : s.recallSeen r = some r := by
  unfold State.recallSeen
  simp [h]

@[simp] theorem State.noteVisit_lanes (s : State) (k : SlotId) (p r : Half) :
    (s.noteVisit k p r).lanes = s.lanes := rfl

/-- A visit's note leaves the mirror, the pieces of work and the counter set as they were. -/
theorem State.noteVisit_work (s : State) (k : SlotId) (p r : Half) :
    OnlyMonitor s (s.noteVisit k p r) ∧ (s.noteVisit k p r).smon.mirror = s.smon.mirror ∧
      (s.noteVisit k p r).smon.piece = s.smon.piece ∧ (s.noteVisit k p r).smon.waiting = s.smon.waiting ∧
      (s.noteVisit k p r).smon.counts = s.smon.counts ∧ (s.noteVisit k p r).mport = s.mport :=
  ⟨by constructor <;> rfl, rfl, rfl, rfl, rfl, rfl⟩

/-- The recall in force for a post is the one that stands in the slot's place, under the AREA in force. -/
theorem State.recallStands_iff (s : State) (k : SlotId) (p : Half) :
    s.recallStands k p = true ↔ s.smon.recalls[k] = some { area := s.regp.area, post := p } := by
  unfold State.recallStands
  simp

theorem OnlyMonitor.refl (s : State) : OnlyMonitor s s := by constructor <;> rfl

theorem OnlyMonitor.trans {s t u : State} (h : OnlyMonitor s t) (g : OnlyMonitor t u) : OnlyMonitor s u :=
  ⟨g.pending.trans h.pending, g.regp.trans h.regp, g.tbu.trans h.tbu, g.engc.trans h.engc,
    g.admu.trans h.admu, g.lanes.trans h.lanes, g.inc.trans h.inc, g.outd.trans h.outd,
    g.mem.trans h.mem⟩

/-- SMON and the order list rewritten, and nothing else. -/
theorem OnlyMonitor.of_write (s : State) (m : Monitor) (q : List Request) :
    OnlyMonitor s { s with smon := m, mport := q } := by constructor <;> rfl

/-- SMON's operations that leave the mirror alone too. -/
def OnlyWork (s t : State) : Prop := OnlyMonitor s t ∧ t.smon.mirror = s.smon.mirror

theorem OnlyWork.refl (s : State) : OnlyWork s s := ⟨.refl s, rfl⟩

theorem OnlyWork.trans {s t u : State} (h : OnlyWork s t) (g : OnlyWork t u) : OnlyWork s u :=
  ⟨h.1.trans g.1, g.2.trans h.2⟩

theorem OnlyWork.of_raise (s : State) (a : Access) (w : Word) (d : Option Word) :
    OnlyWork s (s.raise a w d) := ⟨by constructor <;> rfl, rfl⟩

theorem OnlyWork.of_setPiece (s : State) (p : Piece) (w : Work) : OnlyWork s (s.setPiece p w) :=
  ⟨by constructor <;> rfl, rfl⟩

theorem OnlyWork.of_setWork (s : State) (w : Work) : OnlyWork s (s.setWork w) := by
  unfold State.setWork
  split
  · exact .refl s
  · exact .of_setPiece ..

theorem OnlyWork.of_ready (s : State) (p : Piece) : OnlyWork s (s.ready p) :=
  ⟨by constructor <;> rfl, rfl⟩

theorem OnlyWork.of_serve (s : State) : OnlyWork s s.serve := by
  unfold State.serve
  dsimp only
  repeat' split
  all_goals exact ⟨by constructor <;> rfl, rfl⟩

theorem OnlyWork.of_count (s : State) (k : CountKind) (q : Requester) : OnlyWork s (s.count k q) := by
  unfold State.count
  dsimp only
  split
  · refine OnlyWork.trans ?_ (OnlyWork.of_serve _)
    exact ⟨by constructor <;> rfl, rfl⟩
  · exact ⟨by constructor <;> rfl, rfl⟩

/-- A request joins the end of the counter set's requests. -/
@[simp] theorem State.count_counts (s : State) (k : CountKind) (q : Requester) :
    (s.count k q).smon.counts = s.smon.counts ++ [{ kind := k, requester := q }] := by
  unfold State.count
  dsimp only
  split
  · unfold State.serve
    dsimp only
    repeat' split
    all_goals rfl
  · rfl

/-- A request to the counter set leaves SMON's work alone. -/
theorem State.count_work (s : State) (k : CountKind) (q : Requester) :
    (s.count k q).smon.piece = s.smon.piece ∧ (s.count k q).smon.waiting = s.smon.waiting ∧
      (s.count k q).smon.inProgress = s.smon.inProgress ∧
      (s.count k q).smon.pendingSweep = s.smon.pendingSweep ∧
      (s.count k q).smon.noted = s.smon.noted ∧ (s.count k q).smon.discovery = s.smon.discovery := by
  unfold State.count
  dsimp only
  split
  · unfold State.serve
    dsimp only
    repeat' split
    all_goals exact ⟨rfl, rfl, rfl, rfl, rfl, rfl⟩
  · exact ⟨rfl, rfl, rfl, rfl, rfl, rfl⟩

theorem OnlyWork.of_takeNext (s : State) : OnlyWork s s.takeNext := by
  unfold State.takeNext
  dsimp only
  repeat' split
  all_goals first
    | exact .refl s
    | exact ⟨by constructor <;> rfl, rfl⟩
    | (refine OnlyWork.trans ?_ (OnlyWork.of_count ..)
       exact ⟨by constructor <;> rfl, rfl⟩)

theorem OnlyWork.of_startSweep (s : State) : OnlyWork s s.startSweep :=
  ⟨by constructor <;> rfl, rfl⟩

theorem OnlyWork.of_endSweep (s : State) : OnlyWork s s.endSweep := by
  unfold State.endSweep
  split <;> exact ⟨by constructor <;> rfl, rfl⟩

theorem OnlyWork.of_sweepRequest (s : State) : OnlyWork s s.sweepRequest := by
  unfold State.sweepRequest
  repeat' split
  · exact .refl s
  · exact ⟨by constructor <;> rfl, rfl⟩
  · exact (OnlyWork.of_startSweep s).trans (.of_takeNext _)

theorem OnlyWork.of_readyAfter (s : State) (p : Piece) : OnlyWork s (s.readyAfter p) := by
  unfold State.readyAfter
  repeat' split
  all_goals first
    | exact .refl s
    | exact .of_ready ..
    | exact .of_endSweep s
    | exact ⟨by constructor <;> rfl, rfl⟩

theorem OnlyWork.of_endPiece (s : State) : OnlyWork s s.endPiece := by
  unfold State.endPiece
  split
  · exact .refl s
  · exact OnlyWork.trans (t := s.dropPiece) ⟨by constructor <;> rfl, rfl⟩
      ((OnlyWork.of_readyAfter ..).trans (.of_takeNext _))

theorem OnlyWork.of_smonCount (s : State) (k : CountKind) (n : AfterCount) : OnlyWork s (s.smonCount k n) :=
  (OnlyWork.of_setWork ..).trans (.of_count ..)

/-- A request that SMON makes of its counter set: the piece under way waits for the report. -/
theorem State.smonCount_work (s : State) (k : CountKind) (n : AfterCount) (p : Piece) (w : Work)
    (h : s.smon.piece = some (p, w)) :
    (s.smonCount k n).smon.piece = some (p, .counting n) ∧
      (s.smonCount k n).smon.counts = s.smon.counts ++ [{ kind := k, requester := .smon }] ∧
      (s.smonCount k n).smon.waiting = s.smon.waiting := by
  have hw : s.setWork (.counting n) = s.setPiece p (.counting n) := by
    unfold State.setWork
    rw [h]
  unfold State.smonCount
  rw [hw]
  refine ⟨?_, State.count_counts .., ?_⟩
  · rw [(State.count_work ..).1]; rfl
  · rw [(State.count_work ..).2.1]; rfl

/-- What taking the next piece does: the order of the pieces stays, and a sweep's piece at the head begins. -/
structure PieceTaken (s t : State) : Prop where
  pieces : t.smon.pieces = s.smon.pieces
  flags : t.smon.noted = s.smon.noted ∧ t.smon.pendingSweep = s.smon.pendingSweep ∧
    t.smon.inProgress = s.smon.inProgress
  waits : t.smon.piece = none → ∀ q : Piece, t.smon.waiting.head? = some q → q.ofSweep = false
  begins : ∀ (q : Piece) (w : Work), t.smon.piece = some (q, w) →
    (q = .config ∧ w = .config ∧
      t.mport.getLast? = some (s.requestOf .config (s.regp.area + 0x04#32) none)) ∨
    (∃ k : SlotId, q = .visit k ∧ w = .visit k ∧
      t.mport.getLast? = some (s.requestOf .hostWord (s.hostWordAddr k) none)) ∨
    (q = .closing ∧ w = .counting .endPiece ∧
      t.smon.counts.getLast? = some { kind := .sweepClose t.smon.noted, requester := .smon })

/-- Which piece is taken, where none is under way and one waits. -/
theorem State.takeNext_cons {s : State} {p : Piece} {rest : List Piece} (h : s.smon.piece = none)
    (hw : s.smon.waiting = p :: rest) :
    s.takeNext =
      let s1 := { s with smon := { s.smon with waiting := rest } }
      match (generalizing := false) p with
      | .config => (s1.setPiece p .config).raise .config (s1.area 0x04) none
      | .visit k => (s1.setPiece p (.visit k)).raise .hostWord (s1.hostWordAddr k) none
      | .closing => (s1.setPiece p (.counting .endPiece)).count (.sweepClose s1.smon.noted) .smon
      | _ => s := by
  cases p <;> simp only [State.takeNext, h, hw]

/-- Taking the next piece does no more than that. -/
theorem State.takeNext_taken (s : State) (h : s.smon.piece = none) : PieceTaken s s.takeNext := by
  cases hw : s.smon.waiting with
  | nil =>
    have e : s.takeNext = s := by
      unfold State.takeNext
      rw [h, hw]
    rw [e]
    refine ⟨rfl, ⟨rfl, rfl, rfl⟩, fun _ q hq => ?_, fun q w hp => ?_⟩
    · rw [hw] at hq
      cases hq
    · rw [h] at hp
      cases hp
  | cons p rest =>
    have pieces : s.smon.pieces = p :: rest := by
      unfold Monitor.pieces
      rw [h, hw]
      rfl
    have stays : s.takeNext = s → p.ofSweep = false → PieceTaken s s.takeNext := by
      intro e hp
      rw [e]
      refine ⟨rfl, ⟨rfl, rfl, rfl⟩, fun _ q hq => ?_, fun q w hq => ?_⟩
      · rw [hw] at hq
        cases hq
        exact hp
      · rw [h] at hq
        cases hq
    cases p with
    | config =>
      rw [State.takeNext_cons h hw]
      refine ⟨pieces.symm, ⟨rfl, rfl, rfl⟩, fun hn => (by cases hn), fun q w hq => .inl ?_⟩
      cases hq
      exact ⟨rfl, rfl, List.getLast?_concat ..⟩
    | visit k =>
      rw [State.takeNext_cons h hw]
      refine ⟨pieces.symm, ⟨rfl, rfl, rfl⟩, fun hn => (by cases hn), fun q w hq => .inr (.inl ⟨k, ?_⟩)⟩
      cases hq
      exact ⟨rfl, rfl, List.getLast?_concat ..⟩
    | closing =>
      rw [State.takeNext_cons h hw]
      dsimp only
      obtain ⟨g1, g2, g3, g4, g5, -⟩ := State.count_work
        (({ s with smon := { s.smon with waiting := rest } }).setPiece .closing (.counting .endPiece))
        (.sweepClose s.smon.noted) .smon
      refine ⟨?_, ⟨g5, g4, g3⟩, fun hn => ?_, fun q w hq => .inr (.inr ?_)⟩
      · rw [pieces]
        unfold Monitor.pieces
        rw [g1, g2]
        rfl
      · rw [g1] at hn
        cases hn
      · rw [g1] at hq
        cases hq
        refine ⟨rfl, rfl, ?_⟩
        rw [State.count_counts, g5]
        exact List.getLast?_concat ..
    | removal k y n => exact stays (State.takeNext_cons h hw) rfl
    | completion k => exact stays (State.takeNext_cons h hw) rfl
    | tearRelease k => exact stays (State.takeNext_cons h hw) rfl

/-- What becomes ready after a piece is in SMON alone. -/
theorem State.readyAfter_eq (s : State) (p : Piece) :
    s.readyAfter p = { s with smon := (s.readyAfter p).smon } := by
  unfold State.readyAfter
  repeat' split
  all_goals first
    | rfl
    | (unfold State.endSweep; split <;> rfl)

/-- The end of a piece in its three parts. -/
theorem State.endPiece_eq {s : State} {p : Piece} {w : Work} (h : s.smon.piece = some (p, w)) :
    s.endPiece = (s.dropPiece.readyAfter p).takeNext := by
  unfold State.endPiece
  rw [h]

/-- What ending the piece under way does. -/
theorem State.endPiece_ended {s : State} {p : Piece} {w : Work} (h : s.smon.piece = some (p, w)) :
    PieceEnded s s.endPiece p := by
  rw [State.endPiece_eq h]
  have none : (s.dropPiece.readyAfter p).smon.piece = none := by
    unfold State.readyAfter
    repeat' split
    all_goals first
      | rfl
      | (unfold State.endSweep; split <;> rfl)
  have k := State.takeNext_taken _ none
  generalize (s.dropPiece.readyAfter p).takeNext = t at k
  obtain ⟨k1, ⟨k2, k3, k4⟩, k5, k6⟩ := k
  rw [State.readyAfter_eq] at k6
  -- What stands in SMON once the next piece, if there is one, is ready.
  have pieces : t.smon.pieces = (s.dropPiece.readyAfter p).smon.waiting := by
    rw [k1]
    unfold Monitor.pieces
    rw [none]
    rfl
  refine ⟨?_, ?_, ?_, ?_, ?_, ?_, ?_, ?_, k5, k6⟩
  · rintro rfl hr
    rw [pieces]
    unfold State.readyAfter
    simp [Piece.ofSweep, hr, State.dropPiece, State.ready]
  · rintro k next rfl hr hn hlt
    rw [pieces]
    unfold State.readyAfter
    simp [Piece.ofSweep, hr, State.dropPiece, State.ready, ← hn, hlt]
  · rintro k rfl hr hk
    rw [pieces]
    unfold State.readyAfter
    have h15 := k.isLt
    have hc : s.dropPiece.engc.slotCount = s.engc.slotCount := rfl
    have he : s.dropPiece.engc.engine = .running := hr
    rw [if_neg (by simp [Piece.ofSweep]), if_neg (not_not_intro he)]
    dsimp only
    rw [hc]
    split
    · rw [if_neg (by omega)]
      rfl
    · rfl
  · rintro rfl hr hp
    rw [pieces, k2, k3, k4]
    unfold State.readyAfter
    simp [Piece.ofSweep, hr, State.dropPiece, State.endSweep, hp, State.startSweep, State.ready, State.epoch]
  · rintro rfl hr hp
    rw [pieces, k4]
    unfold State.readyAfter
    simp [Piece.ofSweep, hr, State.dropPiece, State.endSweep, hp]
  · rintro ho hr
    rw [pieces, k4]
    unfold State.readyAfter
    simp [ho, hr, State.dropPiece]
  · rintro ho
    rw [pieces, k4]
    unfold State.readyAfter
    simp [ho, State.dropPiece]
  · rintro hp
    rw [k2, k3]
    unfold State.readyAfter
    constructor
    all_goals
      by_cases ho : p.ofSweep = true
      · by_cases hr : s.engc.engine = .running
        · cases p with
          | config => simp [Piece.ofSweep, hr, State.dropPiece, State.ready]
          | visit k =>
            have he : s.dropPiece.engc.engine = .running := hr
            rw [if_neg (by simp [Piece.ofSweep]), if_neg (not_not_intro he)]
            dsimp only
            repeat' split
            all_goals rfl
          | closing => exact absurd rfl hp
          | removal _ _ _ => cases ho
          | completion _ => cases ho
          | tearRelease _ => cases ho
        · simp [ho, hr, State.dropPiece]
      · simp [ho, State.dropPiece]

/-- The end of a piece is the same in two states that agree in the engine's state and slot count, in what waits
for SMON and its sweep flags, and in the epoch, AREA and the instant. -/
theorem PieceEnded.congr {u v t : State} {p : Piece} (h : PieceEnded u t p)
    (engine : v.engc.engine = u.engc.engine) (slots : v.engc.slotCount = u.engc.slotCount)
    (waiting : v.smon.waiting = u.smon.waiting) (pending : v.smon.pendingSweep = u.smon.pendingSweep)
    (progress : v.smon.inProgress = u.smon.inProgress) (noted : v.smon.noted = u.smon.noted)
    (epoch : v.tbu.epoch = u.tbu.epoch) (area : v.regp.area = u.regp.area)
    (instant : v.instant = u.instant) : PieceEnded v t p := by
  have addr : ∀ k : SlotId, v.hostWordAddr k = u.hostWordAddr k := fun k => by
    unfold State.hostWordAddr State.slotWord State.area
    rw [area]
  obtain ⟨h1, h2, h3, h4, h5, h6, h7, h8, h9, h10⟩ := h
  simp only [← engine, ← slots, ← waiting, ← pending, ← progress, ← noted, ← epoch, ← area, ← instant, ← addr,
    State.requestOf] at h1 h2 h3 h4 h5 h6 h7 h8 h10
  exact ⟨h1, h2, h3, h4, h5, h6, h7, h8, h9, h10⟩

end Sys2Proof.Machine
end

