-- ==== Sys2Proof/Laws/Admission.lean ====
section
/-! SUPPORT. Everything that a selection walk, a start, a removal and a release can do. -/

namespace Sys2Proof.Machine

/-- What a walk over some entries leaves alone: every unit but ADMU, OUTD, lanes in the pool, the order list
and the mirror entries of the entries walked; of those, all but state and lane. -/
structure WalkFrame (slots : List SlotId) (s t : State) : Prop where
  pending : t.pending = s.pending
  regp : t.regp = s.regp
  tbu : t.tbu = s.tbu
  engc : t.engc = s.engc
  inc : t.inc = s.inc
  mem : t.mem = s.mem
  instant : t.instant = s.instant
  smon : t.smon = { s.smon with mirror := t.smon.mirror }
  known : ∀ k : SlotId, (t.mirror k).knownSeq = (s.mirror k).knownSeq
  copy : ∀ k : SlotId, (t.mirror k).settleCopy = (s.mirror k).settleCopy
  waits : ∀ k : SlotId, (t.mirror k).pendingOutcome = (s.mirror k).pendingOutcome
  starts : ∀ k : SlotId, t.mirror k = s.mirror k ∨ (t.mirror k).state = .running
  others : ∀ k : SlotId, k ∉ slots → t.mirror k = s.mirror k
  busy : ∀ l : LaneId, s.admu.pool[l] = false → t.lane l = s.lane l ∧ t.admu.pool[l] = false
  orderList : ∃ q : List Request, t.mport = s.mport ++ q

theorem WalkFrame.refl (slots : List SlotId) (s : State) : WalkFrame slots s s where
  pending := rfl
  regp := rfl
  tbu := rfl
  engc := rfl
  inc := rfl
  mem := rfl
  instant := rfl
  smon := rfl
  known := fun _ => rfl
  copy := fun _ => rfl
  waits := fun _ => rfl
  starts := fun _ => .inl rfl
  others := fun _ _ => rfl
  busy := fun _ h => ⟨rfl, h⟩
  orderList := ⟨[], by simp⟩

theorem WalkFrame.trans {slots : List SlotId} {s t u : State} (h : WalkFrame slots s t)
    (g : WalkFrame slots t u) : WalkFrame slots s u where
  pending := g.pending.trans h.pending
  regp := g.regp.trans h.regp
  tbu := g.tbu.trans h.tbu
  engc := g.engc.trans h.engc
  inc := g.inc.trans h.inc
  mem := g.mem.trans h.mem
  instant := g.instant.trans h.instant
  smon := by rw [g.smon, h.smon]
  known := fun k => (g.known k).trans (h.known k)
  copy := fun k => (g.copy k).trans (h.copy k)
  waits := fun k => (g.waits k).trans (h.waits k)
  starts := fun k => by
    rcases g.starts k with e | e
    · rw [e]; exact h.starts k
    · exact .inr e
  others := fun k hk => (g.others k hk).trans (h.others k hk)
  busy := fun l hl => by
    obtain ⟨h1, h2⟩ := h.busy l hl
    obtain ⟨g1, g2⟩ := g.busy l h2
    exact ⟨g1.trans h1, g2⟩
  orderList := by
    obtain ⟨q, hq⟩ := h.orderList
    obtain ⟨r, hr⟩ := g.orderList
    exact ⟨q ++ r, by rw [hr, hq, List.append_assoc]⟩

theorem WalkFrame.weaken {slots more : List SlotId} {s t : State} (h : WalkFrame slots s t)
    (sub : ∀ k ∈ slots, k ∈ more) : WalkFrame more s t :=
  { h with others := fun k hk => h.others k (fun hs => hk (sub k hs)) }

/-- A queue rewritten by the walk. -/
theorem WalkFrame.of_setQueue (slots : List SlotId) (s : State) (q : List Entry) :
    WalkFrame slots s (s.setQueue q) :=
  { WalkFrame.refl slots s with }

/-- Reservations rewritten by the walk. -/
theorem WalkFrame.of_claims (slots : List SlotId) (s : State) (v : Vector Claim 4) :
    WalkFrame slots s { s with admu := { s.admu with claims := v } } :=
  { WalkFrame.refl slots s with }

/-- The mirror after a start (05, R71). -/
theorem State.startPlan_mirror (s : State) (e : Entry) (l : LaneId) (k : SlotId) :
    (s.startPlan e l).mirror k =
      if k = e.slot then { s.mirror k with state := .running, lane := some l } else s.mirror k := by
  show State.mirror (s.setMirror e.slot { s.mirror e.slot with state := .running, lane := some l }) k = _
  by_cases h : k = e.slot
  · subst h
    rw [State.setMirror_mirror, if_pos rfl]
  · rw [State.setMirror_other _ _ _ _ (Ne.symm h), if_neg h]

/-- The lanes after a start. -/
theorem State.startPlan_lane (s : State) (e : Entry) (l k : LaneId) :
    (s.startPlan e l).lane k = if k = l then Lane.start e else s.lane k := by
  show State.lane (s.setLane l (Lane.start e)) k = _
  by_cases h : k = l
  · subst h
    rw [State.setLane_lane, if_pos rfl]
  · rw [State.setLane_other _ _ _ _ (Ne.symm h), if_neg h]

/-- The pool after a start. -/
theorem State.startPlan_pool (s : State) (e : Entry) (l k : LaneId) :
    (s.startPlan e l).admu.pool[k] = if k = l then false else s.admu.pool[k] := by
  show (s.admu.pool.set l false)[k] = _
  by_cases h : k = l
  · subst h
    rw [if_pos rfl]
    exact vectorSet_self _ _ _
  · rw [if_neg h]
    exact vectorSet_other _ _ _ _ (Ne.symm h)

theorem WalkFrame.of_startPlan (slots : List SlotId) (s : State) (e : Entry) (l : LaneId)
    (he : e.slot ∈ slots) (hl : s.admu.pool[l] = true) : WalkFrame slots s (s.startPlan e l) where
  pending := rfl
  regp := rfl
  tbu := rfl
  engc := rfl
  inc := rfl
  mem := rfl
  instant := rfl
  smon := rfl
  known := fun k => by rw [State.startPlan_mirror]; split <;> rfl
  copy := fun k => by rw [State.startPlan_mirror]; split <;> rfl
  waits := fun k => by rw [State.startPlan_mirror]; split <;> rfl
  starts := fun k => by
    rw [State.startPlan_mirror]
    split
    · exact .inr rfl
    · exact .inl rfl
  others := fun k hk => by
    have hne : k ≠ e.slot := fun h => hk (by rw [h]; exact he)
    rw [State.startPlan_mirror, if_neg hne]
  busy := fun k hk => by
    have hne : k ≠ l := fun h => by subst h; rw [hl] at hk; cases hk
    rw [State.startPlan_lane, State.startPlan_pool, if_neg hne, if_neg hne]
    exact ⟨rfl, hk⟩
  orderList := ⟨_, rfl⟩

/-- The lane a walk takes is in the pool. -/
theorem State.freeLane_pool {s : State} {l : LaneId} (h : s.freeLane = some l) : s.admu.pool[l] = true := by
  have := List.find?_some (p := fun l => s.admu.pool[l]) h
  exact this

/-- The walk from an entry on: its frame, and that the entries left are some of the entries given. -/
theorem walkFrom_frame (rest kept : List Entry) (s : State) :
    WalkFrame (rest.map (·.slot)) s (walkFrom kept rest s) ∧
      ∀ e ∈ (walkFrom kept rest s).admu.queue, e ∈ kept ∨ e ∈ rest := by
  induction rest generalizing kept s with
  | nil => exact ⟨.of_setQueue _ _ _, fun e he => .inl he⟩
  | cons a rest ih =>
    have sub : ∀ k ∈ rest.map (·.slot), k ∈ (a :: rest).map (·.slot) := fun k hk => by simp at hk ⊢; exact .inr hk
    have up : ∀ e : Entry, e ∈ kept ++ [a] ∨ e ∈ rest → e ∈ kept ∨ e ∈ a :: rest := by
      intro e he
      simp at he ⊢
      rcases he with (h | h) | h
      · exact .inl h
      · exact .inr (.inl h)
      · exact .inr (.inr h)
    unfold walkFrom
    split
    · refine ⟨.of_setQueue _ _ _, fun e he => ?_⟩
      have : e ∈ kept ++ a :: rest := he
      simpa using this
    · rename_i l hl
      split
      · obtain ⟨h1, h2⟩ := ih (kept ++ [a]) s
        exact ⟨h1.weaken sub, fun e he => up e (h2 e he)⟩
      · split
        · obtain ⟨h1, h2⟩ := ih kept (s.startPlan a l)
          refine ⟨(WalkFrame.of_startPlan _ s a l (by simp) (State.freeLane_pool hl)).trans (h1.weaken sub),
            fun e he => ?_⟩
          rcases h2 e he with h | h
          · exact .inl h
          · exact .inr (List.mem_cons_of_mem _ h)
        · obtain ⟨h1, h2⟩ := ih (kept ++ [a])
            { s with admu := { s.admu with claims := reserveFor a rest s.admu.claims } }
          exact ⟨(WalkFrame.of_claims _ s _).trans (h1.weaken sub), fun e he => up e (h2 e he)⟩

/-- A walk: its frame, and that it adds no entry to the queue (05, R70). -/
theorem State.walk_frame (s : State) :
    WalkFrame (s.admu.queue.map (·.slot)) s s.walk ∧ ∀ e ∈ s.walk.admu.queue, e ∈ s.admu.queue := by
  unfold State.walk
  split
  · obtain ⟨h1, h2⟩ := walkFrom_frame s.admu.queue [] s
    exact ⟨h1, fun e he => (h2 e he).resolve_left (by simp)⟩
  · exact ⟨.refl _ _, fun e he => he⟩

/-- Whether a slot has an entry in the queue. -/
theorem State.inQueue_iff (s : State) (k : SlotId) :
    s.inQueue k = true ↔ k ∈ s.admu.queue.map (·.slot) := by
  simp [State.inQueue]

theorem State.inQueue_false_iff (s : State) (k : SlotId) :
    s.inQueue k = false ↔ k ∉ s.admu.queue.map (·.slot) := by
  rw [← State.inQueue_iff]; simp

/-- A slot with no entry has none after a walk, and its mirror entry is unchanged. -/
theorem State.walk_absent (s : State) (k : SlotId) (h : s.inQueue k = false) :
    s.walk.inQueue k = false ∧ s.walk.mirror k = s.mirror k := by
  obtain ⟨h1, h2⟩ := State.walk_frame s
  rw [State.inQueue_false_iff] at h
  refine ⟨?_, h1.others k h⟩
  rw [State.inQueue_false_iff]
  intro hk
  simp only [List.mem_map] at hk h
  obtain ⟨e, he, hs⟩ := hk
  exact h ⟨e, h2 e he, hs⟩

/-- The entries of the other slots are what is left without a slot's entry. -/
@[simp] theorem mem_withoutSlot (k : SlotId) (q : List Entry) (e : Entry) :
    e ∈ withoutSlot k q ↔ e ∈ q ∧ e.slot ≠ k := by
  unfold withoutSlot
  simp

/-- Where a joining entry takes its place: behind entries that it does not outrank, before the first that it does
(05, R65). -/
theorem insertEntry_split (e : Entry) (q : List Entry) : ∃ front back : List Entry, q = front ++ back ∧
    insertEntry e q = front ++ e :: back ∧ (∀ x ∈ front, e.outranks x = false) ∧
    ∀ x, back.head? = some x → e.outranks x = true := by
  induction q with
  | nil => exact ⟨[], [], rfl, rfl, by simp, by simp⟩
  | cons x q ih =>
    unfold insertEntry
    split
    · rename_i h
      exact ⟨[], x :: q, rfl, rfl, by simp, by simpa using h⟩
    · rename_i h
      obtain ⟨front, back, hq, hi, hf, hb⟩ := ih
      refine ⟨x :: front, back, by rw [hq]; rfl, by rw [hi]; rfl, ?_, hb⟩
      simpa using ⟨by simpa using h, by simpa using hf⟩

/-- An entry takes its place beside those that wait. -/
theorem insertEntry_slots (e : Entry) (q : List Entry) :
    ((insertEntry e q).map Entry.slot).Perm (e.slot :: q.map Entry.slot) := by
  induction q with
  | nil => exact .refl _
  | cons x q ih =>
    unfold insertEntry
    split
    · exact .refl _
    · exact (ih.cons x.slot).trans (.swap ..)

/-- An entry that takes the place of the one its slot had leaves one entry per slot (05, R64). -/
theorem insertEntry_single (e : Entry) (k : SlotId) (q : List Entry) (he : e.slot = k)
    (h : (q.map Entry.slot).Nodup) : ((insertEntry e (withoutSlot k q)).map Entry.slot).Nodup := by
  rw [(insertEntry_slots e _).nodup_iff, List.nodup_cons]
  constructor
  · rw [he]
    simp
  · exact (List.filter_sublist.map Entry.slot).nodup h

/-- A removed slot has no entry (05, R73). -/
theorem State.removeEntry_absent (s : State) (k : SlotId) : (s.removeEntry k).inQueue k = false := by
  rw [State.inQueue_false_iff]
  simp [State.removeEntry]

end Sys2Proof.Machine
end

