-- ==== Sys2Proof/Laws/Lists.lean ====
section
/-! SUPPORT. Every operation of the part keeps the write-behind lists within their bounds (06, R90), and so
does every event that is due. -/

namespace Sys2Proof.Machine

/-! ### One lane -/

/-- The bound looks at the list, the activity and the state alone. -/
theorem Lane.ListBounded.of_same {x y : Lane} (h : x.ListBounded) (h1 : y.list = x.list)
    (h2 : y.activity = x.activity) (h3 : y.state = x.state) : y.ListBounded :=
  ⟨by rw [h1]; exact h.two, by rw [h1, h2, h3]; exact h.running, by rw [h1, h3]; exact h.loading⟩

/-- A lane that runs no step and is past its load. -/
theorem Lane.ListBounded.of_rest {y : Lane} (h : y.list.length ≤ 2) (ha : y.activity.isRunning = false)
    (hs : y.state ≠ .loading) : y.ListBounded :=
  ⟨h, fun hr => (by rw [ha] at hr; cases hr), fun hl => absurd hl hs⟩

/-- A lane whose list is empty and that runs no step. -/
theorem Lane.ListBounded.of_nil {y : Lane} (h : y.list = []) (ha : y.activity.isRunning = false) :
    y.ListBounded :=
  ⟨by rw [h]; exact Nat.zero_le 2, fun hr => (by rw [ha] at hr; cases hr), fun _ => h⟩

/-- A lane in STEPPING with at most one result. -/
theorem Lane.ListBounded.of_one {y : Lane} (h : y.list.length ≤ 1) (hs : y.state = .stepping) :
    y.ListBounded :=
  ⟨Nat.le_succ_of_le h, fun _ => ⟨h, hs⟩, fun hl => (by rw [hs] at hl; cases hl)⟩

/-- A lane whose list has become shorter, with activity and state as before. -/
theorem Lane.ListBounded.of_shorter {x y : Lane} (h : x.ListBounded) (h1 : y.list.length ≤ x.list.length)
    (h2 : y.activity = x.activity) (h3 : y.state = x.state) : y.ListBounded := by
  refine ⟨Nat.le_trans h1 h.two, ?_, ?_⟩
  · rw [h2, h3]
    exact fun hr => ⟨Nat.le_trans h1 (h.running hr).1, (h.running hr).2⟩
  · rw [h3]
    intro hl
    have := h.loading hl
    rw [this] at h1
    exact List.length_eq_zero_iff.1 (Nat.le_zero.1 h1)

theorem Lane.empty_bounded : Lane.empty.ListBounded := .of_nil rfl rfl

theorem Lane.start_bounded (e : Entry) : (Lane.start e).ListBounded := .of_nil rfl rfl

theorem Lane.tick_bounded {x : Lane} (h : x.ListBounded) : x.tick.ListBounded := by
  have hw : ∀ y : Lane, y.tickWindow.list = y.list ∧ y.tickWindow.activity = y.activity ∧
      y.tickWindow.state = y.state := by
    intro y
    unfold Lane.tickWindow
    split <;> exact ⟨rfl, rfl, rfl⟩
  unfold Lane.tick
  extract_lets y
  have hy : y.ListBounded := h.of_same rfl rfl rfl
  have ha : y.activity = x.activity := rfl
  clear_value y
  obtain ⟨w1, w2, w3⟩ := hw y
  cases hx : x.activity <;> rw [hx] at ha <;> dsimp only
  case wait k b d =>
    refine ⟨hy.two, fun hr => ?_, hy.loading⟩
    cases hr
  all_goals first
    | exact hy
    | exact hy.of_same rfl rfl rfl
    | exact hy.of_same w1 w2 w3

theorem Lane.closeBoundary_bounded {x : Lane} (h : x.ListBounded) : x.closeBoundary.ListBounded := by
  unfold Lane.closeBoundary
  split
  · exact ⟨h.two, fun hr => (by cases hr), h.loading⟩
  · exact h

/-! ### The array of lanes -/

/-- A state whose lanes are those of another. -/
theorem State.ListsBounded.of_lanes {s t : State} (h : s.ListsBounded) (e : t.lanes = s.lanes) :
    t.ListsBounded := fun l => by rw [State.lane_of_lanes e]; exact h l

/-- A state with one lane rewritten. -/
theorem State.ListsBounded.setLane {s : State} (h : s.ListsBounded) (l : LaneId) (x : Lane)
    (hx : x.ListBounded) : (s.setLane l x).ListsBounded := by
  intro k
  by_cases e : k = l
  · subst e; rw [State.setLane_lane]; exact hx
  · rw [State.setLane_other _ _ _ _ (Ne.symm e)]; exact h k

/-- Every lane is bounded when the others are and this one is. -/
theorem State.ListsBounded.of_only {s t : State} (l : LaneId) (h : s.ListsBounded) (o : OnlyLane s t l)
    (hl : (t.lane l).ListBounded) : t.ListsBounded := by
  intro k
  by_cases e : k = l
  · subst e; exact hl
  · rw [o.others k e]; exact h k

theorem State.ListsBounded.of_work {s t : State} (h : s.ListsBounded) (o : OnlyWork s t) :
    t.ListsBounded := h.of_lanes o.1.lanes

/-! ### Lanes' operations -/

theorem State.pump_lists {s : State} (h : s.ListsBounded) (l : LaneId) : (s.pump l).ListsBounded := by
  obtain ⟨a, e, q, hp⟩ := State.pump_eq s l
  rw [hp]
  exact State.ListsBounded.of_lanes (h.setLane l { s.lane l with access := a, settledEpoch := e }
    ((h l).of_same rfl rfl rfl)) rfl

/-- A conclusion, of a lane whose list is within two, whatever ran in it. -/
theorem State.conclude_lists {s : State} (l : LaneId) (h : ∀ k, k ≠ l → (s.lane k).ListBounded)
    (hl : (s.lane l).list.length ≤ 2) (o : PlanOutcome) (b : Byte) : (s.conclude l o b).ListsBounded := by
  obtain ⟨a, e, q, hp⟩ := State.conclude_eq s l o b
  rw [hp]
  intro k
  rw [State.mport_lane]
  by_cases hk : k = l
  · subst hk
    rw [State.setLane_lane]
    exact .of_rest hl rfl (by simp)
  · rw [State.setLane_other _ _ _ _ (Ne.symm hk)]
    exact h k hk

/-- A completion, of a lane in STEPPING with room. -/
theorem State.finishStep_lists {s : State} (l : LaneId) (h : ∀ k, k ≠ l → (s.lane k).ListBounded)
    (h1 : (s.lane l).list.length ≤ 1) (hs : (s.lane l).state = .stepping) (c : ResultCode) (v w : Word)
    (a : Byte) (verdict : Option PlanOutcome) (skip same : Bool) :
    (s.finishStep l c v w a verdict skip same).ListsBounded := by
  obtain ⟨y, q, hf, hl, -, -, hr, -, -, -, -, -, -, -, -, -, -, -, hst, -⟩ :=
    State.finishStep_eq s l c v w a verdict skip same
  rw [hf]
  intro k
  rw [State.mport_lane]
  by_cases hk : k = l
  · subst hk
    rw [State.setLane_lane]
    refine .of_rest ?_ hr ?_
    · rw [hl]
      simp [Lane.finished, Lane.record]
      omega
    · rcases hst with e | e
      · rw [e, hs]; simp
      · rw [e]; simp
  · rw [State.setLane_other _ _ _ _ (Ne.symm hk)]
    exact h k hk

/-- A completion of a running step. -/
theorem State.finishStep_lists_running {s : State} (h : s.ListsBounded) (l : LaneId)
    (hr : (s.lane l).activity.isRunning = true) (c : ResultCode) (v w : Word) (a : Byte)
    (verdict : Option PlanOutcome) (skip same : Bool) :
    (s.finishStep l c v w a verdict skip same).ListsBounded :=
  State.finishStep_lists l (fun k _ => h k) ((h l).running hr).1 ((h l).running hr).2 _ _ _ _ _ _ _

theorem State.drive_lists {s : State} (h : s.ListsBounded) (l : LaneId) (o : OutLine) (b : Bool) :
    (s.drive l o b).ListsBounded := h.of_lanes (by simp)

/-- A step that begins in a lane in STEPPING with room. -/
theorem State.beginStep_lists {s : State} (h : s.ListsBounded) (l : LaneId) (k : Nat)
    (h1 : (s.lane l).list.length ≤ 1) (hs : (s.lane l).state = .stepping) :
    (s.beginStep l k).ListsBounded := by
  have one : ∀ a : Activity, (((s.lane l).begun k s.epoch).doing a).ListBounded :=
    fun a => .of_one h1 hs
  have set : ∀ a : Activity, (s.setLane l (((s.lane l).begun k s.epoch).doing a)).ListsBounded :=
    fun a => h.setLane l _ (one a)
  have fin : ∀ t : State, t.ListsBounded → t.lane l = ((s.lane l).begun k s.epoch).doing .none →
      ∀ c v w a ve sk sa, (t.finishStep l c v w a ve sk sa).ListsBounded := by
    intro t ht hl c v w a ve sk sa
    exact State.finishStep_lists l (fun j _ => ht j) (by rw [hl]; exact h1) (by rw [hl]; exact hs)
      _ _ _ _ _ _ _
  unfold State.beginStep
  extract_lets now x t
  have hx : x = (s.lane l).begun k s.epoch := rfl
  generalize BitVec.toNat t.kind = n
  split
  · split
    · exact fin _ (set _) (State.setLane_lane ..) _ _ _ _ _ _ _
    · exact set _
  · split
    · exact fin _ (set _) (State.setLane_lane ..) _ _ _ _ _ _ _
    · exact set _
  · exact set _
  · exact set _
  · exact set _
  · exact set _
  · exact fin _ (State.ListsBounded.of_lanes (set .none) (State.drive_lanes _ _ _ _))
      (by rw [State.drive_lane]; exact State.setLane_lane ..) _ _ _ _ _ _ _
  · exact State.ListsBounded.of_lanes (set _) (State.drive_lanes _ _ _ _)
  · exact State.ListsBounded.of_lanes (set _) rfl
  · exact h

theorem State.beginWaiting_lists {s : State} (h : s.ListsBounded) (l : LaneId)
    (h1 : (s.lane l).list.length ≤ 1) (hs : (s.lane l).state = .stepping) :
    (s.beginWaiting l).ListsBounded := by
  unfold State.beginWaiting
  split
  · refine State.finishStep_lists l (fun k hk => ?_) ?_ ?_ _ _ _ _ _ _ _
    · rw [State.setLane_other _ _ _ _ (Ne.symm hk)]; exact h k
    · rw [State.setLane_lane]; exact h1
    · rw [State.setLane_lane]; exact hs
  · exact State.beginStep_lists h l _ h1 hs
  · exact h

theorem State.completeLoad_lists {s : State} (h : s.ListsBounded) (l : LaneId)
    (hs : (s.lane l).state = .loading) : (s.completeLoad l).ListsBounded := by
  have hl := (h l).loading hs
  unfold State.completeLoad
  refine State.beginStep_lists ?_ l 0 ?_ ?_
  · refine h.setLane l _ ?_
    exact .of_nil hl rfl
  · rw [State.setLane_lane]
    show (s.lane l).list.length ≤ 1
    rw [hl]
    exact Nat.zero_le 1
  · rw [State.setLane_lane]

theorem State.deliverEdge_lists {s : State} (h : s.ListsBounded) (l : LaneId) (i : InLine) (b : Bool)
    (w : Word) : (s.deliverEdge l i b w).ListsBounded := by
  have one : ∀ y : Lane, y.list = (s.lane l).list → y.state = (s.lane l).state →
      (s.lane l).activity.isRunning = true → (s.setLane l y).ListsBounded := by
    intro y h1 h2 hr
    exact h.setLane l y (.of_one (by rw [h1]; exact ((h l).running hr).1) (by rw [h2]; exact ((h l).running hr).2))
  unfold State.deliverEdge
  extract_lets x t d
  have hx : x = s.lane l := rfl
  split
  · exact h
  · have ha : x.activity = (s.lane l).activity := rfl
    cases hc : x.activity <;> dsimp only <;> (try split) <;> (try split) <;>
      first
        | exact h
        | exact State.finishStep_lists_running h l (by rw [← ha, hc]; rfl) _ _ _ _ _ _ _
        | exact one _ rfl rfl (by rw [← ha, hc]; rfl)

theorem foldl_lists {α : Type} (f : State → α → State) (hf : ∀ s x, s.ListsBounded → (f s x).ListsBounded)
    (l : List α) {s : State} (h : s.ListsBounded) : (l.foldl f s).ListsBounded := by
  induction l generalizing s with
  | nil => exact h
  | cons x l ih => exact ih (hf s x h)

theorem State.acceptEdge_lists {s : State} (h : s.ListsBounded) (i : InLine) :
    (s.acceptEdge i).ListsBounded := by
  unfold State.acceptEdge
  exact foldl_lists _ (fun _ _ hs => State.deliverEdge_lists hs _ _ _ _) _ (h.of_lanes rfl)

theorem State.acceptEdges_lists {s : State} (h : s.ListsBounded) : s.acceptEdges.ListsBounded := by
  unfold State.acceptEdges
  refine foldl_lists _ (fun s i hs => ?_) _ h
  split
  · exact State.acceptEdge_lists hs i
  · exact hs

theorem State.overrangeStep_lists {s : State} (h : s.ListsBounded) (l : LaneId) :
    (s.overrangeStep l).ListsBounded := by
  unfold State.overrangeStep
  split
  · rename_i hx; exact State.finishStep_lists_running h l (by rw [hx]; rfl) _ _ _ _ _ _ _
  · rename_i hx; exact State.finishStep_lists_running h l (by rw [hx]; rfl) _ _ _ _ _ _ _
  · exact h

theorem State.timeoutStep_lists {s : State} (h : s.ListsBounded) (l : LaneId) :
    (s.timeoutStep l).ListsBounded := by
  unfold State.timeoutStep
  extract_lets x t v ends
  have ha : x.activity = (s.lane l).activity := rfl
  cases hc : x.activity <;>
    first
      | exact h
      | exact State.finishStep_lists_running h l (by rw [← ha, hc]; rfl) _ _ _ _ _ _ _

theorem State.tallyStep_lists {s : State} (h : s.ListsBounded) (l : LaneId) :
    (s.tallyStep l).ListsBounded := by
  unfold State.tallyStep
  split
  · rename_i hx; exact State.finishStep_lists_running h l (by rw [hx]; rfl) _ _ _ _ _ _ _
  · exact h

theorem State.pulseStep_lists {s : State} (h : s.ListsBounded) (l : LaneId) :
    (s.pulseStep l).ListsBounded := by
  have one : ∀ y : Lane, y.list = (s.lane l).list → y.state = (s.lane l).state →
      (s.lane l).activity.isRunning = true → (s.setLane l y).ListsBounded := by
    intro y h1 h2 hr
    exact h.setLane l y (.of_one (by rw [h1]; exact ((h l).running hr).1) (by rw [h2]; exact ((h l).running hr).2))
  unfold State.pulseStep
  extract_lets x t
  have ha : x.activity = (s.lane l).activity := rfl
  split
  · rename_i hx
    refine State.drive_lists ?_ _ _ _
    refine one _ ?_ ?_ (by rw [← ha, hx]; rfl) <;> rfl
  · rename_i hx
    split
    · exact State.finishStep_lists_running h l (by rw [← ha, hx]; rfl) _ _ _ _ _ _ _
    · refine State.drive_lists ?_ _ _ _
      refine one _ ?_ ?_ (by rw [← ha, hx]; rfl) <;> rfl
  · exact h

theorem Lane.holdDue_running {x : Lane} (h : x.holdDue = true) : x.activity.isRunning = true := by
  unfold Lane.holdDue at h
  simp at h
  rw [h.1.2]
  rfl

theorem Lane.untilDue_running {x : Lane} {now : Word} (h : x.untilDue now = true) :
    x.activity.isRunning = true := by
  unfold Lane.untilDue at h
  simp at h
  rw [h.1.1.2]
  rfl

theorem State.holdStep_lists {s : State} (h : s.ListsBounded) (l : LaneId)
    (hd : (s.lane l).holdDue = true) : (s.holdStep l).ListsBounded :=
  State.finishStep_lists_running h l (Lane.holdDue_running hd) _ _ _ _ _ _ _

theorem State.untilStep_lists {s : State} (h : s.ListsBounded) (l : LaneId) {now : Word}
    (hd : (s.lane l).untilDue now = true) : (s.untilStep l).ListsBounded :=
  State.finishStep_lists_running h l (Lane.untilDue_running hd) _ _ _ _ _ _ _

theorem State.completeRunning_lists {s : State} (h : s.ListsBounded) (l : LaneId) :
    (s.completeRunning l).ListsBounded := by
  unfold State.completeRunning
  extract_lets i s1 x
  have h1 : s1.ListsBounded := by
    show State.ListsBounded (if _ then _ else _)
    split
    · exact State.deliverEdge_lists h _ _ _ _
    · exact h
  have hx : x = s1.lane l := rfl
  clear_value s1
  split
  · exact State.overrangeStep_lists h1 l
  · split
    · exact State.timeoutStep_lists h1 l
    · split
      · rename_i hd; exact State.holdStep_lists h1 l (by rw [← hx]; exact hd)
      · split
        · rename_i hd; exact State.untilStep_lists h1 l (by rw [← hx]; exact hd)
        · split
          · exact State.pulseStep_lists h1 l
          · split
            · exact State.tallyStep_lists h1 l
            · exact h1

theorem Lane.beginDue_room {x : Lane} (h : x.beginDue = true) : x.list.length ≤ 1 ∧ x.state = .stepping := by
  unfold Lane.beginDue at h
  simp at h
  exact ⟨by omega, h.1.1.1⟩

theorem State.chainInstant_lists {s : State} (h : s.ListsBounded) (l : LaneId) :
    (s.chainInstant l).ListsBounded := by
  unfold State.chainInstant
  extract_lets x
  split
  · split
    · rename_i hd
      have := Lane.beginDue_room (x := x) (by simp at hd; exact hd.1)
      exact State.beginStep_lists h l _ this.1 this.2
    · exact h
  · exact h

/-- The step that a recall or halt ends has its result in the list, which had room. -/
theorem State.cutRunning_lane (s : State) (l : LaneId) (c : ResultCode) :
    (s.cutRunning l c).lane l = (s.lane l).record c (s.lane l).pulsesNow s.epoch 0 ∧
      ∀ k, k ≠ l → (s.cutRunning l c).lane k = s.lane k := by
  unfold State.cutRunning
  dsimp only
  split
  · refine ⟨by rw [State.drive_lane, State.setLane_lane], fun k hk => ?_⟩
    rw [State.drive_lane, State.setLane_other _ _ _ _ (Ne.symm hk)]
  · refine ⟨by rw [State.lane_of_lanes (State.giveUpCheck_lanes _ _), State.setLane_lane], fun k hk => ?_⟩
    rw [State.lane_of_lanes (State.giveUpCheck_lanes _ _), State.setLane_other _ _ _ _ (Ne.symm hk)]
  · exact ⟨State.setLane_lane .., fun k hk => State.setLane_other _ _ _ _ (Ne.symm hk)⟩

theorem State.flagEffect_lists {s : State} (h : s.ListsBounded) (l : LaneId) :
    (s.flagEffect l).ListsBounded := by
  have plain : ∀ o b, (s.conclude l o b).ListsBounded :=
    fun o b => State.conclude_lists l (fun k _ => h k) (h l).two o b
  have cut : ∀ c o b, (s.lane l).activity.isRunning = true →
      ((s.cutRunning l c).conclude l o b).ListsBounded := by
    intro c o b hr
    obtain ⟨c1, c2⟩ := State.cutRunning_lane s l c
    refine State.conclude_lists l (fun k hk => by rw [c2 k hk]; exact h k) ?_ _ _
    rw [c1]
    have := ((h l).running hr).1
    simp [Lane.record]
    omega
  unfold State.flagEffect
  extract_lets x o code
  have ha : x.activity = (s.lane l).activity := rfl
  clear_value x o code
  split
  · have ho : (s.abandon (fun a => a == .loadHost l || a == .loadStep l)).ListsBounded := h.of_lanes rfl
    exact State.conclude_lists l (fun k _ => ho k) (ho l).two _ _
  · rw [ha]
    cases hc : (s.lane l).activity <;> dsimp only
    case none => exact h
    case wait => exact plain _ _
    all_goals exact cut _ _ _ (by rw [hc]; rfl)
  · exact h

theorem State.flaggedBoundary_lists {s : State} (h : s.ListsBounded) (l : LaneId) :
    (s.flaggedBoundary l).ListsBounded := by
  unfold State.flaggedBoundary
  split
  · exact State.flagEffect_lists (State.chainInstant_lists (State.chainInstant_lists
      (State.completeRunning_lists h l) l) l) l
  · exact State.flagEffect_lists h l

theorem State.learnTear_lists {s : State} (h : s.ListsBounded) (l : LaneId) :
    (s.learnTear l).ListsBounded := by
  unfold State.learnTear
  dsimp only
  split
  · exact h
  · refine State.ListsBounded.of_lanes (s := s.setLane l _) ?_ rfl
    refine h.setLane l _ ?_
    exact (h l).of_same rfl rfl rfl

/-! ### Walks and releases -/

theorem walkFrom_lists (rest kept : List Entry) {s : State} (h : s.ListsBounded) :
    (walkFrom kept rest s).ListsBounded := by
  induction rest generalizing kept s with
  | nil => exact h.of_lanes rfl
  | cons e rest ih =>
    unfold walkFrom
    split
    · exact h.of_lanes rfl
    · rename_i l _
      split
      · exact ih _ h
      · split
        · refine ih _ (fun k => ?_)
          rw [State.startPlan_lane]
          split
          · exact Lane.start_bounded e
          · exact h k
        · exact ih _ (h.of_lanes rfl)

theorem State.walk_lists {s : State} (h : s.ListsBounded) : s.walk.ListsBounded := by
  unfold State.walk
  split
  · exact walkFrom_lists _ _ h
  · exact h

theorem State.freeTheLane_lists {s : State} (h : s.ListsBounded) (l : LaneId) :
    (s.freeTheLane l).ListsBounded :=
  State.ListsBounded.of_lanes (h.setLane l _ Lane.empty_bounded) rfl

theorem State.removeAs_lists {s : State} (h : s.ListsBounded) (k : SlotId) (w : Removal) :
    (s.removeAs k w).ListsBounded := h.of_lanes rfl

theorem State.lateEntry_lists {s : State} (h : s.ListsBounded) (k : SlotId) :
    (s.lateEntry k).ListsBounded := by
  unfold State.lateEntry
  dsimp only
  split
  · exact State.walk_lists (State.removeAs_lists (State.walk_lists h) _ _)
  · exact State.walk_lists h

theorem State.makeEligible_lists {s : State} (h : s.ListsBounded) : s.makeEligible.ListsBounded :=
  State.walk_lists (h.of_lanes rfl)

theorem lateAll_lists (n : Nat) {s : State} (h : s.ListsBounded) : (lateAll n s).ListsBounded := by
  induction n generalizing s with
  | zero => exact h
  | succ n ih =>
    unfold lateAll
    split
    · exact h
    · exact ih (State.lateEntry_lists h _)

theorem State.admissionTick_lists {s : State} (h : s.ListsBounded) : s.admissionTick.ListsBounded := by
  unfold State.admissionTick
  refine lateAll_lists _ ?_
  split
  · exact State.makeEligible_lists h
  · exact h

theorem State.join_lists {s : State} (h : s.ListsBounded) (e : Entry) : (s.join e).ListsBounded := by
  unfold State.join
  dsimp only
  split
  · exact h.of_lanes rfl
  · split
    · refine State.lateEntry_lists ?_ _
      exact h.of_lanes rfl
    · refine State.walk_lists ?_
      exact h.of_lanes rfl

theorem State.tearFinish_lists {s : State} (h : s.ListsBounded) (l : LaneId) :
    (s.tearFinish l).ListsBounded := by
  unfold State.tearFinish
  dsimp only
  split
  · exact State.walk_lists (State.freeTheLane_lists (h.of_lanes rfl) l)
  · exact h

theorem State.tearStop_lists {s : State} (h : s.ListsBounded) (l : LaneId) :
    (s.tearStop l).ListsBounded := by
  unfold State.tearStop
  extract_lets x kept
  have hk : kept.length ≤ 2 := by
    show List.length (match x.access with | .check _ => _ | .write _ => _ | _ => _) ≤ 2
    split
    · exact Nat.le_trans (List.length_take_le 1 _) (by decide)
    · exact Nat.le_trans (List.length_take_le 1 _) (by decide)
    · exact Nat.zero_le 2
  clear_value kept
  split
  · refine State.walk_lists ?_
    refine State.ListsBounded.of_lanes (s := s.setLane l _) ?_ rfl
    refine h.setLane l _ ?_
    exact .of_rest hk rfl (by simp)
  · exact h

theorem State.count_lists {s : State} (h : s.ListsBounded) (k : CountKind) (q : Requester) :
    (s.count k q).ListsBounded := h.of_work (.of_count ..)

theorem State.laneFault_lists {s : State} (h : s.ListsBounded) (l : LaneId) (o : PlanOutcome) (b : Byte)
    (c : FaultCode) (d : Bool) : (s.laneFault l o b c d).ListsBounded := by
  unfold State.laneFault
  extract_lets x
  refine State.count_lists ?_ _ _
  refine State.ListsBounded.of_lanes (h.setLane l { x with
      state := .closing, activity := .none, loaded := false, loadDue := false,
      outcome := some (o, b), faultCounts := x.faultCounts + 1,
      list := if d then [] else x.list,
      access := if d then .idle else x.access } (.of_rest ?_ rfl (by simp))) rfl
  cases d
  · exact (h l).two
  · simp

theorem State.tornWriteFault_lists {s : State} (h : s.ListsBounded) (l : LaneId) :
    (s.tornWriteFault l).ListsBounded := by
  unfold State.tornWriteFault
  refine State.count_lists ?_ _ _
  refine State.ListsBounded.of_lanes (s := s.setLane l _) ?_ rfl
  refine h.setLane l _ ?_
  exact { two := Nat.zero_le _, running := nofun, loading := fun _ => rfl }

theorem State.laneSettled_lists {s : State} (h : s.ListsBounded) (l : LaneId) :
    (s.laneSettled l).ListsBounded := by
  unfold State.laneSettled State.notify
  refine State.walk_lists (State.freeTheLane_lists ?_ l)
  split <;> exact h.of_lanes rfl

theorem State.laneCounted_lists {s : State} (h : s.ListsBounded) (l : LaneId) (k : CountKind) :
    (s.laneCounted l k).ListsBounded := by
  unfold State.laneCounted
  split
  · exact State.laneSettled_lists h l
  · extract_lets x s1
    have h1 : s1.ListsBounded := h.setLane l _ ((h l).of_same rfl rfl rfl)
    clear_value s1
    split
    · exact State.tearFinish_lists h1 l
    · exact State.pump_lists h1 l

theorem State.boundaryLane_lists {s : State} (h : s.ListsBounded) (l : LaneId) :
    (s.boundaryLane l).ListsBounded := by
  unfold State.boundaryLane
  dsimp only
  repeat' split
  · exact State.tearStop_lists h l
  · exact State.flaggedBoundary_lists h l
  · exact h

theorem State.openBoundary_lists {s : State} (h : s.ListsBounded) (p : Byte) :
    (s.openBoundary p).ListsBounded := by
  intro l
  have e : (s.openBoundary p).lane l = (s.lane l).tick := by
    show (tabulate4 (fun l => (s.lanes[l]).tick))[l] = _
    rw [tabulate4_get]
    rfl
  rw [e]
  exact Lane.tick_bounded (h l)

theorem State.timerExpires_lists {s : State} (h : s.ListsBounded) : s.timerExpires.ListsBounded :=
  State.ListsBounded.of_work (s := { s with tbu := { s.tbu with timer := 0 } }) (h.of_lanes rfl)
    (.of_sweepRequest _)

theorem State.boundaryAct_lists {s : State} (h : s.ListsBounded) (a : Actor) :
    (s.boundaryAct a).ListsBounded := by
  cases a with
  | lane l => exact State.boundaryLane_lists h l
  | laneFree l =>
    unfold State.boundaryAct
    dsimp only
    split
    · exact State.tearFinish_lists h l
    · exact h
  | admission => exact State.admissionTick_lists h
  | timer =>
    unfold State.boundaryAct
    dsimp only
    split
    · exact State.timerExpires_lists h
    · exact h

theorem State.boundary_lists {s : State} (h : s.ListsBounded) (t : TickInput) :
    (s.boundary t).ListsBounded :=
  foldl_lists _ (fun _ a hs => State.boundaryAct_lists hs a) _ (State.openBoundary_lists h _)

theorem State.evaluateCheck_lists {s : State} (h : s.ListsBounded) (l : LaneId)
    (hr : (s.lane l).activity.isRunning = true) (q : List Word) : (s.evaluateCheck l q).ListsBounded :=
  State.finishStep_lists_running h l hr _ _ _ _ _ _ _

/-! ### Slot Monitor -/

theorem State.setWork_lists {s : State} (h : s.ListsBounded) (w : Work) : (s.setWork w).ListsBounded :=
  h.of_work (.of_setWork ..)

theorem State.endPiece_lists {s : State} (h : s.ListsBounded) : s.endPiece.ListsBounded :=
  h.of_work (.of_endPiece s)

theorem State.smonCount_lists {s : State} (h : s.ListsBounded) (k : CountKind) (n : AfterCount) :
    (s.smonCount k n).ListsBounded := h.of_work (.of_smonCount ..)

theorem State.startDiscovery_lists {s : State} (h : s.ListsBounded) (k : SlotId) (p : Half) :
    (s.startDiscovery k p).ListsBounded := State.setWork_lists h _

theorem State.settleDue_lists {s : State} (h : s.ListsBounded) (k : SlotId) (q : Half) (o : PlanOutcome)
    (n : Bool) (d : Option Half) : (s.settleDue k q o n d).ListsBounded := State.setWork_lists h _

theorem State.smonSettleWrite_lists {s : State} (h : s.ListsBounded) (j : SettleJob) (i : Nat) :
    (s.smonSettleWrite j i).ListsBounded := State.setWork_lists h _

theorem State.visitRunning_lists {s : State} (h : s.ListsBounded) (k : SlotId) (p : Half) (r : Option Half) :
    (s.visitRunning k p r).ListsBounded := by
  unfold State.visitRunning
  dsimp only
  split
  · exact State.endPiece_lists h
  · rename_i l _
    have hm : (s.setMirror k { s.mirror k with state := .tearing }).ListsBounded := h.of_lanes rfl
    split
    · split
      · refine State.endPiece_lists ?_
        refine h.setLane l _ ?_
        exact (h l).of_same rfl rfl rfl
      · exact State.endPiece_lists h
    · refine State.endPiece_lists ?_
      split
      · exact State.learnTear_lists hm l
      · exact hm

theorem State.noteVisit_lists {s : State} (h : s.ListsBounded) (k : SlotId) (p r : Half) :
    (s.noteVisit k p r).ListsBounded := h.of_lanes (State.noteVisit_lanes s k p r)

theorem State.visitDecision_lists {s : State} (h : s.ListsBounded) (k : SlotId) (p r : Half) :
    (s.visitDecision k p r).ListsBounded := by
  have walked : (s.removeEntry k).walk.ListsBounded := State.walk_lists (h.of_lanes rfl)
  unfold State.visitDecision
  extract_lets m
  split
  · split
    · exact State.endPiece_lists h
    · exact State.startDiscovery_lists h _ _
  · split
    · unfold State.visitPending
      refine State.settleDue_lists ?_ _ _ _ _ _
      exact h.of_lanes rfl
    · split
      · split
        · exact State.settleDue_lists walked _ _ _ _ _
        · exact State.endPiece_lists h
      · refine State.smonCount_lists ?_ _ _
        exact walked.of_lanes rfl
  · exact State.visitRunning_lists h _ _ _
  · exact State.endPiece_lists h

theorem State.taken_lists {s : State} (h : s.ListsBounded) (j : TakeJob) (f : Bool) :
    (s.taken j f).ListsBounded := by
  unfold State.taken
  dsimp only
  split
  · refine State.settleDue_lists ?_ _ _ _ _ _
    exact h.of_lanes rfl
  · refine State.ListsBounded.of_work ?_ (.of_takeNext _)
    split
    · refine State.join_lists ?_ _
      refine State.ListsBounded.of_work ?_ (.of_readyAfter _ _)
      exact h.of_lanes rfl
    · refine State.ListsBounded.of_work ?_ (.of_readyAfter _ _)
      refine State.join_lists ?_ _
      exact h.of_lanes rfl

theorem State.notify_lists {s : State} (h : s.ListsBounded) (b : Bool) : (s.notify b).ListsBounded := by
  unfold State.notify
  split
  · exact h.of_lanes rfl
  · exact h

theorem State.smonSettled_lists {s : State} (h : s.ListsBounded) (j : SettleJob) :
    (s.smonSettled j).ListsBounded := by
  have h1 : ∀ m, ((s.notify j.notify).setMirror j.slot m).ListsBounded :=
    fun m => (State.notify_lists h _).of_lanes rfl
  unfold State.smonSettled
  dsimp only
  split
  · exact State.endPiece_lists (h1 _)
  · exact State.startDiscovery_lists (h1 _) _ _

theorem State.sweepRequest_lists {s : State} (h : s.ListsBounded) : s.sweepRequest.ListsBounded :=
  h.of_work (.of_sweepRequest s)

theorem State.smonCounted_lists {s : State} (h : s.ListsBounded) : s.smonCounted.ListsBounded := by
  have hc : (s.setCause causeTorn).ListsBounded := h.of_lanes rfl
  unfold State.smonCounted
  split
  · split
    · exact State.endPiece_lists h
    · exact State.startDiscovery_lists hc _ _
    · exact State.endPiece_lists (State.sweepRequest_lists hc)
    · exact State.smonSettled_lists h _
  · exact h

/-! ### Engine Control -/

theorem State.ListsBounded.of_empty {s : State} (h : ∀ l : LaneId, s.lane l = Lane.empty) :
    s.ListsBounded := fun l => by rw [h l]; exact Lane.empty_bounded

theorem replicate_lanes (l : LaneId) : (Vector.replicate 4 Lane.empty)[l] = Lane.empty := by simp

theorem State.stall_lists (s : State) (c : FaultCode) (b : Option OnBus) : (s.stall c b).ListsBounded :=
  .of_empty (fun l => replicate_lanes l)

theorem State.resetUnits_lists (s : State) (b : OnBus) (r : RegPort) : (s.resetUnits b r).ListsBounded :=
  .of_empty (fun l => replicate_lanes l)

theorem State.beginDrain_lists {s : State} (h : s.ListsBounded) : s.beginDrain.ListsBounded := by
  intro l
  have e : s.beginDrain.lane l =
      if (s.lane l).state = .free then s.lane l else { s.lane l with halt := true } := by
    show (tabulate4 (fun l => if (s.lanes[l]).state = .free then s.lanes[l]
      else { s.lanes[l] with halt := true }))[l] = _
    rw [tabulate4_get]
    rfl
  rw [e]
  split
  · exact h l
  · exact (h l).of_same rfl rfl rfl

theorem State.enterDraining_lists {s : State} (h : s.ListsBounded) : s.enterDraining.ListsBounded := by
  have hh : (haltEntries s.admu.queue s.beginDrain).ListsBounded :=
    (State.beginDrain_lists h).of_lanes (haltEntries_rest _ _).2.2.2.1
  unfold State.enterDraining
  dsimp only
  split
  · exact hh.of_lanes rfl
  · exact hh

theorem State.nextOrphan_lists {s : State} (h : s.ListsBounded) (x : Loading) :
    (s.nextOrphan x).ListsBounded := by
  unfold State.nextOrphan
  split <;> exact h.of_lanes rfl

theorem State.resetMirrorsFrom_lists {s : State} (h : s.ListsBounded) (n : Nat) :
    (s.resetMirrorsFrom n).ListsBounded := by
  unfold State.resetMirrorsFrom
  refine foldl_lists _ (fun s k hs => ?_) _ h
  split
  · exact hs.of_lanes rfl
  · exact hs

theorem State.loadingData_lists {s : State} (h : s.ListsBounded) (x : Loading) (w : Word) :
    (s.loadingData x w).ListsBounded := by
  have part : ∀ k, (s.notePart x k w).1.ListsBounded := by
    intro k
    unfold State.notePart
    dsimp only
    split <;> exact h.of_lanes rfl
  unfold State.loadingData
  split
  · exact h.of_lanes rfl
  · split
    · exact h.of_lanes rfl
    · exact h.of_lanes rfl
  · dsimp only
    repeat' split
    all_goals exact h.of_lanes rfl
  · dsimp only
    repeat' split
    all_goals exact h.of_lanes rfl
  · exact h.of_lanes rfl
  · rename_i k _
    have hp := part k
    dsimp only
    generalize s.notePart x k w = n at hp
    repeat' split
    · exact hp.of_lanes rfl
    · exact State.nextOrphan_lists (State.resetMirrorsFrom_lists hp _) _
    · exact State.nextOrphan_lists hp _
  · exact h

theorem State.loadingReturned_lists {s : State} (h : s.ListsBounded) (f : Bool) (w : Word) :
    (s.loadingReturned f w).ListsBounded := by
  unfold State.loadingReturned
  repeat' split
  · exact h
  · exact h.of_lanes rfl
  · exact h.of_lanes rfl
  · exact State.loadingData_lists h _ _

theorem State.configAckReturned_lists {s : State} (h : s.ListsBounded) (f : Bool) (b : Option OnBus) :
    (s.configAckReturned f b).ListsBounded := by
  unfold State.configAckReturned
  split
  · exact h
  · split
    · exact State.stall_lists _ _ _
    · dsimp only
      split
      · exact h.of_lanes rfl
      · unfold State.enterRunning
        refine State.sweepRequest_lists ?_
        exact h.of_lanes rfl

theorem State.engcCounted_lists {s : State} (h : s.ListsBounded) (x : Loading) :
    (s.engcCounted x).ListsBounded := by
  unfold State.engcCounted
  split
  · refine State.count_lists ?_ _ _
    exact h.of_lanes rfl
  · exact State.nextOrphan_lists h _
  · exact h

theorem State.report_lists {s : State} (h : s.ListsBounded) (q : CountReq) : (s.report q).ListsBounded := by
  unfold State.report
  split
  · exact State.smonCounted_lists h
  · exact State.laneCounted_lists h _ _
  · split
    · exact h
    · exact State.engcCounted_lists h _

theorem State.countEffect_lists {s : State} (h : s.ListsBounded) (k : CountKind) :
    (s.countEffect k).ListsBounded := by
  unfold State.countEffect
  split <;> exact h.of_lanes rfl

theorem State.nextCount_lists {s : State} (h : s.ListsBounded) : s.nextCount.ListsBounded := by
  unfold State.nextCount
  refine State.ListsBounded.of_work ?_ (.of_serve _)
  exact h.of_lanes rfl

theorem State.counterReturned_lists {s : State} (h : s.ListsBounded) (f : Bool) (b : Option OnBus) :
    (s.counterReturned f b).ListsBounded := by
  unfold State.counterReturned
  split
  · exact State.stall_lists _ _ _
  · split
    · exact h
    · extract_lets second s1
      have h1 : s1.ListsBounded := State.countEffect_lists h _
      clear_value s1 second
      split
      · exact h.of_lanes rfl
      · split
        · exact h1.of_lanes rfl
        · exact State.report_lists (State.nextCount_lists (State.countEffect_lists h _)) _

/-! ### SMON's returns -/

theorem State.smonReturns_lists {s : State} (h : s.ListsBounded) (f b : Bool) (w : Word)
    (d : Option OnBus) :
    (s.configReturned f w).ListsBounded ∧ (s.reloadReturned f w).ListsBounded ∧
      (s.visitReturned f w).ListsBounded ∧ (s.recordReturned f w).ListsBounded ∧
      (s.takeReturned f b).ListsBounded ∧ (s.smonSettleReturned f d).ListsBounded ∧
      (s.orphanSettleReturned f d).ListsBounded := by
  refine ⟨?_, ?_, ?_, ?_, ?_, ?_, ?_⟩
  · unfold State.configReturned State.smonFault
    repeat' split
    · exact State.smonCount_lists h _ _
    · exact State.endPiece_lists h
    · exact State.setWork_lists h _
  · unfold State.reloadReturned State.smonFault
    dsimp only
    repeat' split
    · exact State.smonCount_lists h _ _
    · exact State.setWork_lists h _
    · refine State.smonCount_lists ?_ _ _
      exact h.of_lanes rfl
    · exact State.smonCount_lists h _ _
    · exact h
  · unfold State.visitReturned State.smonFault
    repeat' split
    · exact State.smonCount_lists h _ _
    · exact State.visitDecision_lists (State.noteVisit_lists h _ _ _) _ _ _
    · exact h
  · unfold State.recordReturned State.smonFault
    dsimp only
    repeat' split
    · exact State.smonCount_lists h _ _
    · exact State.setWork_lists h _
    · exact State.setWork_lists h _
    · exact h
  · unfold State.takeReturned State.smonFault
    repeat' split
    · exact State.smonCount_lists h _ _
    · exact State.setWork_lists h _
    · exact State.smonCount_lists h _ _
    · exact State.taken_lists h _ _
    · exact h
  · unfold State.smonSettleReturned
    repeat' split
    · exact State.stall_lists _ _ _
    · exact State.smonSettleWrite_lists h _ _
    · exact State.smonCount_lists h _ _
    · exact h
  · unfold State.orphanSettleReturned
    repeat' split
    · exact h
    · exact State.stall_lists _ _ _
    · exact h.of_lanes rfl
    · unfold State.orphanWritten
      repeat' split
      · exact h
      · exact h.of_lanes rfl
      · refine State.count_lists ?_ _ _
        exact h.of_lanes rfl
    · exact h

/-! ### Lanes' returns -/

theorem State.discarded_lists {s : State} (h : s.ListsBounded) (q : Request) : (s.discarded q).ListsBounded := by
  unfold State.discarded
  split
  · exact State.tearFinish_lists h _
  · exact h

theorem State.laneSettleReturned_lists {s : State} (h : s.ListsBounded) (l : LaneId) (f : Bool)
    (b : Option OnBus) : (s.laneSettleReturned l f b).ListsBounded := by
  have same : ∀ a, (s.setLane l { s.lane l with access := a }).ListsBounded := by
    intro a
    refine h.setLane l _ ?_
    exact (h l).of_same rfl rfl rfl
  unfold State.laneSettleReturned
  dsimp only
  split
  · split
    · exact State.stall_lists _ _ _
    · split
      · exact State.tearFinish_lists (same _) l
      · split
        · exact (same (.settleCheck _)).of_lanes rfl
        · exact State.count_lists (same _) _ _
  · exact h

theorem State.loadFault_lists {s : State} (h : s.ListsBounded) (l : LaneId) : (s.loadFault l).ListsBounded :=
  State.laneFault_lists h l _ _ _ _

theorem State.loadHostReturned_lists {s : State} (h : s.ListsBounded) (l : LaneId) (f : Bool) (w : Word) :
    (s.loadHostReturned l f w).ListsBounded := by
  unfold State.loadHostReturned
  dsimp only
  split
  · exact State.loadFault_lists h l
  · split
    · exact State.learnTear_lists h l
    · refine State.ListsBounded.of_lanes (s := s.setLane l _) ?_ rfl
      refine h.setLane l _ ?_
      split
      · exact (h l).of_same rfl rfl rfl
      · exact h l

theorem State.loadStepReturned_lists {s : State} (h : s.ListsBounded) (l : LaneId) (f : Bool) (w : Word) :
    (s.loadStepReturned l f w).ListsBounded := by
  have same : ∀ y : Lane, y.list = (s.lane l).list → y.activity = (s.lane l).activity →
      y.state = (s.lane l).state → (s.setLane l y).ListsBounded :=
    fun y h1 h2 h3 => h.setLane l y ((h l).of_same h1 h2 h3)
  unfold State.loadStepReturned
  extract_lets x words s1 steps
  have h1 : s1.ListsBounded := same _ rfl rfl rfl
  clear_value s1 steps words
  split
  · exact State.loadFault_lists h l
  · split
    · exact h1.of_lanes rfl
    · split
      · refine State.conclude_lists l (fun k hk => ?_) ?_ _ _
        · rw [State.setLane_other _ _ _ _ (Ne.symm hk)]; exact h k
        · rw [State.setLane_lane]; exact (h l).two
      · refine same _ ?_ ?_ ?_ <;> rfl

theorem State.listCheckReturned_lists {s : State} (h : s.ListsBounded) (l : LaneId) (f : Bool) (w : Word) :
    (s.listCheckReturned l f w).ListsBounded := by
  have same : ∀ y : Lane, y.list.length ≤ (s.lane l).list.length →
      y.activity = (s.lane l).activity → y.state = (s.lane l).state → (s.setLane l y).ListsBounded :=
    fun y h1 h2 h3 => h.setLane l y ((h l).of_shorter h1 h2 h3)
  unfold State.listCheckReturned
  dsimp only
  split
  · split
    · split
      · refine State.ListsBounded.of_lanes (s := s.setLane l _) (same _ ?_ ?_ ?_) rfl <;>
          first | exact Nat.le_refl _ | rfl
      · refine State.tearFinish_lists (same _ ?_ ?_ ?_) l <;> first | exact Nat.zero_le _ | rfl
    · split
      · exact State.laneFault_lists h l _ _ _ _
      · split
        · refine State.ListsBounded.of_lanes (s := s.setLane l _) (same _ ?_ ?_ ?_) rfl <;>
            first | exact Nat.le_refl _ | rfl
        · refine State.learnTear_lists (same _ ?_ ?_ ?_) l <;> first | exact Nat.le_refl _ | rfl
  · exact h

theorem State.settleCheckReturned_lists {s : State} (h : s.ListsBounded) (l : LaneId) (f : Bool) (w : Word)
    (b : Option OnBus) : (s.settleCheckReturned l f w b).ListsBounded := by
  have same : ∀ a, (s.setLane l { s.lane l with access := a }).ListsBounded := by
    intro a
    refine h.setLane l _ ?_
    exact (h l).of_same rfl rfl rfl
  unfold State.settleCheckReturned
  dsimp only
  split
  · split
    · exact State.stall_lists _ _ _
    · split
      · exact (same (.settleWrite _)).of_lanes rfl
      · exact State.learnTear_lists (same _) l
  · exact h

theorem State.resultReturned_lists {s : State} (h : s.ListsBounded) (l : LaneId) (f : Bool) :
    (s.resultReturned l f).ListsBounded := by
  have same : ∀ y : Lane, y.list.length ≤ (s.lane l).list.length →
      y.activity = (s.lane l).activity → y.state = (s.lane l).state → (s.setLane l y).ListsBounded :=
    fun y h1 h2 h3 => h.setLane l y ((h l).of_shorter h1 h2 h3)
  unfold State.resultReturned
  dsimp only
  split
  · rename_i i e rest _ hl
    have hr : rest.length ≤ (s.lane l).list.length := by rw [hl]; simp
    split
    · split
      · exact State.tornWriteFault_lists h l
      · refine State.tearFinish_lists (same _ ?_ ?_ ?_) l
        · dsimp only
          split
          · exact hr
          · exact Nat.le_refl _
        · rfl
        · rfl
    · split
      · exact State.laneFault_lists h l _ _ _ _
      · split
        · refine State.ListsBounded.of_lanes (s := s.setLane l _) (same _ ?_ ?_ ?_) rfl <;>
            first | exact Nat.le_refl _ | rfl
        · refine State.pump_lists (same _ ?_ ?_ ?_) l <;> first | exact hr | rfl
  · exact h

theorem State.qualifierReturned_lists {s : State} (h : s.ListsBounded) (l : LaneId) (f : Bool) (w : Word) :
    (s.qualifierReturned l f w).ListsBounded := by
  unfold State.qualifierReturned
  extract_lets x
  split
  · rename_i got hx
    have hr : (s.lane l).activity.isRunning = true := by
      rw [show (s.lane l).activity = .check got from hx]; rfl
    split
    · exact State.laneFault_lists h l _ _ _ _
    · dsimp only
      split
      · have h1 : (s.setLane l { x with activity := .check (got ++ [w]) }).ListsBounded :=
          h.setLane l _ (.of_one ((h l).running hr).1 ((h l).running hr).2)
        split
        · exact h1
        · exact h1.of_lanes rfl
      · exact State.evaluateCheck_lists h l hr _
  · exact h

/-! ### Events due, instants and returns -/

theorem Due.act_lists {s : State} (h : s.ListsBounded) (e : Due) (hd : e.holds s = true) :
    (e.act s).ListsBounded := by
  cases e
  case acceptedEdge i => exact State.acceptEdge_lists h i
  case overrange l => exact State.overrangeStep_lists h l
  case windowExpiry l => exact State.timeoutStep_lists h l
  case hold l => exact State.holdStep_lists h l hd
  case untilReached l => exact State.untilStep_lists h l hd
  case pulse l => exact State.pulseStep_lists h l
  case tallyGateEnd l => exact State.tallyStep_lists h l
  case loadCompletion l =>
    refine State.completeLoad_lists h l ?_
    have : (s.lane l).loadCompletionDue = true := hd
    unfold Lane.loadCompletionDue at this
    simp at this
    exact this.1.1.1
  case stepBegin l =>
    have := Lane.beginDue_room (x := s.lane l) hd
    exact State.beginWaiting_lists h l this.1 this.2
  case sweepTimerExpiry => exact State.timerExpires_lists h
  case eligible => exact State.admissionTick_lists h
  case latenessLimit => exact State.admissionTick_lists h
  case removalSettle =>
    unfold Due.act State.beginDueSettle
    dsimp only
    repeat' split
    · exact State.smonSettleWrite_lists h _ _
    · refine State.smonSettleWrite_lists ?_ _ _
      exact h.of_lanes rfl
    · exact h
  case completionReport =>
    unfold Due.act State.handleCompletion
    dsimp only
    split
    · refine State.endPiece_lists ?_
      split
      · refine State.sweepRequest_lists ?_
        exact h.of_lanes rfl
      · exact h.of_lanes rfl
    · exact h
  case tearRelease =>
    unfold Due.act State.handleTearRelease
    dsimp only
    split
    · refine State.count_lists ?_ _ _
      exact h.of_lanes rfl
    · exact h
  case drainEnd => exact h.of_lanes rfl

theorem State.runDue_lists {s : State} (h : s.ListsBounded) (e : Due) : (s.runDue e).ListsBounded := by
  unfold State.runDue
  split
  · rename_i hd; exact Due.act_lists h e hd
  · exact h

theorem finishLoop_lists (n : Nat) {s : State} (h : s.ListsBounded) : (finishLoop n s).ListsBounded := by
  induction n generalizing s with
  | zero => exact h
  | succ n ih =>
    unfold finishLoop
    split
    · exact h
    · rename_i e he
      refine ih (Due.act_lists h e ?_)
      have := List.find?_some (p := fun e : Due => e.holds s) he
      exact this

theorem State.finishInstant_lists {s : State} (h : s.ListsBounded) : s.finishInstant.ListsBounded := by
  have h1 := finishLoop_lists instantBound h
  intro l
  have e : s.finishInstant.lane l = ((finishLoop instantBound s).lane l).closeBoundary := by
    show (tabulate4 (fun l => ((finishLoop instantBound s).lanes[l]).closeBoundary))[l] = _
    rw [tabulate4_get]
    rfl
  rw [e]
  exact Lane.closeBoundary_bounded (h1 l)

theorem State.settled_lists {s : State} (h : s.ListsBounded) : s.settled.ListsBounded :=
  (State.finishInstant_lists h).of_lanes rfl

theorem State.busEvent_lists {s : State} (h : s.ListsBounded) (accepts : Access → Bool) (r : BusReturn)
    (handle : State → Request → Bool → Word → State)
    (hh : ∀ s q f w, s.ListsBounded → (handle s q f w).ListsBounded) :
    (s.busEvent accepts r handle).ListsBounded := by
  unfold State.busEvent
  dsimp only
  split
  · exact h
  · split
    · exact hh _ _ _ _ ((State.settled_lists h).of_lanes rfl)
    · exact h

/-! ### CONTROL -/

theorem State.writeEnable_lists {s : State} (h : s.ListsBounded) (w : Word) :
    (s.writeEnable w).ListsBounded := by
  unfold State.writeEnable State.enableRequest
  repeat' split
  all_goals first
    | exact h
    | exact h.of_lanes rfl
    | exact State.enterDraining_lists h

theorem State.controlWrite_lists {s : State} (h : s.ListsBounded) (w : Word) (b : OnBus) :
    (s.controlWrite w b).ListsBounded := by
  unfold State.controlWrite
  split
  · exact h.of_lanes rfl
  · split
    · exact State.resetUnits_lists _ _ _
    · refine State.writeEnable_lists ?_ w
      exact h.of_lanes (State.writeFields_facts s w).2.2.2.2.1

end Sys2Proof.Machine
end

