-- ==== Sys2Proof/Laws/Claims.lean ====
section
/-! SUPPORT. Every operation of the part keeps ADMU's owners and OUTD's claimers in agreement, owners out of
the pool, lines unowned outside RUNNING and DRAINING, and one entry per slot in the queue (05, R64, R67, R68; 08,
R118). -/

namespace Sys2Proof.Machine

/-- Nothing that the agreement of claims looks at has changed. -/
structure SameClaims (s t : State) : Prop where
  owner : ∀ o : OutLine, (t.admu.claims[o]).owner = (s.admu.claims[o]).owner
  pool : t.admu.pool = s.admu.pool
  claimer : ∀ o : OutLine, (t.outd[o]).claimer = (s.outd[o]).claimer
  stopped : ∀ l : LaneId, (t.lane l).stopped = (s.lane l).stopped
  engine : t.engc.engine = s.engc.engine
  loading : t.engc.loading ≠ none → s.engc.loading ≠ none
  single : s.OneEntryPerSlot → t.OneEntryPerSlot

theorem SameClaims.refl (s : State) : SameClaims s s :=
  ⟨fun _ => rfl, rfl, fun _ => rfl, fun _ => rfl, rfl, id, id⟩

theorem SameClaims.trans {s t u : State} (h : SameClaims s t) (g : SameClaims t u) : SameClaims s u :=
  ⟨fun o => (g.owner o).trans (h.owner o), g.pool.trans h.pool,
    fun o => (g.claimer o).trans (h.claimer o), fun l => (g.stopped l).trans (h.stopped l),
    g.engine.trans h.engine, fun x => h.loading (g.loading x), fun x => g.single (h.single x)⟩

theorem State.ClaimsAgree.of_same {s t : State} (h : s.ClaimsAgree) (e : SameClaims s t) :
    t.ClaimsAgree where
  driver := fun o => by rw [e.claimer, e.owner]; exact h.driver o
  busy := fun o l ho => by rw [e.owner] at ho; rw [e.pool]; exact h.busy o l ho
  stopped := fun o l ho => by rw [e.owner] at ho; rw [e.stopped]; exact h.stopped o l ho
  idle := fun h1 h2 o => by rw [e.engine] at h1 h2; rw [e.owner]; exact h.idle h1 h2 o
  loading := fun hl => by rw [e.engine]; exact h.loading (e.loading hl)
  single := e.single h.single

/-- The units that the agreement looks at are the same. -/
theorem SameClaims.of_units {s t : State} (h1 : t.admu = s.admu) (h2 : t.outd = s.outd)
    (h3 : t.lanes = s.lanes) (h4 : t.engc = s.engc) : SameClaims s t :=
  ⟨fun _ => by rw [h1], by rw [h1], fun _ => by rw [h2], fun l => by rw [State.lane_of_lanes h3],
    by rw [h4], by rw [h4]; exact id, fun x => by unfold State.OneEntryPerSlot; rw [h1]; exact x⟩

theorem SameClaims.of_monitor {s t : State} (h : OnlyMonitor s t) : SameClaims s t :=
  .of_units h.admu h.outd h.lanes h.engc

theorem SameClaims.of_work {s t : State} (h : OnlyWork s t) : SameClaims s t := .of_monitor h.1

/-- One lane rewritten that has not stopped or started to be stopped. -/
theorem SameClaims.of_lane {s t : State} (l : LaneId) (h : OnlyLane s t l)
    (ho : ∀ o : OutLine, (t.outd[o]).claimer = (s.outd[o]).claimer)
    (hs : (t.lane l).stopped = (s.lane l).stopped) : SameClaims s t where
  owner := fun o => by rw [h.admu]
  pool := by rw [h.admu]
  claimer := ho
  stopped := fun k => by
    by_cases e : k = l
    · subst e; exact hs
    · rw [h.others k e]
  engine := by rw [h.engc]
  loading := by rw [h.engc]; exact id
  single := fun x => by unfold State.OneEntryPerSlot; rw [h.admu]; exact x

theorem SameClaims.of_setLane (s : State) (l : LaneId) (y : Lane) (hs : y.stopped = (s.lane l).stopped) :
    SameClaims s (s.setLane l y) :=
  .of_lane l (.of_setLane s l y) (fun _ => rfl) (by rw [State.setLane_lane]; exact hs)

theorem SameClaims.of_raise (s : State) (a : Access) (w : Word) (d : Option Word) :
    SameClaims s (s.raise a w d) := .of_units rfl rfl rfl rfl

theorem SameClaims.of_abandon (s : State) (p : Access → Bool) : SameClaims s (s.abandon p) :=
  .of_units rfl rfl rfl rfl

theorem SameClaims.of_drive (s : State) (l : LaneId) (o : OutLine) (b : Bool) :
    SameClaims s (s.drive l o b) := by
  refine .of_lane l (.of_drive s l o b) (fun p => ?_) (by rw [State.drive_lane])
  rw [State.drive_line]
  split <;> rfl

theorem SameClaims.of_setQueue (s : State) (q : List Entry)
    (hq : s.OneEntryPerSlot → (q.map Entry.slot).Nodup) : SameClaims s (s.setQueue q) :=
  ⟨fun _ => rfl, rfl, fun _ => rfl, fun _ => rfl, rfl, id, hq⟩

theorem SameClaims.of_pump (s : State) (l : LaneId) : SameClaims s (s.pump l) := by
  obtain ⟨a, e, q, h⟩ := State.pump_eq s l
  rw [h]
  refine .of_lane l (.of_write s l _ q) (fun _ => rfl) ?_
  rw [State.mport_lane, State.setLane_lane]

theorem SameClaims.of_conclude (s : State) (l : LaneId) (o : PlanOutcome) (b : Byte) :
    SameClaims s (s.conclude l o b) := by
  obtain ⟨a, e, q, h⟩ := State.conclude_eq s l o b
  rw [h]
  refine .of_lane l (.of_write s l _ q) (fun _ => rfl) ?_
  rw [State.mport_lane, State.setLane_lane]

theorem SameClaims.of_finishStep (s : State) (l : LaneId) (c : ResultCode) (v w : Word) (a : Byte)
    (ve : Option PlanOutcome) (sk sa : Bool) : SameClaims s (s.finishStep l c v w a ve sk sa) := by
  obtain ⟨y, q, h, -, -, -, -, -, -, -, -, hs, -⟩ := State.finishStep_eq s l c v w a ve sk sa
  rw [h]
  refine .of_lane l (.of_write s l _ q) (fun _ => rfl) ?_
  rw [State.mport_lane, State.setLane_lane]
  exact hs

theorem SameClaims.of_beginStep (s : State) (l : LaneId) (k : Nat) : SameClaims s (s.beginStep l k) := by
  have set : ∀ a : Activity, SameClaims s (s.setLane l (((s.lane l).begun k s.epoch).doing a)) :=
    fun a => .of_setLane s l _ rfl
  unfold State.beginStep
  extract_lets now x t
  generalize BitVec.toNat t.kind = n
  split
  · split
    · exact (set .none).trans (.of_finishStep ..)
    · exact set _
  · split
    · exact (set .none).trans (.of_finishStep ..)
    · exact set _
  · exact set _
  · exact set _
  · exact set _
  · exact set _
  · exact ((set .none).trans (.of_drive ..)).trans (.of_finishStep ..)
  · exact (set (.pulse 0 true)).trans (.of_drive ..)
  · exact (set (.check [])).trans (.of_raise ..)
  · exact .refl s

theorem SameClaims.of_beginWaiting (s : State) (l : LaneId) : SameClaims s (s.beginWaiting l) := by
  unfold State.beginWaiting
  split
  · refine SameClaims.trans ?_ (.of_finishStep ..)
    refine .of_setLane s l _ ?_
    rfl
  · exact .of_beginStep ..
  · exact .refl s

theorem SameClaims.of_completeLoad (s : State) (l : LaneId) : SameClaims s (s.completeLoad l) := by
  unfold State.completeLoad
  refine SameClaims.trans ?_ (.of_beginStep ..)
  refine .of_setLane s l _ ?_
  rfl

theorem SameClaims.of_deliverEdge (s : State) (l : LaneId) (i : InLine) (b : Bool) (w : Word) :
    SameClaims s (s.deliverEdge l i b w) := by
  have set : ∀ y : Lane, y.stopped = (s.lane l).stopped → SameClaims s (s.setLane l y) :=
    fun y h => .of_setLane s l y h
  unfold State.deliverEdge
  extract_lets x t d
  have hx : x.stopped = (s.lane l).stopped := rfl
  clear_value x d
  split
  · exact .refl s
  · cases hc : x.activity <;> dsimp only <;> (try split) <;> (try split) <;>
      first
        | exact .refl s
        | exact .of_finishStep ..
        | exact set _ hx

theorem foldl_claims {α : Type} (f : State → α → State) (hf : ∀ s x, SameClaims s (f s x)) (l : List α)
    (s : State) : SameClaims s (l.foldl f s) := by
  induction l generalizing s with
  | nil => exact .refl s
  | cons x l ih => exact (hf s x).trans (ih _)

theorem SameClaims.of_acceptEdge (s : State) (i : InLine) : SameClaims s (s.acceptEdge i) := by
  unfold State.acceptEdge
  refine SameClaims.trans (t := { s with inc := s.inc.accept i }) (.of_units rfl rfl rfl rfl) ?_
  exact foldl_claims _ (fun s l => .of_deliverEdge s l _ _ _) _ _

theorem SameClaims.of_acceptEdges (s : State) : SameClaims s s.acceptEdges := by
  unfold State.acceptEdges
  refine foldl_claims _ (fun s i => ?_) _ _
  split
  · exact .of_acceptEdge s i
  · exact .refl s

theorem SameClaims.of_overrangeStep (s : State) (l : LaneId) : SameClaims s (s.overrangeStep l) := by
  unfold State.overrangeStep
  split
  · exact .of_finishStep ..
  · exact .of_finishStep ..
  · exact .refl s

theorem SameClaims.of_timeoutStep (s : State) (l : LaneId) : SameClaims s (s.timeoutStep l) := by
  unfold State.timeoutStep
  extract_lets x t v ends
  have he : ∀ a b c, SameClaims s (ends a b c) := fun a b c => .of_finishStep ..
  clear_value ends x
  cases hc : x.activity <;> first | exact .refl s | exact he _ _ _

theorem SameClaims.of_pulseStep (s : State) (l : LaneId) : SameClaims s (s.pulseStep l) := by
  have set : ∀ y : Lane, y.stopped = (s.lane l).stopped → SameClaims s (s.setLane l y) :=
    fun y h => .of_setLane s l y h
  unfold State.pulseStep
  extract_lets x t
  split
  · refine SameClaims.trans ?_ (.of_drive ..)
    refine set _ ?_
    rfl
  · split
    · exact .of_finishStep ..
    · refine SameClaims.trans ?_ (.of_drive ..)
      refine set _ ?_
      rfl
  · exact .refl s

theorem SameClaims.of_tallyStep (s : State) (l : LaneId) : SameClaims s (s.tallyStep l) := by
  unfold State.tallyStep
  split
  · exact .of_finishStep ..
  · exact .refl s

theorem SameClaims.of_completeRunning (s : State) (l : LaneId) : SameClaims s (s.completeRunning l) := by
  unfold State.completeRunning
  extract_lets i s1 x
  have h1 : SameClaims s s1 := by
    show SameClaims s (if _ then _ else _)
    split
    · exact .of_deliverEdge ..
    · exact .refl s
  clear_value s1 x
  refine h1.trans ?_
  split
  · exact .of_overrangeStep ..
  · split
    · exact .of_timeoutStep ..
    · split
      · exact .of_finishStep ..
      · split
        · exact .of_finishStep ..
        · split
          · exact .of_pulseStep ..
          · split
            · exact .of_tallyStep ..
            · exact .refl s1

theorem SameClaims.of_chainInstant (s : State) (l : LaneId) : SameClaims s (s.chainInstant l) := by
  unfold State.chainInstant
  dsimp only
  split
  · split
    · exact .of_beginStep ..
    · exact .refl s
  · exact .refl s

theorem SameClaims.of_cutRunning (s : State) (l : LaneId) (c : ResultCode) :
    SameClaims s (s.cutRunning l c) := by
  have set : SameClaims s (s.setLane l ((s.lane l).record c (s.lane l).pulsesNow s.epoch 0)) :=
    .of_setLane s l _ rfl
  unfold State.cutRunning
  dsimp only
  split
  · exact set.trans (.of_drive ..)
  · exact set.trans (.of_abandon ..)
  · exact set

theorem SameClaims.of_flagEffect (s : State) (l : LaneId) : SameClaims s (s.flagEffect l) := by
  unfold State.flagEffect
  extract_lets x o code
  clear_value x o code
  split
  · exact (SameClaims.of_abandon s _).trans (.of_conclude ..)
  · cases hc : x.activity <;> dsimp only
    case none => exact .refl s
    case wait => exact .of_conclude ..
    all_goals exact (SameClaims.of_cutRunning s l code).trans (.of_conclude ..)
  · exact .refl s

theorem SameClaims.of_flaggedBoundary (s : State) (l : LaneId) : SameClaims s (s.flaggedBoundary l) := by
  unfold State.flaggedBoundary
  split
  · exact (((SameClaims.of_completeRunning s l).trans (.of_chainInstant ..)).trans
      (.of_chainInstant ..)).trans (.of_flagEffect ..)
  · exact .of_flagEffect ..

theorem SameClaims.of_learnTear (s : State) (l : LaneId) : SameClaims s (s.learnTear l) := by
  unfold State.learnTear
  dsimp only
  split
  · exact .refl s
  · refine SameClaims.trans ?_ (.of_abandon ..)
    refine .of_setLane s l _ ?_
    rfl

/-! ### Starts, releases and walks -/

/-- A start in RUNNING, on a lane of the pool. -/
theorem State.startPlan_claims {s : State} (h : s.ClaimsAgree) (hr : s.engc.engine = .running) (e : Entry)
    (l : LaneId) (_hl : s.admu.pool[l] = true) : (s.startPlan e l).ClaimsAgree := by
  have hc : ∀ o : OutLine, (s.startPlan e l).admu.claims[o] =
      if e.posting.lines.getLsbD o.val then { owner := some l, reservation := none }
      else if (s.admu.claims[o]).reservation = some e.slot then
        { s.admu.claims[o] with reservation := none }
      else s.admu.claims[o] := by
    intro o
    show (claimFor e l s.admu.claims)[o] = _
    unfold claimFor
    rw [tabulate4_get]
  have ho : ∀ o : OutLine, (s.startPlan e l).outd[o] =
      if e.posting.lines.getLsbD o.val then { s.outd[o] with claimer := some l, keep := false }
      else s.outd[o] := by
    intro o
    show (outdClaim l e.posting.lines s.outd)[o] = _
    unfold outdClaim
    rw [tabulate4_get]
  have own : ∀ o : OutLine, ((s.startPlan e l).admu.claims[o]).owner =
      if e.posting.lines.getLsbD o.val then some l else (s.admu.claims[o]).owner := by
    intro o
    rw [hc]
    repeat' split
    all_goals rfl
  refine ⟨?_, ?_, ?_, ?_, ?_, h.single⟩
  · intro o
    rw [own, ho]
    split
    · rfl
    · exact h.driver o
  · intro o k hk
    rw [own] at hk
    rw [State.startPlan_pool]
    split
    · rfl
    · rename_i hne
      split at hk
      · cases hk; exact absurd rfl hne
      · exact h.busy o k hk
  · intro o k hk
    rw [own] at hk
    rw [State.startPlan_lane]
    split
    · rfl
    · rename_i hne
      split at hk
      · cases hk; exact absurd rfl hne
      · exact h.stopped o k hk
  · intro h1
    exact absurd hr h1
  · intro hx
    exact h.loading hx

theorem SameClaims.of_reserve (s : State) (e : Entry) (later : List Entry) :
    SameClaims s { s with admu := { s.admu with claims := reserveFor e later s.admu.claims } } := by
  refine ⟨fun o => ?_, rfl, fun _ => rfl, fun _ => rfl, rfl, id, id⟩
  show ((reserveFor e later s.admu.claims)[o]).owner = _
  unfold reserveFor
  rw [tabulate4_get]
  dsimp only
  split <;> split <;> rfl

theorem walkFrom_claims (rest kept : List Entry) {s : State} (h : s.ClaimsAgree)
    (hr : s.engc.engine = .running) (hq : ((kept ++ rest).map Entry.slot).Nodup) :
    (walkFrom kept rest s).ClaimsAgree := by
  induction rest generalizing kept s with
  | nil => exact h.of_same (.of_setQueue s kept (fun _ => by rw [List.append_nil] at hq; exact hq))
  | cons e rest ih =>
    have app : kept ++ [e] ++ rest = kept ++ e :: rest := by simp
    have less : ((kept ++ rest).map Entry.slot).Nodup :=
      ((((List.sublist_cons_self e rest).append_left kept)).map Entry.slot).nodup hq
    unfold walkFrom
    split
    · exact h.of_same (.of_setQueue s _ (fun _ => hq))
    · rename_i l hl
      split
      · exact ih _ h hr (app.symm ▸ hq)
      · split
        · exact ih _ (State.startPlan_claims h hr e l (State.freeLane_pool hl)) hr less
        · exact ih _ (h.of_same (.of_reserve s e rest)) hr (app.symm ▸ hq)

theorem State.walk_claims {s : State} (h : s.ClaimsAgree) : s.walk.ClaimsAgree := by
  unfold State.walk
  split
  · rename_i hr; exact walkFrom_claims s.admu.queue [] h hr h.single
  · exact h

theorem SameClaims.of_removeEntry (s : State) (k : SlotId) : SameClaims s (s.removeEntry k) := by
  refine ⟨fun o => ?_, rfl, fun _ => rfl, fun _ => rfl, rfl, id,
    fun x => (List.filter_sublist.map Entry.slot).nodup x⟩
  show ((clearReservations k s.admu.claims)[o]).owner = _
  unfold clearReservations
  rw [tabulate4_get]
  split <;> rfl

theorem SameClaims.of_removeAs (s : State) (k : SlotId) (w : Removal) : SameClaims s (s.removeAs k w) :=
  (SameClaims.of_removeEntry s k).trans (.of_units rfl rfl rfl rfl)

theorem State.lateEntry_claims {s : State} (h : s.ClaimsAgree) (k : SlotId) : (s.lateEntry k).ClaimsAgree := by
  unfold State.lateEntry
  dsimp only
  split
  · exact State.walk_claims ((State.walk_claims h).of_same (.of_removeAs ..))
  · exact State.walk_claims h

theorem State.makeEligible_claims {s : State} (h : s.ClaimsAgree) : s.makeEligible.ClaimsAgree :=
  State.walk_claims (h.of_same (.of_setQueue s _ (fun x => by
    rw [List.map_map]
    refine (congrArg List.Nodup (List.map_congr_left fun e _ => ?_)).mpr x
    show (if _ then _ else e : Entry).slot = e.slot
    split <;> rfl)))

theorem lateAll_claims (n : Nat) {s : State} (h : s.ClaimsAgree) : (lateAll n s).ClaimsAgree := by
  induction n generalizing s with
  | zero => exact h
  | succ n ih =>
    unfold lateAll
    split
    · exact h
    · exact ih (State.lateEntry_claims h _)

theorem State.admissionTick_claims {s : State} (h : s.ClaimsAgree) : s.admissionTick.ClaimsAgree := by
  unfold State.admissionTick
  refine lateAll_claims _ ?_
  split
  · exact State.makeEligible_claims h
  · exact h

theorem State.join_claims {s : State} (h : s.ClaimsAgree) (e : Entry) : (s.join e).ClaimsAgree := by
  unfold State.join
  extract_lets now s1
  have h1 : s1.ClaimsAgree :=
    h.of_same (.of_setQueue s _ (fun x => insertEntry_single _ e.slot s.admu.queue rfl x))
  clear_value s1
  split
  · exact h1.of_same (.of_removeAs ..)
  · split
    · exact State.lateEntry_claims h1 _
    · exact State.walk_claims h1

/-- A release of the lane's claims: the lane owns nothing afterwards. -/
theorem State.releaseClaims_lines (s : State) (l : LaneId) (b : Bool) (o : OutLine) :
    ((s.releaseClaims l b).admu.claims[o]).owner =
        (if (s.admu.claims[o]).owner = some l then none else (s.admu.claims[o]).owner) ∧
      ((s.releaseClaims l b).outd[o]).claimer =
        (if (s.outd[o]).claimer = some l then none else (s.outd[o]).claimer) := by
  constructor
  · show ((tabulate4 (fun o => if (s.admu.claims[o]).owner = some l then
      { s.admu.claims[o] with owner := none } else s.admu.claims[o]))[o]).owner = _
    rw [tabulate4_get]
    split <;> rfl
  · show ((outdRelease l (b && s.engc.engine = .running) s.outd)[o]).claimer = _
    unfold outdRelease
    rw [tabulate4_get]
    repeat' split
    all_goals rfl

/-- A lane made to stop, or simply released: its claims are gone and the rest agrees as before. -/
theorem State.releaseClaims_claims {s t : State} (h : s.ClaimsAgree) (l : LaneId) (b : Bool)
    (h1 : t.admu = s.admu) (h2 : t.outd = s.outd) (h3 : t.engc = s.engc)
    (h4 : ∀ k, k ≠ l → t.lane k = s.lane k) :
    (t.releaseClaims l b).ClaimsAgree ∧
      ∀ o : OutLine, ((t.releaseClaims l b).admu.claims[o]).owner ≠ some l := by
  have none : ∀ o : OutLine, ((t.releaseClaims l b).admu.claims[o]).owner ≠ some l := by
    intro o
    rw [(State.releaseClaims_lines t l b o).1]
    split
    · simp
    · assumption
  have back : ∀ (o : OutLine) (k : LaneId), ((t.releaseClaims l b).admu.claims[o]).owner = some k →
      (s.admu.claims[o]).owner = some k := by
    intro o k hk
    rw [(State.releaseClaims_lines t l b o).1, h1] at hk
    split at hk
    · cases hk
    · exact hk
  refine ⟨⟨?_, ?_, ?_, ?_, ?_, ?_⟩, none⟩
  · intro o
    rw [(State.releaseClaims_lines t l b o).1, (State.releaseClaims_lines t l b o).2, h1, h2, h.driver o]
  · intro o k hk
    show t.admu.pool[k] = false
    rw [h1]
    exact h.busy o k (back o k hk)
  · intro o k hk
    have hne : k ≠ l := fun e => none o (hk.trans (congrArg some e))
    show (t.lane k).stopped = false
    rw [h4 k hne]
    exact h.stopped o k (back o k hk)
  · intro e1 e2 o
    have e1' : s.engc.engine ≠ .running := by rw [← h3]; exact e1
    have e2' : s.engc.engine ≠ .draining := by rw [← h3]; exact e2
    rw [(State.releaseClaims_lines t l b o).1, h1, h.idle e1' e2' o]
    simp
  · intro hl
    have hl' : s.engc.loading ≠ Option.none := by rw [← h3]; exact hl
    show t.engc.engine = .loading
    rw [h3]
    exact h.loading hl'
  · show (t.admu.queue.map Entry.slot).Nodup
    rw [h1]
    exact h.single

/-- A lane that owns nothing goes FREE. -/
theorem State.freeTheLane_claims {s : State} (h : s.ClaimsAgree) (l : LaneId)
    (hn : ∀ o : OutLine, (s.admu.claims[o]).owner ≠ some l) : (s.freeTheLane l).ClaimsAgree := by
  have hl : ∀ k, k ≠ l → (s.freeTheLane l).lane k = s.lane k := fun k hk =>
    State.setLane_other s l k Lane.empty (Ne.symm hk)
  refine ⟨h.driver, ?_, ?_, h.idle, h.loading, h.single⟩
  · intro o k hk
    have hne : k ≠ l := fun e => hn o (hk.trans (congrArg some e))
    show (s.admu.pool.set l true)[k] = false
    rw [vectorSet_other _ _ _ _ (Ne.symm hne)]
    exact h.busy o k hk
  · intro o k hk
    have hne : k ≠ l := fun e => hn o (hk.trans (congrArg some e))
    rw [hl k hne]
    exact h.stopped o k hk

theorem State.tearFinish_claims {s : State} (h : s.ClaimsAgree) (l : LaneId) : (s.tearFinish l).ClaimsAgree := by
  unfold State.tearFinish
  dsimp only
  split
  · rename_i hc
    simp at hc
    refine State.walk_claims ?_
    refine State.freeTheLane_claims ?_ l ?_
    · exact h.of_same (.of_units rfl rfl rfl rfl)
    intro o ho
    have := h.stopped o l ho
    rw [hc.1.1] at this
    cases this
  · exact h

theorem State.tearStop_claims {s : State} (h : s.ClaimsAgree) (l : LaneId) : (s.tearStop l).ClaimsAgree := by
  unfold State.tearStop
  extract_lets x kept
  clear_value kept
  split
  · refine State.walk_claims ?_
    exact (State.releaseClaims_claims (t := (s.setLane l { x with
        state := .closing, activity := .none, loaded := false, loadDue := false, stopped := true,
        outcome := none, claimed := 0, list := kept }).giveUpCheck l) h l false rfl rfl rfl
      (fun k hk => State.setLane_other s l k _ (Ne.symm hk))).1
  · exact h

theorem State.laneSettled_claims {s : State} (h : s.ClaimsAgree) (l : LaneId) : (s.laneSettled l).ClaimsAgree := by
  unfold State.laneSettled State.notify
  refine State.walk_claims ?_
  split
  · obtain ⟨h1, h2⟩ := State.releaseClaims_claims (t := (s.setCause causeSettled).ready
      (.completion (s.lane l).slot)) h l (s.lane l).keepsLevels rfl rfl rfl (fun _ _ => rfl)
    exact State.freeTheLane_claims h1 l h2
  · obtain ⟨h1, h2⟩ := State.releaseClaims_claims (t := s.ready (.completion (s.lane l).slot)) h l
      (s.lane l).keepsLevels rfl rfl rfl (fun _ _ => rfl)
    exact State.freeTheLane_claims h1 l h2

theorem State.laneCounted_claims {s : State} (h : s.ClaimsAgree) (l : LaneId) (k : CountKind) :
    (s.laneCounted l k).ClaimsAgree := by
  unfold State.laneCounted
  split
  · exact State.laneSettled_claims h l
  · extract_lets x s1
    have h1 : s1.ClaimsAgree := h.of_same (.of_setLane s l _ rfl)
    clear_value s1
    split
    · exact State.tearFinish_claims h1 l
    · exact h1.of_same (.of_pump s1 l)

theorem SameClaims.of_count (s : State) (k : CountKind) (q : Requester) : SameClaims s (s.count k q) :=
  .of_work (.of_count s k q)

theorem SameClaims.of_laneFault (s : State) (l : LaneId) (o : PlanOutcome) (b : Byte) (c : FaultCode)
    (d : Bool) : SameClaims s (s.laneFault l o b c d) := by
  unfold State.laneFault
  dsimp only
  refine SameClaims.trans (SameClaims.trans ?_ (.of_abandon ..)) (.of_count ..)
  refine .of_setLane s l _ ?_
  rfl

theorem SameClaims.of_tornWriteFault (s : State) (l : LaneId) : SameClaims s (s.tornWriteFault l) := by
  unfold State.tornWriteFault
  dsimp only
  refine SameClaims.trans (SameClaims.trans ?_ (.of_abandon ..)) (.of_count ..)
  refine .of_setLane s l _ ?_
  rfl

/-! ### The tick boundary -/

theorem Lane.tick_stopped (x : Lane) : x.tick.stopped = x.stopped := by
  have hw : ∀ y : Lane, y.tickWindow.stopped = y.stopped := by
    intro y
    unfold Lane.tickWindow
    split <;> rfl
  unfold Lane.tick
  extract_lets y
  have hy : y.stopped = x.stopped := rfl
  clear_value y
  cases hx : x.activity <;> dsimp only <;> first | exact hy | (rw [hw]; exact hy)

theorem SameClaims.of_openBoundary (s : State) (p : Byte) : SameClaims s (s.openBoundary p) := by
  refine ⟨fun _ => rfl, rfl, fun _ => rfl, fun l => ?_, rfl, id, id⟩
  have e : (s.openBoundary p).lane l = (s.lane l).tick := by
    show (tabulate4 (fun l => (s.lanes[l]).tick))[l] = _
    rw [tabulate4_get]
    rfl
  rw [e]
  exact Lane.tick_stopped _

theorem State.boundaryLane_claims {s : State} (h : s.ClaimsAgree) (l : LaneId) :
    (s.boundaryLane l).ClaimsAgree := by
  unfold State.boundaryLane
  dsimp only
  repeat' split
  · exact State.tearStop_claims h l
  · exact h.of_same (.of_flaggedBoundary s l)
  · exact h

theorem SameClaims.of_timerExpires (s : State) : SameClaims s s.timerExpires :=
  SameClaims.trans (t := { s with tbu := { s.tbu with timer := 0 } }) (.of_units rfl rfl rfl rfl)
    (.of_work (.of_sweepRequest _))

theorem State.boundaryAct_claims {s : State} (h : s.ClaimsAgree) (a : Actor) :
    (s.boundaryAct a).ClaimsAgree := by
  cases a with
  | lane l => exact State.boundaryLane_claims h l
  | laneFree l =>
    unfold State.boundaryAct
    dsimp only
    split
    · exact State.tearFinish_claims h l
    · exact h
  | admission => exact State.admissionTick_claims h
  | timer =>
    unfold State.boundaryAct
    dsimp only
    split
    · exact h.of_same (.of_timerExpires s)
    · exact h

theorem State.boundary_claims {s : State} (h : s.ClaimsAgree) (t : TickInput) :
    (s.boundary t).ClaimsAgree := by
  have fold : ∀ (as : List Actor) (x : State), x.ClaimsAgree →
      (as.foldl State.boundaryAct x).ClaimsAgree := by
    intro as
    induction as with
    | nil => exact fun x hx => hx
    | cons a as ih => exact fun x hx => ih _ (State.boundaryAct_claims hx a)
  exact fold _ _ (h.of_same (.of_openBoundary s _))

/-! ### Slot Monitor -/

theorem SameClaims.of_endPiece (s : State) : SameClaims s s.endPiece := .of_work (.of_endPiece s)

theorem SameClaims.of_smonCount (s : State) (k : CountKind) (n : AfterCount) :
    SameClaims s (s.smonCount k n) := .of_work (.of_smonCount s k n)

theorem SameClaims.of_setWork (s : State) (w : Work) : SameClaims s (s.setWork w) :=
  .of_work (.of_setWork s w)

theorem SameClaims.of_startDiscovery (s : State) (k : SlotId) (p : Half) :
    SameClaims s (s.startDiscovery k p) := (SameClaims.of_setWork s _).trans (.of_raise ..)

theorem SameClaims.of_smonSettleWrite (s : State) (j : SettleJob) (i : Nat) :
    SameClaims s (s.smonSettleWrite j i) := (SameClaims.of_setWork s _).trans (.of_raise ..)

theorem SameClaims.of_sweepRequest (s : State) : SameClaims s s.sweepRequest :=
  .of_work (.of_sweepRequest s)

theorem SameClaims.of_setMirror (s : State) (k : SlotId) (m : Mirror) : SameClaims s (s.setMirror k m) :=
  .of_units rfl rfl rfl rfl

theorem SameClaims.of_visitRunning (s : State) (k : SlotId) (p : Half) (r : Option Half) :
    SameClaims s (s.visitRunning k p r) := by
  unfold State.visitRunning
  dsimp only
  split
  · exact .of_endPiece s
  · rename_i l _
    split
    · split
      · refine SameClaims.trans ?_ (.of_endPiece _)
        refine .of_setLane s l _ ?_
        rfl
      · exact .of_endPiece s
    · refine SameClaims.trans ?_ (.of_endPiece _)
      split
      · exact (SameClaims.of_setMirror s k _).trans (.of_learnTear ..)
      · exact .of_setMirror s k _

theorem SameClaims.of_setRecall (s : State) (k : SlotId) (x : Option SeenRecall) : SameClaims s (s.setRecall k x) :=
  .of_units rfl rfl rfl rfl

theorem SameClaims.of_noteVisit (s : State) (k : SlotId) (p r : Half) : SameClaims s (s.noteVisit k p r) := by
  unfold State.noteVisit
  split <;> exact .of_setRecall ..

theorem State.visitDecision_claims {s : State} (h : s.ClaimsAgree) (k : SlotId) (p r : Half) :
    (s.visitDecision k p r).ClaimsAgree := by
  have walked : (s.removeEntry k).walk.ClaimsAgree := State.walk_claims (h.of_same (.of_removeEntry s k))
  unfold State.visitDecision
  extract_lets m
  split
  · split
    · exact h.of_same (.of_endPiece s)
    · exact h.of_same (.of_startDiscovery ..)
  · split
    · unfold State.visitPending State.settleDue
      refine h.of_same (SameClaims.trans ?_ (.of_setWork ..))
      exact .of_units rfl rfl rfl rfl
    · split
      · split
        · exact walked.of_same (.of_setWork ..)
        · exact h.of_same (.of_endPiece s)
      · refine walked.of_same (SameClaims.trans ?_ (.of_smonCount ..))
        exact .of_setMirror ..
  · exact h.of_same (.of_visitRunning ..)
  · exact h.of_same (.of_endPiece s)

theorem State.taken_claims {s : State} (h : s.ClaimsAgree) (j : TakeJob) (f : Bool) :
    (s.taken j f).ClaimsAgree := by
  unfold State.taken
  dsimp only
  split
  · refine h.of_same (SameClaims.trans ?_ (.of_setWork ..))
    exact (SameClaims.of_setRecall ..).trans (.of_setMirror ..)
  · refine State.ClaimsAgree.of_same ?_ (.of_work (.of_takeNext _))
    split
    · refine State.join_claims ?_ _
      refine State.ClaimsAgree.of_same ?_ (.of_work (.of_readyAfter _ _))
      refine h.of_same ?_
      exact .of_units rfl rfl rfl rfl
    · refine State.ClaimsAgree.of_same ?_ (.of_work (.of_readyAfter _ _))
      refine State.join_claims ?_ _
      refine h.of_same ?_
      exact .of_units rfl rfl rfl rfl

theorem SameClaims.of_notify (s : State) (b : Bool) : SameClaims s (s.notify b) := by
  unfold State.notify
  split
  · exact .of_units rfl rfl rfl rfl
  · exact .refl s

theorem SameClaims.of_smonSettled (s : State) (j : SettleJob) : SameClaims s (s.smonSettled j) := by
  have h1 : ∀ m, SameClaims s ((s.notify j.notify).setMirror j.slot m) :=
    fun m => (SameClaims.of_notify s _).trans (.of_setMirror ..)
  unfold State.smonSettled
  dsimp only
  split
  · exact (h1 _).trans (.of_endPiece _)
  · exact (h1 _).trans (.of_startDiscovery ..)

theorem SameClaims.of_smonCounted (s : State) : SameClaims s s.smonCounted := by
  have hc : SameClaims s (s.setCause causeTorn) := .of_units rfl rfl rfl rfl
  unfold State.smonCounted
  split
  · split
    · exact .of_endPiece s
    · exact hc.trans (.of_startDiscovery ..)
    · exact (hc.trans (.of_sweepRequest _)).trans (.of_endPiece _)
    · exact .of_smonSettled ..
  · exact .refl s

/-! ### Engine Control -/

theorem State.stall_claims (s : State) (c : FaultCode) (b : Option OnBus) : (s.stall c b).ClaimsAgree := by
  have own : ∀ o : OutLine, ((s.stall c b).admu.claims[o]).owner = none := by
    intro o
    show ((Vector.replicate 4 Claim.reset)[o]).owner = none
    simp [Claim.reset]
  refine ⟨?_, ?_, ?_, fun _ _ o => own o, fun h => absurd rfl h, List.nodup_nil⟩
  · intro o
    rw [own]
    show ((outdStall s.outd)[o]).claimer = none
    unfold outdStall
    rw [tabulate4_get]
  · intro o l h
    rw [own] at h
    cases h
  · intro o l h
    rw [own] at h
    cases h

theorem State.resetUnits_claims (s : State) (b : OnBus) (r : RegPort) : (s.resetUnits b r).ClaimsAgree := by
  have own : ∀ o : OutLine, ((s.resetUnits b r).admu.claims[o]).owner = none := by
    intro o
    show ((Vector.replicate 4 Claim.reset)[o]).owner = none
    simp [Claim.reset]
  refine ⟨?_, ?_, ?_, fun _ _ o => own o, fun h => absurd rfl h, List.nodup_nil⟩
  · intro o
    rw [own]
    show ((Vector.replicate 4 OutputLine.reset)[o]).claimer = none
    simp [OutputLine.reset]
  · intro o l h
    rw [own] at h
    cases h
  · intro o l h
    rw [own] at h
    cases h

/-- A state whose lines nobody owns, brought to any engine state. -/
theorem State.ClaimsAgree.unowned {s t : State} (h : s.ClaimsAgree)
    (hn : ∀ o : OutLine, (s.admu.claims[o]).owner = none)
    (ho : ∀ o : OutLine, (t.admu.claims[o]).owner = none)
    (hc : ∀ o : OutLine, (t.outd[o]).claimer = (s.outd[o]).claimer)
    (hl : t.engc.loading ≠ none → t.engc.engine = .loading) (hq : t.OneEntryPerSlot) : t.ClaimsAgree := by
  refine ⟨?_, ?_, ?_, fun _ _ o => ho o, hl, hq⟩
  · intro o
    rw [hc, h.driver o, hn, ho]
  · intro o l hk
    rw [ho] at hk
    cases hk
  · intro o l hk
    rw [ho] at hk
    cases hk

/-- While LOADING stands anywhere no line is owned. -/
theorem State.ClaimsAgree.loadingUnowned {s : State} (h : s.ClaimsAgree) {x : Loading}
    (hx : s.engc.loading = some x) (o : OutLine) : (s.admu.claims[o]).owner = none := by
  have he : s.engc.engine = .loading := h.loading (by rw [hx]; simp)
  exact h.idle (by rw [he]; simp) (by rw [he]; simp) o

theorem State.enterOff_claims {s : State} (h : s.ClaimsAgree)
    (hn : ∀ o : OutLine, (s.admu.claims[o]).owner = none) : s.enterOff.ClaimsAgree :=
  h.unowned hn hn (fun _ => rfl) (fun hl => absurd rfl hl) h.single

/-- With every lane in the pool no line is owned (05, R68). -/
theorem State.ClaimsAgree.poolUnowned {s : State} (h : s.ClaimsAgree)
    (hp : ∀ l : LaneId, s.admu.pool[l] = true) (o : OutLine) : (s.admu.claims[o]).owner = none := by
  cases ho : (s.admu.claims[o]).owner with
  | none => rfl
  | some l =>
    have := h.busy o l ho
    rw [hp l] at this
    cases this

theorem State.drainDone_pool {s : State} (h : s.drainDone = true) (l : LaneId) : s.admu.pool[l] = true := by
  unfold State.drainDone at h
  simp only [Bool.and_eq_true] at h
  have := h.1.1.1.2
  rw [List.all_eq_true] at this
  exact this l (by match l with | 0 => decide | 1 => decide | 2 => decide | 3 => decide)

theorem haltEntries_claims (q : List Entry) (s : State) : SameClaims s (haltEntries q s) := by
  induction q generalizing s with
  | nil => exact .refl s
  | cons e q ih => exact (SameClaims.of_removeAs s e.slot .halted).trans (ih _)

theorem State.beginDrain_claims {s : State} (h : s.ClaimsAgree) (hr : s.engc.engine = .running) :
    s.beginDrain.ClaimsAgree := by
  have hl : ∀ l : LaneId, (s.beginDrain.lane l).stopped = (s.lane l).stopped := by
    intro l
    show ((tabulate4 (fun l => if (s.lanes[l]).state = .free then s.lanes[l]
      else { s.lanes[l] with halt := true }))[l]).stopped = _
    rw [tabulate4_get]
    split <;> rfl
  refine ⟨?_, h.busy, ?_, ?_, ?_, h.single⟩
  · intro o
    show ((outdDrain s.outd)[o]).claimer = (s.admu.claims[o]).owner
    rw [← h.driver o]
    unfold outdDrain
    rw [tabulate4_get]
    split <;> rfl
  · intro o l ho
    rw [hl]
    exact h.stopped o l ho
  · intro _ h2
    exact absurd rfl h2
  · intro hx
    have := h.loading hx
    rw [hr] at this
    cases this

theorem State.enterDraining_claims {s : State} (h : s.ClaimsAgree) (hr : s.engc.engine = .running) :
    s.enterDraining.ClaimsAgree := by
  have h1 := (State.beginDrain_claims h hr).of_same (haltEntries_claims s.admu.queue s.beginDrain)
  unfold State.enterDraining
  dsimp only
  split
  · rename_i hd
    exact State.enterOff_claims h1 (h1.poolUnowned (State.drainDone_pool hd))
  · exact h1

theorem State.enableRequest_claims {s : State} (h : s.ClaimsAgree) (he : s.engc.engine = .off) :
    s.enableRequest.ClaimsAgree := by
  have hn : ∀ o : OutLine, (s.admu.claims[o]).owner = none :=
    h.idle (by rw [he]; simp) (by rw [he]; simp)
  unfold State.enableRequest
  split
  · refine h.of_same ?_
    exact ⟨fun _ => rfl, rfl, fun _ => rfl, fun _ => rfl, rfl, id, id⟩
  · refine h.unowned hn ?_ (fun _ => rfl) (fun _ => rfl) List.nodup_nil
    intro o
    show (Admission.reset.claims[o]).owner = none
    simp [Admission.reset, Claim.reset]

theorem State.writeEnable_claims {s : State} (h : s.ClaimsAgree) (w : Word) : (s.writeEnable w).ClaimsAgree := by
  unfold State.writeEnable
  split
  · split
    · rename_i he; exact State.enableRequest_claims h he
    · exact h
  · split
    · exact h
    · split
      · exact h
      · rename_i x hx
        refine h.of_same ?_
        exact ⟨fun _ => rfl, rfl, fun _ => rfl, fun _ => rfl, rfl, fun _ => by rw [hx]; simp, id⟩
    · rename_i he; exact State.enterDraining_claims h he
    · exact h
    · rename_i he
      have hn : ∀ o : OutLine, (s.admu.claims[o]).owner = none :=
        h.idle (by rw [he]; simp) (by rw [he]; simp)
      refine h.unowned hn hn (fun _ => rfl) ?_ h.single
      intro hl
      have := h.loading hl
      rw [he] at this
      cases this

theorem State.controlWrite_claims {s : State} (h : s.ClaimsAgree) (w : Word) (b : OnBus) :
    (s.controlWrite w b).ClaimsAgree := by
  unfold State.controlWrite
  split
  · exact h.of_same (.of_units rfl rfl rfl rfl)
  · split
    · exact State.resetUnits_claims _ _ _
    · refine State.writeEnable_claims ?_ w
      obtain ⟨-, h1, -, h2, h3, -, h4, -⟩ := State.writeFields_facts s w
      exact h.of_same (.of_units h2 h4 h3 h1)

theorem SameClaims.of_nextOrphan (s : State) (x : Loading) (hx : s.engc.loading ≠ none) :
    SameClaims s (s.nextOrphan x) := by
  unfold State.nextOrphan
  split
  · exact ⟨fun _ => rfl, rfl, fun _ => rfl, fun _ => rfl, rfl, fun _ => hx, id⟩
  · refine ⟨fun _ => rfl, rfl, fun o => ?_, fun _ => rfl, rfl, fun _ => hx, id⟩
    show ((outdApply x.table s.outd)[o]).claimer = _
    unfold outdApply
    rw [tabulate4_get]
    rfl

theorem SameClaims.of_resetMirrorsFrom (s : State) (n : Nat) : SameClaims s (s.resetMirrorsFrom n) := by
  unfold State.resetMirrorsFrom
  refine foldl_claims _ (fun s k => ?_) _ _
  split
  · exact .of_setMirror ..
  · exact .refl s

theorem State.resetMirrorsFrom_engc (s : State) (n : Nat) : (s.resetMirrorsFrom n).engc = s.engc := by
  unfold State.resetMirrorsFrom
  have : ∀ (ks : List SlotId) (x : State),
      (ks.foldl (fun s k => if n ≤ k.val then s.setMirror k Mirror.reset else s) x).engc = x.engc := by
    intro ks
    induction ks with
    | nil => exact fun x => rfl
    | cons k ks ih =>
      intro x
      rw [List.foldl_cons, ih]
      split <;> rfl
  exact this _ _

theorem State.loadingData_claims {s : State} (h : s.ClaimsAgree) (x y : Loading) (w : Word)
    (hx : s.engc.loading = some y) : (s.loadingData x w).ClaimsAgree := by
  have hn : s.engc.loading ≠ none := by rw [hx]; simp
  have fails : ∀ c, (s.enableFails c).ClaimsAgree := by
    intro c
    have hu := h.loadingUnowned hx
    exact h.unowned hu hu (fun _ => rfl) (fun hl => absurd rfl hl) h.single
  have read : ∀ z a, (s.loadingRead z a).ClaimsAgree := by
    intro z a
    refine h.of_same ?_
    exact ⟨fun _ => rfl, rfl, fun _ => rfl, fun _ => rfl, rfl, fun _ => hn, id⟩
  have part : ∀ k, SameClaims s (s.notePart x k w).1 ∧ (s.notePart x k w).1.engc = s.engc := by
    intro k
    unfold State.notePart
    dsimp only
    split <;> exact ⟨.of_setMirror .., rfl⟩
  unfold State.loadingData
  split
  · exact read _ _
  · split
    · exact fails _
    · refine h.of_same ?_
      exact ⟨fun _ => rfl, rfl, fun _ => rfl, fun _ => rfl, rfl, fun _ => hn, id⟩
  · dsimp only
    split
    · exact read _ _
    · split
      · exact read _ _
      · exact fails _
  · dsimp only
    split
    · exact read _ _
    · refine h.of_same ?_
      exact ⟨fun _ => rfl, rfl, fun _ => rfl, fun _ => rfl, rfl, fun _ => hn, id⟩
  · refine h.of_same ?_
    exact ⟨fun _ => rfl, rfl, fun _ => rfl, fun _ => rfl, rfl, fun _ => hn, id⟩
  · rename_i k _
    obtain ⟨hp, he⟩ := part k
    dsimp only
    generalize s.notePart x k w = n at hp he
    have hne : n.1.engc.loading ≠ none := by rw [he]; exact hn
    split
    · split
      · refine h.of_same (hp.trans ?_)
        exact ⟨fun _ => rfl, rfl, fun _ => rfl, fun _ => rfl, rfl, fun _ => hne, id⟩
      · refine h.of_same ((hp.trans (.of_resetMirrorsFrom ..)).trans (.of_nextOrphan _ _ ?_))
        rw [State.resetMirrorsFrom_engc]
        exact hne
    · exact h.of_same (hp.trans (.of_nextOrphan _ _ hne))
  · exact h

theorem State.loadingReturned_claims {s : State} (h : s.ClaimsAgree) (f : Bool) (w : Word) :
    (s.loadingReturned f w).ClaimsAgree := by
  unfold State.loadingReturned
  split
  · exact h
  · rename_i x hx
    have hu := h.loadingUnowned hx
    split
    · exact State.enterOff_claims h hu
    · split
      · exact h.unowned hu hu (fun _ => rfl) (fun hl => absurd rfl hl) h.single
      · exact State.loadingData_claims h x x w hx

theorem State.configAckReturned_claims {s : State} (h : s.ClaimsAgree) (f : Bool) (b : Option OnBus) :
    (s.configAckReturned f b).ClaimsAgree := by
  unfold State.configAckReturned
  split
  · exact h
  · rename_i x hx
    have hu := h.loadingUnowned hx
    split
    · exact State.stall_claims ..
    · dsimp only
      split
      · exact h.unowned hu hu (fun _ => rfl) (fun hl => absurd rfl hl) h.single
      · unfold State.enterRunning
        refine State.ClaimsAgree.of_same ?_ (.of_sweepRequest _)
        exact h.unowned hu hu (fun _ => rfl) (fun hl => absurd rfl hl) h.single

theorem State.engcCounted_claims {s : State} (h : s.ClaimsAgree) (x : Loading)
    (hx : s.engc.loading ≠ none) : (s.engcCounted x).ClaimsAgree := by
  unfold State.engcCounted
  split
  · refine h.of_same (SameClaims.trans ?_ (.of_count ..))
    exact ⟨fun _ => rfl, rfl, fun _ => rfl, fun _ => rfl, rfl, fun _ => hx, id⟩
  · exact h.of_same (.of_nextOrphan _ _ hx)
  · exact h

theorem State.report_claims {s : State} (h : s.ClaimsAgree) (q : CountReq) : (s.report q).ClaimsAgree := by
  unfold State.report
  split
  · exact h.of_same (.of_smonCounted s)
  · exact State.laneCounted_claims h _ _
  · split
    · exact h
    · rename_i x hx; exact State.engcCounted_claims h _ (by rw [hx]; simp)

theorem SameClaims.of_countEffect (s : State) (k : CountKind) : SameClaims s (s.countEffect k) := by
  unfold State.countEffect
  split
  · exact .of_setMirror ..
  · exact .refl s
  · exact .refl s
  · exact .refl s
  · exact ⟨fun _ => rfl, rfl, fun _ => rfl, fun _ => rfl, rfl, id, id⟩
  · exact .of_units rfl rfl rfl rfl

theorem State.counterReturned_claims {s : State} (h : s.ClaimsAgree) (f : Bool) (b : Option OnBus) :
    (s.counterReturned f b).ClaimsAgree := by
  unfold State.counterReturned
  split
  · exact State.stall_claims ..
  · split
    · exact h
    · rename_i req _ _
      have h1 : (s.countEffect req.kind).ClaimsAgree := h.of_same (.of_countEffect ..)
      extract_lets second s1
      clear_value second
      split
      · unfold State.serveSecond
        exact h.of_same (.of_units rfl rfl rfl rfl)
      · split
        · rename_i hs
          cases hx : s.engc.loading with
          | none => unfold State.stoppingLoad at hs; rw [hx] at hs; cases hs
          | some x =>
            have hu := h.loadingUnowned hx
            refine State.enterOff_claims ?_ ?_
            · exact h1.of_same (.of_units rfl rfl rfl rfl)
            intro o
            exact ((SameClaims.of_countEffect s req.kind).owner o).trans (hu o)
        · refine State.report_claims (h1.of_same ?_) _
          unfold State.nextCount
          refine SameClaims.trans ?_ (.of_work (.of_serve _))
          exact .of_units rfl rfl rfl rfl

/-! ### SMON's and ENGC's returns -/

theorem State.smonReturns_claims {s : State} (h : s.ClaimsAgree) (f b : Bool) (w : Word)
    (d : Option OnBus) :
    (s.configReturned f w).ClaimsAgree ∧ (s.reloadReturned f w).ClaimsAgree ∧
      (s.visitReturned f w).ClaimsAgree ∧ (s.recordReturned f w).ClaimsAgree ∧
      (s.takeReturned f b).ClaimsAgree ∧ (s.smonSettleReturned f d).ClaimsAgree ∧
      (s.orphanSettleReturned f d).ClaimsAgree := by
  refine ⟨?_, ?_, ?_, ?_, ?_, ?_, ?_⟩
  · unfold State.configReturned State.smonFault
    repeat' split
    · exact h.of_same (.of_smonCount ..)
    · exact h.of_same (.of_endPiece s)
    · exact h.of_same ((SameClaims.of_setWork s _).trans (.of_raise ..))
  · unfold State.reloadReturned State.smonFault
    dsimp only
    repeat' split
    · exact h.of_same (.of_smonCount ..)
    · exact h.of_same ((SameClaims.of_setWork s _).trans (.of_raise ..))
    · refine h.of_same (SameClaims.trans ?_ (.of_smonCount ..))
      refine ⟨fun _ => rfl, rfl, fun o => ?_, fun _ => rfl, rfl, id, id⟩
      show ((outdReload _ s.outd)[o]).claimer = _
      unfold outdReload
      rw [tabulate4_get]
      dsimp only
      split <;> rfl
    · exact h.of_same (.of_smonCount ..)
    · exact h
  · unfold State.visitReturned State.smonFault
    repeat' split
    · exact h.of_same (.of_smonCount ..)
    · exact State.visitDecision_claims (h.of_same (.of_noteVisit ..)) _ _ _
    · exact h
  · unfold State.recordReturned State.smonFault
    dsimp only
    repeat' split
    · exact h.of_same (.of_smonCount ..)
    · exact h.of_same ((SameClaims.of_setWork s _).trans (.of_raise ..))
    · exact h.of_same ((SameClaims.of_setWork s _).trans (.of_raise ..))
    · exact h
  · unfold State.takeReturned State.smonFault
    repeat' split
    · exact h.of_same (.of_smonCount ..)
    · exact h.of_same ((SameClaims.of_setWork s _).trans (.of_raise ..))
    · exact h.of_same (.of_smonCount ..)
    · exact State.taken_claims h _ _
    · exact h
  · unfold State.smonSettleReturned
    repeat' split
    · exact State.stall_claims ..
    · exact h.of_same (.of_smonSettleWrite ..)
    · exact h.of_same (.of_smonCount ..)
    · exact h
  · unfold State.orphanSettleReturned
    split
    · exact h
    · rename_i x hx
      have hn : s.engc.loading ≠ none := by rw [hx]; simp
      split
      · exact State.stall_claims ..
      · split
        · exact State.enterOff_claims h (h.loadingUnowned hx)
        · split
          · unfold State.orphanWritten
            split
            · exact h
            · split
              · refine h.of_same ?_
                exact ⟨fun _ => rfl, rfl, fun _ => rfl, fun _ => rfl, rfl, fun _ => hn, id⟩
              · refine h.of_same (SameClaims.trans ?_ (.of_count ..))
                exact ⟨fun _ => rfl, rfl, fun _ => rfl, fun _ => rfl, rfl, fun _ => hn, id⟩
          · exact h

/-! ### Lanes' returns -/

theorem State.discarded_claims {s : State} (h : s.ClaimsAgree) (q : Request) : (s.discarded q).ClaimsAgree := by
  unfold State.discarded
  split
  · exact State.tearFinish_claims h _
  · exact h

theorem State.laneSettleReturned_claims {s : State} (h : s.ClaimsAgree) (l : LaneId) (f : Bool)
    (b : Option OnBus) : (s.laneSettleReturned l f b).ClaimsAgree := by
  have same : ∀ a, SameClaims s (s.setLane l { s.lane l with access := a }) :=
    fun a => .of_setLane s l _ rfl
  unfold State.laneSettleReturned
  dsimp only
  split
  · split
    · exact State.stall_claims ..
    · split
      · exact State.tearFinish_claims (h.of_same (same _)) l
      · split
        · exact h.of_same ((same (.settleCheck _)).trans (.of_raise ..))
        · exact h.of_same ((same _).trans (.of_count ..))
  · exact h

theorem SameClaims.of_loadHostReturned (s : State) (l : LaneId) (f : Bool) (w : Word) :
    SameClaims s (s.loadHostReturned l f w) := by
  unfold State.loadHostReturned
  dsimp only
  split
  · exact .of_laneFault ..
  · split
    · exact .of_learnTear s l
    · refine SameClaims.trans (t := s.setLane l _) ?_ (.of_units rfl rfl rfl rfl)
      refine .of_setLane s l _ ?_
      split <;> rfl

theorem SameClaims.of_loadStepReturned (s : State) (l : LaneId) (f : Bool) (w : Word) :
    SameClaims s (s.loadStepReturned l f w) := by
  have same : ∀ y : Lane, y.stopped = (s.lane l).stopped → SameClaims s (s.setLane l y) :=
    fun y h => .of_setLane s l y h
  unfold State.loadStepReturned
  extract_lets x words s1 steps
  have h1 : SameClaims s s1 := same _ rfl
  clear_value s1 steps words
  split
  · exact .of_laneFault ..
  · split
    · exact h1.trans (.of_units rfl rfl rfl rfl)
    · split
      · refine SameClaims.trans ?_ (.of_conclude ..)
        refine same _ ?_
        rfl
      · refine same _ ?_
        rfl

theorem State.listCheckReturned_claims {s : State} (h : s.ClaimsAgree) (l : LaneId) (f : Bool) (w : Word) :
    (s.listCheckReturned l f w).ClaimsAgree := by
  have same : ∀ y : Lane, y.stopped = (s.lane l).stopped → SameClaims s (s.setLane l y) :=
    fun y h => .of_setLane s l y h
  unfold State.listCheckReturned
  dsimp only
  split
  · split
    · split
      · refine h.of_same (SameClaims.trans (t := s.setLane l _) (same _ ?_) (.of_units rfl rfl rfl rfl))
        rfl
      · refine State.tearFinish_claims (h.of_same (same _ ?_)) l
        rfl
    · split
      · exact h.of_same (.of_laneFault ..)
      · split
        · refine h.of_same (SameClaims.trans (t := s.setLane l _) (same _ ?_) (.of_units rfl rfl rfl rfl))
          rfl
        · refine h.of_same (SameClaims.trans (same _ ?_) (.of_learnTear ..))
          rfl
  · exact h

theorem State.settleCheckReturned_claims {s : State} (h : s.ClaimsAgree) (l : LaneId) (f : Bool) (w : Word)
    (b : Option OnBus) : (s.settleCheckReturned l f w b).ClaimsAgree := by
  have same : ∀ a, SameClaims s (s.setLane l { s.lane l with access := a }) :=
    fun a => .of_setLane s l _ rfl
  unfold State.settleCheckReturned
  dsimp only
  split
  · split
    · exact State.stall_claims ..
    · split
      · exact h.of_same ((same (.settleWrite _)).trans (.of_units rfl rfl rfl rfl))
      · exact h.of_same ((same _).trans (.of_learnTear ..))
  · exact h

theorem State.resultReturned_claims {s : State} (h : s.ClaimsAgree) (l : LaneId) (f : Bool) :
    (s.resultReturned l f).ClaimsAgree := by
  have same : ∀ y : Lane, y.stopped = (s.lane l).stopped → SameClaims s (s.setLane l y) :=
    fun y h => .of_setLane s l y h
  unfold State.resultReturned
  dsimp only
  split
  · split
    · split
      · exact h.of_same (.of_tornWriteFault s l)
      · refine State.tearFinish_claims (h.of_same (same _ ?_)) l
        rfl
    · split
      · exact h.of_same (.of_laneFault ..)
      · split
        · refine h.of_same (SameClaims.trans (same _ ?_) (.of_raise ..))
          rfl
        · refine h.of_same (SameClaims.trans (same _ ?_) (.of_pump ..))
          rfl
  · exact h

theorem SameClaims.of_qualifierReturned (s : State) (l : LaneId) (f : Bool) (w : Word) :
    SameClaims s (s.qualifierReturned l f w) := by
  unfold State.qualifierReturned
  dsimp only
  split
  · split
    · exact .of_laneFault ..
    · split
      · rename_i got _ _ _
        have h1 : SameClaims s (s.setLane l { s.lane l with activity := .check (got ++ [w]) }) :=
          .of_setLane s l _ rfl
        split
        · exact h1
        · exact h1.trans (.of_raise ..)
      · exact .of_finishStep ..
  · exact .refl s

/-! ### Events due, instants and returns -/

theorem Due.act_claims {s : State} (h : s.ClaimsAgree) (e : Due) (hd : e.holds s = true) :
    (e.act s).ClaimsAgree := by
  cases e
  case acceptedEdge i => exact h.of_same (.of_acceptEdge s i)
  case overrange l => exact h.of_same (.of_overrangeStep s l)
  case windowExpiry l => exact h.of_same (.of_timeoutStep s l)
  case hold l => exact h.of_same (.of_finishStep ..)
  case untilReached l => exact h.of_same (.of_finishStep ..)
  case pulse l => exact h.of_same (.of_pulseStep s l)
  case tallyGateEnd l => exact h.of_same (.of_tallyStep s l)
  case loadCompletion l => exact h.of_same (.of_completeLoad s l)
  case stepBegin l => exact h.of_same (.of_beginWaiting s l)
  case sweepTimerExpiry => exact h.of_same (.of_timerExpires s)
  case eligible => exact State.admissionTick_claims h
  case latenessLimit => exact State.admissionTick_claims h
  case removalSettle =>
    unfold Due.act State.beginDueSettle
    dsimp only
    repeat' split
    · exact h.of_same (.of_smonSettleWrite ..)
    · refine h.of_same (SameClaims.trans ?_ (.of_smonSettleWrite ..))
      exact .of_units rfl rfl rfl rfl
    · exact h
  case completionReport =>
    unfold Due.act State.handleCompletion
    dsimp only
    split
    · refine h.of_same (SameClaims.trans ?_ (.of_endPiece _))
      split
      · refine SameClaims.trans ?_ (.of_sweepRequest _)
        exact .of_units rfl rfl rfl rfl
      · exact .of_units rfl rfl rfl rfl
    · exact h
  case tearRelease =>
    unfold Due.act State.handleTearRelease
    dsimp only
    split
    · refine h.of_same (SameClaims.trans ?_ (.of_count ..))
      exact .of_units rfl rfl rfl rfl
    · exact h
  case drainEnd => exact State.enterOff_claims h (h.poolUnowned (State.drainDone_pool hd))

theorem State.runDue_claims {s : State} (h : s.ClaimsAgree) (e : Due) : (s.runDue e).ClaimsAgree := by
  unfold State.runDue
  split
  · rename_i hd; exact Due.act_claims h e hd
  · exact h

theorem finishLoop_claims (n : Nat) {s : State} (h : s.ClaimsAgree) : (finishLoop n s).ClaimsAgree := by
  induction n generalizing s with
  | zero => exact h
  | succ n ih =>
    unfold finishLoop
    split
    · exact h
    · rename_i e he
      refine ih (Due.act_claims h e ?_)
      have := List.find?_some (p := fun e : Due => e.holds s) he
      exact this

theorem State.finishInstant_claims {s : State} (h : s.ClaimsAgree) : s.finishInstant.ClaimsAgree := by
  refine (finishLoop_claims instantBound h).of_same ⟨fun _ => rfl, rfl, fun _ => rfl, fun l => ?_, rfl, id, id⟩
  show ((tabulate4 (fun l => ((finishLoop instantBound s).lanes[l]).closeBoundary))[l]).stopped = _
  rw [tabulate4_get]
  unfold Lane.closeBoundary
  split <;> rfl

theorem State.settled_claims {s : State} (h : s.ClaimsAgree) : s.settled.ClaimsAgree :=
  (State.finishInstant_claims h).of_same (.of_units rfl rfl rfl rfl)

theorem State.busEvent_claims {s : State} (h : s.ClaimsAgree) (accepts : Access → Bool) (r : BusReturn)
    (handle : State → Request → Bool → Word → State)
    (hh : ∀ s q f w, s.ClaimsAgree → (handle s q f w).ClaimsAgree) :
    (s.busEvent accepts r handle).ClaimsAgree := by
  unfold State.busEvent
  dsimp only
  split
  · exact h
  · split
    · exact hh _ _ _ _ ((State.settled_claims h).of_same (.of_units rfl rfl rfl rfl))
    · exact h

end Sys2Proof.Machine
end

