-- ==== Sys2Proof/Laws/Walks.lean ====
section
/-! SUPPORT. What a walk can do to a lane, a line and an entry, and what the two events that rest on walks do:
ADMU's event for a tick boundary, and a torn lane's report that it has gone FREE. -/

namespace Sys2Proof.Machine

/-! ### Starts -/

/-- The claim table after a start (05, R71). -/
theorem State.startPlan_claims_get (s : State) (e : Entry) (l : LaneId) (o : OutLine) :
    (s.startPlan e l).admu.claims[o] =
      if e.posting.lines.getLsbD o.val then { owner := some l, reservation := none }
      else if (s.admu.claims[o]).reservation = some e.slot then
        { s.admu.claims[o] with reservation := none }
      else s.admu.claims[o] := by
  show (claimFor e l s.admu.claims)[o] = _
  unfold claimFor
  rw [tabulate4_get]

/-- OUTD after a start (08, R120). -/
theorem State.startPlan_outd_get (s : State) (e : Entry) (l : LaneId) (o : OutLine) :
    (s.startPlan e l).outd[o] =
      if e.posting.lines.getLsbD o.val then { s.outd[o] with claimer := some l, keep := false }
      else s.outd[o] := by
  show (outdClaim l e.posting.lines s.outd)[o] = _
  unfold outdClaim
  rw [tabulate4_get]

/-- Reserving leaves the owners. -/
theorem reserveFor_owner (e : Entry) (later : List Entry) (v : Vector Claim 4) (o : OutLine) :
    ((reserveFor e later v)[o]).owner = (v[o]).owner := by
  unfold reserveFor
  rw [tabulate4_get]
  generalize (_ && _ : Bool) = c
  cases c <;> rfl

/-! ### What a walk does to one lane, one line, one entry -/

/-- A property of states that a start on a lane of the pool keeps, and that looks at neither the queue nor the
reservations, is kept by a walk. -/
theorem walkFrom_keeps (P : State → Prop) (hq : ∀ s q, P s → P (s.setQueue q))
    (hr : ∀ s e later, P s → P { s with admu := { s.admu with claims := reserveFor e later s.admu.claims } })
    (hs : ∀ s e l, s.admu.pool[l] = true → P s → P (s.startPlan e l)) (rest kept : List Entry) (s : State)
    (h : P s) : P (walkFrom kept rest s) := by
  induction rest generalizing kept s with
  | nil => exact hq _ _ h
  | cons a rest ih =>
    unfold walkFrom
    split
    · exact hq _ _ h
    · rename_i l hl
      split
      · exact ih _ _ h
      · split
        · exact ih _ _ (hs _ _ _ (State.freeLane_pool hl) h)
        · exact ih _ _ (hr _ _ _ h)

/-- The same of a walk whole. -/
theorem State.walk_keeps (P : State → Prop) (hq : ∀ s q, P s → P (s.setQueue q))
    (hr : ∀ s e later, P s → P { s with admu := { s.admu with claims := reserveFor e later s.admu.claims } })
    (hs : ∀ s e l, s.admu.pool[l] = true → P s → P (s.startPlan e l)) (s : State) (h : P s) : P s.walk := by
  unfold State.walk
  split
  · exact walkFrom_keeps P hq hr hs _ _ _ h
  · exact h

/-- A lane out of the pool that owns no line owns none after a walk, and what it has outstanding is as it was. -/
theorem State.walk_busyLane (s : State) (l : LaneId) (hp : s.admu.pool[l] = false)
    (h : ∀ o : OutLine, (s.admu.claims[o]).owner ≠ some l) :
    (∀ o : OutLine, (s.walk.admu.claims[o]).owner ≠ some l) ∧
      s.walk.laneOutstanding l = s.laneOutstanding l := by
  have := State.walk_keeps
    (fun t => t.admu.pool[l] = false ∧ (∀ o : OutLine, (t.admu.claims[o]).owner ≠ some l) ∧
      t.laneOutstanding l = s.laneOutstanding l)
    (fun _ _ h => h)
    (fun t e later h => ⟨h.1, fun o => by
      show ((reserveFor e later t.admu.claims)[o]).owner ≠ _
      rw [reserveFor_owner]
      exact h.2.1 o, h.2.2⟩)
    (fun t e k hk h => by
      have hkl : l ≠ k := by
        intro e
        subst e
        rw [h.1] at hk
        cases hk
      refine ⟨?_, fun o => ?_, ?_⟩
      · rw [State.startPlan_pool, if_neg hkl]
        exact h.1
      · rw [State.startPlan_claims_get]
        split
        · exact fun he => hkl (Option.some.inj he).symm
        · split <;> exact h.2.1 o
      · rw [← h.2.2]
        unfold State.laneOutstanding State.startPlan State.raise
        simpa [Access.lane?] using fun he => absurd (Eq.symm he) hkl)
    s ⟨hp, h, rfl⟩
  exact this.2

/-- A lane that is empty and in the pool is so after a walk, owning no line if it owned none, or a plan has been
started on it. -/
theorem State.walk_emptyLane (s : State) (l : LaneId) (he : s.lane l = Lane.empty) (hp : s.admu.pool[l] = true) :
    (s.walk.lane l = Lane.empty ∧ s.walk.admu.pool[l] = true ∧
        ((∀ o : OutLine, (s.admu.claims[o]).owner ≠ some l) →
          ∀ o : OutLine, (s.walk.admu.claims[o]).owner ≠ some l)) ∨
      (s.engc.engine = .running ∧ s.walk.admu.pool[l] = false ∧ ∃ e, s.walk.lane l = Lane.start e) := by
  unfold State.walk
  split
  · rename_i hr
    have := walkFrom_keeps
      (fun t => (t.lane l = Lane.empty ∧ t.admu.pool[l] = true ∧
          ((∀ o : OutLine, (s.admu.claims[o]).owner ≠ some l) →
            ∀ o : OutLine, (t.admu.claims[o]).owner ≠ some l)) ∨
        (t.admu.pool[l] = false ∧ ∃ e, t.lane l = Lane.start e))
      (fun _ _ h => h)
      (fun t e later h => h.imp (fun h => ⟨h.1, h.2.1, fun hn o => by
        show ((reserveFor e later t.admu.claims)[o]).owner ≠ _
        rw [reserveFor_owner]
        exact h.2.2 hn o⟩) id)
      (fun t e k hk h => by
        by_cases hkl : l = k
        · refine .inr ⟨?_, e, ?_⟩
          · rw [State.startPlan_pool, if_pos hkl]
          · rw [State.startPlan_lane, if_pos hkl]
        · rw [State.startPlan_pool, if_neg hkl, State.startPlan_lane, if_neg hkl]
          refine h.imp (fun h => ⟨h.1, h.2.1, fun hn o => ?_⟩) id
          rw [State.startPlan_claims_get]
          split
          · exact fun he => hkl (Option.some.inj he).symm
          · split <;> exact h.2.2 hn o)
      s.admu.queue [] s (.inl ⟨he, hp, id⟩)
    exact this.imp id fun h => ⟨hr, h⟩
  · exact .inl ⟨he, hp, id⟩

/-- A walk leaves the levels and idle levels of lines, sets no keep flag, and changes a claimer only for one of its
starts. -/
theorem State.walk_outd (s : State) (o : OutLine) :
    (s.walk.outd[o]).level = (s.outd[o]).level ∧ (s.walk.outd[o]).idle = (s.outd[o]).idle ∧
      ((s.outd[o]).keep = false → (s.walk.outd[o]).keep = false) :=
  State.walk_keeps
    (fun t => (t.outd[o]).level = (s.outd[o]).level ∧ (t.outd[o]).idle = (s.outd[o]).idle ∧
      ((s.outd[o]).keep = false → (t.outd[o]).keep = false))
    (fun _ _ h => h) (fun _ _ _ h => h)
    (fun t e k _ h => by
      rw [State.startPlan_outd_get]
      split
      · exact ⟨h.1, h.2.1, fun _ => rfl⟩
      · exact h)
    s ⟨rfl, rfl, id⟩

/-- Outside RUNNING there is no walk. -/
theorem State.walk_idle {s : State} (h : s.engc.engine ≠ .running) : s.walk = s := by
  unfold State.walk
  rw [if_neg h]

/-- A slot that runs goes on running through a start. -/
theorem State.startPlan_running (s : State) (e : Entry) (l : LaneId) (k : SlotId)
    (h : (s.mirror k).state = .running) : ((s.startPlan e l).mirror k).state = .running := by
  rw [State.startPlan_mirror]
  split
  · rfl
  · exact h

/-- An entry that a walk visits stays or is started. -/
theorem walkFrom_staysOrStarts (rest kept : List Entry) (s : State) (e : Entry) (h : e ∈ kept ∨ e ∈ rest) :
    e ∈ (walkFrom kept rest s).admu.queue ∨ ((walkFrom kept rest s).mirror e.slot).state = .running := by
  induction rest generalizing kept s with
  | nil => exact .inl (h.resolve_right (by simp))
  | cons a rest ih =>
    have up : e ∈ kept ++ [a] ∨ e ∈ rest := by
      rcases h with h | h
      · exact .inl (List.mem_append_left _ h)
      · exact (List.mem_cons.mp h).imp (fun h => by simp [h]) id
    unfold walkFrom
    split
    · refine .inl ?_
      show e ∈ kept ++ a :: rest
      simpa using h
    · split
      · exact ih _ _ up
      · split
        · rename_i l _ _ _
          rcases h with h | h
          · exact ih _ _ (.inl h)
          · rcases List.mem_cons.mp h with h | h
            · subst h
              refine .inr (walkFrom_keeps (fun t => (t.mirror e.slot).state = .running) (fun _ _ h => h)
                (fun _ _ _ h => h) (fun t x k _ h => State.startPlan_running t x k _ h) _ _ _ ?_)
              rw [State.startPlan_mirror, if_pos rfl]
            · exact ih _ _ (.inr h)
        · exact ih _ _ up

/-- An entry of the queue stays through a walk or is started (05, R70). -/
theorem State.walk_staysOrStarts (s : State) (e : Entry) (h : e ∈ s.admu.queue) :
    e ∈ s.walk.admu.queue ∨ (s.walk.mirror e.slot).state = .running := by
  unfold State.walk
  split
  · exact walkFrom_staysOrStarts _ _ _ _ (.inr h)
  · exact .inl h

/-- The queue after a walk is the queue before it without the entries started. -/
theorem walkFrom_sublist (rest kept : List Entry) (s : State) :
    (walkFrom kept rest s).admu.queue.Sublist (kept ++ rest) := by
  induction rest generalizing kept s with
  | nil =>
    show kept.Sublist (kept ++ [])
    simp
  | cons a rest ih =>
    have app : kept ++ [a] ++ rest = kept ++ a :: rest := by simp
    unfold walkFrom
    split
    · exact List.Sublist.refl _
    · split
      · exact app ▸ ih (kept ++ [a]) s
      · split
        · exact (ih kept _).trans ((List.sublist_cons_self a rest).append_left kept)
        · exact app ▸ ih (kept ++ [a]) _

theorem State.walk_sublist (s : State) : s.walk.admu.queue.Sublist s.admu.queue := by
  unfold State.walk
  split
  · exact walkFrom_sublist s.admu.queue [] s
  · exact List.Sublist.refl _

/-! ### A slot that has neither an entry nor a reservation (05, R72 to R75, R80) -/

/-- No line is reserved for the slot. -/
def State.NoReservation (s : State) (k : SlotId) : Prop :=
  ∀ o : OutLine, (s.admu.claims[o]).reservation ≠ some k

/-- Nor has it an entry in the queue. -/
def State.Unreserved (s : State) (k : SlotId) : Prop := s.inQueue k = false ∧ s.NoReservation k

/-- Reservations are made only for the entry they are made for. -/
theorem reserveFor_reservation (e : Entry) (later : List Entry) (v : Vector Claim 4) (o : OutLine) (k : SlotId)
    (hk : e.slot ≠ k) (h : (v[o]).reservation ≠ some k) : ((reserveFor e later v)[o]).reservation ≠ some k := by
  unfold reserveFor
  rw [tabulate4_get]
  generalize (_ && _ : Bool) = c
  cases c
  · exact h
  · exact fun he => hk (Option.some.inj he)

theorem walkFrom_unreserved (rest kept : List Entry) (s : State) (k : SlotId) (hq : ∀ e ∈ kept ++ rest, e.slot ≠ k)
    (h : s.NoReservation k) : (walkFrom kept rest s).NoReservation k := by
  induction rest generalizing kept s with
  | nil => exact h
  | cons e rest ih =>
    have app : ∀ x ∈ kept ++ [e] ++ rest, x.slot ≠ k := by simpa using hq
    unfold walkFrom
    split
    · exact h
    · split
      · exact ih _ _ app h
      · split
        · refine ih _ _ (fun x hx => hq x ?_) fun o => ?_
          · rcases List.mem_append.mp hx with hx | hx
            · exact List.mem_append_left _ hx
            · exact List.mem_append_right _ (List.mem_cons_of_mem _ hx)
          · rw [State.startPlan_claims_get]
            split
            · exact fun he => nomatch he
            · split
              · exact fun he => nomatch he
              · exact h o
        · exact ih _ _ app fun o => reserveFor_reservation _ _ _ _ _ (hq e (by simp)) (h o)

/-- A walk makes no entry and no reservation for a slot that has neither. -/
theorem State.walk_unreserved {s : State} {k : SlotId} (h : s.Unreserved k) : s.walk.Unreserved k := by
  refine ⟨(State.walk_absent s k h.1).1, ?_⟩
  unfold State.walk
  split
  · refine walkFrom_unreserved s.admu.queue [] s k (fun e he hk => ?_) h.2
    exact (State.inQueue_false_iff s k).mp h.1 (List.mem_map.mpr ⟨e, he, hk⟩)
  · exact h.2

/-- The claim table after an entry has left. -/
theorem State.removeEntry_claims_get (s : State) (k : SlotId) (o : OutLine) :
    (s.removeEntry k).admu.claims[o] =
      if (s.admu.claims[o]).reservation = some k then { s.admu.claims[o] with reservation := none }
      else s.admu.claims[o] := by
  show (clearReservations k s.admu.claims)[o] = _
  unfold clearReservations
  rw [tabulate4_get]

/-- A removal leaves its slot with neither, and makes none for another. -/
theorem State.removeEntry_unreserved (s : State) (k : SlotId) : (s.removeEntry k).Unreserved k := by
  refine ⟨State.removeEntry_absent s k, fun o => ?_⟩
  rw [State.removeEntry_claims_get]
  split
  · exact fun he => nomatch he
  · assumption

theorem State.removeEntry_keepsUnreserved (s : State) (j k : SlotId) (h : s.Unreserved k) :
    (s.removeEntry j).Unreserved k := by
  refine ⟨?_, fun o => ?_⟩
  · rw [State.inQueue_false_iff]
    intro hk
    obtain ⟨e, he, hek⟩ := List.mem_map.mp hk
    exact (State.inQueue_false_iff s k).mp h.1 (List.mem_map.mpr ⟨e, (List.mem_filter.mp he).1, hek⟩)
  · rw [State.removeEntry_claims_get]
    split
    · exact fun he => nomatch he
    · exact h.2 o

/-! ### ADMU's event for a tick boundary (05, R75, R76) -/

/-- What walks and lateness removals at an epoch do to the queue: an entry that leaves has been started, or its
slot waits LATE with its removal settle ready; where `single` holds, the entry's own limit was reached and the
NOTIFY flag is its own. -/
structure LatenessFrame (single : Prop) (s t : State) : Prop where
  engc : t.engc = s.engc
  tbu : t.tbu = s.tbu
  queue : t.admu.queue.Sublist s.admu.queue
  running : ∀ k : SlotId, (s.mirror k).state = .running → (t.mirror k).state = .running
  late : ∀ k : SlotId, (s.mirror k).pendingOutcome = some .late → (t.mirror k).pendingOutcome = some .late
  waiting : ∀ p ∈ s.smon.waiting, p ∈ t.smon.waiting
  gone : ∀ k : SlotId, s.Unreserved k → t.Unreserved k
  leaves : ∀ e ∈ s.admu.queue, e ∈ t.admu.queue ∨ (t.mirror e.slot).state = .running ∨
    ((t.mirror e.slot).pendingOutcome = some .late ∧ t.Unreserved e.slot ∧
      ∃ notify : Bool, .removal e.slot .late notify ∈ t.smon.waiting ∧
        (single → latenessReached s.tbu.epoch e.posting = true ∧ notify = e.posting.flags.getLsbD 0))

theorem LatenessFrame.refl (single : Prop) (s : State) : LatenessFrame single s s where
  engc := rfl
  tbu := rfl
  queue := List.Sublist.refl _
  running := fun _ h => h
  late := fun _ h => h
  waiting := fun _ h => h
  gone := fun _ h => h
  leaves := fun _ h => .inl h

theorem LatenessFrame.trans {single : Prop} {s t u : State} (h : LatenessFrame single s t)
    (g : LatenessFrame single t u) : LatenessFrame single s u where
  engc := g.engc.trans h.engc
  tbu := g.tbu.trans h.tbu
  queue := g.queue.trans h.queue
  running := fun k hk => g.running k (h.running k hk)
  late := fun k hk => g.late k (h.late k hk)
  waiting := fun p hp => g.waiting p (h.waiting p hp)
  gone := fun k hk => g.gone k (h.gone k hk)
  leaves := fun e he => by
    rcases h.leaves e he with h1 | h1 | ⟨h1, h4, n, h2, h3⟩
    · refine (g.leaves e h1).imp id (Or.imp id ?_)
      rintro ⟨g1, g4, n, g2, g3⟩
      exact ⟨g1, g4, n, g2, fun hd => h.tbu ▸ g3 hd⟩
    · exact .inr (.inl (g.running _ h1))
    · exact .inr (.inr ⟨g.late _ h1, g.gone _ h4, n, g.waiting _ h2, h3⟩)

theorem LatenessFrame.of_walk (single : Prop) (s : State) : LatenessFrame single s s.walk := by
  obtain ⟨h, -⟩ := State.walk_frame s
  exact {
    engc := h.engc
    tbu := h.tbu
    queue := State.walk_sublist s
    running := fun k hk => by
      rcases h.starts k with e | e
      · rw [e]; exact hk
      · exact e
    late := fun k hk => by rw [h.waits k]; exact hk
    waiting := fun p hp => by rw [h.smon]; exact hp
    gone := fun _ hk => State.walk_unreserved hk
    leaves := fun e he => (State.walk_staysOrStarts s e he).imp id .inl }

/-- Where no slot has two entries, a slot tells its entry. -/
theorem Entry.eq_of_slot {q : List Entry} (hd : (q.map Entry.slot).Nodup) {a b : Entry} (ha : a ∈ q)
    (hb : b ∈ q) (h : a.slot = b.slot) : a = b := by
  induction q with
  | nil => cases ha
  | cons x q ih =>
    obtain ⟨hx, hq⟩ := List.nodup_cons.mp hd
    have other : ∀ y ∈ q, x.slot ≠ y.slot := fun y hy e => hx (List.mem_map.mpr ⟨y, hy, e.symm⟩)
    rcases List.mem_cons.mp ha with rfl | ha' <;> rcases List.mem_cons.mp hb with rfl | hb'
    · rfl
    · exact absurd h (other b hb')
    · exact absurd h.symm (other a ha')
    · exact ih hq ha' hb'

/-- The NOTIFY flag found for a slot is that of its entry, where it has one. -/
theorem State.entryNotify_of_mem (s : State) (e : Entry) (he : e ∈ s.admu.queue)
    (hd : (s.admu.queue.map Entry.slot).Nodup) : s.entryNotify e.slot = e.posting.flags.getLsbD 0 := by
  have : s.admu.queue.find? (fun x => x.slot == e.slot) = some e := by
    obtain ⟨a, ha⟩ := Option.isSome_iff_exists.mp
      (List.find?_isSome (p := fun x : Entry => x.slot == e.slot) |>.mpr ⟨e, he, by simp⟩)
    rw [ha]
    have hs := List.find?_some ha
    exact congrArg some (Entry.eq_of_slot hd (List.mem_of_find?_eq_some ha) he (by simpa using hs))
  unfold State.entryNotify
  rw [this]
  rfl

/-- A removal as LATE of a slot whose entry's limit is reached. -/
theorem LatenessFrame.of_removeAs {single : Prop} (s : State) (k : SlotId)
    (hd : single → (s.admu.queue.map Entry.slot).Nodup)
    (hl : single → ∀ e ∈ s.admu.queue, e.slot = k → latenessReached s.tbu.epoch e.posting = true) :
    LatenessFrame single s (s.removeAs k .late) := by
  have hm : ∀ j : SlotId, (s.removeAs k .late).mirror j =
      if j = k then { s.mirror k with pendingOutcome := some .late } else s.mirror j := by
    intro j
    show State.mirror ((s.removeEntry k).setMirror k { s.mirror k with pendingOutcome := some .late }) j = _
    by_cases h : j = k
    · subst h
      rw [State.setMirror_mirror, if_pos rfl]
    · rw [State.setMirror_other _ _ _ _ (Ne.symm h), if_neg h]
      rfl
  exact {
    engc := rfl
    tbu := rfl
    queue := List.filter_sublist
    running := fun j hj => by
      rw [hm]
      split
      · rename_i e
        exact e ▸ hj
      · exact hj
    late := fun j hj => by
      rw [hm]
      split
      · rfl
      · exact hj
    waiting := fun p hp => List.mem_append_left _ hp
    gone := fun j hj => s.removeEntry_keepsUnreserved k j hj
    leaves := fun e he => by
      by_cases h : e.slot = k
      · refine .inr (.inr ⟨by rw [hm, if_pos h], h ▸ s.removeEntry_unreserved k, s.entryNotify k, ?_,
          fun one => ⟨hl one e he h, ?_⟩⟩)
        · rw [h]
          exact List.mem_append_right _ (List.mem_singleton.mpr rfl)
        · rw [← h]
          exact s.entryNotify_of_mem e he (hd one)
      · refine .inl (List.mem_filter.mpr ⟨he, ?_⟩)
        simpa using h }

/-- One lateness limit handled: its entry is off the queue. -/
theorem State.lateEntry_frame {single : Prop} (s : State) (k : SlotId)
    (hd : single → (s.admu.queue.map Entry.slot).Nodup)
    (hl : single → ∀ e ∈ s.admu.queue, e.slot = k → latenessReached s.tbu.epoch e.posting = true) :
    LatenessFrame single s (s.lateEntry k) ∧ (s.lateEntry k).inQueue k = false := by
  unfold State.lateEntry
  have h1 := LatenessFrame.of_walk single s
  dsimp only
  split
  · refine ⟨(h1.trans (.of_removeAs _ _ (fun one => (h1.queue.map _).nodup (hd one)) ?_)).trans (.of_walk _ _), ?_⟩
    · intro one e he hk
      rw [h1.tbu]
      exact hl one e (h1.queue.subset he) hk
    · exact (State.walk_absent (s.walk.removeAs k .late) k (State.removeEntry_absent s.walk k)).1
  · rename_i hq
    exact ⟨h1, by simpa using hq⟩

/-- The entry whose limit is found reached is in the queue. -/
theorem State.firstLate_mem {s : State} {k : SlotId} (h : s.firstLate = some k) :
    s.engc.engine = .running ∧
      ∃ e ∈ s.admu.queue, e.slot = k ∧ latenessReached s.tbu.epoch e.posting = true := by
  unfold State.firstLate at h
  split at h
  · rename_i hr
    obtain ⟨e, he, hk⟩ := Option.map_eq_some_iff.mp h
    exact ⟨hr, e, List.mem_of_find?_eq_some he, hk,
      List.find?_some (p := fun e : Entry => latenessReached s.epoch e.posting) he⟩
  · cases h

/-- With no limit found reached in RUNNING, none is. -/
theorem State.firstLate_none {s : State} (h : s.firstLate = none) (hr : s.engc.engine = .running) :
    ∀ e ∈ s.admu.queue, latenessReached s.tbu.epoch e.posting = false := by
  unfold State.firstLate at h
  rw [if_pos hr, Option.map_eq_none_iff, List.find?_eq_none] at h
  intro e he
  exact Bool.eq_false_iff.mpr (h e he)

/-- Every lateness limit reached is handled, since each takes an entry off the queue. -/
theorem lateAll_frame {single : Prop} (n : Nat) (s : State) (hn : s.admu.queue.length ≤ n)
    (hd : single → (s.admu.queue.map Entry.slot).Nodup) :
    LatenessFrame single s (lateAll n s) ∧ (lateAll n s).firstLate = none := by
  induction n generalizing s with
  | zero =>
    refine ⟨.refl _ _, ?_⟩
    have : s.admu.queue = [] := List.length_eq_zero_iff.mp (Nat.le_zero.mp hn)
    show s.firstLate = none
    unfold State.firstLate
    rw [this]
    split <;> rfl
  | succ n ih =>
    unfold lateAll
    split
    · exact ⟨.refl _ _, by assumption⟩
    · rename_i k hk
      obtain ⟨-, e, he, hek, hl⟩ := State.firstLate_mem hk
      have h1 := State.lateEntry_frame s k hd fun one x hx hxk => by
        rw [Entry.eq_of_slot (hd one) hx he (hxk.trans hek.symm)]
        exact hl
      have shorter : (s.lateEntry k).admu.queue.length < s.admu.queue.length := by
        rcases Nat.lt_or_ge (s.lateEntry k).admu.queue.length s.admu.queue.length with h | h
        · exact h
        · have same := h1.1.queue.eq_of_length_le h
          have gone := h1.2
          rw [State.inQueue_false_iff, same] at gone
          exact absurd (List.mem_map.mpr ⟨e, he, hek⟩) gone
      obtain ⟨h2, h3⟩ := ih (s.lateEntry k) (by omega) fun one => (h1.1.queue.map _).nodup (hd one)
      exact ⟨h1.1.trans h2, h3⟩

/-- ADMU's event for a tick boundary, whole (05, R76). -/
theorem State.admissionTick_taken (s : State) (hr : s.engc.engine = .running) :
    AdmissionTaken s s.admissionTick := by
  unfold State.admissionTick
  extract_lets s1
  -- The queue with every eligibility test applied.
  let made : Entry → Entry := fun e => { e with eligible := e.eligible || eligibleAt s.tbu.epoch e.posting }
  let s0 := s.setQueue (s.admu.queue.map made)
  have hs0 : (s0.admu.queue.map Entry.slot) = s.admu.queue.map Entry.slot := by
    show (s.admu.queue.map made).map Entry.slot = _
    rw [List.map_map]
    rfl
  have h1 : LatenessFrame (s.admu.queue.map Entry.slot).Nodup s0 s1 := by
    by_cases hd : s.eligibleDue = true
    · have e1 : s1 = s0.walk := by
        show (if s.eligibleDue then s.makeEligible else s) = _
        rw [if_pos hd]
        unfold State.makeEligible
        congr 2
        refine List.map_congr_left fun e _ => ?_
        cases h : eligibleAt s.epoch e.posting
        · simp [made, show eligibleAt s.tbu.epoch e.posting = false from h]
        · simp [made, show eligibleAt s.tbu.epoch e.posting = true from h]
      rw [e1]
      exact .of_walk _ _
    · have e1 : s1 = s0 := by
        show (if s.eligibleDue then s.makeEligible else s) = _
        rw [if_neg hd]
        have : s.admu.queue.map made = s.admu.queue := by
          conv => rhs; rw [← List.map_id s.admu.queue]
          refine List.map_congr_left fun e he => ?_
          have : ¬ (e.eligible = false ∧ eligibleAt s.tbu.epoch e.posting = true) := by
            intro h
            apply hd
            unfold State.eligibleDue
            simp only [hr, decide_true, Bool.true_and, List.any_eq_true]
            exact ⟨e, he, by simp [h.1, show eligibleAt s.epoch e.posting = true from h.2]⟩
          cases h : e.eligible
          · have h2 : eligibleAt s.tbu.epoch e.posting = false := by
              simpa [h] using this
            simp [made, h2]
          · cases e
            simp_all [made]
        show s = s.setQueue (s.admu.queue.map made)
        rw [this]
        rfl
      rw [e1]
      exact .refl _ _
  obtain ⟨h2, h3⟩ := lateAll_frame (single := (s.admu.queue.map Entry.slot).Nodup) s1.admu.queue.length s1
    (Nat.le_refl _) fun one => (h1.queue.map _).nodup (hs0 ▸ one)
  have h4 := h1.trans h2
  refine ⟨fun e he hel => ?_, fun e he => ?_, fun e he => ?_⟩
  · obtain ⟨x, -, rfl⟩ := List.mem_map.mp (h4.queue.subset he)
    show (x.eligible || eligibleAt s.tbu.epoch x.posting) = true
    rw [show eligibleAt s.tbu.epoch x.posting = true from hel, Bool.or_true]
  · have hr4 : (lateAll s1.admu.queue.length s1).engc.engine = .running := by rw [h4.engc]; exact hr
    have := State.firstLate_none h3 hr4 e he
    rwa [h4.tbu] at this
  · refine (h4.leaves (made e) (List.mem_map.mpr ⟨e, he, rfl⟩)).imp id (Or.imp id ?_)
    exact fun ⟨g1, g2, g3⟩ => ⟨g1, g2.2, g3⟩

/-! ### A torn lane goes FREE (05, R78; 06, R98) -/

/-- A torn lane that has stopped and has nothing outstanding goes FREE. -/
theorem State.tearFinish_frees (s : State) (l : LaneId) (h1 : (s.lane l).stopped = true)
    (h2 : s.laneOutstanding l = false) (h3 : (s.lane l).faultCounts = 0) :
    TornLaneFreed s (s.tearFinish l) l ∧
      ((∀ o : OutLine, (s.admu.claims[o]).owner ≠ some l) → (s.tearFinish l).admu.pool[l] = true →
        ∀ o : OutLine, ((s.tearFinish l).admu.claims[o]).owner ≠ some l) := by
  unfold State.tearFinish
  dsimp only
  rw [if_pos (by simp [h1, h2, h3])]
  have he : ((s.ready (.tearRelease (s.lane l).slot)).freeTheLane l).lane l = Lane.empty :=
    State.setLane_lane s l Lane.empty
  have hp : ((s.ready (.tearRelease (s.lane l).slot)).freeTheLane l).admu.pool[l] = true :=
    vectorSet_self _ _ _
  have hw := (State.walk_frame ((s.ready (.tearRelease (s.lane l).slot)).freeTheLane l)).1
  have report : ((s.ready (.tearRelease (s.lane l).slot)).freeTheLane l).walk.smon.waiting =
      s.smon.waiting ++ [.tearRelease (s.lane l).slot] := by
    rw [hw.smon]
    rfl
  rcases State.walk_emptyLane _ l he hp with ⟨g1, g2, g3⟩ | ⟨g1, g2, e, g3⟩
  · exact ⟨⟨report, .inl ⟨g1, g2⟩⟩, fun hn _ => g3 hn⟩
  · refine ⟨⟨report, .inr ⟨g1, ?_, g2, ?_, ?_, ?_, ?_, ?_⟩⟩, fun _ h => ?_⟩
    all_goals first
      | (rw [g3]; rfl)
      | (rw [g2] at h; cases h)

/-- While a torn lane has an access or a fault count outstanding, it does not go FREE. -/
theorem State.tearFinish_waits (s : State) (l : LaneId)
    (h : s.laneOutstanding l = true ∨ (s.lane l).faultCounts ≠ 0) : s.tearFinish l = s := by
  unfold State.tearFinish
  dsimp only
  rw [if_neg]
  rcases h with h | h <;> simp [h]

/-- What the return of an access that its lane had given up leaves (06, R98; 11, R161). -/
theorem State.tearFinish_discarded (s : State) (l : LaneId) : ReturnDiscarded s (s.tearFinish l) l where
  frees := fun h1 h2 h3 => (State.tearFinish_frees s l h1 h2 h3).1
  waits := fun h => by
    rcases h with h | h
    · unfold State.tearFinish
      simp [h]
    · exact State.tearFinish_waits s l h

end Sys2Proof.Machine
end

