-- ==== Sys2Proof/Tests/Slice0.lean ====
section
/-! SUPPORT. The well-formedness checks refuse what they are for; each statement's hypotheses are met, clause
by clause, by a small state; and a few commands are run for one step. -/

namespace Sys2Proof.Tests

open Sys2Proof.Machine

/-! ## Small states -/

/-- The part in an engine state, with AREA 0x1000 and two slots in use. -/
def part (e : Engine) : State :=
  { State.reset with
    regp := { RegPort.reset with enable := true, area := 0x1000#32 }
    tbu := { prescaler := 0, epoch := 20, timer := 0 }
    engc := { engine := e, faultCode := .none, slotCount := 2, loading := none } }

def request (a : Access) (addr : Word) (d : Option Word) : Request :=
  { access := a, addr := addr, data := d, abandoned := false, instant := 0 }

/-- One request is on the order list. -/
def asking (q : Request) (s : State) : State := { s with mport := [q] }

def working (p : Piece) (w : Work) (s : State) : State :=
  { s with smon := { s.smon with piece := some (p, w) } }

def waiting (p : Piece) (s : State) : State := { s with smon := { s.smon with waiting := [p] } }

def counting (k : CountKind) (q : Requester) (s : State) : State :=
  { s with smon := { s.smon with counts := [{ kind := k, requester := q }] } }

def loadingAt (x : Loading) (s : State) : State := { s with engc := { s.engc with loading := some x } }

/-- SMON's mirror of slot 1 stands in a state, with a lane or none, at post 5. -/
def mirrored (m : MirrorState) (l : Option LaneId) (s : State) : State :=
  s.setMirror 1 { knownSeq := 5, state := m, lane := l, settleCopy := 0, pendingOutcome := none }

/-- Lane 0 has a plan of slot 1, post 5, that claims output line 0. -/
def busy (x : Lane) (s : State) : State :=
  mirrored .running (some 0) { s with
    lanes := s.lanes.set 0 x
    admu := { s.admu with
      pool := s.admu.pool.set 0 false
      claims := s.admu.claims.set 0 { owner := some 0, reservation := none } }
    outd := s.outd.set 0 { level := true, idle := false, keep := false, claimer := some 0 } }

def ask (kind line mode arg : Byte) (a b : Word) : StepReq :=
  { kind := kind, line := line, mode := mode, arg := arg, paramA := a, paramB := b }

/-- A lane in STEPPING at the first of two equal steps. -/
def stepping (t : StepReq) (a : Activity) : Lane :=
  { Lane.empty with
    state := .stepping, slot := 1, seq := 5, stepCount := 2, passes := 1, outMask := 1, claimed := 1,
    steps := [t, t], activity := a, startTick := 10 }

def aResult : StepResult := { step := 0, code := .ok, value := 7, stamp := 9, aux := 1, pass := 1 }

/-- Input line 2, its level 0 so far, has completed a run of samples at 1 that began at epoch 18. -/
def edge (s : State) : State :=
  { s with inc := { s.inc with
      sampling := true
      lines := s.inc.lines.set 2 { filterCode := 0, accepted := false, run := 1, runStart := 18 } } }

def good : BusReturn := { hostWrites := [], pins := 0, pick := 0, reply := .ok, atStall := none }

def bad : BusReturn := { good with reply := .error 0 }

/-- The host wrote a word before this read came back. -/
def goodWith (addr data : Word) : BusReturn := { good with hostWrites := [{ addr := addr, data := data }] }

def noBus : OnBus := { pick := 0, reply := .ok }

def noTick : TickInput := { pins := 0, order := [] }

/-- A CONTROL write taken after what is due at its instant, and one taken before. -/
def late (w : Word) : PlacedWrite := { word := w, early := false, hostWrites := [] }

def soon (w : Word) : PlacedWrite := { word := w, early := true, hostWrites := [] }

/-- The request at the front of the order list, what its return meets, and the word it brings. -/
def front (s : State) : Request := s.mport.headD (request .config 0 none)

def met (s : State) (r : BusReturn) : State := s.afterReturn r (front s) s.mport.tail

def wordBack (s : State) (r : BusReturn) : Word := s.wordReturned r (front s) s.mport.tail

/-- A return brings the request at the front back, an access of this kind that nobody has given up. -/
def Brings (s : State) (r : BusReturn) (a : Access) : Prop :=
  Returns s r (front s) s.mport.tail ∧ (front s).access = a ∧ (front s).abandoned = false

/-- Slot 1's entry, eligible or still to be, with its posting's flags. -/
def entry (flags slack : Word) (eligible : Bool) : Entry :=
  { slot := 1, seq := 5, discovery := 1, eligible := eligible,
    posting := { stepCount := 1, priority := 0, outMask := 1, passes := 1, flags := flags, window := 0,
                 startEpoch := 20, slack := slack } }

def queued (e : Entry) (s : State) : State :=
  mirrored .queued none { s with admu := { s.admu with queue := [e] } }

/-- The next state of a command on a small state. -/
def after (c : Instr) (s : State) : State :=
  match Machine.step { s with pending := [c] } with
  | .next t => t
  | _ => s

/-! ## Well-formedness: an ill-formed term for each check -/

theorem test_wf_enableRequest : Instr.wf (.enableRequest 0) = false ∧ Instr.wf (.enableRequest 3) = false ∧
    Instr.wf (.enableRequest 1) = true := by decide

theorem test_wf_disable : Instr.wf (.disable (late 1)) = false ∧ Instr.wf (.disable (late 2)) = false ∧
    Instr.wf (.disable { late 0 with hostWrites := [{ addr := 0x1261, data := 6 }] }) = false ∧
    Instr.wf (.disable { late 0 with hostWrites := [{ addr := 0x1260, data := 6 }] }) = true ∧
    Instr.wf (.disable (soon 0)) = true := by decide

theorem test_wf_softreset : Instr.wf (.softreset 1 noBus) = false ∧ Instr.wf (.softreset 2 noBus) = true := by
  decide

theorem test_wf_control_fields : Instr.wf (.tickdiv 2) = false ∧ Instr.wf (.sweep 2 false) = false ∧
    Instr.wf (.mask 2) = false ∧ Instr.wf (.mask 0xF00) = true := by decide

theorem test_wf_ignoredRegisterWrite : Instr.wf (.ignoredRegisterWrite 0x0C 0) = false ∧
    Instr.wf (.ignoredRegisterWrite 0x11 0) = false ∧ Instr.wf (.ignoredRegisterWrite 0x10 0) = true ∧
    Instr.wf (.ignoredRegisterWrite 0x3C 0) = true := by decide

/-- A host write that is no aligned word is refused in every command that carries a return. -/
theorem test_wf_returns : [Instr.configurationCheck, .lineTableReload, .slotVisit, .discovery,
    fun r => .take r false, .settleWrite, .counterWrite, .loadingRead, .configAckWrite, .loadRead,
    .preWriteCheck, .resultWrite, .check, .qualifierRead].all
      (fun c => !(c (goodWith 0x1001 0)).wf && (c (goodWith 0x1000 0)).wf) = true := by decide

/-- No row of the table gives bits, so no word spells a command. -/
theorem test_no_word_spells_a_command (n w : Nat) : decodeTableWord n w = none := rfl

/-! ## The hypotheses of the statements are met -/

/-! ### Machine, memory, invariants -/

theorem test_meets_FrontCommandRuns :
    ({ part .off with pending := [.drainEnd, .eligible] } : State).pending = .drainEnd :: [.eligible] := rfl

theorem test_meets_EmptyQueueIdles : (part .running).pending = [] := rfl

/-- SMON's write of taken_epoch for slot 1 is on the bus. -/
def takeJob : TakeJob :=
  { slot := 1, post := 6, posting := (entry 0 0 true).posting, refusal := none }

def takingEpoch : State :=
  asking (request .takeEpoch 0x1280 (some 20)) (working (.visit 1) (.takeEpoch takeJob) (part .running))

/-- A settle of SMON's for slot 1, in its last write. -/
def settleJob : SettleJob :=
  { slot := 1, seq := 5, outcome := .late, notify := true, settledEpoch := 19, discover := none }

/-- A write of SMON's settle is on the bus, and behind it a word of the counter set. -/
def twoWrites : State :=
  { working (.removal 1 .late true) (.settle settleJob 3) (part .running) with
    mport := [request .smonSettle 0x1264 (some 0), request .counter 0x1008 (some 6)] }

/-- The first write fails, and the second is under way then and lands. -/
def failsWithSecond : BusReturn := { bad with atStall := some noBus }

/-- A command that carries nothing, one that brings a write back, one that stalls the engine with a second
write under way, and two that meet a write on the bus. -/
theorem test_meets_MemoryChangesOnlyByTheAccess :
    ((∃ t, exec .resetRelease takingEpoch = .next t ∧ t.mem = takingEpoch.mem) ∧
      busReturnOf .resetRelease = none ∧ onBusOf .resetRelease = none) ∧
    ((∃ t, exec (.take good false) takingEpoch = .next t ∧ Memory.read t.mem 0x1280 = 20) ∧
      busReturnOf (.take good false) = some good) ∧
    ((∃ t, exec (.settleWrite failsWithSecond) twoWrites = .next t ∧ t.engc.engine = .stalled ∧
        Memory.read t.mem 0x1008 = 6) ∧
      pickRequest twoWrites.mport.tail noBus.pick = some (request .counter 0x1008 (some 6), [])) ∧
    ((∃ t, exec (.softreset 2 noBus) takingEpoch = .next t ∧ Memory.read t.mem 0x1280 = 20) ∧
      onBusOf (.softreset 2 noBus) = some noBus ∧
      pickRequest takingEpoch.settled.mport noBus.pick =
        some (request .takeEpoch 0x1280 (some 20), [])) ∧
    ((∃ t, exec (.disable (soon 2)) takingEpoch = .next t ∧ Memory.read t.mem 0x1280 = 20) ∧
      pickRequest (takingEpoch.metBy (.disable (soon 2))).mport 0 =
        some (request .takeEpoch 0x1280 (some 20), [])) ∧
    (∃ t, exec (.disable { late 0 with hostWrites := [{ addr := 0x1260, data := 6 }] }) takingEpoch = .next t ∧
      Memory.read t.mem 0x1260 = 6 ∧ onBusOf (.disable (late 0)) = some noBus) ∧
    (let a := request .config 0x1004 none
     let b := { request .counter 0x1008 (some 6) with instant := 1 }
     (1 < [a, a, b].length ∧ (∀ x ∈ [a, a, b].take 2, x.instant = a.instant)) ∧
      (¬ ∀ x ∈ [a, a, b].take 3, x.instant = a.instant) ∧ ¬ 3 < [a, a, b].length) := by
  refine ⟨?_, ?_, ?_, ?_, ?_, ⟨_, rfl, by decide⟩, by decide⟩
  · exact And.intro ⟨_, rfl, by decide⟩ (by decide)
  · exact And.intro ⟨_, rfl, by decide⟩ (by decide)
  · exact And.intro ⟨_, rfl, by decide⟩ (by decide)
  · exact And.intro ⟨_, rfl, by decide⟩ (by decide)
  · exact And.intro ⟨_, rfl, by decide⟩ (by decide)

/-- A read; and a write, with the addresses just below and just above its word. -/
theorem test_meets_AccessChangesOnlyItsWord :
    (request .config 0x1004 none).data = none ∧
    (0x1007 < wordAddr (request .counter 0x1008 (some 5)).addr ∧
      wordAddr (request .counter 0x1008 (some 5)).addr + 4 ≤ 0x100C) ∧
    ((request .counter 0x1008 (some 5)).data = some 5 ∧ Memory.wf [(0x1009, 1)] = true) := by decide

/-- A command of no clause's exceptions; a return and a tick boundary, each with levels of its own. -/
theorem test_meets_ConfigurationChangesOnlyByItsWrites :
    ((∃ t, exec (.nudge 0) (part .running) = .next t) ∧ (∀ w, Instr.nudge 0 ≠ .areaWrite w) ∧
      (∀ b, Instr.nudge 0 ≠ .hardwareReset b) ∧ onBusOf (.nudge 0) = none ∧ busReturnOf (.nudge 0) = none ∧
      ∀ x, Instr.nudge 0 ≠ .tickBoundary x) ∧
    ((∀ r, Instr.nudge 0 ≠ .slotVisit r) ∧ (∀ r f, Instr.nudge 0 ≠ .take r f) ∧
      ∀ r, Instr.nudge 0 ≠ .loadingRead r) ∧
    (∃ t, exec (.take { good with pins := 5 } false) takingEpoch = .next t ∧ t.inc.pins = 5) ∧
    ∃ t, exec (.tickBoundary { noTick with pins := 6 }) (part .running) = .next t ∧ t.inc.pins = 6 := by
  refine And.intro (And.intro ⟨_, rfl⟩ ?_) (And.intro ?_ (And.intro ⟨_, rfl, by decide⟩ ⟨_, rfl, by decide⟩))
  · simp [onBusOf, busReturnOf]
  · simp

/-- The same with bytes in memory, and the return at the front of the queue. -/
def takingOver : State :=
  { takingEpoch with mem := [(0x1280, 1), (0x1283, 9)], pending := [.take good false] }

theorem test_meets_MemoryStaysCanonical :
    takingOver.MemoryCanonical ∧ ∃ t, Machine.step takingOver = .next t :=
  ⟨by unfold State.MemoryCanonical; decide, _, rfl⟩

/-- AREA not 0, the highest divisor code and sixteen slots. -/
def fullPart : State :=
  { part .running with
    pending := [.tickBoundary noTick]
    regp := { (part .running).regp with tickdiv := 4 }
    engc := { (part .running).engc with slotCount := 16 } }

theorem test_meets_RegisterFieldsStayLegal :
    fullPart.AreaAligned ∧ fullPart.DivisorLegal ∧ fullPart.SlotCountLegal ∧
      ∃ t, Machine.step fullPart = .next t := by
  unfold State.AreaAligned State.DivisorLegal State.SlotCountLegal
  exact ⟨by decide, by decide, by decide, _, rfl⟩

/-- A lane that runs a step with one result still to be written, and one that waits with two. -/
def busyPart (t : StepReq) (a : Activity) (n : Nat) : State :=
  { busy { stepping t a with list := List.replicate n aResult } (part .running) with
    pending := [.tickBoundary noTick] }

theorem test_meets_WriteBehindListsStayBounded :
    ((busyPart (ask 1 0 0 0 9 0) .hold 1).ListsBounded ∧
      (busyPart (ask 1 0 0 0 9 0) (.wait 1 false false) 2).ListsBounded) ∧
    (∃ t, Machine.step (busyPart (ask 1 0 0 0 9 0) .hold 1) = .next t) ∧
    ∃ t, Machine.step (busyPart (ask 1 0 0 0 9 0) (.wait 1 false false) 2) = .next t := by
  refine And.intro (And.intro ?_ ?_) (And.intro ⟨_, rfl⟩ ⟨_, rfl⟩)
  · intro l
    constructor <;> (revert l; decide)
  · intro l
    constructor <;> (revert l; decide)

theorem test_meets_ClaimsStayInAgreement :
    (queued (entry 4 0 false) (busyPart (ask 1 0 0 0 9 0) .hold 1)).ClaimsAgree ∧
      ∃ t, Machine.step (queued (entry 4 0 false) (busyPart (ask 1 0 0 0 9 0) .hold 1)) = .next t := by
  refine And.intro ?_ ⟨_, rfl⟩
  constructor <;> first | decide | (unfold State.OneEntryPerSlot; decide)

/-! ### Resets and the register port -/

theorem test_meets_ResetsTakeUnitsToResetValues :
    (part .running).settled.mport = [] ∧
    pickRequest takingEpoch.settled.mport noBus.pick = some (request .takeEpoch 0x1280 (some 20), []) ∧
    takingEpoch.regp.resetLow = false ∧ softResetBit 2 = true ∧ softResetBit 0xFFFFFFFF = true := by decide

theorem test_meets_AreaAndCauseWritesTakeEffect :
    (part .off).regp.resetLow = false ∧ (part .off).settled.engc.engine = .off ∧
    (part .running).regp.resetLow = false ∧ (part .running).settled.engc.engine ≠ .off := by decide

/-- Cause bits 0 and 3 stand, and MASK has bit 3. -/
def caused : State := { part .running with regp := { (part .running).regp with cause := 9, mask := 8 } }

theorem test_meets_IrqFollowsCauseAndMask :
    (caused.irq = true ∧ (part .running).irq = false) ∧
    (caused.regp.cause = { caused with mem := [(0, 1)] }.regp.cause) ∧
    (caused.regp.resetLow = false ∧ softResetBit 0x100 = false ∧
      [Instr.mask 0x100, .disable (late 0x100), .disable (soon 0x100), .enableRequest 0x100, .tickdiv 0x100,
        .sweep 0x100 false, .sweep 0x100 true].all (fun c => (caused.metBy c).regp.cause.getLsbD 0) = true ∧
      (0x100 : Word).getLsbD (8 + 0) = true) ∧
    (causeStall.getLsbD 3 = true ∧ caused.regp.mask.getLsbD 3 = true) ∧
    ((∃ t, exec (.causeClear 8) caused = .next t) ∧
      caused.regp.cause &&& caused.regp.mask &&& ~~~ ((8 : Word).extractLsb' 0 4) = 0) ∧
    (∃ t, exec (.hardwareReset noBus) caused = .next t) ∧
    (softResetBit 2 = true ∧ ∃ t, exec (.softreset 2 noBus) caused = .next t) := by
  and_intros
  all_goals first | decide | exact ⟨_, rfl⟩

/-- The sweep timer has reached the period of code 1. -/
def timerAtPeriod (e : Engine) : State :=
  { part e with
    regp := { (part e).regp with sweep := 1 }
    tbu := { (part e).tbu with timer := 1024 } }

theorem test_meets_NudgeAndTimerRequestSweeps :
    ((part .running).settled.engc.engine = .running ∧ (part .loading).settled.engc.engine ≠ .running) ∧
    ((timerAtPeriod .running).timerDue = true ∧ (timerAtPeriod .running).engc.engine = .running) ∧
    ((timerAtPeriod .draining).timerDue = true ∧ (timerAtPeriod .draining).engc.engine ≠ .running) ∧
    ((timerAtPeriod .off).timerDue = true ∧ (part .running).timerDue = false) ∧
    [(1, 1023, false), (1, 1024, true), (2, 16383, false), (2, 16384, true), (3, 262143, false),
      (3, 262144, true), (0, 262144, false)].all (fun (c, n, due) =>
        ({ part .running with regp := { RegPort.reset with sweep := c }
                              tbu := { Timebase.reset with timer := n } } : State).timerDue == due) = true := by
  decide

theorem test_meets_IgnoredAndRefusedAccesses :
    ((part .off).regp.resetLow = false ∧ 0x10 ≤ (0x10 : BitVec 6).toNat ∧ (0x10 : BitVec 6).toNat % 4 = 0 ∧
      0x10 ≤ (0x3C : BitVec 6).toNat ∧ (0x3C : BitVec 6).toNat % 4 = 0) ∧
    ({ part .off with regp := { RegPort.reset with resetLow := true } } : State).regp.resetLow = true ∧
    AccessSize.byte ≠ .word ∧ (0x3F : BitVec 6).toNat % 4 ≠ 0 := by decide

theorem test_meets_RegistersReadTheirFields :
    (part .off).regp.resetLow = false ∧ 0x18 ≤ (0x18 : BitVec 6).toNat ∧ (0x18 : BitVec 6).toNat % 4 = 0 ∧
    (0x01 : BitVec 6).toNat % 4 ≠ 0 := by decide

/-- Codes 4, taken in OFF, and 5, not taken; a write that changes SWEEP and one that does not; and a write in
RUNNING with the timer's expiry still due. -/
theorem test_meets_TickdivAndSweepWritesTakeEffect :
    (part .off).regp.resetLow = false ∧ softResetBit 0x10 = false ∧
    ((part .off).settled.engc.engine = .off ∧ ((0x10 : Word).extractLsb' 2 3).toNat ≤ 4) ∧
    ¬ ((0x14 : Word).extractLsb' 2 3).toNat ≤ 4 ∧
    (0x20 : Word).extractLsb' 5 2 ≠ (part .off).regp.sweep ∧
    (0x1F : Word).extractLsb' 5 2 = (part .off).regp.sweep ∧
    ((timerAtPeriod .running).timerDue = true ∧ (timerAtPeriod .running).engc.engine = .running ∧
      softResetBit 0x41 = false ∧ enableBit 0x41 = true ∧
      (0x41 : Word).extractLsb' 5 2 ≠ (timerAtPeriod .running).regp.sweep) := by decide

theorem test_meets_EnableRequestIsJudgedByArea :
    (enableBit 1 = true ∧ softResetBit 1 = false) ∧
    (State.reset.regp.resetLow = false ∧ State.reset.settled.engc.engine = .off ∧
      State.reset.regp.area = 0) ∧
    ((part .off).settled.engc.engine = .off ∧ (part .off).regp.area ≠ 0) ∧
    (part .stalled).settled.engc.engine ≠ .off := by decide

def loadingX (p : LoadPhase) : Loading := { Loading.start with phase := p, magic := 0x4C4A4804#32 }

/-- Every engine state, written to after and before what is due; and in RUNNING each thing that keeps the
engine in DRAINING, and none of them. -/
theorem test_meets_DisableByEngineState :
    (enableBit 0 = false ∧ softResetBit 0 = false ∧ (part .off).regp.resetLow = false) ∧
    ([late 0, soon 0].all (fun w =>
      ((part .off).metBy (.disable w)).engc.engine == .off &&
        ((part .draining).metBy (.disable (soon 0))).engc.engine == .draining &&
        ((part .stalled).metBy (.disable w)).engc.engine == .stalled &&
        ((part .running).metBy (.disable w)).engc.engine == .running &&
        ((loadingAt (loadingX .slots) (part .loading)).metBy (.disable w)).engc.engine == .loading &&
        ((loadingAt (loadingX .slots) (part .loading)).metBy (.disable w)).engc.loading ==
          some (loadingX .slots)) = true) ∧
    ((timerAtPeriod .running).timerDue = true ∧
      ((timerAtPeriod .running).metBy (.disable (soon 0))).timerDue = true ∧
      ((timerAtPeriod .running).metBy (.disable (late 0))).timerDue = false) ∧
    ((busyPart (ask 1 0 0 0 9 0) .hold 1).metBy (.disable (late 0))).admu.pool[0] = false ∧
    ((queued (entry 4 0 false) { part .running with
      tbu := { prescaler := 0, epoch := 19, timer := 0 } }).metBy (.disable (late 0))).admu.queue ≠ [] ∧
    ((working .config .config (part .running)).metBy (.disable (late 0))).smon.piece ≠ none ∧
    ((counting .tear (.lane 0) (part .running)).metBy (.disable (late 0))).smon.counts ≠ [] ∧
    ((waiting (.completion 1) (part .running)).metBy (.disable (soon 0))).smon.waiting = [.completion 1] ∧
    ((waiting (.visit 1) (part .running)).metBy (.disable (soon 0))).smon.waiting = [.visit 1] := by decide

/-- A queue that holds an entry, a busy lane, a claimed line, reservations for the entry and for a slot that has
none, and a kept line. -/
def drainable : State :=
  { busy (stepping (ask 1 0 0 0 9 0) .hold) (part .running) with
    admu := { (busy (stepping (ask 1 0 0 0 9 0) .hold) (part .running)).admu with
      queue := [entry 4 0 false]
      claims := #v[{ owner := some 0, reservation := some 1 }, { owner := none, reservation := some 2 },
        Claim.reset, Claim.reset] }
    tbu := { prescaler := 0, epoch := 19, timer := 0 }
    outd := (busy (stepping (ask 1 0 0 0 9 0) .hold) (part .running)).outd.set 3
      { level := true, idle := false, keep := true, claimer := none } }

theorem test_meets_DrainEntryHaltsEverything :
    let a := drainable.metBy (.disable (late 0))
    let b := (waiting (.visit 1) drainable).metBy (.disable (soon 0))
    (a.engc.engine = .running ∧ a.admu.queue = [entry 4 0 false] ∧
      (a.admu.queue.map Entry.slot).Nodup ∧ (a.lane 0).state ≠ .free ∧
      (a.outd[0]).claimer ≠ none ∧ (a.admu.claims[0]).reservation = some 1 ∧
      (∀ e ∈ a.admu.queue, (a.admu.claims[1]).reservation ≠ some e.slot) ∧
      ((a.outd[3]).claimer = none ∧ (a.outd[3]).keep = true) ∧ a.smon.piece = none) ∧
    (b.engc.engine = .running ∧ (b.admu.queue.map Entry.slot).Nodup ∧
      b.smon.waiting = [.visit 1]) ∧
    ((working (.visit 1) (.visit 1) drainable).metBy (.disable (late 0))).smon.piece =
      some (.visit 1, .visit 1) := by decide

/-! ### Ticks, inputs and steps -/

/-- Lane 0 in a state, with the flags that a boundary looks at. -/
def flagged (st : LaneState) (tear recalled halted : Bool) : State :=
  busy { stepping (ask 1 0 0 0 9 0) .hold with
    state := st, tear := tear, recallFlag := recalled, halt := halted } (part .running)

theorem test_meets_TickBoundaryAdvancesEpochAndSamples :
    ((part .running).settled.ticking = true ∧ (part .off).settled.ticking = false ∧
      Actor.timer ∉ noTick.order) ∧
    ((part .running).settled.inc.sampling = false ∧ (edge (part .running)).settled.inc.sampling = true) ∧
    ((flagged .stepping false false false).settled.admu.pool[0] = false ∧
      ((flagged .stepping false false false).settled.lane 0).tear = false ∧
      ((flagged .stepping false false false).settled.lane 0).recallFlag = false ∧
      ((flagged .stepping false false false).settled.lane 0).halt = false) ∧
    (((flagged .stepping true true false).lane 0).tear = true ∧
      ((flagged .loading false true false).lane 0).recallFlag = true ∧
      ((flagged .loading false true false).lane 0).state = .loading ∧
      ((flagged .stepping false false true).lane 0).halt = true ∧
      ((flagged .stepping false false true).lane 0).state = .stepping ∧
      ((flagged .closing false false true).lane 0).state ≠ .loading ∧
      ((flagged .closing false false true).lane 0).state ≠ .stepping) ∧
    (let s := { queued (entry 4 0 false) (part .running) with
      admu := { queue := [entry 4 0 false], claims := Vector.replicate 4 Claim.reset,
                pool := Vector.replicate 4 false } }
     s.engc.engine = .running ∧ (s.boundaryAct .admission).admu.queue = [entry 4 0 true] ∧
      eligibleAt s.tbu.epoch (entry 4 0 true).posting = true) ∧
    ((part .draining).engc.engine ≠ .running ∧ (part .running).timerDue = false ∧
      ((timerAtPeriod .running).timerDue = true ∧ (timerAtPeriod .running).engc.engine = .running) ∧
      (timerAtPeriod .draining).timerDue = true) ∧
    ((stepping (ask 1 0 0 0 9 0) (.wait 1 true false)).activity = .wait 1 true false ∧
      (∀ k skip due, (stepping (ask 1 0 0 0 9 0) .hold).activity ≠ .wait k skip due)) ∧
    ((false = InputLine.reset.accepted) ∧ true ≠ InputLine.reset.accepted ∧ InputLine.reset.run = 0 ∧
      ({ InputLine.reset with run := 1 } : InputLine).run ≠ 0) ∧
    (0 : Byte).toNat ≤ 4 ∧ (4 : Byte).toNat ≤ 4 := by
  and_intros
  all_goals first | decide | (intro k skip due h; cases h)

/-- The values at which the clauses meet: a distance of 0, of 2^31 − 1, of 2^31 and of 2^31 + 1. -/
theorem test_meets_ReachedJudgesByDistance :
    (0 : Word).toNat < 2147483648 ∧ (0x7FFFFFFF : Word).toNat < 2147483648 ∧
    (0 < (1 : Word).toNat ∧ (0x80000000 : Word).toNat ≤ 2147483648) ∧
    2147483648 < (0x80000001 : Word).toNat ∧ 2147483648 < (0xFFFFFFFF : Word).toNat ∧
    reached 5 6 = false := by decide

/-- Lane 0 waits on input line 2 with one kind of step. -/
def waitingOn (t : StepReq) (a : Activity) : State := edge (busy (stepping t a) (part .running))

theorem test_meets_AcceptedEdgeCompletesEdge :
    let rise := waitingOn (ask 3 2 1 0 0 0) .edge
    let fall := waitingOn (ask 3 2 2 0 0 0) .edge
    (rise.inc.edgeDue 2 = true ∧ (rise.lane 0).state = .stepping ∧ (rise.lane 0).fresh = false ∧
      (rise.lane 0).request.line.toNat = (2 : InLine).val ∧ (rise.lane 0).activity = .edge ∧
      directionMatches (rise.lane 0).request.mode (!(rise.inc.lines[2]).accepted) = true) ∧
    (fall.inc.edgeDue 2 = true ∧ (fall.lane 0).activity = .edge ∧
      directionMatches (fall.lane 0).request.mode (!(fall.inc.lines[2]).accepted) = false) ∧
    (((rise.setLane 0 { rise.lane 0 with fresh := true }).lane 0).fresh = true ∧ (rise.lane 1).state ≠ .stepping ∧
      (rise.lane 0).request.line.toNat ≠ (3 : InLine).val ∧ rise.inc.edgeDue 3 = false) ∧
    ([Activity.none, .wait 1 false false, .hold, .untilEpoch, .pulse 1 true, .check []].all (fun a =>
      let s := waitingOn (ask 1 2 1 0 9 0) a
      s.inc.edgeDue 2 && (s.lane 0).activity == a && (s.lane 0).state == .stepping &&
        (s.lane 0).request.line.toNat == (2 : InLine).val && !(s.lane 0).fresh &&
        (after (.acceptedEdge 2) s).lane 0 == s.lane 0) = true) := by decide

/-- WIDTH at its first and at its second edge, PERIOD at its first, at one more and at its last; and each of them
at an edge of the other direction. -/
theorem test_meets_SpansRunBetweenStamps :
    let enter := waitingOn (ask 4 2 1 0 0 0) .widthEnter
    let leave := waitingOn (ask 4 2 0 0 0 0) (.widthLeave 3)
    let first := waitingOn (ask 6 2 1 2 0 0) .periodFirst
    let more := waitingOn (ask 6 2 1 2 0 0) (.period 3 0 0)
    let last := waitingOn (ask 6 2 1 2 0 0) (.period 3 1 9)
    (enter.inc.edgeDue 2 = true ∧ (enter.lane 0).state = .stepping ∧ (enter.lane 0).fresh = false ∧
      (enter.lane 0).request.line.toNat = (2 : InLine).val ∧ (enter.lane 0).activity = .widthEnter ∧
      (!(enter.inc.lines[2]).accepted) = ((enter.lane 0).request.mode == 1)) ∧
    (leave.inc.edgeDue 2 = true ∧ (leave.lane 0).activity = .widthLeave 3 ∧
      (!(leave.inc.lines[2]).accepted) ≠ ((leave.lane 0).request.mode == 1)) ∧
    ((first.lane 0).activity = .periodFirst ∧
      directionMatches (first.lane 0).request.mode (!(first.inc.lines[2]).accepted) = true) ∧
    ((more.lane 0).activity = .period 3 0 0 ∧ 0 + 1 ≠ (more.lane 0).request.arg.toNat) ∧
    ((last.lane 0).activity = .period 3 1 9 ∧ 1 + 1 = (last.lane 0).request.arg.toNat) ∧
    ([waitingOn (ask 4 2 0 0 0 0) .widthEnter, waitingOn (ask 4 2 1 0 0 0) (.widthLeave 3),
      waitingOn (ask 6 2 2 2 0 0) .periodFirst, waitingOn (ask 6 2 2 2 0 0) (.period 3 0 0)].all (fun s =>
        s.inc.edgeDue 2 && decide ((s.lane 0).state = .stepping) && !(s.lane 0).fresh) = true ∧
      (!(enter.inc.lines[2]).accepted) ≠ 
        (((waitingOn (ask 4 2 0 0 0 0) .widthEnter).lane 0).request.mode == 1) ∧
      directionMatches 2 (!(first.inc.lines[2]).accepted) = false) := by decide

/-- A tally at its stop count, one short of it, one with no stop count, and one at its gate's end. -/
theorem test_meets_TallyCountsEdgesInItsGate :
    let t := waitingOn (ask 5 2 1 0 0 4) (.tally 3)
    let u := waitingOn (ask 5 2 1 0 0 0) (.tally 3)
    let g := busy { stepping (ask 5 2 1 0 6 0) (.tally 3) with counter := 6 } (part .running)
    (t.inc.edgeDue 2 = true ∧ (t.lane 0).state = .stepping ∧ (t.lane 0).fresh = false ∧
      (t.lane 0).request.line.toNat = (2 : InLine).val ∧ (t.lane 0).activity = .tally 3 ∧
      directionMatches (t.lane 0).request.mode (!(t.inc.lines[2]).accepted) = true ∧
      (t.lane 0).request.paramB ≠ 0 ∧ (3 : Word) + 1 = (t.lane 0).request.paramB) ∧
    ((u.lane 0).activity = .tally 3 ∧
      ¬ ((u.lane 0).request.paramB ≠ 0 ∧ (3 : Word) + 1 = (u.lane 0).request.paramB)) ∧
    (let f := waitingOn (ask 5 2 2 0 0 4) (.tally 3)
     f.inc.edgeDue 2 = true ∧ (f.lane 0).activity = .tally 3 ∧
      directionMatches (f.lane 0).request.mode (!(f.inc.lines[2]).accepted) = false) ∧
    ((g.acceptEdges.lane 0).state = .stepping ∧ (g.acceptEdges.lane 0).activity = .tally 3 ∧
      (g.acceptEdges.lane 0).counter = (g.acceptEdges.lane 0).request.paramA) := by decide

theorem test_meets_HoldAndUntilComplete :
    let h := busy { stepping (ask 1 0 0 0 9 0) .hold with counter := 9 } (part .running)
    let u := busy (stepping (ask 2 0 0 0 20 0) .untilEpoch) (part .running)
    ((h.lane 0).state = .stepping ∧ (h.lane 0).activity = .hold ∧
      (h.lane 0).counter = (h.lane 0).request.paramA) ∧
    ((u.lane 0).state = .stepping ∧ (u.lane 0).activity = .untilEpoch ∧ (u.lane 0).fresh = false ∧
      reached u.tbu.epoch (u.lane 0).request.paramA = true) := by decide

/-- A pulse at the end of its active phase, of a rest phase, and of the last rest phase. -/
def pulsing (n : Nat) (active : Bool) (c : Word) : State :=
  busy { stepping (ask 8 0 0 2 3 4) (.pulse n active) with counter := c } (part .running)

theorem test_meets_PulsePhases :
    ((pulsing 0 true 3).lane 0).state = .stepping ∧
    (((pulsing 0 true 3).lane 0).activity = .pulse 0 true ∧
      ((pulsing 0 true 3).lane 0).counter = ((pulsing 0 true 3).lane 0).request.paramA) ∧
    (((pulsing 1 false 4).lane 0).activity = .pulse 1 false ∧
      ((pulsing 1 false 4).lane 0).counter = ((pulsing 1 false 4).lane 0).request.paramB ∧
      1 ≠ ((pulsing 1 false 4).lane 0).request.arg.toNat) ∧
    (((pulsing 2 false 4).lane 0).activity = .pulse 2 false ∧
      ((pulsing 2 false 4).lane 0).counter = ((pulsing 2 false 4).lane 0).request.paramB ∧
      2 = ((pulsing 2 false 4).lane 0).request.arg.toNat) := by decide

/-- A step whose plan's window of 7 has run out. -/
def expired (t : StepReq) (a : Activity) : State :=
  busy { stepping t a with window := 7, windowCounter := 7 } (part .running)

/-- A span counter at its end. -/
def spanFull (t : StepReq) (a : Activity) : State :=
  busy { stepping t a with spanCounter := 0xFFFFFFFF } (part .running)

/-- EDGE with no edge and with one of the other direction at that boundary, the other kinds, GO_ON_TIMEOUT set
and clear; and spans at their end. -/
theorem test_meets_WindowAndOverrangeEndSteps :
    let quiet := expired (ask 3 2 1 0 0 0) .edge
    let other := edge (expired (ask 3 2 2 0 0 0) .edge)
    let goOn := busy { stepping (ask 3 2 1 0 5 5) .edge with flags := 8, windowCounter := 5 } (part .running)
    ([quiet, other, goOn].all (fun s => decide (
      (s.acceptEdges.lane 0).state = .stepping ∧ (s.acceptEdges.lane 0).windowOf ≠ 0 ∧
      (s.acceptEdges.lane 0).windowCounter = (s.acceptEdges.lane 0).windowOf ∧
      (s.acceptEdges.lane 0).activity = .edge)) = true ∧
      (other.acceptEdges.inc.lines[2]).accepted = true ∧
      (goOn.acceptEdges.lane 0).flags.getLsbD 3 = true ∧
      (quiet.acceptEdges.lane 0).flags.getLsbD 3 = false) ∧
    ([(4, .widthEnter), (4, .widthLeave 3), (6, .periodFirst), (6, .period 3 1 9)].all
      (fun (k, a) => decide (
        ((expired (ask k 2 1 2 0 0) a).acceptEdges.lane 0).state = .stepping ∧
        ((expired (ask k 2 1 2 0 0) a).acceptEdges.lane 0).windowOf = 7 ∧
        ((expired (ask k 2 1 2 0 0) a).acceptEdges.lane 0).windowCounter = 7 ∧
        ((expired (ask k 2 1 2 0 0) a).acceptEdges.lane 0).spanCounter ≠ 0xFFFFFFFF ∧
        ((expired (ask k 2 1 2 0 0) a).acceptEdges.lane 0).activity = a)) = true) ∧
    ((∀ i : InLine, quiet.inc.edgeDue i = false) ∧ other.inc.edgeDue 2 = true ∧
      other.inc.edgeDue 3 = false) ∧
    ([(4, .widthLeave 3), (6, .period 3 1 9)].all (fun (k, a) => decide (
      ((spanFull (ask k 2 1 2 0 0) a).acceptEdges.lane 0).state = .stepping ∧
      ((spanFull (ask k 2 1 2 0 0) a).acceptEdges.lane 0).spanCounter = 0xFFFFFFFF ∧
      ((spanFull (ask k 2 1 2 0 0) a).acceptEdges.lane 0).activity = a)) = true) := by decide

/-- A lane whose load is good, at its tick of completion, with a first step of a kind. -/
def loadedLane (kind : Byte) : State :=
  busy { stepping (ask kind 0 0 0 9 0) .none with
    state := .loading, loaded := true, loadDue := true } (part .running)

theorem test_meets_LoadCompletionBeginsStepZero :
    [1, 9].all (fun k =>
      ((loadedLane k).lane 0).state = .loading && ((loadedLane k).lane 0).loaded &&
        ((loadedLane k).lane 0).loadDue && !((loadedLane k).lane 0).tear &&
        1 ≤ (((loadedLane k).lane 0).steps.getD 0 StepReq.zero).kind.toNat &&
        (((loadedLane k).lane 0).steps.getD 0 StepReq.zero).kind.toNat ≤ 9) = true := by decide

/-- A lane with one result still to be written waits at step 1, of a kind, at a boundary. -/
def beginning (kind : Byte) (skip : Bool) : State :=
  busy { stepping (ask kind 0 1 0 9 0) (.wait 1 skip true) with list := [aResult] } (part .running)

/-- Lane 0 with one result still to be written waits at step k at a boundary. -/
def beginningAt (t : StepReq) (k : Nat) (skip : Bool) : State :=
  busy { stepping t (.wait k skip true) with list := [aResult] } (part .running)

/-- Lane 0 waits at a SET of its line, at level 0, to 1, which a SET of the line to 0 follows, at a boundary. -/
def twoSets : State :=
  let s := busy { stepping (ask 7 0 1 0 0 0) (.wait 0 false true) with
    steps := [ask 7 0 1 0 0 0, ask 7 0 0 0 0 0] } (part .running)
  { s with outd := s.outd.set 0 { level := false, idle := false, keep := false, claimer := some 0 } }

theorem test_meets_StepBegins :
    ((beginning 1 true).lane 0).activity = .wait 1 true true ∧
    ([1, 2, 3, 4, 5, 6, 7, 8, 9].all (fun kind => [0, 1].all (fun k =>
      let s := beginningAt (ask kind 0 1 0 9 0) k false
      (s.lane 0).state = .stepping && !(s.lane 0).tear && (s.lane 0).list.length < 2 &&
        (s.lane 0).activity = .wait k false true &&
        ((s.lane 0).steps.getD k StepReq.zero).kind == kind)) = true) ∧
    ((ask 1 0 0 0 0 0).paramA = 0 ∧ (ask 1 0 0 0 9 0).paramA ≠ 0 ∧
      reached (part .running).tbu.epoch (ask 2 0 0 0 20 0).paramA = true ∧
      reached (part .running).tbu.epoch (ask 2 0 0 0 21 0).paramA = false) ∧
    (((beginningAt (ask 7 0 1 0 0 0) 1 false).outd[0]).claimer = some 0 ∧
      (ask 7 0 1 0 0 0).outLine = 0 ∧ (ask 8 0 1 0 0 0).outLine = 0) ∧
    ((part .running).nextDue = none ∧
      (finishLoop 127 (Due.act twoSets (.stepBegin 0))).nextDue = none) ∧
    (let t := after (.stepBegin 0) twoSets
     twoSets.nextDue = some (.stepBegin 0) ∧ t.nextDue = some (.stepBegin 0) ∧
      (after (.stepBegin 0) t).nextDue = none ∧ (twoSets.outd[0]).claimer = some 0 ∧
      (twoSets.lane 0).list = [] ∧ (twoSets.lane 0).activity = .wait 0 false true ∧
      ((twoSets.lane 0).steps.getD 0 StepReq.zero).outLine = 0 ∧
      ((twoSets.lane 0).steps.getD 1 StepReq.zero).outLine = 0 ∧ 0 + 1 ≠ (twoSets.lane 0).stepCount.toNat) := by
  decide

/-- A running step, a PULSE with its line, a step that waits, and a load with its read on the bus. -/
theorem test_meets_RecallOrHaltEndsTheRunningStep :
    let h := busy { stepping (ask 1 0 0 0 9 0) .hold with recallFlag := true, halt := true } (part .running)
    let p := busy { stepping (ask 8 0 0 2 3 4) (.pulse 1 true) with recallFlag := true } (part .running)
    let w := busy { stepping (ask 1 0 0 0 9 0) (.wait 1 false true) with recallFlag := true } (part .running)
    let d := asking (request (.loadStep 0) 0x12A0 none)
      (busy { stepping (ask 1 0 0 0 9 0) .none with state := .loading, halt := true } (part .draining))
    let c := waitingOn (ask 5 2 1 0 9 0) (.tally 3)
    let q := asking (request (.qualifier 0 true) 0x104C none)
      (busy { stepping (ask 9 0 0 0 0 0) (.check [1, 2, 3]) with recallFlag := true } (part .running))
    ((q.lane 0).activity = .check [1, 2, 3] ∧ ((q.completeRunning 0).lane 0).activity.isRunning = true ∧
      (q.flaggedBoundary 0).mport.any (fun r => r.access == .qualifier 0 true) = true) ∧
    ((h.lane 0).state = .stepping ∧ (h.lane 0).activity.isRunning = true ∧
      ((h.completeRunning 0).lane 0).activity.isRunning = true ∧
      ∀ n b, (h.lane 0).activity ≠ .pulse n b) ∧
    ((c.lane 0).state = .stepping ∧ (c.completeRunning 0).lane 0 = stepping (ask 5 2 1 0 9 0) (.tally 4)) ∧
    ((p.lane 0).activity = .pulse 1 true ∧ ((p.completeRunning 0).lane 0).activity.isRunning = true ∧
      (p.outd[(p.lane 0).request.outLine]).claimer = some 0) ∧
    ((w.lane 0).state = .stepping ∧ (w.lane 0).activity = .wait 1 false true) ∧
    ((d.lane 0).state = .loading ∧ (d.lane 0).activity = .none ∧
      (d.flaggedBoundary 0).mport.any (fun q => q.access == .loadStep 0) = true) := by
  and_intros
  all_goals first | decide | (intro n b h; cases h)

/-- Lane 0 at its second step, at the boundary that completes it, in a plan of two steps and `passes` passes. -/
def finishing (t next : StepReq) (a : Activity) (passes : Byte) : State :=
  busy { stepping t a with
    step := 0, steps := [t, next], passes := passes, recallFlag := true, counter := 9, windowCounter := 9 }
    (part .running)

/-- Each completion at the flag's boundary; then the step that follows: one that is no instant step, one that is,
and one that is and concludes the plan. -/
theorem test_meets_RecallOrHaltLetsTheStepComplete :
    let hold := ask 1 0 0 0 9 0
    let h := finishing hold hold .hold 1
    let i := finishing hold (ask 7 0 1 0 0 0) .hold 1
    let j := finishing hold (ask 7 0 1 0 0 0) .hold 2
    let d := finishing (ask 3 0 1 0 0 9) hold .edge 1
    let spans := spanFull (ask 4 2 1 0 0 0) (.widthLeave 3)
    let e := waitingOn (ask 3 2 1 0 0 0) .edge
    (([h, i, j, d, spans, pulsing 2 false 4, finishing (ask 2 0 0 0 20 0) hold .untilEpoch 1,
        finishing (ask 5 0 1 0 9 0) hold (.tally 3) 1].all (fun s => decide (
      (s.lane 0).state = .stepping ∧ (∀ i : InLine, s.inc.edgeDue i = false) ∧
      (s.lane 0).activity.isRunning = true ∧
      ((s.completeRunning 0).lane 0).activity.isRunning = false))) = true) ∧
    (e.inc.edgeDue 2 = true ∧ (e.lane 0).request.line.toNat = (2 : InLine).val ∧
      (e.completeRunning 0).lane 0 = (after (.acceptedEdge 2) e).lane 0 ∧
      ((after (.acceptedEdge 2) e).lane 0).activity.isRunning = false) ∧
    (((d.completeRunning 0).lane 0).state = .closing) ∧
    (((h.completeRunning 0).lane 0).activity = .wait 1 false true ∧
      ((h.completeRunning 0).lane 0).state = .stepping ∧
      (((h.completeRunning 0).lane 0).steps.getD 1 StepReq.zero).instantAt h.tbu.epoch = false) ∧
    (((i.completeRunning 0).lane 0).activity = .wait 1 false true ∧
      ((i.completeRunning 0).lane 0).list.length < 2 ∧ ((i.completeRunning 0).lane 0).tear = false ∧
      (((i.completeRunning 0).lane 0).steps.getD 1 StepReq.zero).instantAt i.tbu.epoch = true ∧
      ((after (.stepBegin 0) (i.completeRunning 0)).lane 0).state = .closing ∧
      ((after (.stepBegin 0) (j.completeRunning 0)).lane 0).state = .stepping ∧
      ((j.flaggedBoundary 0).lane 0).outcome = some (.recalled, 1)) := by decide

/-- A torn lane with no access of its own on the bus, one with a check on it, and one with a fault to be
counted, in DRAINING and in RUNNING. -/
theorem test_meets_TornLaneStopsAtTheBoundary :
    [Engine.draining, .running].all (fun e =>
      let t := busy { stepping (ask 1 0 0 0 9 0) .hold with tear := true } (part e)
      let u := asking (request (.check 0) 0x1260 none)
        (busy { stepping (ask 1 0 0 0 9 0) .hold with tear := true, access := .check 0, list := [aResult] }
          (part e))
      let f := busy { stepping (ask 1 0 0 0 9 0) .hold with tear := true, faultCounts := 1 } (part e)
      [t, u, f].all (fun s => s.engc.engine == e && (s.lane 0).tear && !(s.lane 0).stopped &&
        !s.admu.pool[0] && (s.outd[0]).claimer == some 0) &&
      (!t.laneOutstanding 0 && (t.lane 0).faultCounts == 0 && (t.lane 0).access == .idle) &&
      u.laneOutstanding 0 && (f.lane 0).faultCounts != 0) = true := by decide

/-! ### Admission -/

/-- A blocked entry; an ineligible one, one that may start on lane 1 of 0 to 3, one that may not, and no lane free;
and lines in each state of their owner and reservation, within the entry's out_mask and outside it. -/
theorem test_meets_WalkLeavesNoStartableEntry :
    let s := queued (entry 0 0 true) (busy (stepping (ask 1 0 0 0 9 0) .hold) (part .running))
    let free := (part .running).admu.claims
    let other : Entry := { entry 0 0 true with slot := 3 }
    let v : Vector Claim 4 := #v[{ owner := none, reservation := some 3 }, { owner := some 2, reservation := none },
      Claim.reset, { owner := none, reservation := some 1 }]
    let all : Entry := { entry 0 0 true with posting := { (entry 0 0 true).posting with outMask := 15 } }
    (s.engc.engine = .running ∧ s.walk.freeLane ≠ none ∧ s.walk.admu.queue = [] ++ entry 0 0 true :: [] ∧
      (entry 0 0 true).eligible = true) ∧
    (part .draining).engc.engine ≠ .running ∧
    (s.freeLane = some 1 ∧ (entry 4 0 false).eligible = false ∧
      linesFreeTo s.admu.claims (entry 0 0 true) [] = false ∧ linesFreeTo free (entry 0 0 true) [] = true ∧
      s.admu.pool[0] = false) ∧
    (∀ l : LaneId, ({ s.admu with pool := Vector.replicate 4 false } : Admission).pool[l] = false) ∧
    (linesFreeTo v (entry 0 0 true) [other] = true ∧ linesFreeTo v (entry 0 0 true) [] = false ∧
      linesFreeTo v all [other] = false) ∧
    ((reserveFor all [other] v)[0] = { owner := none, reservation := some 1 } ∧
      (reserveFor all [other] v)[1] = { owner := some 2, reservation := some 1 } ∧
      (reserveFor all [] v)[0] = v[0] ∧ (reserveFor (entry 0 0 true) [] v)[1] = v[1]) := by decide

theorem test_meets_StartIsOneAct :
    (entry 0 0 true).posting.outMask.getLsbD (0 : OutLine).val = true ∧
    (entry 0 0 true).posting.outMask.getLsbD (3 : OutLine).val = false ∧ Lane.empty.Clear := by
  unfold Lane.Clear; decide

theorem test_meets_ReleaseDrivesIdleOrKeeps :
    let s := busy (stepping (ask 1 0 0 0 9 0) .hold) (part .running)
    let d := busy (stepping (ask 1 0 0 0 9 0) .hold) (part .draining)
    (s.outd[1]).claimer ≠ some 0 ∧ ((s.outd[0]).claimer = some 0 ∧ s.engc.engine = .running) ∧
    ((d.outd[0]).claimer = some 0 ∧ d.engc.engine ≠ .running) := by decide

/-- An AT_START entry whose start_epoch is the present, and one whose slack of 1 is used up at once. -/
theorem test_meets_EligibleAndLatenessTestsTakeEffect :
    (queued (entry 4 0 false) (part .running)).eligibleDue = true ∧
    ({ queued (entry 4 0xFFFFFFFF false) (part .running) with
      tbu := { prescaler := 0, epoch := 19, timer := 0 } } : State).firstLate = some 1 := by decide

/-! ### The Slot Monitor -/

/-- The configuration check's read is on the bus; nothing else waits. -/
def checking : State := asking (request .config 0x1004 none) (working .config .config (part .running))

theorem test_meets_ConfigurationCheckDecides :
    let q := request .config 0x1004 none
    (Returns checking bad q [] ∧ (checking.afterReturn bad q []).smon.piece = some (.config, .config) ∧
      replyFailed bad.reply = true) ∧
    (Returns checking (goodWith 0x1004 0x10002) q [] ∧
      configSeq (checking.wordReturned (goodWith 0x1004 0x10002) q []) ≠
        (checking.afterReturn (goodWith 0x1004 0x10002) q []).smon.counters.ackCopy) ∧
    (Returns checking good q [] ∧
      configSeq (checking.wordReturned good q []) =
        (checking.afterReturn good q []).smon.counters.ackCopy ∧
      (checking.afterReturn good q []).engc.engine = .running ∧
      (checking.afterReturn good q []).smon.waiting = []) := by unfold Returns; decide

def reloading : State := asking (request .lineTable 0x1028 none)
  (working .config (.reload 1 [0x04000000, 0]) (part .running))

/-- The idle levels 1, 0, 0, 0, and a byte that is no level. -/
theorem test_meets_ReloadAppliesWholeTables :
    let q := request .lineTable 0x1028 none
    (Returns reloading (goodWith 0x1028 1) q [] ∧
      (reloading.afterReturn (goodWith 0x1028 1) q []).smon.piece =
        some (.config, .reload 1 [0x04000000, 0]) ∧
      lineTableGood [0x04000000, 0, reloading.wordReturned (goodWith 0x1028 1) q []] = true) ∧
    (Returns reloading (goodWith 0x1028 2) q [] ∧
      lineTableGood [0x04000000, 0, reloading.wordReturned (goodWith 0x1028 2) q []] = false) ∧
    (Returns reloading bad q [] ∧ replyFailed bad.reply = true) ∧
    ([[], [0x04000000]].all (fun got => decide (
      let s := asking q (working .config (.reload 1 got) (part .running))
      pickRequest s.settled.mport good.pick = some (q, []) ∧
      pickRequest s.settled.mport bad.pick = some (q, []) ∧ got.length < 2 ∧
      (s.afterReturn good q []).smon.piece = some (.config, .reload 1 got))) = true) := by
  unfold Returns; decide

/-- The visit's read of slot 1's host word is on the bus. -/
def visiting (s : State) : State := asking (request .hostWord 0x1260 none) (working (.visit 1) (.visit 1) s)

/-- A sweep has seen the recall of this post in slot 1. -/
def recalled (post : Half) (s : State) : State := s.setRecall 1 (some { area := 0x1000, post := post })

/-- The host word of slot 1: its post_seq and recall_seq. -/
def hostWord (post recallNo : Half) : BusReturn := goodWith 0x1260 (pair16 recallNo post)

/-- The plan of slot 1 has left the queue as LATE, and its settle waits behind that of slot 0. -/
def pendingLate : State :=
  let s := mirrored .queued none (part .running)
  let t := s.setMirror 1 { s.mirror 1 with pendingOutcome := some .late }
  { t with smon := { t.smon with waiting := [.removal 0 .late false, .removal 1 .late true] } }

/-- Each piece of a sweep ends in RUNNING, the visits below the slot count and at it, also at slot 15, and the
closing with a sweep pending and with none; a sweep is given up in DRAINING; a settle that waits is not begun. -/
theorem test_meets_PieceEnded :
    let run := fun (p : Piece) => (working p .config (part .running)).endPiece
    let last := (working (.visit 15) .config { part .running with
      engc := { (part .running).engc with slotCount := 16 } }).endPiece
    let again := working .closing .config { part .running with
      smon := { (part .running).smon with inProgress := true, pendingSweep := true } }
    let given := working (.visit 0) .config (part .draining)
    let settle := working (.completion 0) .config (waiting (.removal 1 .late true) (part .running))
    ((run .config).smon.pieces = [.visit 0] ∧ (run .config).smon.piece = some (.visit 0, .visit 0) ∧
      (run .config).mport.map Request.addr = [0x1100]) ∧
    ((run (.visit 0)).smon.pieces = [.visit 1] ∧ (run (.visit 1)).smon.pieces = [.closing] ∧
      last.smon.pieces = [.closing] ∧ (run (.visit 1)).smon.piece = some (.closing, .counting .endPiece) ∧
      (run (.visit 1)).smon.counts.map CountReq.kind = [.sweepClose 0]) ∧
    (again.endPiece.smon.piece = some (.config, .config) ∧ again.endPiece.smon.noted = 20 ∧
      again.endPiece.mport.map Request.addr = [0x1004] ∧
      (run .closing).smon.pieces = [] ∧ (run .closing).smon.inProgress = false) ∧
    ((Piece.visit 0).ofSweep = true ∧ given.endPiece.smon.pieces = []) ∧
    (settle.endPiece.smon.piece = none ∧ settle.endPiece.smon.waiting = [.removal 1 .late true] ∧
      (Piece.completion 0).ofSweep = false) := by decide

theorem test_meets_SlotVisitDecides :
    let idle := visiting (mirrored .idle none (part .running))
    let torn := visiting (mirrored .tearing none (part .running))
    let drained := fun (p : Half) => visiting (mirrored .idle none { part .draining with
      smon := { (part .draining).smon with hostWordAtDrain := some (pair16 4 p) } })
    let run := visiting (busy (stepping (ask 1 0 0 0 9 0) .hold) (part .running))
    let past := visiting (busy { stepping (ask 1 0 0 0 9 0) .none with
      state := .closing, access := .settleCount } (part .running))
    let wait := visiting (queued (entry 4 0 false)
      { part .running with tbu := { prescaler := 0, epoch := 19, timer := 0 } })
    let post := fun s r => (wordBack s r).extractLsb' 0 16
    let recallNo := fun s r => (wordBack s r).extractLsb' 16 16
    (Brings idle bad .hostWord ∧ (met idle bad).smon.piece = some (.visit 1, .visit 1) ∧
      replyFailed bad.reply = true) ∧
    (Brings idle (hostWord 6 0) .hostWord ∧ ((met idle (hostWord 6 0)).mirror 1).state = .idle ∧
      post idle (hostWord 6 0) ≠ ((met idle (hostWord 6 0)).mirror 1).knownSeq) ∧
    (Brings idle (hostWord 5 0) .hostWord ∧
      post idle (hostWord 5 0) = ((met idle (hostWord 5 0)).mirror 1).knownSeq) ∧
    (Brings (drained 6) (hostWord 6 0) .hostWord ∧ (met (drained 6) (hostWord 6 0)).engc.engine = .draining ∧
      (met (drained 6) (hostWord 6 0)).smon.hostWordAtDrain.map (fun w => w.extractLsb' 0 16) =
        some (post (drained 6) (hostWord 6 0)) ∧
      (met (drained 5) (hostWord 6 0)).smon.hostWordAtDrain.map (fun w => w.extractLsb' 0 16) ≠
        some (post (drained 5) (hostWord 6 0)) ∧
      (met (drained 6) (hostWord 6 6)).smon.hostWordAtDrain.map (fun w => w.extractLsb' 16 16) ≠
        some (recallNo (drained 6) (hostWord 6 6)) ∧
      (met (drained 6) (hostWord 6 4)).smon.hostWordAtDrain.map (fun w => w.extractLsb' 16 16) =
        some (recallNo (drained 6) (hostWord 6 4))) ∧
    (let free := visiting (mirrored .running (some 0) (part .running))
     let other := visiting (busy { stepping (ask 1 0 0 0 9 0) .hold with slot := 0 } (part .running))
     let none' := visiting (mirrored .running none (part .running))
     Brings free (hostWord 5 5) .hostWord ∧ ((met free (hostWord 5 5)).lane 0).state = .free ∧
      ((met free (hostWord 5 5)).mirror 1).lane = some 0 ∧
      Brings other (hostWord 6 5) .hostWord ∧ ((met other (hostWord 6 5)).mirror 1).state = .running ∧
      ((met other (hostWord 6 5)).mirror 1).lane = some 0 ∧ ((met other (hostWord 6 5)).lane 0).slot ≠ 1 ∧
      Brings none' good .hostWord ∧ ((met none' good).mirror 1).state = .running ∧
      ((met none' good).mirror 1).lane = none) ∧
    (wait.OneEntryPerSlot ∧ entry 4 0 false ∈ wait.admu.queue) ∧
    (let held := recalled 6 idle
     Brings held (hostWord 6 0) .hostWord ∧
      (met held (hostWord 6 0)).smon.recalls[1] = some { area := 0x1000, post := 6 } ∧
      (met idle (hostWord 6 6)).smon.recalls[1] = none ∧
      recallNo idle (hostWord 6 6) = post idle (hostWord 6 6) ∧
      post held (hostWord 7 0) ≠ 6) ∧
    (let load := visiting (busy { stepping (ask 1 0 0 0 9 0) .none with state := .loading } (part .running))
     let s := { load with mport := load.mport ++ [request (.loadStep 0) 0x12A0 none] }
     Returns s (hostWord 6 5) (front s) s.mport.tail ∧
      ((met s (hostWord 6 5)).lane 0).state = .loading ∧ ((met s (hostWord 6 5)).lane 0).tear = false ∧
      ((met s (hostWord 6 5)).lane 0).pastSettleCheck = false ∧
      (givenUpBy 0 s.mport.tail).map Request.abandoned = [true]) ∧
    (Brings torn good .hostWord ∧ ((met torn good).mirror 1).state = .tearing) ∧
    (Brings run (hostWord 5 5) .hostWord ∧ ((met run (hostWord 5 5)).mirror 1).state = .running ∧
      ((met run (hostWord 5 5)).mirror 1).lane = some 0 ∧
      ((met run (hostWord 5 5)).lane 0).state ≠ .free ∧ ((met run (hostWord 5 5)).lane 0).slot = 1 ∧
      post run (hostWord 5 5) = ((met run (hostWord 5 5)).mirror 1).knownSeq ∧
      recallNo run (hostWord 5 5) = ((met run (hostWord 5 5)).mirror 1).knownSeq ∧
      recallNo run (hostWord 5 4) ≠ ((met run (hostWord 5 4)).mirror 1).knownSeq) ∧
    (Brings run (hostWord 6 5) .hostWord ∧
      post run (hostWord 6 5) ≠ ((met run (hostWord 6 5)).mirror 1).knownSeq ∧
      ((met run (hostWord 6 5)).lane 0).pastSettleCheck = false ∧
      ((met past (hostWord 6 5)).lane 0).pastSettleCheck = true) ∧
    (Brings wait (hostWord 6 5) .hostWord ∧ ((met wait (hostWord 6 5)).mirror 1).state = .queued ∧
      ((met wait (hostWord 6 5)).mirror 1).pendingOutcome = none ∧
      post wait (hostWord 6 5) ≠ ((met wait (hostWord 6 5)).mirror 1).knownSeq) ∧
    (Brings wait (hostWord 5 5) .hostWord ∧
      post wait (hostWord 5 5) = ((met wait (hostWord 5 5)).mirror 1).knownSeq ∧
      recallNo wait (hostWord 5 5) = ((met wait (hostWord 5 5)).mirror 1).knownSeq ∧
      recallNo wait (hostWord 5 4) ≠ ((met wait (hostWord 5 4)).mirror 1).knownSeq) ∧
    (let s := visiting pendingLate
     Brings s (hostWord 6 5) .hostWord ∧ ((met s (hostWord 6 5)).mirror 1).state = .queued ∧
      ((met s (hostWord 6 5)).mirror 1).pendingOutcome = some .late ∧
      (met s (hostWord 6 5)).smon.waiting = [.removal 0 .late false] ++ .removal 1 .late true :: [] ∧
      post s (hostWord 6 5) ≠ ((met s (hostWord 6 5)).mirror 1).knownSeq ∧
      post s (hostWord 5 5) = ((met s (hostWord 5 5)).mirror 1).knownSeq) := by
  unfold Brings Returns State.OneEntryPerSlot; dsimp only; and_intros <;> decide

/-- The fifth read of slot 1's posting record is on the bus: step count and flags as given, and the post, 6 or
another, whose recall a sweep has seen. -/
def discovering (first flags : Word) (seen : Half) : State :=
  asking (request .record 0x1278 none)
    (working (.visit 1) (.record 1 6 [first, flags, 0, 0]) (recalled seen (part .running)))

/-- A read error, a bad record, a recalled post, a NOWAIT plan whose line is claimed and one whose line is
free, and DRAINING; with each bound of a bad record. -/
theorem test_meets_DiscoveryJudgesAndTakes :
    let posting := fun (first flags : Word) (recallNo : Half) =>
      Posting.ofWords [first, flags, 0, 0, wordBack (discovering first flags recallNo) good]
    let claimed := asking (request .record 0x1278 none)
      (working (.visit 1) (.record 1 6 [0x1000C, 2, 0, 0])
        (busy (stepping (ask 1 0 0 0 9 0) .hold) (part .running)))
    let draining := asking (request .record 0x1278 none)
      (working (.visit 1) (.record 1 6 [12, 2, 0, 0])
        (busy (stepping (ask 1 0 0 0 9 0) .hold) (part .draining)))
    (Brings (discovering 12 2 5) bad .record ∧ replyFailed bad.reply = true ∧
      (met (discovering 12 2 5) bad).smon.piece = some (.visit 1, .record 1 6 [12, 2, 0, 0])) ∧
    (Brings (discovering 13 0 5) good .record ∧ (posting 13 0 5).bad = true ∧ (posting 0 0 5).bad = true ∧
      (posting 0x40C 0 5).bad = true ∧ (posting 0x10000C 0 5).bad = true ∧
      (posting 0x0F030C 0 5).bad = false) ∧
    (Brings (discovering 12 0 6) good .record ∧ (posting 12 0 6).bad = false) ∧
    (Brings (discovering 12 2 5) good .record ∧ (posting 12 2 5).bad = false ∧
      (met (discovering 12 2 5) good).engc.engine = .running ∧
      (met (discovering 12 2 5) good).linesBusy ((12 : Word).extractLsb' 16 4) = false) ∧
    (Brings claimed good .record ∧ (2 : Word).getLsbD 1 = true ∧
      (met claimed good).linesBusy ((0x1000C : Word).extractLsb' 16 4) = true) ∧
    (Brings draining good .record ∧ (met draining good).engc.engine = .draining) ∧
    ([[], [12], [12, 2, 0]].all (fun got => decide (
      let s := asking (request .record 0x1268 none) (working (.visit 1) (.record 1 6 got) (part .running))
      pickRequest s.settled.mport good.pick = some (front s, []) ∧
      pickRequest s.settled.mport bad.pick = some (front s, []) ∧ got.length < 4 ∧
      (met s good).smon.piece = some (.visit 1, .record 1 6 got))) = true) := by
  unfold Brings Returns; dsimp only; and_intros <;> decide

def takingPart (j : TakeJob) : State :=
  asking (request .takePart 0x1264 (some 6)) (working (.visit 1) (.takePart j) (part .running))

/-- An entry of this priority and discovery number. -/
def ranked (priority : Byte) (n : Word) : Entry :=
  { entry 0 0 true with discovery := n, posting := { (entry 0 0 true).posting with priority := priority } }

/-- taken_epoch and the part word, landed and failed; a refused plan; and an accepted one that finds a lane,
finds none, finds its limit reached, or joins in DRAINING. -/
theorem test_meets_TakeWritesThenQueues :
    let full := fun (j : TakeJob) => { takingPart j with
      admu := { queue := [], claims := Vector.replicate 4 Claim.reset, pool := Vector.replicate 4 false } }
    let drained := asking (request .takePart 0x1264 (some 6))
      (working (.visit 1) (.takePart takeJob) (part .draining))
    let refused := { takeJob with refusal := some .linesBusy }
    let limit := { takeJob with posting := { takeJob.posting with
      flags := 4, startEpoch := 10, slack := 5 } }
    (Brings takingEpoch good .takeEpoch ∧ Brings takingEpoch bad .takeEpoch ∧
      (met takingEpoch good).smon.piece = some (.visit 1, .takeEpoch takeJob)) ∧
    (Brings (takingPart takeJob) good .takePart ∧ Brings (takingPart takeJob) bad .takePart ∧
      (met (takingPart takeJob) good).smon.piece = some (.visit 1, .takePart takeJob) ∧
      takeJob.refusal = none ∧ (met (takingPart takeJob) good).engc.engine = .running) ∧
    (Brings (full takeJob) good .takePart ∧ (∀ l : LaneId, (met (full takeJob) good).admu.pool[l] = false) ∧
      latenessReached (full takeJob).tbu.epoch takeJob.posting = false) ∧
    (Brings (takingPart limit) good .takePart ∧
      latenessReached (takingPart limit).tbu.epoch limit.posting = true) ∧
    (Brings drained good .takePart ∧ (met drained good).engc.engine = .draining) ∧
    (Brings (takingPart refused) good .takePart ∧
      (met (takingPart refused) good).smon.piece = some (.visit 1, .takePart refused)) ∧
    (let q := [ranked 3 5, ranked 1 3, ranked 1 6, ranked 0 4]
     q.Pairwise (fun a b => b.posting.priority.toNat ≤ a.posting.priority.toNat) ∧
      q.Pairwise (fun a b => a.before b = true) ∧
      ∀ x ∈ q, x.posting.priority = (ranked 1 7).posting.priority → earlier x.discovery 7 = true) := by
  unfold Brings Returns; dsimp only; and_intros <;> decide

/-- A removal's settle that waits, and a refused plan's that the piece under way has come to. -/
theorem test_meets_RemovalSettleBegins :
    (waiting (.removal 1 .late true) (part .running)).nextPiece = some (.removal 1 .late true) ∧
    (waiting (.removal 1 .halted false) (part .draining)).nextPiece = some (.removal 1 .halted false) ∧
    (let j : SettleJob := { slot := 1, seq := 5, outcome := .malformed, notify := true, settledEpoch := 0,
                            discover := none }
     (working (.visit 1) (.settleDue j) (part .running)).smon.piece = some (.visit 1, .settleDue j) ∧
      (part .running).smon.piece = none) := by
  decide

def givenUp : Request := { request (.qualifier 0 false) 0x1048 none with abandoned := true }

/-- SMON's settle write i is on the bus. -/
def smonSettling (i : Nat) : State :=
  asking (request .smonSettle (0x1260 + settleWordOffset i) (some 0))
    (working (.removal 1 .late true) (.settle settleJob i) (part .running))

/-- Lane 0's settle write i is on the bus. -/
def laneSettling (i : Nat) : State :=
  asking (request (.laneSettle 0) (0x1260 + settleWordOffset i) (some 0))
    (busy { stepping (ask 1 0 0 0 9 0) .none with
      state := .closing, outcome := some (.done, 1), access := .settleWrite i } (part .running))

theorem test_meets_SettleWritesFollowInOrder :
    ([0, 2, 3].all (fun i => decide (
      let q := request .smonSettle (0x1260 + settleWordOffset i) (some 0)
      pickRequest (smonSettling i).settled.mport good.pick = some (q, []) ∧
      ((smonSettling i).afterReturn good q []).smon.piece =
        some (.removal 1 .late true, .settle settleJob i))) = true) ∧
    ([0, 2, 3].all (fun i => decide (
      let q := request (.laneSettle 0) (0x1260 + settleWordOffset i) (some 0)
      pickRequest (laneSettling i).settled.mport good.pick = some (q, []) ∧
      (((laneSettling i).afterReturn good q []).lane 0).access = .settleWrite i ∧
      (((laneSettling i).afterReturn good q []).lane 0).tear = false)) = true) ∧
    ([(0, false, 0, []), (2, true, 0, []), (1, true, 1, []), (1, true, 0, [givenUp])].all
      (fun (i, stopped, faults, more) => decide (
        let q := request (.laneSettle 0) (0x1260 + settleWordOffset i) (some 0)
        let x := { (laneSettling i).lane 0 with tear := true, stopped := stopped, faultCounts := faults }
        let s := { laneSettling i with mport := q :: more }
        let u := (s.setLane 0 x).afterReturn good q more
        pickRequest (s.setLane 0 x).settled.mport good.pick = some (q, more) ∧ i < 3 ∧
        (u.lane 0).access = .settleWrite i ∧ (u.lane 0).tear = true ∧ (u.lane 0).stopped = stopped ∧
        (u.lane 0).faultCounts = faults ∧ u.laneOutstanding 0 = !more.isEmpty)) = true) := by decide

/-- A write of the counter set is on the bus. -/
def countWriting (k : CountKind) (q : Requester) (s : State) : State :=
  asking (request .counter 0x1008 (some 0)) (counting k q s)

theorem test_meets_CounterWriteBringsItsEffect :
    let torn := countWriting .tear .smon (working (.tearRelease 1) (.counting .tornRelease) (part .running))
    let tornVisit := countWriting .tear .smon
      (working (.visit 1) (.counting (.tornVisit 1 6)) (part .running))
    let own := fun (n : Bool) (d : Option Half) => countWriting (.settlement 1 5) .smon
      (working (.visit 1) (.counting (.settled { settleJob with notify := n, discover := d }))
        (part .running))
    let lane := fun (e : Engine) (flags : Word) (o : PlanOutcome) => countWriting (.settlement 1 5) (.lane 0)
      (busy { stepping (ask 1 0 0 0 9 0) .none with
        state := .closing, flags := flags, outcome := some (o, 1), access := .settleCount } (part e))
    let close := countWriting (.sweepClose 7) .smon (working .closing (.counting .endPiece) (part .running))
    let second := fun (e : Engine) (pend : Bool) => countWriting (.sweepClose 7) .smon
      { part e with smon := { (part e).smon with
        piece := some (.closing, .counting .endPiece), secondWord := true, inProgress := true,
        pendingSweep := pend } }
    let fault := countWriting (.fault .writeErr) .smon
      (working (.visit 1) (.counting .endPiece) (part .running))
    let ack := countWriting (.configAck 3) .smon (working .config (.counting .endPiece) (part .running))
    (Brings fault good .counter ∧ replyFailed good.reply = false ∧
      (met fault good).smon.counts = [{ kind := .fault .writeErr, requester := .smon }]) ∧
    (Brings ack good .counter ∧
      (met ack good).smon.counts = [{ kind := .configAck 3, requester := .smon }]) ∧
    (Brings torn good .counter ∧ (met torn good).engc.loading = none ∧
      (met torn good).smon.piece = some (.tearRelease 1, .counting .tornRelease)) ∧
    (Brings tornVisit good .counter ∧ (met tornVisit good).engc.loading = none ∧
      (met tornVisit good).smon.counts = [{ kind := .tear, requester := .smon }] ∧
      (met tornVisit good).smon.piece = some (.visit 1, .counting (.tornVisit 1 6))) ∧
    ([own true none, own false (some 6)].all (fun s => decide (
      pickRequest s.settled.mport good.pick = some (front s, []) ∧ (met s good).engc.loading = none ∧
      (met s good).smon.counts = [{ kind := .settlement 1 5, requester := .smon }])) = true ∧
      (met (own true none) good).smon.piece = some (.visit 1, .counting (.settled settleJob)) ∧
      (met (own false (some 6)) good).smon.piece = some (.visit 1, .counting (.settled
        { settleJob with notify := false, discover := some 6 }))) ∧
    ([lane .running 0x11 .done, lane .running 0x10 .timedOut, lane .running 0 .failed,
      lane .draining 0x11 .passed].all (fun s => decide (
      pickRequest s.settled.mport good.pick = some (front s, []) ∧ (met s good).engc.loading = none ∧
      (met s good).smon.counts = [{ kind := .settlement 1 5, requester := .lane 0 }] ∧
      ((met s good).outd[0]).claimer = some 0)) = true) ∧
    (Brings close good .counter ∧ (met close good).smon.secondWord = false ∧
      (met close good).smon.counts = [{ kind := .sweepClose 7, requester := .smon }]) ∧
    ([second .running true, second .running false, second .draining false].all (fun s => decide (
      pickRequest s.settled.mport good.pick = some (front s, []) ∧ (met s good).smon.secondWord = true ∧
      (met s good).engc.loading = none ∧
      (met s good).smon.piece = some (.closing, .counting .endPiece))) = true ∧
      (met (second .running true) good).smon.pendingSweep = true ∧
      (met (second .running true) good).engc.engine = .running) := by
  unfold Brings Returns; dsimp only; and_intros <;> decide

/-- Two counts wait behind one that is done, the first a sweep's close at its second word. -/
theorem test_meets_CounterWriteServesTheNext :
    [CountKind.fault .readErr, .sweepClose 7, .configAck 3].all (fun k => decide (
      let s := countWriting k .smon (working .closing (.counting .endPiece) (part .running))
      let t := { s with smon := { s.smon with
        secondWord := true
        counts := s.smon.counts ++ [{ kind := .tear, requester := .lane 0 }, { kind := .tear, requester := .lane 1 }] } }
      pickRequest t.settled.mport good.pick = some (front t, []) ∧ (front t).access = .counter ∧
      (met t good).smon.counts.map CountReq.kind = [k, .tear, .tear] ∧ (met t good).engc.loading = none ∧
      (met t good).smon.secondWord = true)) = true := by decide

/-- The count of a tear release in RUNNING and in DRAINING, and the last count of a piece that is no sweep's close. -/
theorem test_meets_CounterWriteEndsThePiece :
    let torn := fun (e : Engine) =>
      countWriting .tear .smon (working (.tearRelease 1) (.counting .tornRelease) (part e))
    let fault := countWriting (.fault .writeErr) .smon
      (working (.visit 1) (.counting .endPiece) (part .running))
    (Brings (torn .running) good .counter ∧ (met (torn .running) good).engc.engine = .running ∧
      (Piece.tearRelease 1).ofSweep = false ∧ (met (torn .running) good).engc.loading = none ∧
      (met (torn .running) good).smon.piece = some (.tearRelease 1, .counting .tornRelease)) ∧
    (Brings (torn .draining) good .counter ∧ (met (torn .draining) good).engc.engine ≠ .running ∧
      (met (torn .draining) good).engc.loading = none ∧
      (met (torn .draining) good).smon.piece = some (.tearRelease 1, .counting .tornRelease)) ∧
    (Brings fault good .counter ∧ (met fault good).engc.loading = none ∧
      (met fault good).smon.piece = some (.visit 1, .counting .endPiece) ∧
      ∀ n, CountKind.fault .writeErr ≠ .sweepClose n) := by
  unfold Brings Returns
  dsimp only
  and_intros
  all_goals first | (intro n h; cases h) | decide

theorem test_meets_CounterRequestWritesItsWord : (part .running).smon.counts = [] := rfl

theorem test_meets_LaneReportsFreeTheSlot :
    ((waiting (.completion 1) (mirrored .tearing none (part .running))).nextPiece = some (.completion 1) ∧
      ((waiting (.completion 1) (mirrored .tearing none (part .running))).mirror 1).state = .tearing ∧
      (waiting (.completion 1) (mirrored .tearing none (part .running))).engc.engine = .running) ∧
    ((waiting (.completion 1) (mirrored .running (some 0) (part .running))).nextPiece = some (.completion 1) ∧
      ((waiting (.completion 1) (mirrored .running (some 0) (part .running))).mirror 1).state ≠ .tearing) ∧
    (waiting (.tearRelease 1) (mirrored .tearing none (part .running))).nextPiece =
      some (.tearRelease 1) := by decide

/-! ### Engine Control -/

/-- ENGC's read is on the bus. -/
def reading (x : Loading) (addr : Word) : State :=
  asking (request .loading addr none) (loadingAt x { part .loading with
    engc := { (part .loading).engc with slotCount := 2 } })

/-- A read error; the bounds of slots_in_use; a wrong magic; a bad line table; and every phase of LOADING with
a read that goes on, the counters' first and last word among them. -/
theorem test_meets_LoadingReadsAreJudged :
    let at' := fun (x : Loading) (addr : Word) => reading x addr
    let slots := fun r => wordBack (at' (loadingX .slots) 0x1004) r
    let table := fun (ws : List Word) => { loadingX .table with got := ws }
    let counters := fun (ws : List Word) => { loadingX .counters with got := ws }
    (Brings (at' (loadingX .slots) 0x1004) bad .loading ∧
      (met (at' (loadingX .slots) 0x1004) bad).engc.loading = some (loadingX .slots) ∧
      (loadingX .slots).stopping = false) ∧
    (Brings (at' (loadingX .slots) 0x1004) (goodWith 0x1004 0) .loading ∧
      (slots (goodWith 0x1004 0)).extractLsb' 0 8 = 0 ∧
      16 < ((slots (goodWith 0x1004 17)).extractLsb' 0 8).toNat ∧
      0 < ((slots (goodWith 0x1004 1)).extractLsb' 0 8).toNat ∧
      ((slots (goodWith 0x1004 16)).extractLsb' 0 8).toNat ≤ 16 ∧
      { loadingX .slots with magic := 5 }.magic ≠ 0x4C4A4804#32) ∧
    (Brings (at' (table [0, 0]) 0x1028) (goodWith 0x1028 2) .loading ∧
      (met (at' (table [0, 0]) 0x1028) (goodWith 0x1028 2)).engc.loading = some (table [0, 0]) ∧
      (table [0, 0]).phase = .table ∧ (table [0, 0]).got.length = 2 ∧
      lineTableGood ((table [0, 0]).got ++ [wordBack (at' (table [0, 0]) 0x1028) (goodWith 0x1028 2)]) =
        false ∧
      lineTableGood ((table [0, 0]).got ++ [wordBack (at' (table [0, 0]) 0x1028) (goodWith 0x1028 1)]) =
        true) ∧
    ([loadingX .magic, table [], table [0], counters [], counters [1], counters [1, 2],
      counters [1, 2, 3], loadingX (.hostWord 0), loadingX (.hostWord 15)].all (fun x => decide (
        pickRequest (at' x 0x1000).settled.mport good.pick = some (request .loading 0x1000 none, []) ∧
        (met (at' x 0x1000) good).engc.loading = some x ∧ x.stopping = false)) = true) ∧
    (let s := recalled 6 (at' (loadingX (.hostWord 1)) 0x1260)
     Brings s (hostWord 7 0) .loading ∧ (met s (hostWord 7 0)).engc.loading = some (loadingX (.hostWord 1)) ∧
      (met s (hostWord 7 0)).smon.recalls[1] = some { area := 0x1000, post := 6 } ∧
      (wordBack s (hostWord 7 0)).extractLsb' 0 16 = 7) := by
  unfold Brings Returns; dsimp only; and_intros <;> decide

/-- LOADING has been told to stop: ENGC's read, an orphan's settle write, and either count is on the bus. -/
theorem test_meets_StoppedLoadingEntersOff :
    let halting := fun (p : LoadPhase) => { loadingX p with stopping := true, orphans := [(1, 5)] }
    let read := reading (halting .slots) 0x1004
    let write := asking (request .orphanSettle 0x127C (some 0))
      (loadingAt (halting (.orphanWrite 0)) (part .loading))
    let count := fun (p : LoadPhase) (k : CountKind) => countWriting k .engc
      (loadingAt (halting p) (part .loading))
    (Brings read good .loading ∧ Brings read bad .loading ∧
      (met read bad).engc.loading = some (halting .slots)) ∧
    (Brings write good .orphanSettle ∧ (met write good).engc.loading = some (halting (.orphanWrite 0))) ∧
    (Brings (count .orphanSettled (.settlement 1 5)) good .counter ∧
      (met (count .orphanSettled (.settlement 1 5)) good).smon.counts =
        [{ kind := .settlement 1 5, requester := .engc }] ∧
      (met (count .orphanSettled (.settlement 1 5)) good).engc.loading = some (halting .orphanSettled)) ∧
    (Brings (count .orphanCounted .orphan) good .counter ∧
      (met (count .orphanCounted .orphan) good).smon.counts = [{ kind := .orphan, requester := .engc }] ∧
      (met (count .orphanCounted .orphan) good).engc.loading = some (halting .orphanCounted)) := by
  unfold Brings Returns; dsimp only; and_intros <;> decide

/-- The part word of slot 1, the last of two slots: its take_seq and settle_seq. -/
def lastPart (take settle : Half) : BusReturn := goodWith 0x1264 (pair16 settle take)

def orphanSettling : State :=
  asking (request .orphanSettle 0x1264 (some 0))
    (loadingAt { loadingX (.orphanWrite 3) with orphans := [(1, 5)] } (part .loading))

/-- The counter set writes for ENGC while an orphan of slot 1 is being settled. -/
def orphanCounting (p : LoadPhase) (k : CountKind) (os : List (SlotId × Half)) : State :=
  countWriting k .engc (loadingAt { loadingX p with orphans := os } (part .loading))

/-- The first of two slots, the last of two and the last of sixteen, orphaned or not; an orphan's writes; and
its two counts, with another orphan behind it and with none. -/
theorem test_meets_LastPartWordAppliesTableOrSettlesOrphans :
    let first := reading (loadingX (.partWord 0)) 0x1104
    let last := reading (loadingX (.partWord 1)) 0x1264
    let sixteen := asking (request .loading 0x1264 none) (loadingAt (loadingX (.partWord 15))
      { part .loading with engc := { (part .loading).engc with slotCount := 16 } })
    let take := fun s r => (wordBack s r).extractLsb' 0 16
    let settle := fun s r => (wordBack s r).extractLsb' 16 16
    (Brings first good .loading ∧ (met first good).engc.loading = some (loadingX (.partWord 0)) ∧
      (1 : SlotId).val = (0 : SlotId).val + 1 ∧ (1 : SlotId).val < (met first good).engc.slotCount) ∧
    (Brings last (lastPart 5 5) .loading ∧ replyFailed (lastPart 5 5).reply = false ∧
      (met last (lastPart 5 5)).engc.loading = some (loadingX (.partWord 1)) ∧
      (loadingX (.partWord 1)).stopping = false ∧ (loadingX (.partWord 1)).orphans = [] ∧
      (met last (lastPart 5 5)).engc.slotCount = (1 : SlotId).val + 1 ∧
      take last (lastPart 5 5) = settle last (lastPart 5 5)) ∧
    (Brings last (lastPart 5 4) .loading ∧ take last (lastPart 5 4) ≠ settle last (lastPart 5 4)) ∧
    (Brings sixteen good .loading ∧ (met sixteen good).engc.slotCount = (15 : SlotId).val + 1 ∧
      (met sixteen good).engc.loading = some (loadingX (.partWord 15))) ∧
    ([0, 3].all (fun i => decide (
      let x := { loadingX (.orphanWrite i) with orphans := [(1, 5)] }
      let s := asking (request .orphanSettle 0x1264 (some 0)) (loadingAt x (part .loading))
      pickRequest s.settled.mport good.pick = some (front s, []) ∧
      (met s good).engc.loading = some x)) = true) ∧
    (let s := orphanCounting .orphanSettled (.settlement 1 5) [(1, 5)]
     Brings s good .counter ∧ (met s good).smon.counts = [{ kind := .settlement 1 5, requester := .engc }] ∧
      (met s good).engc.loading = some { loadingX .orphanSettled with orphans := [(1, 5)] }) ∧
    ([[(1, 5)], [(1, 5), (2, 6)]].all (fun os => decide (
      let s := orphanCounting .orphanCounted .orphan os
      pickRequest s.settled.mport good.pick = some (front s, []) ∧
      (met s good).smon.counts = [{ kind := .orphan, requester := .engc }] ∧
      (met s good).engc.loading = some { loadingX .orphanCounted with orphans := os })) = true) := by
  unfold Brings Returns; dsimp only; and_intros <;> decide

def acknowledging (stop : Bool) : State :=
  asking (request .configAck 0x1008 (some 0))
    (loadingAt { loadingX .configAck with stopping := stop } (part .loading))

theorem test_meets_ConfigAckEntersRunning :
    let q := request .configAck 0x1008 (some 0)
    (Returns (acknowledging false) good q [] ∧
      ((acknowledging false).afterReturn good q []).engc.loading = some (loadingX .configAck) ∧
      (loadingX .configAck).stopping = false) ∧
    (Returns (acknowledging true) good q [] ∧
      ((acknowledging true).afterReturn good q []).engc.loading =
        some { loadingX .configAck with stopping := true }) := by unfold Returns; decide

theorem test_meets_DrainEndEntersOff :
    let s := part .draining
    s.engc.engine = .draining ∧ s.admu.queue = [] ∧ (∀ l : LaneId, s.admu.pool[l] = true) ∧
      s.smon.piece = none ∧ s.smon.waiting = [] ∧ s.smon.counts = [] := by decide

/-- The check before lane 0's settle write is on the bus. -/
def settleChecking : State :=
  asking (request (.settleCheck 0) 0x1260 none)
    (busy { stepping (ask 1 0 0 0 9 0) .none with
      state := .closing, outcome := some (.done, 1), access := .settleCheck 0 } (part .running))

/-- Each failed hand-off, the lane's with and without a tear; and a second access under way. -/
theorem test_meets_FailedHandOffStalls :
    let tornSettle := asking (request (.laneSettle 0) 0x127C (some 0))
      (busy { stepping (ask 1 0 0 0 9 0) .none with
        state := .closing, outcome := some (.done, 1), access := .settleWrite 0, tear := true }
        (part .running))
    (replyFailed bad.reply = true ∧ bad.atStall = none) ∧
    (Brings (smonSettling 3) bad .smonSettle ∧
      (met (smonSettling 3) bad).smon.piece = some (.removal 1 .late true, .settle settleJob 3)) ∧
    (Brings orphanSettling bad .orphanSettle ∧ (met orphanSettling bad).engc.loading =
      some { loadingX (.orphanWrite 3) with orphans := [(1, 5)] }) ∧
    (Brings (laneSettling 0) bad (.laneSettle 0) ∧
      ((met (laneSettling 0) bad).lane 0).access = .settleWrite 0 ∧
      ((met (laneSettling 0) bad).lane 0).tear = false) ∧
    (Brings tornSettle bad (.laneSettle 0) ∧ ((met tornSettle bad).lane 0).access = .settleWrite 0 ∧
      ((met tornSettle bad).lane 0).tear = true) ∧
    (Brings settleChecking bad (.settleCheck 0) ∧
      ((met settleChecking bad).lane 0).access = .settleCheck 0) ∧
    Brings (countWriting .tear .smon (part .running)) bad .counter ∧
    (Brings (acknowledging false) bad .configAck ∧
      (met (acknowledging false) bad).engc.loading = some (loadingX .configAck)) ∧
    (Brings twoWrites failsWithSecond .smonSettle ∧ failsWithSecond.atStall = some noBus ∧
      pickRequest (met twoWrites failsWithSecond).mport noBus.pick =
        some (request .counter 0x1008 (some 6), [])) := by
  unfold Brings Returns; dsimp only; and_intros <;> decide

/-! ### Lanes on the bus, and qualification -/

def loadingHost : State :=
  asking (request (.loadHost 0) 0x1260 none)
    (busy { stepping (ask 1 0 0 0 9 0) .none with state := .loading, steps := [] } (part .running))

/-- The last word of two step records of one kind is on the bus. -/
def loadingLast (kind : Byte) : State :=
  asking (request (.loadStep 0) 0x12C0 none)
    (busy { stepping (ask 1 0 0 0 9 0) .none with
      state := .loading, steps := [],
      loadWords := [quad8 0 0 0 kind, 9, 0, quad8 0 0 0 kind, 9] } (part .running))

/-- The host word with the plan's post recalled and not, with another post, and failed; a step word in the
middle, the last of good and of bad steps, and a failed one; and steps at the bounds of their fields. -/
theorem test_meets_LoadReadsAndJudgesTheSteps :
    let middle := asking (request (.loadStep 0) 0x12A4 none)
      (busy { stepping (ask 1 0 0 0 9 0) .none with state := .loading, steps := [], loadWords := [1] }
        (part .running))
    let steps := fun kind => stepsOf (((met (loadingLast kind) good).lane 0).loadWords ++
      [wordBack (loadingLast kind) good])
    (Brings loadingHost (hostWord 5 5) (.loadHost 0) ∧
      ((met loadingHost (hostWord 5 5)).lane 0).state = .loading ∧
      ((met loadingHost (hostWord 5 5)).lane 0).access = .idle ∧
      ((met loadingHost (hostWord 5 5)).lane 0).tear = false ∧
      (wordBack loadingHost (hostWord 5 5)).extractLsb' 0 16 = ((met loadingHost (hostWord 5 5)).lane 0).seq ∧
      (wordBack loadingHost (hostWord 5 5)).extractLsb' 16 16 =
        ((met loadingHost (hostWord 5 5)).lane 0).seq ∧
      (wordBack loadingHost (hostWord 5 4)).extractLsb' 16 16 ≠
        ((met loadingHost (hostWord 5 4)).lane 0).seq) ∧
    (Brings loadingHost (hostWord 6 5) (.loadHost 0) ∧ Brings loadingHost bad (.loadHost 0) ∧
      (wordBack loadingHost (hostWord 6 5)).extractLsb' 0 16 ≠
        ((met loadingHost (hostWord 6 5)).lane 0).seq) ∧
    (Brings middle good (.loadStep 0) ∧ Brings middle bad (.loadStep 0) ∧
      ((met middle good).lane 0).state = .loading ∧ ((met middle good).lane 0).access = .idle ∧
      ((met middle good).lane 0).loadWords.length + 1 <
        3 * ((met middle good).lane 0).stepCount.toNat) ∧
    (Brings (loadingLast 1) good (.loadStep 0) ∧
      ((met (loadingLast 1) good).lane 0).loadWords.length + 1 =
        3 * ((met (loadingLast 1) good).lane 0).stepCount.toNat ∧
      firstBad ((met (loadingLast 1) good).lane 0).outMask 0 (steps 1) = none) ∧
    (Brings (loadingLast 10) good (.loadStep 0) ∧
      firstBad ((met (loadingLast 10) good).lane 0).outMask 0 (steps 10) = some 0) ∧
    ([ask 3 7 3 0 0 0, ask 4 7 1 0 0 0, ask 5 7 1 0 1 0, ask 6 7 2 1 0 0, ask 7 3 1 0 0 0, ask 8 3 0 1 1 1,
      ask 9 1 2 7 0 0].all (stepGood 8 2) = true) ∧
    ([ask 3 8 3 0 0 0, ask 3 7 4 0 0 0, ask 3 7 0 0 0 0, ask 4 7 2 0 0 0, ask 5 7 1 0 0 0, ask 6 7 3 1 0 0,
      ask 6 7 2 0 0 0, ask 7 4 1 0 0 0, ask 7 2 1 0 0 0, ask 8 3 0 1 1 0, ask 9 2 2 7 0 0, ask 9 1 2 8 0 0,
      ask 9 1 3 7 0 0].any (stepGood 8 2) = false) := by unfold Brings Returns; dsimp only; and_intros <;> decide

/-- A check of lane 0's oldest result, or the write of its word i, is on the bus. -/
def resultChecking (i : Nat) : State :=
  asking (request (.check 0) 0x1260 none)
    (busy { stepping (ask 1 0 0 0 9 0) .hold with list := [aResult], access := .check i } (part .running))

def resultWriting (i : Nat) : State :=
  asking (request (.result 0) (0x12A0 + resultOffset i) (some 0))
    (busy { stepping (ask 1 0 0 0 9 0) .hold with list := [aResult], access := .write i } (part .running))

theorem test_meets_PreWriteCheckGuardsTheWrite :
    let s := resultChecking 2
    (Brings s (hostWord 5 5) (.check 0) ∧ ((met s (hostWord 5 5)).lane 0).access = .check 2 ∧
      ((met s (hostWord 5 5)).lane 0).list = aResult :: [] ∧
      ((met s (hostWord 5 5)).lane 0).tear = false ∧ ((met s (hostWord 5 5)).lane 0).state ≠ .free ∧
      (wordBack s (hostWord 5 5)).extractLsb' 0 16 = ((met s (hostWord 5 5)).lane 0).seq ∧
      (wordBack s (hostWord 5 5)).extractLsb' 16 16 = ((met s (hostWord 5 5)).lane 0).seq) ∧
    (Brings s (hostWord 6 5) (.check 0) ∧ Brings s bad (.check 0) ∧
      (wordBack s (hostWord 6 5)).extractLsb' 0 16 ≠ ((met s (hostWord 6 5)).lane 0).seq) ∧
    (let c := settleChecking
     Brings c (hostWord 5 5) (.settleCheck 0) ∧ Brings c (hostWord 6 5) (.settleCheck 0) ∧
      replyFailed (hostWord 5 5).reply = false ∧
      ((met c (hostWord 5 5)).lane 0).access = .settleCheck 0 ∧
      ((met c (hostWord 5 5)).lane 0).tear = false ∧ ((met c (hostWord 5 5)).lane 0).state ≠ .free ∧
      ((met c (hostWord 5 5)).lane 0).outcome = some (.done, 1) ∧
      (wordBack c (hostWord 5 5)).extractLsb' 0 16 = ((met c (hostWord 5 5)).lane 0).seq ∧
      (wordBack c (hostWord 6 5)).extractLsb' 0 16 ≠ ((met c (hostWord 6 5)).lane 0).seq) := by
  unfold Brings Returns; dsimp only; and_intros <;> decide

/-- Each word of the only result and of the first of two; a closing lane's last head; and lanes that conclude
with nothing and with something left to write. -/
theorem test_meets_ResultWriteAdvancesTheList :
    let writing := fun (st : LaneState) (o : Option (PlanOutcome × Byte)) (rs : List StepResult) (i : Nat) =>
      asking (request (.result 0) (0x12A0 + resultOffset i) (some 0))
        (busy { stepping (ask 1 0 0 0 9 0) (if st = .closing then .none else .hold) with
          state := st, outcome := o, list := rs, access := .write i } (part .running))
    ([0, 1, 2].all (fun i => [writing .stepping none [aResult] i, writing .closing none [aResult, aResult] i,
        writing .closing (some (.done, 1)) [aResult] i].all (fun s => decide (
      pickRequest s.settled.mport good.pick = some (front s, []) ∧
      pickRequest s.settled.mport bad.pick = some (front s, []) ∧
      (front s).access = .result 0 ∧ ((met s good).lane 0).access = .write i ∧
      ((met s good).lane 0).list ≠ [] ∧ ((met s good).lane 0).tear = false ∧
      ((met s good).lane 0).faultCounts = 0))) = true) ∧
    (((met (writing .closing (some (.done, 1)) [aResult] 2) good).lane 0).state = .closing ∧
      ((met (writing .closing (some (.done, 1)) [aResult] 2) good).lane 0).outcome ≠ none) ∧
    ([[], [aResult]].all (fun rs =>
      let s := busy { stepping (ask 1 0 0 0 9 0) .hold with list := rs } (part .running)
      !(s.lane 0).tear && (s.lane 0).access == .idle && (s.lane 0).faultCounts == 0) = true) := by decide

/-- The checked write of a torn lane: its check and its write i, before the lane has stopped and after, with a fault
still to be counted, and with another access of the lane outstanding. -/
def tornLane (a : SlotAccess) (stopped : Bool) (faults : Nat) : State :=
  let q := match a with
    | .check _ => request (.check 0) 0x1260 none
    | _ => request (.result 0) 0x12B0 (some 7)
  asking q (busy { stepping (ask 1 0 0 0 9 0) (if stopped then .none else .hold) with
    state := if stopped then .closing else .stepping
    tear := true, stopped := stopped, list := [aResult], access := a, faultCounts := faults } (part .running))

/-- An access of each kind that lane 0 has given up returns: the lane has stopped for a tear with nothing else
outstanding, with another access outstanding, and with a fault still to be counted; and it has not stopped. -/
theorem test_meets_ReturnDiscarded :
    [Access.loadHost 0, .loadStep 0, .check 0, .settleCheck 0, .qualifier 0 true, .qualifier 0 false].all (fun a =>
      [(true, 0, []), (true, 0, [givenUp]), (true, 1, []), (false, 0, [])].all (fun (stopped, faults, more) => decide (
        let q := { request a 0x1260 none with abandoned := true }
        let s := { tornLane .idle stopped faults with mport := q :: more }
        let u := s.afterReturn good q more
        pickRequest s.settled.mport good.pick = some (q, more) ∧ q.abandoned = true ∧ q.access = a ∧
        (u.lane 0).stopped = stopped ∧ (u.lane 0).faultCounts = faults ∧
        u.laneOutstanding 0 = !more.isEmpty))) = true := by decide

theorem test_meets_TornLaneMakesItsCheckedWrite :
    ([(false, 0, []), (true, 0, []), (true, 1, []), (true, 0, [givenUp])].all (fun (stopped, faults, more) =>
      [hostWord 5 5, hostWord 6 5, bad].all (fun r => decide (
        let s := tornLane (.check 2) stopped faults
        let u := s.afterReturn r (front s) more
        pickRequest ({ s with mport := front s :: more } : State).settled.mport r.pick = some (front s, more) ∧
        (u.lane 0).access = .check 2 ∧ (u.lane 0).list = aResult :: [] ∧ (u.lane 0).tear = true ∧
        (u.lane 0).stopped = stopped ∧ (u.lane 0).faultCounts = faults ∧
        u.laneOutstanding 0 = !more.isEmpty)) &&
      [0, 2].all (fun i => [good, bad].all (fun r => decide (
        let s := tornLane (.write i) stopped faults
        let u := s.afterReturn r (front s) more
        pickRequest ({ s with mport := front s :: more } : State).settled.mport r.pick = some (front s, more) ∧
        (u.lane 0).access = .write i ∧ (u.lane 0).list = aResult :: [] ∧ (u.lane 0).tear = true ∧
        (u.lane 0).stopped = stopped ∧ u.laneOutstanding 0 = !more.isEmpty)))) = true) ∧
    ([(1, []), (2, []), (1, [givenUp])].all (fun (faults, more) => decide (
      let s := countWriting (.fault .writeErr) (.lane 0) (tornLane .idle true faults)
      let u := s.afterReturn good (front s) more
      pickRequest ({ s with mport := front s :: more } : State).settled.mport good.pick = some (front s, more) ∧
      (front s).access = .counter ∧ u.engc.loading = none ∧
      u.smon.counts = { kind := .fault .writeErr, requester := .lane 0 } :: [] ∧
      (u.lane 0).stopped = true ∧ (u.lane 0).faultCounts = faults ∧
      u.laneOutstanding 0 = !more.isEmpty)) = true) := by decide

/-- The report of a fault's count to a lane that has not stopped for a tear: with nothing left to write, with another
count awaited, with a write in hand, and with a tear learned. -/
theorem test_meets_FaultCountLetsTheLaneSettle :
    [(1, SlotAccess.idle, [], false), (2, .idle, [], false), (1, .write 0, [aResult], false),
      (1, .write 0, [aResult], true)].all (fun (faults, a, rs, tear) => decide (
        let s := countWriting (.fault .readErr) (.lane 0) (busy { stepping (ask 1 0 0 0 9 0) .none with
          state := .closing, outcome := some (.fetchFault, 1), faultCounts := faults, access := a, list := rs
          tear := tear } (part .running))
        let u := s.afterReturn good (front s) []
        pickRequest s.settled.mport good.pick = some (front s, []) ∧ (front s).access = .counter ∧
        u.engc.loading = none ∧ u.smon.counts = { kind := .fault .readErr, requester := .lane 0 } :: [] ∧
        (u.lane 0).stopped = false ∧ (u.lane 0).tear = tear ∧ (u.lane 0).access = a ∧ (u.lane 0).list = rs ∧
        (u.lane 0).state = .closing ∧ (u.lane 0).outcome ≠ none ∧ (u.lane 0).faultCounts = faults)) = true := by
  decide

/-- The test equal, the range inside with its ends crossed, and the range outside, with INVERT clear. -/
theorem test_meets_CheckTestsTheMaskedValue :
    ((0 : Byte).extractLsb' 0 2 = 0 ∧ (0 : Byte).getLsbD 2 = false) ∧
    ((1 : Byte).extractLsb' 0 2 = 1 ∧ (1 : Byte).getLsbD 2 = false ∧ (4 : Word) < 5) ∧
    ((2 : Byte).extractLsb' 0 2 = 2 ∧ (2 : Byte).getLsbD 2 = false) ∧
    ((5 : Byte).extractLsb' 0 2 = 1 ∧ (5 : Byte).getLsbD 2 = true) := by decide

/-- A qualifier read is on the bus: the CHECK of step 1 of lane 0, whose source is step 0, has these words. -/
def qualifying (last : Bool) (mode : Byte) (got : List Word) : State :=
  asking (request (.qualifier 0 last) 0x1048 none)
    (busy { stepping (ask 9 0 mode 0 0 0) (.check got) with
      step := 1, results := (Vector.replicate 12 none).set 0 (some { code := .ok, value := 7 }) }
      (part .running))

/-- MATCH and MISS under each of the four actions, a source with no data, and a failed fourth read. -/
theorem test_meets_CheckCompletesAndActs :
    let s := fun (mode : Byte) (value : Word) => qualifying true mode [0xFF, value, 0]
    let result := fun (mode : Byte) (value : Word) =>
      checkResult ((met (s mode value) good).lane 0).request.mode
        ((met (s mode value) good).lane 0).sourceData [0xFF, value, 0, wordBack (s mode value) good]
    let noData := asking (request (.qualifier 0 true) 0x1048 none)
      (busy { stepping (ask 9 0 0x20 0 0 0) (.check [0xFF, 7, 0]) with
        step := 1, results := (Vector.replicate 12 none).set 0 (some { code := .timeout, value := 7 }) }
        (part .running))
    (Brings (s 0x10 7) good (.qualifier 0 true) ∧ replyFailed good.reply = false ∧
      ((met (s 0x10 7) good).lane 0).activity = .check [0xFF, 7, 0]) ∧
    ([0x00, 0x08, 0x10, 0x18].all (fun mode => result mode 7 == (.matched, 7)) = true ∧
      [0, 1, 2, 3].map (fun n => ((BitVec.ofNat 8 (8 * n)).extractLsb' 3 2).toNat) = [0, 1, 2, 3]) ∧
    ([0x00, 0x20, 0x40, 0x60].all (fun mode => result mode 8 == (.miss, 7)) = true ∧
      [0, 1, 2, 3].map (fun n => ((BitVec.ofNat 8 (32 * n)).extractLsb' 5 2).toNat) = [0, 1, 2, 3]) ∧
    (Brings noData good (.qualifier 0 true) ∧ ((met noData good).lane 0).sourceData = none ∧
      ((met noData good).lane 0).results[0] = some { code := .timeout, value := 7 }) ∧
    (Brings (s 0x10 7) bad (.qualifier 0 true) ∧ replyFailed bad.reply = true) ∧
    ((stepping (ask 9 0 0 0 0 0) .none).results[(stepping (ask 9 0 0 0 0 0) .none).request.line.toNat]? =
      some none) := by unfold Brings Returns; dsimp only; and_intros <;> decide

theorem test_meets_QualifierReadsFollowInOrder :
    let q := request (.qualifier 0 false) 0x1048 none
    ([[], [3], [3, 4]].all (fun got => decide (
      pickRequest (qualifying false 0 got).settled.mport good.pick = some (q, []) ∧
      pickRequest (qualifying false 0 got).settled.mport bad.pick = some (q, []) ∧ q.abandoned = false ∧
      (((qualifying false 0 got).afterReturn good q []).lane 0).activity = .check got ∧
      got.length < 3)) = true) ∧
    (let t := (qualifying false 0 [3]).learnTear 0
     pickRequest t.settled.mport good.pick = some (q, []) ∧ ((t.afterReturn good q []).lane 0).tear = true ∧
      ((t.afterReturn good q []).lane 0).activity = .check [3]) := by decide

theorem test_meets_CodesHaveTheirNumbers :
    ((ask 0 0 0 0 0 0).kind.toNat = 0 ∧ 10 ≤ (ask 10 0 0 0 0 0).kind.toNat) ∧
    (((beginning 1 false).lane 0).steps[1]? = some (ask 1 0 1 0 9 0) ∧ (ask 1 0 1 0 9 0).paramA ≠ 0) ∧
    (ask 2 0 0 0 21 0).kind = 2 ∧ reached (part .running).tbu.epoch (ask 2 0 0 0 21 0).paramA = false := by
  decide

/-! ## Commands run for one step -/

/-- An enable in OFF reads the word holding magic; one with AREA 0 is refused with BAD_AREA. -/
theorem test_enable : (after (.enableRequest 1) (part .off)).mport.map Request.addr = [0x1000] ∧
    (after (.enableRequest 1) (part .off)).engc.engine = .loading ∧
    (after (.enableRequest 1) State.reset).status = 0x21010000 := by decide

theorem test_disable_drains : (after (.disable (late 0)) drainable).engc.engine = .draining ∧
    ((after (.disable (late 0)) drainable).outd[3]).level = false := by decide

/-- A CONTROL word sets its fields together; code 5 of TICKDIV is not taken. -/
theorem test_control_fields : (after (.mask 0xF70) State.reset).control = 0xF70 ∧
    (after (.tickdiv 0x14) State.reset).control = 0 := by decide

theorem test_area_low_bits : (after (.areaWrite 0x123456FF) (part .off)).regp.area = 0x12345600 := by decide

theorem test_cause_clear : (after (.causeClear 8) caused).regp.cause = 1 := by decide

theorem test_tick : (after (.tickBoundary noTick) (part .running)).epoch = 21 ∧
    (after (.tickBoundary noTick) (part .off)).epoch = 20 := by decide

/-- A nudge in RUNNING begins a sweep with the configuration read. -/
theorem test_nudge : (after (.nudge 0) (part .running)).mport.map Request.addr = [0x1004] := by decide

/-- A rise that completes an EDGE step: its result holds the stamp of the run's first sample. -/
theorem test_edge : ((after (.acceptedEdge 2) (waitingOn (ask 3 2 1 0 0 0) .edge)).lane 0).list =
    [{ step := 0, code := .ok, value := 0, stamp := 18, aux := 1, pass := 1 }] := by decide

theorem test_hold : ((after (.hold 0) (busy { stepping (ask 1 0 0 0 9 0) .hold with counter := 9 }
    (part .running))).lane 0).list =
    [{ step := 0, code := .ok, value := 9, stamp := 19, aux := 0, pass := 1 }] := by decide

/-- The last rest phase of a PULSE ends it with its count. -/
theorem test_pulse : ((after (.pulse 0) (pulsing 2 false 4)).lane 0).list =
    [{ step := 0, code := .ok, value := 2, stamp := 10, aux := 1, pass := 1 }] := by decide

/-- A window that runs out concludes the plan TIMED_OUT at its step. -/
theorem test_window : ((after (.windowExpiry 0) (expired (ask 3 2 1 0 0 0) .edge)).lane 0).outcome =
    some (.timedOut, 0) := by decide

/-- A joined entry starts at once on lane 0: the visit ends, the next piece is the sweep's closing, and the
lane's first read is that of its slot's host word. -/
theorem test_take : ((after (.take good false) (takingPart takeJob)).lane 0).state = .loading ∧
    (after (.take good false) (takingPart takeJob)).mport.map Request.addr = [0x1260, 0x1014] ∧
    (after (.take good false) (takingPart takeJob)).status = 0x21000012 := by decide

/-- With no lane free the entry whose limit is reached leaves the queue as LATE. -/
theorem test_late : ((after .latenessLimit (queued (entry 4 1 false)
    { part .running with
      tbu := { prescaler := 0, epoch := 30, timer := 0 }
      admu := { Admission.reset with pool := Vector.replicate 4 false } })).mirror 1).pendingOutcome =
    some .late := by decide

/-- A visit's read is outstanding as the engine leaves RUNNING. The post that memory then holds is discovered when
it returns, and one made after that waits in memory, SMON's work being over. -/
theorem test_post_in_draining_waits :
    let s := visiting (mirrored .idle none (busy (stepping (ask 1 0 0 0 9 0) .hold) (part .running)))
    let d := fun (w : PlacedWrite) => (after (.disable w) s).setMirror 1 (mirrored .idle none s |>.mirror 1)
    let before := d { late 0 with hostWrites := [{ addr := 0x1260, data := 6 }] }
    (after (.slotVisit good) before).smon.piece = some (.visit 1, .record 1 6 []) ∧
    (after (.slotVisit (hostWord 6 0)) (d (late 0))).smon.piece = none ∧
    (after (.slotVisit (hostWord 6 0)) (d (late 0))).mport = [] := by decide

/-- The same post recalled before DRAINING is seen recalled, and recalled in DRAINING it is not. -/
theorem test_recall_in_draining_is_not_seen :
    let s := visiting (mirrored .idle none (busy (stepping (ask 1 0 0 0 9 0) .hold) (part .running)))
    let d := fun (n : Half) => (after (.disable
      { late 0 with hostWrites := [{ addr := 0x1260, data := pair16 n 6 }] }) s).setMirror 1
        (mirrored .idle none s |>.mirror 1)
    ((after (.slotVisit good) (d 6)).smon.piece = some (.visit 1, .record 1 6 []) ∧
      (after (.slotVisit good) (d 6)).recallStands 1 6 = true) ∧
    ((after (.slotVisit (hostWord 6 6)) (d 0)).smon.piece = some (.visit 1, .record 1 6 []) ∧
      (after (.slotVisit (hostWord 6 6)) (d 0)).recallStands 1 6 = false) := by decide

/-- A recall that a sweep has seen for post 6 stays in force though the discovery or the take fails, though the host
withdraws it, and though the slot is RUNNING or TEARING as it is seen; it goes with its post, or at its take, and
LOADING leaves it whatever host word it reads (10, R141), to stand under its own AREA only. -/
theorem test_seen_recall_stays_in_force :
    let seen := fun (r : BusReturn) (s : State) => (after (.slotVisit r) (visiting s)).recallStands 1 6
    let idle := mirrored .idle none (part .running)
    let run := busy (stepping (ask 1 0 0 0 9 0) .hold) (part .running)
    let torn := mirrored .tearing none (part .running)
    let load := fun r s => (after (.loadingRead r) { s with
      mport := [request .loading 0x1260 none]
      engc := { s.engc with loading := some (loadingX (.hostWord 1)) } }).recallStands 1 6
    ([idle, run, torn].all (fun s => seen (hostWord 6 6) s && seen (hostWord 6 0) (recalled 6 s) &&
      seen bad (recalled 6 s) && !seen (hostWord 6 0) s && !seen (hostWord 7 0) (recalled 6 s) &&
      !seen (hostWord 5 5) (recalled 6 s)) = true) ∧
    ((after (.discovery bad) (discovering 12 0 6)).recallStands 1 6 = true ∧
      (after (.take bad false) (recalled 6 (takingPart takeJob))).recallStands 1 6 = true ∧
      (after (.take good false) (recalled 6 (takingPart takeJob))).smon.recalls[1] = none) ∧
    ((after (.discovery good) (discovering 12 0 6)).smon.piece.map (fun p => match p.2 with
        | .takeEpoch j => j.refusal
        | _ => none) = some (some .recalled)) ∧
    (load (hostWord 6 0) (recalled 6 (part .loading)) = true ∧
      load (hostWord 7 0) (recalled 6 (part .loading)) = true ∧
      load (hostWord 6 6) (part .loading) = false ∧
      load (hostWord 6 0) ((part .loading).setRecall 1 (some { area := 0x2000, post := 6 })) = false) := by
  and_intros <;> decide

/-- An entry joins after every entry of its own priority that waits, also where one of them has waited for 2^31 others
(05, R65). -/
theorem test_join_after_own_priority :
    let x := ranked 1 1
    let y := ranked 1 0x7FFFFFF6
    let e := ranked 1 0x80000005
    insertEntry e [x, y] = [x, y, e] ∧ insertEntry e [ranked 2 2, x, y, ranked 0 3] =
      [ranked 2 2, x, y, e, ranked 0 3] := by decide

/-- A SET to 1 that a SET to 0 follows at the same tick: OUTD holds 1 between them, which the second's aux shows, and
the pin shows 0 throughout (08, R124, R127). -/
theorem test_two_sets_show_no_pulse :
    let t := after (.stepBegin 0) twoSets
    let u := after (.stepBegin 0) t
    (t.outd[0]).level = true ∧ (u.lane 0).list.map StepResult.aux = [0, 1] ∧
      [twoSets, t, u].map (fun s => s.outputPin 0) = [false, false, false] ∧
      State.reset.outputPin 0 = false := by decide

/-- A settle write of a torn lane lands and is its last, and the report of a fault's count lets a lane with nothing
left to write begin its settle. -/
theorem test_settle_after_tear_and_after_fault :
    let torn := laneSettling 1
    let stopped := busy { torn.lane 0 with tear := true, stopped := true } torn
    let fault := countWriting (.fault .readErr) (.lane 0) (busy { stepping (ask 1 0 0 0 9 0) .none with
      state := .closing, outcome := some (.fetchFault, 0), faultCounts := 1 } (part .running))
    (((after (.settleWrite good) stopped).lane 0).state = .free ∧
      (after (.settleWrite good) stopped).smon.waiting = [.tearRelease 1] ∧
      (after (.settleWrite good) stopped).mport = []) ∧
    (((after (.counterWrite good) fault).lane 0).access = .settleCheck 0 ∧
      (after (.counterWrite good) fault).mport.map Request.access = [.settleCheck 0]) := by decide

/-- A DISABLE taken before an expiry of its instant ends RUNNING at OFF, and the expiry then only returns the count
to 0. -/
theorem test_overtaken_expiry :
    let t := after (.disable (soon 0x20)) (timerAtPeriod .running)
    t.engc.engine = .off ∧ t.tbu.timer = 1024 ∧ (after .sweepTimerExpiry t).tbu.timer = 0 ∧
      (after .sweepTimerExpiry t).smon.inProgress = false := by decide

/-- The settle of a removed plan: LATE, 0xFF, 0xFF, 0 at offset 0x1C of slot 1. -/
theorem test_removal_settle : (after .removalSettle (waiting (.removal 1 .late true) (part .running))).mport.map
    (fun q => (q.addr, q.data)) = [(0x127C, some 0x00FFFF07)] := by decide

/-- A failed settle write of SMON's stalls the engine. -/
theorem test_stall : (after (.settleWrite bad) (smonSettling 3)).status = 0x21040004 := by decide

/-- A fault counted sets CAUSE.FAULT and FAULT_CODE. -/
theorem test_fault_counted : (after (.counterWrite good) (countWriting (.fault .writeErr) .smon
    (working (.visit 1) (.counting .endPiece) (part .running)))).regp.cause = 4 := by decide

/-- A CHECK that matches concludes PASSED with its masked value. -/
theorem test_check : ((after (.check good) (qualifying true 0x10 [0xFF, 7, 0])).lane 0).outcome =
    some (.passed, 1) := by decide

theorem test_result_write : (Memory.read (after (.resultWrite good) (asking
    (request (.result 0) 0x12B0 (some 7)) (busy { stepping (ask 1 0 0 0 9 0) .hold with
      list := [aResult], access := .write 0 } (part .running)))).mem 0x12B0) = 7 := by decide

/-- An entry whose limit its boundary reaches leaves the queue as LATE before a DISABLE of that instant meets it. -/
theorem test_late_before_early_disable :
    let s := queued (entry 4 1 false) { part .running with
      tbu := { prescaler := 0, epoch := 30, timer := 0 }
      admu := { Admission.reset with pool := Vector.replicate 4 false } }
    ((after (.disable (soon 0)) (after .eligible s)).mirror 1).pendingOutcome = some .late := by decide

/-- A qualifier read that fails after the tear is learned, and before the lane stops, is counted READ_ERR; one that
returns after the stop is not. -/
theorem test_torn_check_counts_its_fault :
    let s := (qualifying false 0 []).learnTear 0
    (after (.qualifierRead bad) s).smon.counts = [{ kind := .fault .readErr, requester := .lane 0 }] ∧
    (after (.qualifierRead bad) (s.tearStop 0)).smon.counts = [] := by decide

theorem test_drain_end : (after .drainEnd (part .draining)).engc.engine = .off := by decide

end Sys2Proof.Tests
end

section
/-! The words of the Exchange Area: where an access writes, the layouts of the words written, and their addresses
(01, R1 to R3, R12; 12, R163 to R168). -/

namespace Sys2Proof.Machine

/-! ### One access and memory (01, R3) -/

/-- An access changes no byte outside the word that it writes. -/
theorem Memory.byte_carry_other (m : List Host.Cell) (req : Request) (reply : BusReply) (a : Nat)
    (h : req.data = none ∨ a < wordAddr req.addr ∨ wordAddr req.addr + 4 ≤ a) :
    Memory.byte (Memory.carry m req reply) a = Memory.byte m a := by
  unfold Memory.carry
  cases hd : req.data with
  | none => rfl
  | some w => exact Memory.byte_write_other _ _ _ _ (by simpa [hd] using h)

/-- A write that succeeds leaves its word. -/
theorem Memory.read_carry_self (m : List Host.Cell) {req : Request} {w : Word} (hd : req.data = some w)
    (hm : Memory.wf m = true) : Memory.read (Memory.carry m req .ok) req.addr = w := by
  unfold Memory.carry
  rw [hd]
  exact Memory.read_write_self m req.addr w hm

/-- Settles O4: one access against memory, by `Memory.byte_carry_other` and `Memory.read_carry_self`. -/
theorem accessChangesOnlyItsWord : Obligations.AccessChangesOnlyItsWord := by
  intro m req reply
  exact ⟨fun a h => Memory.byte_carry_other m req reply a h, fun w hd hm => Memory.read_carry_self m hd hm⟩

/-! ### The fields of a word (12, R163) -/

@[simp] theorem low16_pair16 (high low : Half) : low16 (pair16 high low) = low :=
  BitVec.extractLsb'_append_eq_right

@[simp] theorem high16_pair16 (high low : Half) : high16 (pair16 high low) = high :=
  BitVec.extractLsb'_append_eq_left

/-- The four bytes of a word of four bytes. -/
theorem quad8_bytes (b3 b2 b1 b0 : Byte) :
    byte0 (quad8 b3 b2 b1 b0) = b0 ∧ byte1 (quad8 b3 b2 b1 b0) = b1 ∧
      byte2 (quad8 b3 b2 b1 b0) = b2 ∧ byte3 (quad8 b3 b2 b1 b0) = b3 := by
  have above {v w : Nat} (hi : BitVec v) (lo : BitVec w) (i : Nat) :
      (hi ++ lo).extractLsb' (w + i) 8 = hi.extractLsb' i 8 := by
    rw [BitVec.extractLsb'_append_eq_of_le (Nat.le_add_right w i), Nat.add_sub_cancel_left]
  refine ⟨BitVec.extractLsb'_append_eq_right, ?_, ?_, ?_⟩
  · exact (above _ b0 0).trans BitVec.extractLsb'_append_eq_right
  · exact (above _ b0 8).trans ((above _ b1 0).trans BitVec.extractLsb'_append_eq_right)
  · exact (above _ b0 16).trans ((above _ b1 8).trans BitVec.extractLsb'_append_eq_left)

/-! ### Settles and results (02, R17, R23; 01, R12) -/

/-- The last word of a settle has take_seq and settle_seq equal (02, R17). -/
theorem settleWord_last (outcome started settled : Word) (seq : Half) :
    takeSeq (settleWord 3 outcome started settled seq) = seq ∧
      settleSeq (settleWord 3 outcome started settled seq) = seq :=
  ⟨low16_pair16 seq seq, high16_pair16 seq seq⟩

/-! ### Addresses (01, R1, R2; 12, R164 to R166) -/

theorem slotOffset_eq (k : SlotId) : slotOffset k = BitVec.ofNat 32 (0x100 + 0x160 * k.val) := by
  unfold slotOffset
  rw [Nat.mul_comm, BitVec.ofNat_add, BitVec.ofNat_mul]

theorem State.slotWord_eq (s : State) (k : SlotId) (offset : Word) :
    s.slotWord k offset = s.regp.area + BitVec.ofNat 32 (0x100 + 0x160 * k.val) + offset := by
  unfold State.slotWord State.area
  rw [slotOffset_eq, BitVec.add_assoc]

theorem State.qualifierAddr_eq (s : State) (e i : Nat) :
    s.qualifierAddr e i = s.regp.area + BitVec.ofNat 32 (0x40 + 0x10 * e + 4 * i) := by
  unfold State.qualifierAddr State.area
  rw [Nat.add_assoc, BitVec.ofNat_add 0x40, Nat.mul_comm e]

theorem State.stepAddr_eq (s : State) (k : SlotId) (j : Nat) (offset : Word) :
    s.stepAddr k j offset = s.slotWord k (BitVec.ofNat 32 (0x40 + 0x18 * j) + offset) := by
  unfold State.stepAddr
  rw [BitVec.ofNat_add 0x40, Nat.mul_comm j]

/-- Settles O43: the layouts of the settle and result words, and the addresses. -/
theorem settleAndResultWordsHaveTheirPlaces : Obligations.SettleAndResultWordsHaveTheirPlaces := by
  refine ⟨fun outcome started settled seq => ?_, fun e => ?_, fun s => ?_⟩
  · exact ⟨⟨rfl, rfl⟩, ⟨rfl, rfl⟩, ⟨rfl, rfl⟩, rfl, settleWord_last outcome started settled seq⟩
  · obtain ⟨hcode, hpass, haux, hzero⟩ := quad8_bytes 0 e.aux e.pass e.code.code
    exact ⟨⟨rfl, rfl⟩, ⟨rfl, rfl⟩, rfl, hcode, hpass, haux, hzero⟩
  · refine ⟨fun i => ?_, s.qualifierAddr_eq, fun k => ?_⟩
    · exact congrArg (s.regp.area + ·) (BitVec.ofNat_add 0x20 (4 * i)).symm
    · exact ⟨slotOffset_eq k, s.slotWord_eq k, rfl, rfl, rfl,
        fun i => congrArg (s.slotWord k) (BitVec.ofNat_add 0x08 (4 * i)).symm, s.stepAddr_eq k⟩

/-! ### The counter set's words (04, R61; 12, R164) -/

/-- A request that finds the counter set idle is served at once. -/
theorem State.count_idle {s : State} (kind : CountKind) (q : Requester) (h : s.smon.counts = []) :
    s.count kind q =
      ({ s with smon := { s.smon with counts := [{ kind := kind, requester := q }] } } : State).serve := by
  unfold State.count
  simp [h]

/-- Settles O45: the service of each kind of request, from an idle counter set. -/
theorem counterRequestWritesItsWord : Obligations.CounterRequestWritesItsWord := by
  intro s q h
  refine ⟨fun k seq => ?_, fun n => ?_, ?_, ?_, fun code => ?_, fun v => ?_⟩
  all_goals
    rw [State.count_idle _ _ h]
    exact ⟨rfl, rfl⟩

end Sys2Proof.Machine
end

section
/-! Engine Control across the events inside the part: ADMU, the lanes and SMON leave it alone, and ENGC's own events
keep the slot count, which LOADING alone writes (10, R141). One lemma per shared operation. -/

namespace Sys2Proof.Machine

/-! ### Admission -/

@[simp] theorem State.walk_engc (s : State) : s.walk.engc = s.engc := (State.walk_frame s).1.engc
@[simp] theorem State.removeEntry_engc (s : State) (k : SlotId) : (s.removeEntry k).engc = s.engc := rfl
@[simp] theorem State.removeAs_engc (s : State) (k : SlotId) (w : Removal) : (s.removeAs k w).engc = s.engc := rfl
@[simp] theorem State.releaseClaims_engc (s : State) (l : LaneId) (b : Bool) :
    (s.releaseClaims l b).engc = s.engc := rfl
@[simp] theorem State.freeTheLane_engc (s : State) (l : LaneId) : (s.freeTheLane l).engc = s.engc := rfl
@[simp] theorem State.lateEntry_engc (s : State) (k : SlotId) : (s.lateEntry k).engc = s.engc := by
  unfold State.lateEntry
  dsimp only
  split <;> simp
@[simp] theorem lateAll_engc (n : Nat) (s : State) : (lateAll n s).engc = s.engc := by
  induction n generalizing s with
  | zero => rfl
  | succ n ih => unfold lateAll; split <;> simp [ih]
@[simp] theorem State.admissionTick_engc (s : State) : s.admissionTick.engc = s.engc := by
  unfold State.admissionTick State.makeEligible
  split <;> simp
@[simp] theorem State.join_engc (s : State) (e : Entry) : (s.join e).engc = s.engc := by
  unfold State.join
  dsimp only
  repeat' split
  all_goals simp

/-! ### The counter set and SMON's pieces -/

@[simp] theorem State.count_engc (s : State) (k : CountKind) (q : Requester) : (s.count k q).engc = s.engc :=
  (OnlyWork.of_count s k q).1.engc
@[simp] theorem State.setWork_engc (s : State) (w : Work) : (s.setWork w).engc = s.engc :=
  (OnlyWork.of_setWork s w).1.engc
@[simp] theorem State.takeNext_engc (s : State) : s.takeNext.engc = s.engc := (OnlyWork.of_takeNext s).1.engc
@[simp] theorem State.readyAfter_engc (s : State) (p : Piece) : (s.readyAfter p).engc = s.engc :=
  (OnlyWork.of_readyAfter s p).1.engc
@[simp] theorem State.endPiece_engc (s : State) : s.endPiece.engc = s.engc := (OnlyWork.of_endPiece s).1.engc
@[simp] theorem State.sweepRequest_engc (s : State) : s.sweepRequest.engc = s.engc :=
  (OnlyWork.of_sweepRequest s).1.engc
@[simp] theorem State.smonCount_engc (s : State) (k : CountKind) (n : AfterCount) :
    (s.smonCount k n).engc = s.engc := (OnlyWork.of_smonCount s k n).1.engc
@[simp] theorem State.nextCount_engc (s : State) : s.nextCount.engc = s.engc := by
  unfold State.nextCount
  exact (OnlyWork.of_serve _).1.engc
/-- A fault that is counted sets FAULT_CODE, and no request changes the slot count. -/
@[simp] theorem State.countEffect_slotCount (s : State) (k : CountKind) :
    (s.countEffect k).engc.slotCount = s.engc.slotCount := by
  cases k <;> rfl

/-! ### Lanes -/

@[simp] theorem State.pump_engc (s : State) (l : LaneId) : (s.pump l).engc = s.engc := by
  obtain ⟨a, e, q, h⟩ := State.pump_eq s l
  rw [h]
  rfl
@[simp] theorem State.conclude_engc (s : State) (l : LaneId) (o : PlanOutcome) (b : Byte) :
    (s.conclude l o b).engc = s.engc := by
  simp [State.conclude]
@[simp] theorem State.finishStep_engc (s : State) (l : LaneId) (c : ResultCode) (v w : Word) (a : Byte)
    (o : Option PlanOutcome) (b d : Bool) : (s.finishStep l c v w a o b d).engc = s.engc := by
  unfold State.finishStep
  dsimp only
  split <;> simp
@[simp] theorem State.drive_engc (s : State) (l : LaneId) (o : OutLine) (b : Bool) :
    (s.drive l o b).engc = s.engc := (OnlyLane.of_drive s l o b).engc
@[simp] theorem State.beginStep_engc (s : State) (l : LaneId) (k : Nat) : (s.beginStep l k).engc = s.engc := by
  unfold State.beginStep
  dsimp only
  repeat' split
  all_goals simp
@[simp] theorem State.beginWaiting_engc (s : State) (l : LaneId) : (s.beginWaiting l).engc = s.engc := by
  unfold State.beginWaiting
  split <;> simp
@[simp] theorem State.deliverEdge_engc (s : State) (l : LaneId) (i : InLine) (b : Bool) (w : Word) :
    (s.deliverEdge l i b w).engc = s.engc := (State.deliverEdge_onlyLane s l i b w).1.engc
theorem foldl_engc {α : Type} (f : State → α → State) (hf : ∀ s x, (f s x).engc = s.engc) (l : List α)
    (s : State) : (l.foldl f s).engc = s.engc := by
  induction l generalizing s with
  | nil => rfl
  | cons x l ih => rw [List.foldl_cons, ih, hf]
@[simp] theorem State.acceptEdge_engc (s : State) (i : InLine) : (s.acceptEdge i).engc = s.engc := by
  unfold State.acceptEdge
  exact foldl_engc _ (fun s l => State.deliverEdge_engc ..) _ _
@[simp] theorem State.acceptEdges_engc (s : State) : s.acceptEdges.engc = s.engc := by
  unfold State.acceptEdges
  refine foldl_engc _ (fun s i => ?_) _ _
  split <;> simp
@[simp] theorem State.overrangeStep_engc (s : State) (l : LaneId) : (s.overrangeStep l).engc = s.engc := by
  unfold State.overrangeStep
  split <;> simp
@[simp] theorem State.timeoutStep_engc (s : State) (l : LaneId) : (s.timeoutStep l).engc = s.engc := by
  unfold State.timeoutStep
  extract_lets x t v ends
  have he (a b : Word) (c : Byte) : (ends a b c).engc = s.engc := State.finishStep_engc ..
  cases x.activity <;> first | rfl | exact he ..
@[simp] theorem State.pulseStep_engc (s : State) (l : LaneId) : (s.pulseStep l).engc = s.engc := by
  unfold State.pulseStep
  dsimp only
  repeat' split
  all_goals simp
@[simp] theorem State.tallyStep_engc (s : State) (l : LaneId) : (s.tallyStep l).engc = s.engc := by
  unfold State.tallyStep
  split <;> simp
@[simp] theorem State.completeRunning_engc (s : State) (l : LaneId) : (s.completeRunning l).engc = s.engc := by
  unfold State.completeRunning State.holdStep State.untilStep
  dsimp only
  repeat' split
  all_goals simp
@[simp] theorem State.chainInstant_engc (s : State) (l : LaneId) : (s.chainInstant l).engc = s.engc := by
  unfold State.chainInstant
  dsimp only
  repeat' split
  all_goals simp
@[simp] theorem State.cutRunning_engc (s : State) (l : LaneId) (c : ResultCode) :
    (s.cutRunning l c).engc = s.engc := by
  unfold State.cutRunning
  dsimp only
  split <;> simp
@[simp] theorem State.flagEffect_engc (s : State) (l : LaneId) : (s.flagEffect l).engc = s.engc := by
  unfold State.flagEffect
  dsimp only
  repeat' split
  all_goals simp
@[simp] theorem State.flaggedBoundary_engc (s : State) (l : LaneId) : (s.flaggedBoundary l).engc = s.engc := by
  unfold State.flaggedBoundary
  split <;> simp
@[simp] theorem State.learnTear_engc (s : State) (l : LaneId) : (s.learnTear l).engc = s.engc := by
  unfold State.learnTear
  dsimp only
  split <;> simp
@[simp] theorem State.tearFinish_engc (s : State) (l : LaneId) : (s.tearFinish l).engc = s.engc := by
  unfold State.tearFinish
  dsimp only
  split <;> simp
@[simp] theorem State.tearStop_engc (s : State) (l : LaneId) : (s.tearStop l).engc = s.engc := by
  unfold State.tearStop
  dsimp only
  split <;> simp
@[simp] theorem State.laneFault_engc (s : State) (l : LaneId) (o : PlanOutcome) (b : Byte) (c : FaultCode)
    (d : Bool) : (s.laneFault l o b c d).engc = s.engc := by
  simp [State.laneFault]
@[simp] theorem State.notify_engc (s : State) (b : Bool) : (s.notify b).engc = s.engc := by
  unfold State.notify
  split <;> rfl
@[simp] theorem State.laneCounted_engc (s : State) (l : LaneId) (k : CountKind) :
    (s.laneCounted l k).engc = s.engc := by
  unfold State.laneCounted State.laneSettled
  dsimp only
  repeat' split
  all_goals simp

/-! ### SMON's visits, takes and settles -/

@[simp] theorem State.settleDue_engc (s : State) (k : SlotId) (q : Half) (o : PlanOutcome) (n : Bool)
    (d : Option Half) : (s.settleDue k q o n d).engc = s.engc := State.setWork_engc ..
@[simp] theorem State.startDiscovery_engc (s : State) (k : SlotId) (p : Half) :
    (s.startDiscovery k p).engc = s.engc := State.setWork_engc ..
@[simp] theorem State.smonSettleWrite_engc (s : State) (j : SettleJob) (i : Nat) :
    (s.smonSettleWrite j i).engc = s.engc := State.setWork_engc ..
@[simp] theorem State.visitPending_engc (s : State) (k : SlotId) (w : Removal) (d : Option Half) :
    (s.visitPending k w d).engc = s.engc := State.setWork_engc ..
@[simp] theorem State.visitRunning_engc (s : State) (k : SlotId) (p : Half) (r : Option Half) :
    (s.visitRunning k p r).engc = s.engc := by
  unfold State.visitRunning
  dsimp only
  repeat' split
  all_goals simp
@[simp] theorem State.visitDecision_engc (s : State) (k : SlotId) (p r : Half) :
    (s.visitDecision k p r).engc = s.engc := by
  unfold State.visitDecision
  dsimp only
  repeat' split
  all_goals simp
@[simp] theorem State.taken_engc (s : State) (j : TakeJob) (f : Bool) : (s.taken j f).engc = s.engc := by
  unfold State.taken
  dsimp only
  repeat' split
  all_goals simp
@[simp] theorem State.smonCounted_engc (s : State) : s.smonCounted.engc = s.engc := by
  unfold State.smonCounted State.smonSettled
  dsimp only
  repeat' split
  all_goals simp

/-! ### Engine Control's own events -/

theorem State.enterDraining_slotCount (s : State) : s.enterDraining.engc.slotCount = s.engc.slotCount := by
  obtain ⟨-, -, hengc, -⟩ := haltEntries_rest s.admu.queue s.beginDrain
  have kept : (haltEntries s.admu.queue s.beginDrain).engc.slotCount = s.engc.slotCount := by rw [hengc]; rfl
  unfold State.enterDraining
  dsimp only
  split <;> exact kept
@[simp] theorem State.nextOrphan_slotCount (s : State) (x : Loading) :
    (s.nextOrphan x).engc.slotCount = s.engc.slotCount := by
  unfold State.nextOrphan
  split <;> rfl
@[simp] theorem State.notePart_engc (s : State) (x : Loading) (k : SlotId) (w : Word) :
    (s.notePart x k w).1.engc = s.engc := by
  unfold State.notePart
  dsimp only
  split <;> rfl
@[simp] theorem State.orphanWritten_slotCount (s : State) (x : Loading) (i : Nat) :
    (s.orphanWritten x i).engc.slotCount = s.engc.slotCount := by
  unfold State.orphanWritten
  repeat' split
  all_goals simp [State.orphanWrite]
@[simp] theorem State.engcCounted_slotCount (s : State) (x : Loading) :
    (s.engcCounted x).engc.slotCount = s.engc.slotCount := by
  unfold State.engcCounted
  split <;> simp

/-! ### Events due at an instant, and boundaries -/

@[simp] theorem State.timerExpires_engc (s : State) : s.timerExpires.engc = s.engc := State.sweepRequest_engc _
@[simp] theorem State.beginDueSettle_engc (s : State) : s.beginDueSettle.engc = s.engc := by
  unfold State.beginDueSettle State.beginSettle
  repeat' split
  all_goals simp
@[simp] theorem State.handleCompletion_engc (s : State) : s.handleCompletion.engc = s.engc := by
  unfold State.handleCompletion
  dsimp only
  repeat' split
  all_goals simp
@[simp] theorem State.handleTearRelease_engc (s : State) : s.handleTearRelease.engc = s.engc := by
  unfold State.handleTearRelease
  dsimp only
  split <;> simp
@[simp] theorem Due.act_slotCount (s : State) (e : Due) : (e.act s).engc.slotCount = s.engc.slotCount := by
  cases e <;>
    simp [Due.act, State.holdStep, State.untilStep, State.completeLoad, State.enterOff]
@[simp] theorem State.runDue_slotCount (s : State) (e : Due) : (s.runDue e).engc.slotCount = s.engc.slotCount := by
  unfold State.runDue
  split <;> simp
@[simp] theorem finishLoop_slotCount (n : Nat) (s : State) :
    (finishLoop n s).engc.slotCount = s.engc.slotCount := by
  induction n generalizing s with
  | zero => rfl
  | succ n ih => unfold finishLoop; split <;> simp [ih]
@[simp] theorem State.settled_slotCount (s : State) : s.settled.engc.slotCount = s.engc.slotCount :=
  finishLoop_slotCount instantBound s
@[simp] theorem State.boundaryAct_engc (s : State) (a : Actor) : (s.boundaryAct a).engc = s.engc := by
  unfold State.boundaryAct State.boundaryLane
  dsimp only
  repeat' split
  all_goals simp
@[simp] theorem State.boundary_engc (s : State) (t : TickInput) : (s.boundary t).engc = s.engc :=
  foldl_engc _ State.boundaryAct_engc _ _

end Sys2Proof.Machine
end

section
/-! What a command does to memory, to AREA, to the divisor code and to the slot count: one account of the returns of
accesses, one of the commands inside the part, one of CONTROL and the resets (01, R1, R3, R14; 11, R156 to R161). -/

namespace Sys2Proof.Machine

/-! ### A stall or a reset of the bus -/

/-- A reset of the bus leaves memory as it was, or as the access on the bus leaves it. -/
theorem State.dropBus_mem (s : State) (b : OnBus) :
    (s.dropBus b).mem = s.mem ∨ ∃ req rest, pickRequest s.mport b.pick = some (req, rest) ∧
      (s.dropBus b).mem = Memory.carry s.mem req b.reply := by
  unfold State.dropBus
  cases hp : pickRequest s.mport b.pick with
  | none => exact .inl rfl
  | some p => exact .inr ⟨p.1, p.2, rfl, rfl⟩

/-- A stall leaves memory as it was, or as the access under way at it leaves it. -/
theorem State.stall_mem (s : State) (code : FaultCode) (b : Option OnBus) :
    (s.stall code b).mem = s.mem ∨ ∃ o req rest, b = some o ∧ pickRequest s.mport o.pick = some (req, rest) ∧
      (s.stall code b).mem = Memory.carry s.mem req o.reply := by
  have left : (s.stall code b).mem = (s.emptyBus b).mem := congrArg Outside.mem (State.stall_outside s code b)
  rw [left]
  cases b with
  | none => exact .inl rfl
  | some o =>
    rcases s.dropBus_mem o with h | ⟨req, rest, hp, h⟩
    · exact .inl h
    · exact .inr ⟨o, req, rest, rfl, hp, h⟩

/-! ### The returns of accesses -/

/-- What a unit's handling of a return may do: it leaves memory alone but at a stall, it leaves AREA and the divisor
code alone, and it keeps the slot count at most sixteen. -/
structure HandledWithin (b : Option OnBus) (s t : State) : Prop where
  memory : t.mem = s.mem ∨ ∃ code, t = s.stall code b
  area : t.regp.area = s.regp.area
  tickdiv : t.regp.tickdiv = s.regp.tickdiv
  slotCount : s.SlotCountLegal → t.SlotCountLegal

theorem HandledWithin.of_butRecalls {b : Option OnBus} {s t : State} (h : OutsideButRecalls s t)
    (hc : t.engc.slotCount = s.engc.slotCount) : HandledWithin b s t where
  memory := .inl (congrArg Outside.mem h :)
  area := (congrArg Outside.area h :)
  tickdiv := (congrArg Outside.tickdiv h :)
  slotCount := fun hs => Nat.le_trans (Nat.le_of_eq hc) hs

theorem HandledWithin.of_outside {b : Option OnBus} {s t : State} (h : t.outside = s.outside)
    (hc : t.engc.slotCount = s.engc.slotCount) : HandledWithin b s t :=
  .of_butRecalls (.of_outside h) hc

theorem HandledWithin.of_stall {b : Option OnBus} (s : State) (code : FaultCode) :
    HandledWithin b s (s.stall code b) where
  memory := .inr ⟨code, rfl⟩
  area := (congrArg Outside.area (State.stall_outside s code b) :)
  tickdiv := (congrArg Outside.tickdiv (State.stall_outside s code b) :)
  slotCount := fun hs => hs

theorem State.discarded_within (b : Option OnBus) (s : State) (req : Request) :
    HandledWithin b s (s.discarded req) := by
  refine .of_outside (by simp) ?_
  unfold State.discarded
  split <;> simp

/-! #### SMON's returns -/

theorem State.configReturned_within (b : Option OnBus) (s : State) (f : Bool) (w : Word) :
    HandledWithin b s (s.configReturned f w) := by
  refine .of_outside (by simp) ?_
  unfold State.configReturned State.smonFault
  repeat' split
  all_goals simp

theorem State.reloadReturned_within (b : Option OnBus) (s : State) (f : Bool) (w : Word) :
    HandledWithin b s (s.reloadReturned f w) := by
  refine .of_outside (by simp) ?_
  unfold State.reloadReturned State.smonFault
  dsimp only
  repeat' split
  all_goals simp

theorem State.visitReturned_within (b : Option OnBus) (s : State) (f : Bool) (w : Word) :
    HandledWithin b s (s.visitReturned f w) := by
  refine .of_butRecalls (State.visitReturned_outside s f w) ?_
  unfold State.visitReturned State.smonFault State.noteVisit
  repeat' split
  all_goals simp

theorem State.recordReturned_within (b : Option OnBus) (s : State) (f : Bool) (w : Word) :
    HandledWithin b s (s.recordReturned f w) := by
  refine .of_outside (by simp) ?_
  unfold State.recordReturned State.smonFault State.startTake
  dsimp only
  repeat' split
  all_goals simp

theorem State.takeReturned_within (b : Option OnBus) (s : State) (f first : Bool) :
    HandledWithin b s (s.takeReturned f first) := by
  refine .of_butRecalls (State.takeReturned_outside s f first) ?_
  unfold State.takeReturned State.smonFault State.takePartWrite
  repeat' split
  all_goals simp

theorem State.smonSettleReturned_within (b : Option OnBus) (s : State) (f : Bool) :
    HandledWithin b s (s.smonSettleReturned f b) := by
  unfold State.smonSettleReturned
  split
  · split
    · exact .of_stall ..
    · split <;> exact .of_outside (by simp) (by simp)
  · exact .of_outside rfl rfl

/-! #### The counter set's and ENGC's returns -/

theorem State.report_slotCount (s : State) (q : CountReq) : (s.report q).engc.slotCount = s.engc.slotCount := by
  unfold State.report
  repeat' split
  all_goals simp

theorem State.counterReturned_within (b : Option OnBus) (s : State) (f : Bool) :
    HandledWithin b s (s.counterReturned f b) := by
  unfold State.counterReturned
  split
  · exact .of_stall ..
  · split
    · exact .of_outside rfl rfl
    · extract_lets second s1
      split
      · exact .of_outside (by simp) rfl
      · split
        · exact .of_outside (State.countEffect_outside ..) (State.countEffect_slotCount ..)
        · exact .of_outside (by simp) (by simp [State.report_slotCount])

theorem State.orphanSettleReturned_within (b : Option OnBus) (s : State) (f : Bool) :
    HandledWithin b s (s.orphanSettleReturned f b) := by
  unfold State.orphanSettleReturned
  split
  · exact .of_outside rfl rfl
  · split
    · exact .of_stall ..
    · repeat' split
      all_goals exact .of_outside (by simp) (by simp [State.enterOff])

/-- A header is good when its slot count is 1 to 16 (01, R4). -/
theorem slotsGood_iff (b : Byte) : slotsGood b = true ↔ 0 < b.toNat ∧ b.toNat ≤ 16 := by
  unfold slotsGood
  simp

theorem State.loadingData_slotCount (s : State) (x : Loading) (w : Word) (h : s.SlotCountLegal) :
    (s.loadingData x w).SlotCountLegal := by
  unfold State.SlotCountLegal at h ⊢
  unfold State.loadingData
  cases x.phase with
  | slots =>
    dsimp only
    split
    · exact h
    · rename_i notBad
      cases good : slotsGood (slotsInUse w) with
      | true => exact ((slotsGood_iff _).1 good).2
      | false => exact absurd (.inr good) notBad
  | partWord k =>
    dsimp only
    repeat' split
    all_goals simpa [State.loadingRead, State.resetMirrorsFrom_engc] using h
  | _ =>
    dsimp only
    repeat' split
    all_goals exact h

theorem State.loadingReturned_within (b : Option OnBus) (s : State) (f : Bool) (w : Word) :
    HandledWithin b s (s.loadingReturned f w) := by
  have out := State.loadingReturned_outside s f w
  refine ⟨.inl (congrArg Outside.mem out :), (congrArg Outside.area out :), (congrArg Outside.tickdiv out :),
    fun h => ?_⟩
  unfold State.loadingReturned
  repeat' split
  all_goals first | exact h | exact State.loadingData_slotCount s _ w h

theorem State.configAckReturned_within (b : Option OnBus) (s : State) (f : Bool) :
    HandledWithin b s (s.configAckReturned f b) := by
  unfold State.configAckReturned
  split
  · exact .of_outside rfl rfl
  · split
    · exact .of_stall ..
    · dsimp only
      split <;> exact .of_outside (by simp) (by simp [State.enterOff, State.enterRunning])

/-! #### The lanes' returns -/

theorem State.laneSettleReturned_within (b : Option OnBus) (s : State) (l : LaneId) (f : Bool) :
    HandledWithin b s (s.laneSettleReturned l f b) := by
  unfold State.laneSettleReturned
  dsimp only
  split
  · split
    · exact .of_stall ..
    · repeat' split
      all_goals exact .of_outside (by simp) (by simp)
  · exact .of_outside rfl rfl

theorem State.settleCheckReturned_within (b : Option OnBus) (s : State) (l : LaneId) (f : Bool) (w : Word) :
    HandledWithin b s (s.settleCheckReturned l f w b) := by
  unfold State.settleCheckReturned
  dsimp only
  split
  · split
    · exact .of_stall ..
    · split <;> exact .of_outside (by simp) (by simp [State.raiseSettle])
  · exact .of_outside rfl rfl

theorem State.loadHostReturned_within (b : Option OnBus) (s : State) (l : LaneId) (f : Bool) (w : Word) :
    HandledWithin b s (s.loadHostReturned l f w) := by
  refine .of_outside (by simp) ?_
  unfold State.loadHostReturned State.loadFault State.raiseLoad
  dsimp only
  repeat' split
  all_goals simp

theorem State.loadStepReturned_within (b : Option OnBus) (s : State) (l : LaneId) (f : Bool) (w : Word) :
    HandledWithin b s (s.loadStepReturned l f w) := by
  refine .of_outside (by simp) ?_
  unfold State.loadStepReturned State.loadFault State.raiseLoad
  dsimp only
  repeat' split
  all_goals simp

theorem State.listCheckReturned_within (b : Option OnBus) (s : State) (l : LaneId) (f : Bool) (w : Word) :
    HandledWithin b s (s.listCheckReturned l f w) := by
  refine .of_outside (by simp) ?_
  unfold State.listCheckReturned State.raiseResult
  dsimp only
  repeat' split
  all_goals simp

theorem State.resultReturned_within (b : Option OnBus) (s : State) (l : LaneId) (f : Bool) :
    HandledWithin b s (s.resultReturned l f) := by
  refine .of_outside (by simp) ?_
  unfold State.resultReturned State.tornWriteFault
  dsimp only
  repeat' split
  all_goals simp

theorem State.qualifierReturned_within (b : Option OnBus) (s : State) (l : LaneId) (f : Bool) (w : Word) :
    HandledWithin b s (s.qualifierReturned l f w) := by
  refine .of_outside (by simp) ?_
  unfold State.qualifierReturned State.evaluateCheck
  dsimp only
  repeat' split
  all_goals simp

/-! #### Every return -/

/-- A command that brings an access back is that access's return to the unit it belongs to, and the unit handles it
within these bounds. -/
theorem exec_return {c : Instr} {r : BusReturn} (hc : busReturnOf c = some r) :
    ∃ (accepts : Access → Bool) (handle : State → Request → Bool → Word → State),
      (∀ s, exec c s = .next (s.busEvent accepts r handle)) ∧
      ∀ s req f w, HandledWithin r.atStall s (handle s req f w) := by
  cases c <;> cases hc
  case configurationCheck => exact ⟨_, _, fun _ => rfl, fun s _ f w => s.configReturned_within _ f w⟩
  case lineTableReload => exact ⟨_, _, fun _ => rfl, fun s _ f w => s.reloadReturned_within _ f w⟩
  case slotVisit => exact ⟨_, _, fun _ => rfl, fun s _ f w => s.visitReturned_within _ f w⟩
  case discovery => exact ⟨_, _, fun _ => rfl, fun s _ f w => s.recordReturned_within _ f w⟩
  case take => exact ⟨_, _, fun _ => rfl, fun s _ f _ => s.takeReturned_within _ f _⟩
  case counterWrite => exact ⟨_, _, fun _ => rfl, fun s _ f _ => s.counterReturned_within _ f⟩
  case loadingRead => exact ⟨_, _, fun _ => rfl, fun s _ f w => s.loadingReturned_within _ f w⟩
  case configAckWrite => exact ⟨_, _, fun _ => rfl, fun s _ f _ => s.configAckReturned_within _ f⟩
  case settleWrite =>
    refine ⟨_, _, fun _ => rfl, fun s req f w => ?_⟩
    split
    · exact s.smonSettleReturned_within _ f
    · exact s.orphanSettleReturned_within _ f
    · exact s.laneSettleReturned_within _ _ f
    · exact .of_outside rfl rfl
  case loadRead =>
    refine ⟨_, _, fun _ => rfl, fun s req f w => ?_⟩
    split
    · exact s.discarded_within _ req
    · split
      · exact s.loadHostReturned_within _ _ f w
      · exact s.loadStepReturned_within _ _ f w
      · exact .of_outside rfl rfl
  case preWriteCheck =>
    refine ⟨_, _, fun _ => rfl, fun s req f w => ?_⟩
    split
    · exact s.discarded_within _ req
    · split
      · exact s.listCheckReturned_within _ _ f w
      · exact s.settleCheckReturned_within _ _ f w
      · exact .of_outside rfl rfl
  case resultWrite =>
    refine ⟨_, _, fun _ => rfl, fun s req f w => ?_⟩
    split
    · exact s.resultReturned_within _ _ f
    · exact .of_outside rfl rfl
  case check =>
    refine ⟨_, _, fun _ => rfl, fun s req f w => ?_⟩
    split
    · exact s.discarded_within _ req
    · split
      · exact s.qualifierReturned_within _ _ f w
      · exact .of_outside rfl rfl
  case qualifierRead =>
    refine ⟨_, _, fun _ => rfl, fun s req f w => ?_⟩
    split
    · exact s.discarded_within _ req
    · split
      · exact s.qualifierReturned_within _ _ f w
      · exact .of_outside rfl rfl

/-- A command that brings an access back changes nothing, or it hands the access to its unit. -/
theorem exec_return_cases {c : Instr} {r : BusReturn} {s t : State} (hc : busReturnOf c = some r)
    (h : exec c s = .next t) :
    t = s ∨ ∃ req rest, Returns s r req rest ∧ HandledWithin r.atStall (s.afterReturn r req rest) t := by
  obtain ⟨accepts, handle, he, hw⟩ := exec_return hc
  obtain rfl : s.busEvent accepts r handle = t := Host.Outcome.next.inj ((he s).symm.trans h)
  rcases s.busEvent_cases accepts r handle with e | ⟨req, rest, hr, -, e⟩
  · exact .inl e
  · exact .inr ⟨req, rest, hr, by rw [e]; exact hw ..⟩

/-! ### The commands inside the part -/

/-- What a command that neither brings an access back nor may reset the part leaves alone; AREA it leaves alone too, or
it stores one whose low byte is clear (11, R158). -/
structure ActsInside (s t : State) : Prop where
  mem : t.mem = s.mem
  tickdiv : t.regp.tickdiv = s.regp.tickdiv
  slotCount : t.engc.slotCount = s.engc.slotCount
  area : t.regp.area = s.regp.area ∨ ∃ w : Word, t.regp.area = w &&& 0xFFFFFF00#32

theorem ActsInside.refl (s : State) : ActsInside s s := ⟨rfl, rfl, rfl, .inl rfl⟩

theorem ActsInside.of_outside {s t : State} (h : t.outside = s.outside)
    (hc : t.engc.slotCount = s.engc.slotCount) : ActsInside s t :=
  ⟨(congrArg Outside.mem h :), (congrArg Outside.tickdiv h :), hc, .inl (congrArg Outside.area h :)⟩

theorem ActsInside.of_runDue (s : State) (e : Due) : ActsInside s (s.runDue e) :=
  .of_outside (State.runDue_outside s e) (State.runDue_slotCount s e)

/-- An act may follow on the state that a command from outside meets. -/
theorem ActsInside.of_settled {s t : State} (h : ActsInside s.settled t) : ActsInside s t where
  mem := h.mem.trans s.settled_mem
  tickdiv := h.tickdiv.trans s.settled_tickdiv
  slotCount := h.slotCount.trans s.settled_slotCount
  area := by rw [← s.settled_area]; exact h.area

theorem ActsInside.of_respond (s : State) (a : PortResponse) : ActsInside s (s.respond a) :=
  ⟨rfl, rfl, rfl, .inl rfl⟩

theorem ActsInside.of_boundary (s : State) (x : TickInput) : ActsInside s (s.boundary x) := by
  have acts : (s.boundary x).outside = (s.openBoundary x.pins).outside :=
    foldl_outside _ State.boundaryAct_outside _ _
  exact ⟨(congrArg Outside.mem acts :), (congrArg Outside.tickdiv acts :),
    congrArg EngineControl.slotCount (State.boundary_engc s x), .inl (congrArg Outside.area acts :)⟩

theorem exec_inside {c : Instr} {s t : State} (hr : busReturnOf c = none) (hb : onBusOf c = none)
    (h : exec c s = .next t) : ActsInside s t := by
  have afterEdges (e : Due) : ActsInside s (s.acceptEdges.runDue e) := .of_outside (by simp) (by simp)
  cases c <;> cases hr <;> cases hb <;> obtain rfl := Host.Outcome.next.inj h
  case areaWrite w =>
    refine .of_settled ?_
    split
    · exact .of_respond ..
    · split
      · exact ⟨rfl, rfl, rfl, .inr ⟨w, rfl⟩⟩
      · exact .of_respond ..
  case nudge w =>
    refine .of_settled ?_
    split
    · exact .of_respond ..
    · have out := State.sweepRequest_outside (s.settled.respond .normal)
      exact ⟨(congrArg Outside.mem out :), (congrArg Outside.tickdiv out :),
        congrArg EngineControl.slotCount (State.sweepRequest_engc _), .inl (congrArg Outside.area out :)⟩
  case causeClear w => split <;> exact ⟨rfl, rfl, rfl, .inl rfl⟩
  case ignoredRegisterWrite o w =>
    split
    · exact .of_respond ..
    · split
      · exact .of_respond ..
      · exact .refl s
  case registerErrorResponse a =>
    split
    · exact .of_respond ..
    · exact .refl s
  case resetRelease => exact ⟨rfl, rfl, rfl, .inl rfl⟩
  case tickBoundary x =>
    split
    · exact .of_settled (.of_boundary ..)
    · exact .refl s
  case windowExpiry l => exact afterEdges _
  case tallyGateEnd l => exact afterEdges _
  case overrange l => exact afterEdges _
  all_goals exact .of_runDue s _

/-! ### CONTROL and the resets -/

/-- A command that may reset the part is a write to CONTROL or a hardware reset, and acts on the state that it
meets. -/
theorem exec_control {c : Instr} {b : OnBus} (hb : onBusOf c = some b) :
    (∃ w, ∀ s, exec c s = .next ((s.metBy c).controlWrite w b)) ∨
      ∀ s, exec c s = .next ((s.metBy c).hardReset b) := by
  cases c <;> cases hb
  case hardwareReset => exact .inr fun _ => rfl
  all_goals exact .inl ⟨_, fun _ => rfl⟩

/-- What a command that may reset the part meets, beside the host's writes. -/
theorem State.metBy_keeps (s : State) (c : Instr) :
    (s.metBy c).regp.area = s.regp.area ∧ (s.metBy c).regp.tickdiv = s.regp.tickdiv ∧
      (s.metBy c).engc.slotCount = s.engc.slotCount := by
  have met (e : Bool) : (s.met e).regp.area = s.regp.area ∧ (s.met e).regp.tickdiv = s.regp.tickdiv ∧
      (s.met e).engc.slotCount = s.engc.slotCount := by
    cases e
    · exact ⟨s.settled_area, s.settled_tickdiv, s.settled_slotCount⟩
    · exact ⟨rfl, rfl, rfl⟩
  unfold State.metBy
  split
  · exact met _
  · exact met _
  · exact met false

theorem State.met_mem (s : State) (e : Bool) : (s.met e).mem = s.mem := by
  cases e
  · exact s.settled_mem
  · rfl

/-- A DISABLE meets memory with the host's writes in it (log 2). -/
theorem State.metBy_disable_mem (s : State) (w : PlacedWrite) :
    (s.metBy (.disable w)).mem = Memory.hostWrites s.mem w.hostWrites :=
  congrArg (Memory.hostWrites · w.hostWrites) (s.met_mem w.early)

/-- Every other command meets memory as it was. -/
theorem State.metBy_mem (s : State) {c : Instr} (hc : ∀ w, c ≠ .disable w) : (s.metBy c).mem = s.mem := by
  unfold State.metBy
  split
  · exact absurd rfl (hc _)
  · exact s.met_mem _
  · exact s.settled_mem

/-- A CONTROL write with SOFTRESET, while RESETn is high, is a soft reset (11, R157). -/
theorem State.controlWrite_soft {s : State} {w : Word} (hlow : s.regp.resetLow = false)
    (hsoft : ctlSoftReset w = true) (b : OnBus) : s.controlWrite w b = s.softReset b := by
  unfold State.controlWrite
  rw [if_neg (Bool.eq_false_iff.1 hlow), if_pos hsoft]

/-- A CONTROL write leaves AREA as it is, and memory to the reset of the bus that it may bring. -/
theorem State.controlWrite_cases (s : State) (w : Word) (b : OnBus) :
    (s.controlWrite w b).regp.area = s.regp.area ∧
      ((s.controlWrite w b).mem = s.mem ∨ (s.controlWrite w b).mem = (s.dropBus b).mem) := by
  have plain (h : s.regp.resetLow = true ∨ ctlSoftReset w = false) :
      (s.controlWrite w b).regp.area = s.regp.area ∧
        ((s.controlWrite w b).mem = s.mem ∨ (s.controlWrite w b).mem = (s.dropBus b).mem) := by
    obtain ⟨hmem, -, harea⟩ := s.controlWrite_keeps w b h
    exact ⟨harea, .inl hmem⟩
  cases hlow : s.regp.resetLow with
  | true => exact plain (.inl hlow)
  | false =>
    cases hsoft : ctlSoftReset w with
    | false => exact plain (.inr hsoft)
    | true =>
      rw [State.controlWrite_soft hlow hsoft]
      exact ⟨rfl, .inr rfl⟩

end Sys2Proof.Machine
end

section
/-! Memory and the register fields along every step, and the two resets (01, R1 to R4, R14; 03, R37; 10, R149, R153;
11, R157 to R162). -/

namespace Sys2Proof.Machine

/-! ### The access that MPORT carries (11, R161) -/

theorem le_length_takeWhile_iff {α : Type} (p : α → Bool) (q : List α) (n : Nat) :
    n ≤ (q.takeWhile p).length ↔ n ≤ q.length ∧ ∀ x ∈ q.take n, p x = true := by
  induction q generalizing n with
  | nil => simp
  | cons a q ih =>
    cases n with
    | zero => simp
    | succ n =>
      by_cases ha : p a = true
      · simp [ha, ih]
      · simp [ha]

/-- A choice lies in the oldest group when every request up to it was raised at the oldest instant. -/
theorem lt_length_frontGroup_iff (a : Request) (q : List Request) (n : Nat) :
    n < (frontGroup (a :: q)).length ↔
      n < (a :: q).length ∧ ∀ x ∈ (a :: q).take (n + 1), x.instant = a.instant := by
  have group : (frontGroup (a :: q)).length = (q.takeWhile fun x => x.instant == a.instant).length + 1 := rfl
  have first : (∀ x ∈ (a :: q).take (n + 1), x.instant = a.instant) ↔
      ∀ x ∈ q.take n, (x.instant == a.instant) = true := by
    simp only [List.take_succ_cons, List.mem_cons, forall_eq_or_imp, true_and, beq_iff_eq]
  rw [group, first, List.length_cons, Nat.lt_add_one_iff, Nat.lt_add_one_iff, le_length_takeWhile_iff]

/-- A choice in the oldest group is the request carried. -/
theorem pickRequest_of_lt {a : Request} {q : List Request} {n : Nat} (h : n < (a :: q).length)
    (hg : n < (frontGroup (a :: q)).length) :
    pickRequest (a :: q) n = some ((a :: q)[n], (a :: q).eraseIdx n) := by
  unfold pickRequest
  simp only [hg, if_true, List.getElem?_eq_getElem h]

/-- Any other choice is the request raised first. -/
theorem pickRequest_of_not_lt {a : Request} {q : List Request} {n : Nat}
    (hg : ¬ n < (frontGroup (a :: q)).length) : pickRequest (a :: q) n = some (a, q) := by
  unfold pickRequest
  simp only [hg, if_false]
  rfl

/-! ### What a command leaves in memory (01, R3, R14) -/

/-- What the return of an access may leave in memory: the host's writes and the access, and at a stall the access
under way as well (10, R149). -/
theorem exec_return_mem {c : Instr} {r : BusReturn} {s t : State} (hc : busReturnOf c = some r)
    (h : exec c s = .next t) :
    t.mem = s.mem ∨
      ∃ req rest, Returns s r req rest ∧
        (t.mem = memoryAfter r req s.mem ∨
          ∃ (b : OnBus) (two : Request) (rest' : List Request), t.engc.engine = .stalled ∧
            r.atStall = some b ∧ pickRequest rest b.pick = some (two, rest') ∧
            t.mem = Memory.carry (memoryAfter r req s.mem) two b.reply) := by
  rcases exec_return_cases hc h with rfl | ⟨req, rest, hr, hw⟩
  · exact .inl rfl
  · have met : (s.afterReturn r req rest).mem = memoryAfter r req s.mem :=
      congrArg Outside.mem (State.afterReturn_outside s r req rest)
    refine .inr ⟨req, rest, hr, ?_⟩
    rw [← met]
    rcases hw.memory with e | ⟨code, rfl⟩
    · exact .inl e
    · rcases State.stall_mem (s.afterReturn r req rest) code r.atStall with e | ⟨b, two, rest', hb, hp, e⟩
      · exact .inl e
      · exact .inr ⟨b, two, rest', rfl, hb, hp, e⟩

/-- What a command that may reset the part leaves in memory: what it met, or that with the access on the bus. -/
theorem exec_control_mem {c : Instr} {b : OnBus} {s t : State} (hc : onBusOf c = some b)
    (h : exec c s = .next t) :
    t.mem = (s.metBy c).mem ∨
      ∃ req rest, pickRequest (s.metBy c).mport b.pick = some (req, rest) ∧
        t.mem = Memory.carry (s.metBy c).mem req b.reply := by
  have drop := State.dropBus_mem (s.metBy c) b
  rcases exec_control hc with ⟨w, hw⟩ | hw
  · obtain rfl : (s.metBy c).controlWrite w b = t := Host.Outcome.next.inj ((hw s).symm.trans h)
    rcases (State.controlWrite_cases (s.metBy c) w b).2 with e | e
    · exact .inl e
    · rw [e]
      exact drop
  · obtain rfl : (s.metBy c).hardReset b = t := Host.Outcome.next.inj ((hw s).symm.trans h)
    exact drop

/-- Settles O3: a command acts inside the part, brings an access back or may reset the part, and each of the three
says what it leaves in memory. -/
theorem memoryChangesOnlyByTheAccess : Obligations.MemoryChangesOnlyByTheAccess := by
  refine ⟨fun c s t h => ⟨fun hr hb => ?_, fun r hr => ?_, fun b hb => ?_, ?_, ?_⟩, fun _ => rfl, fun a q n => ?_⟩
  · exact (exec_inside hr hb h).mem
  · exact exec_return_mem hr h
  · exact exec_control_mem hb h
  · rintro w rfl
    exact s.metBy_disable_mem w
  · exact s.metBy_mem
  · rw [← lt_length_frontGroup_iff]
    exact ⟨fun hn hx => pickRequest_of_lt hn ((lt_length_frontGroup_iff a q n).2 ⟨hn, hx⟩),
      pickRequest_of_not_lt⟩

/-! ### Invariants of a step -/

/-- A property that every command keeps and that does not look at the queue is kept by every step. -/
theorem step_keeps {P : State → Prop} (hq : ∀ s q, P s → P { s with pending := q })
    (he : ∀ c s t, P s → exec c s = .next t → P t) {s t : State} (hs : P s) (h : step s = .next t) : P t := by
  unfold step at h
  split at h
  · obtain rfl := Host.Outcome.next.inj h
    exact hs
  · exact he _ _ _ (hq s _ hs) h

/-- A command that may reset the part meets a canonical memory where memory was canonical. -/
theorem State.metBy_canonical {s : State} (hs : s.MemoryCanonical) (c : Instr) : (s.metBy c).MemoryCanonical := by
  unfold State.MemoryCanonical
  by_cases hd : ∃ w, c = .disable w
  · obtain ⟨w, rfl⟩ := hd
    rw [s.metBy_disable_mem]
    exact Memory.hostWrites_wf _ _ hs
  · rw [s.metBy_mem fun w e => hd ⟨w, e⟩]
    exact hs

theorem exec_canonical (c : Instr) (s t : State) (hs : s.MemoryCanonical) (h : exec c s = .next t) :
    t.MemoryCanonical := by
  unfold State.MemoryCanonical
  cases hr : busReturnOf c with
  | some r =>
    rcases exec_return_mem hr h with e | ⟨req, rest, -, e | ⟨b, two, rest', -, -, -, e⟩⟩ <;> rw [e]
    · exact hs
    · exact memoryAfter_wf _ _ _ hs
    · exact Memory.carry_wf _ _ _ (memoryAfter_wf _ _ _ hs)
  | none =>
    cases hb : onBusOf c with
    | some b =>
      have met := State.metBy_canonical hs c
      rcases exec_control_mem hb h with e | ⟨req, rest, -, e⟩ <;> rw [e]
      · exact met
      · exact Memory.carry_wf _ _ _ met
    | none =>
      rw [(exec_inside hr hb h).mem]
      exact hs

/-- Settles O6: every way in which a command changes memory is a word write, which keeps the canonical form. -/
theorem memoryStaysCanonical : Obligations.MemoryStaysCanonical :=
  fun _ _ => step_keeps (fun _ _ h => h) exec_canonical

/-! ### The register fields (01, R1, R2; 03, R37; 11, R158) -/

/-- The low byte of what AREA_WRITE stores is clear. -/
theorem areaWritten_aligned (w : Word) : (w &&& 0xFFFFFF00#32) &&& 0xFF#32 = 0 := by
  rw [BitVec.and_assoc]
  exact BitVec.and_zero

theorem exec_areaAligned (c : Instr) (s t : State) (hs : s.AreaAligned) (h : exec c s = .next t) :
    t.AreaAligned := by
  unfold State.AreaAligned at hs ⊢
  cases hr : busReturnOf c with
  | some r =>
    rcases exec_return_cases hr h with rfl | ⟨req, rest, -, hw⟩
    · exact hs
    · rw [hw.area, State.afterReturn_area]
      exact hs
  | none =>
    cases hb : onBusOf c with
    | some b =>
      rcases exec_control hb with ⟨w, he⟩ | he <;> obtain rfl := Host.Outcome.next.inj ((he s).symm.trans h)
      · rw [(State.controlWrite_cases (s.metBy c) w b).1, (s.metBy_keeps c).1]
        exact hs
      · exact BitVec.zero_and
    | none =>
      rcases (exec_inside hr hb h).area with e | ⟨w, e⟩ <;> rw [e]
      · exact hs
      · exact areaWritten_aligned w

theorem State.writeEnable_slotCount (s : State) (w : Word) :
    (s.writeEnable w).engc.slotCount = s.engc.slotCount := by
  unfold State.writeEnable State.enableRequest
  repeat' split
  all_goals first | rfl | exact s.enterDraining_slotCount

/-- A CONTROL write takes a new divisor code from 0 to 4 alone, and a reset clears both fields. -/
theorem State.controlWrite_legal {s : State} (h : s.DivisorLegal ∧ s.SlotCountLegal) (w : Word) (b : OnBus) :
    (s.controlWrite w b).DivisorLegal ∧ (s.controlWrite w b).SlotCountLegal := by
  unfold State.DivisorLegal State.SlotCountLegal at h ⊢
  unfold State.controlWrite
  split
  · exact h
  · split
    · exact ⟨Nat.zero_le 4, Nat.zero_le 16⟩
    · obtain ⟨-, hengc, -, -, -, -, -, -, -, -, -, -, hregp⟩ := s.writeFields_facts w
      rw [(State.writeEnable_rest (s.writeFields w) w).1, State.writeEnable_slotCount, hengc, hregp]
      refine ⟨?_, h.2⟩
      dsimp only
      split
      · rename_i hnew
        exact hnew.2
      · exact h.1

theorem exec_legal (c : Instr) (s t : State) (hs : s.DivisorLegal ∧ s.SlotCountLegal)
    (h : exec c s = .next t) : t.DivisorLegal ∧ t.SlotCountLegal := by
  have same {u v : State} (hu : u.DivisorLegal ∧ u.SlotCountLegal) (hd : v.regp.tickdiv = u.regp.tickdiv)
      (hc : v.engc.slotCount = u.engc.slotCount) : v.DivisorLegal ∧ v.SlotCountLegal := by
    unfold State.DivisorLegal State.SlotCountLegal at hu ⊢
    rw [hd, hc]
    exact hu
  cases hr : busReturnOf c with
  | some r =>
    rcases exec_return_cases hr h with rfl | ⟨req, rest, -, hw⟩
    · exact hs
    · have met : (s.afterReturn r req rest).DivisorLegal ∧ (s.afterReturn r req rest).SlotCountLegal :=
        same hs s.settled_tickdiv s.settled_slotCount
      refine ⟨?_, hw.slotCount met.2⟩
      unfold State.DivisorLegal
      rw [hw.tickdiv]
      exact met.1
  | none =>
    cases hb : onBusOf c with
    | some b =>
      obtain ⟨-, hd, hc⟩ := s.metBy_keeps c
      rcases exec_control hb with ⟨w, he⟩ | he <;> obtain rfl := Host.Outcome.next.inj ((he s).symm.trans h)
      · exact State.controlWrite_legal (same hs hd hc) w b
      · exact ⟨Nat.zero_le 4, Nat.zero_le 16⟩
    | none =>
      have act := exec_inside hr hb h
      exact same hs act.tickdiv act.slotCount

/-- Settles O7: AREA is written by AREA_WRITE and the resets, the divisor code by CONTROL, the slot count by a good
header's word, each with a legal value. -/
theorem registerFieldsStayLegal : Obligations.RegisterFieldsStayLegal :=
  ⟨fun _ _ => step_keeps (fun _ _ h => h) exec_areaAligned, fun _ _ => step_keeps (fun _ _ h => h) exec_legal⟩

/-! ### The resets (10, R153; 11, R157, R160, R162; 01, R14) -/

theorem State.resetUnits_unitsReset (s : State) (b : OnBus) (regp : RegPort) : (s.resetUnits b regp).UnitsReset where
  timebase := rfl
  engine := rfl
  sweep := ⟨rfl, rfl, rfl⟩
  work := ⟨rfl, rfl, rfl, rfl, rfl⟩
  mirror := fun k => Vector.getElem_replicate k.isLt
  recalls := fun k => Vector.getElem_replicate k.isLt
  counters := ⟨rfl, rfl⟩
  admission := ⟨rfl, fun o => Vector.getElem_replicate o.isLt, fun l => Vector.getElem_replicate l.isLt⟩
  lanes := fun l => Vector.getElem_replicate l.isLt
  inputs := ⟨rfl, fun i => Vector.getElem_replicate i.isLt⟩
  outputs := fun o => Vector.getElem_replicate o.isLt
  orderList := rfl

/-- CONTROL reads 0 when its fields are at their reset values. -/
theorem State.control_of_fields {s : State} (he : s.regp.enable = false) (ht : s.regp.tickdiv = 0)
    (hs : s.regp.sweep = 0) (hm : s.regp.mask = 0) : s.control = 0 := by
  unfold State.control
  rw [he, ht, hs, hm]
  rfl

/-- With no cause IRQ is low. -/
theorem State.irq_of_cause {s : State} (h : s.regp.cause = 0) : s.irq = false := by
  unfold State.irq
  simp [h]

/-- A reset of the bus with nothing on it leaves memory as it was. -/
theorem State.dropBus_mem_of_empty {s : State} (b : OnBus) (h : s.mport = []) : (s.dropBus b).mem = s.mem := by
  unfold State.dropBus
  rw [h]
  rfl

/-- A reset of the bus leaves in memory what the access on it leaves there. -/
theorem State.dropBus_mem_of_pick {s : State} {b : OnBus} {req : Request} {rest : List Request}
    (h : pickRequest s.mport b.pick = some (req, rest)) :
    (s.dropBus b).mem = Memory.carry s.mem req b.reply := by
  unfold State.dropBus
  rw [h]

/-- A reset leaves in memory what the access on the bus leaves there, and nothing else. -/
theorem State.reset_mem (s : State) (b : OnBus) (regp : RegPort) :
    (s.settled.mport = [] → (s.settled.resetUnits b regp).mem = s.mem) ∧
      ∀ req rest, pickRequest s.settled.mport b.pick = some (req, rest) →
        (s.settled.resetUnits b regp).mem = Memory.carry s.mem req b.reply := by
  rw [← s.settled_mem]
  exact ⟨State.dropBus_mem_of_empty b, fun req rest => State.dropBus_mem_of_pick⟩

/-- Settles O12: both resets are `State.resetUnits`, with the register port that each gives. -/
theorem resetsTakeUnitsToResetValues : Obligations.ResetsTakeUnitsToResetValues := by
  refine ⟨⟨fun s b => ?_, fun s => rfl⟩, fun s w b hlow hsoft => ?_⟩
  · exact ⟨s.settled.hardReset b, rfl, State.resetUnits_unitsReset .., rfl,
      State.control_of_fields rfl rfl rfl rfl, rfl, State.irq_of_cause rfl, rfl, State.reset_mem ..⟩
  · have act := State.controlWrite_soft (s.settled_resetLow.trans hlow) hsoft b
    exact ⟨s.settled.softReset b, congrArg _ act, State.resetUnits_unitsReset .., s.settled_area,
      State.control_of_fields rfl rfl rfl rfl, rfl, State.irq_of_cause rfl, rfl, State.reset_mem ..⟩

end Sys2Proof.Machine
end

section
/-! SMON's reload of the line table and its discovery: what each returning word brings (04, R51, R56, R57; 07, R108;
08, R122). -/

namespace Sys2Proof.Machine

/-! ### SMON's stages -/

/-- The piece under way goes on to another stage. -/
theorem State.setWork_of_piece {s : State} {p : Piece} {w0 : Work} (h : s.smon.piece = some (p, w0)) (w : Work) :
    s.setWork w = s.setPiece p w := by
  unfold State.setWork
  rw [h]

/-- The piece under way goes on to another stage, which begins with an access. -/
def State.goOn (s : State) (p : Piece) (w : Work) (a : Access) (addr : Word) (d : Option Word) : State :=
  (s.setPiece p w).raise a addr d

theorem OnlyWork.of_goOn (s : State) (p : Piece) (w : Work) (a : Access) (addr : Word) (d : Option Word) :
    OnlyWork s (s.goOn p w a addr d) := (OnlyWork.of_setPiece ..).trans (.of_raise ..)

/-- A fault that SMON counts: nothing but SMON and the order list is touched, and the piece waits for the report
(04, R62). -/
theorem State.smonFault_counted {s : State} {p : Piece} {w0 : Work} (h : s.smon.piece = some (p, w0))
    (c : FaultCode) :
    OnlyWork s (s.smonFault c) ∧ (s.smonFault c).smon.piece = some (p, .counting .endPiece) ∧
      (s.smonFault c).smon.counts = s.smon.counts ++ [{ kind := .fault c, requester := .smon }] := by
  obtain ⟨piece, counts, -⟩ := State.smonCount_work s (.fault c) .endPiece p w0 h
  exact ⟨.of_smonCount .., piece, counts⟩

/-! ### The line table (01, R6) -/

/-- A line table of three words is good when its eight codes are 0 to 4 and its four levels 0 or 1. -/
theorem lineTableGood_iff (table : List Word) :
    lineTableGood table = true ↔ (∀ i : InLine, (filterCode table i).toNat ≤ 4) ∧
      ∀ o : OutLine, (idleByte table o).toNat ≤ 1 := by
  unfold lineTableGood allInLines allOutLines
  simp [Fin.forall_fin_succ]

theorem filterCode_three (a b c : Word) (i : InLine) :
    filterCode [a, b, c] i = (if i.val < 4 then a else b).extractLsb' (8 * (i.val % 4)) 8 := by
  have word : [a, b, c].getD (i.val / 4) 0 = if i.val < 4 then a else b := by
    revert i
    simp [Fin.forall_fin_succ]
  unfold filterCode
  rw [word]

/-- A line of INC after a reload (07, R108). -/
theorem Inputs.reload_line (table : List Word) (x : Inputs) (i : InLine) :
    (x.reload table).lines[i] =
      if filterCode table i = (x.lines[i]).filterCode then x.lines[i]
      else { x.lines[i] with filterCode := filterCode table i, run := 0 } :=
  tabulate8_get _ i

/-- A line of OUTD after a reload: the claimer stays, the idle level is the table's, and the level moves only where no
lane claims the line and its idle level changes (08, R122). -/
theorem outdReload_line (table : List Word) (v : Vector OutputLine 4) (o : OutLine) :
    ((outdReload table v)[o]).claimer = (v[o]).claimer ∧
    ((outdReload table v)[o]).idle = (idleByte table o != 0) ∧
    ((v[o]).claimer = none → (v[o]).idle ≠ (idleByte table o != 0) →
      ((outdReload table v)[o]).level = (idleByte table o != 0) ∧ ((outdReload table v)[o]).keep = false) ∧
    ((v[o]).claimer ≠ none ∨ (v[o]).idle = (idleByte table o != 0) →
      ((outdReload table v)[o]).level = (v[o]).level ∧ ((outdReload table v)[o]).keep = (v[o]).keep) := by
  unfold outdReload
  rw [tabulate4_get]
  unfold idleLevel
  generalize v[o] = x
  generalize (idleByte table o != 0) = level
  by_cases hc : x.claimer = none
  · by_cases hi : x.idle = level
    · simp [hi]
    · simp [hc, hi, OutputLine.toIdle]
  · simp [hc]

/-! ### LINE_TABLE_RELOAD (04, R51) -/

section Reload
variable {s : State} {p : Piece} {seq : Half} {got : List Word} (h : s.smon.piece = some (p, .reload seq got))
include h

theorem State.reloadReturned_failed (w : Word) : s.reloadReturned true w = s.smonFault .badConfig := by
  unfold State.reloadReturned
  rw [h]
  rfl

theorem State.reloadReturned_next (w : Word) (hl : got.length < 2) :
    s.reloadReturned false w =
      s.goOn p (.reload seq (got ++ [w])) .lineTable (s.lineTableAddr (got.length + 1)) none := by
  have length : (got ++ [w]).length = got.length + 1 := List.length_append
  unfold State.reloadReturned
  rw [h]
  dsimp only
  rw [length, if_neg Bool.false_ne_true, if_pos (Nat.succ_lt_succ hl), State.setWork_of_piece h]
  rfl

theorem State.reloadReturned_good (w : Word) (hl : got.length = 2) (hg : lineTableGood (got ++ [w]) = true) :
    s.reloadReturned false w = (s.applyReload (got ++ [w])).smonCount (.configAck seq) .endPiece := by
  have length : (got ++ [w]).length = got.length + 1 := List.length_append
  unfold State.reloadReturned
  rw [h]
  dsimp only
  rw [if_neg Bool.false_ne_true, if_neg (by rw [length, hl]; decide), if_pos hg]

theorem State.reloadReturned_bad (w : Word) (hl : got.length = 2) (hg : lineTableGood (got ++ [w]) = false) :
    s.reloadReturned false w = s.smonFault .badConfig := by
  have length : (got ++ [w]).length = got.length + 1 := List.length_append
  unfold State.reloadReturned
  rw [h]
  dsimp only
  rw [if_neg Bool.false_ne_true, if_neg (by rw [length, hl]; decide), if_neg (Bool.eq_false_iff.1 hg)]

end Reload

/-- What LINE_TABLE_RELOAD does with the access that it brings back. -/
theorem exec_lineTableReload {s : State} {r : BusReturn} {req : Request} {rest : List Request}
    (hr : Returns s r req rest) (ha : req.access = .lineTable) :
    exec (.lineTableReload r) s =
      .next ((s.afterReturn r req rest).reloadReturned (replyFailed r.reply) (s.wordReturned r req rest)) :=
  congrArg Host.Outcome.next (State.busEvent_of_returns _ hr (by simp [ha]))

/-- Settles O37: by the word that returns, `State.reloadReturned`'s four cases. -/
theorem reloadAppliesWholeTables : Obligations.ReloadAppliesWholeTables := by
  refine ⟨?_, ?_, fun a b c => ⟨filterCode_three a b c, fun o => rfl, lineTableGood_iff _⟩⟩
  · intro s u r req rest p seq a b c hr ha hu hc hp
    subst hu hc
    refine ⟨_, exec_lineTableReload hr ha, ?_⟩
    generalize s.afterReturn r req rest = u at *
    generalize s.wordReturned r req rest = c
    obtain ⟨⟨only, -⟩, piece, counts⟩ := State.smonFault_counted hp .badConfig
    cases replyFailed r.reply with
    | true =>
      rw [State.reloadReturned_failed hp]
      simp [piece, counts, only.inc, only.outd]
    | false =>
      cases hg : lineTableGood [a, b, c] with
      | false =>
        rw [State.reloadReturned_bad hp c rfl hg]
        simp [piece, counts, only.inc, only.outd]
      | true =>
        rw [State.reloadReturned_good hp c rfl hg, List.cons_append, List.singleton_append]
        have work := State.smonCount_work (u.applyReload [a, b, c]) (.configAck seq) .endPiece p _ hp
        have kept := (OnlyWork.of_smonCount (u.applyReload [a, b, c]) (.configAck seq) .endPiece).1
        obtain ⟨piece, counts, -⟩ := work
        refine ⟨piece, by rw [kept.inc]; rfl, by rw [kept.inc]; rfl, fun _ _ => ⟨?_, ?_, counts⟩, by simp⟩
        · rw [kept.inc]
          exact Inputs.reload_line _ _
        · rw [kept.outd]
          exact outdReload_line _ _
  · intro s u r req rest p seq got hr ha hu hp hl
    subst hu
    refine ⟨_, exec_lineTableReload hr ha, ?_⟩
    cases replyFailed r.reply with
    | true =>
      obtain ⟨⟨only, mirror⟩, piece, counts⟩ := State.smonFault_counted hp .badConfig
      rw [State.reloadReturned_failed hp]
      exact ⟨only, mirror, by simp, fun _ => ⟨piece, counts⟩⟩
    | false =>
      rw [State.reloadReturned_next hp _ hl]
      obtain ⟨only, mirror⟩ := OnlyWork.of_goOn (s.afterReturn r req rest) p
        (.reload seq (got ++ [s.wordReturned r req rest])) .lineTable
        ((s.afterReturn r req rest).lineTableAddr (got.length + 1)) none
      exact ⟨only, mirror, fun _ => ⟨rfl, rfl⟩, by simp⟩

/-! ### DISCOVERY (04, R56, R57) -/

section Discovery
variable {s : State} {p : Piece} {k : SlotId} {post : Half} {got : List Word}
  (h : s.smon.piece = some (p, .record k post got))
include h

theorem State.recordReturned_failed (w : Word) : s.recordReturned true w = s.smonFault .readErr := by
  unfold State.recordReturned
  rw [h]
  rfl

theorem State.recordReturned_next (w : Word) (hl : got.length < 4) :
    s.recordReturned false w =
      s.goOn p (.record k post (got ++ [w])) .record (s.recordAddr k (got.length + 1)) none := by
  have length : (got ++ [w]).length = got.length + 1 := List.length_append
  unfold State.recordReturned
  rw [h]
  dsimp only
  rw [length, if_neg Bool.false_ne_true, if_pos (Nat.succ_lt_succ hl), State.setWork_of_piece h]
  rfl

theorem State.recordReturned_last (w : Word) (hl : got.length = 4) :
    s.recordReturned false w =
      s.goOn p
        (.takeEpoch { slot := k, post := post, posting := Posting.ofWords (got ++ [w]),
                      refusal := s.judge k (Posting.ofWords (got ++ [w])) post })
        .takeEpoch (s.takenAddr k) (some s.tbu.epoch) := by
  have length : (got ++ [w]).length = got.length + 1 := List.length_append
  unfold State.recordReturned
  rw [h]
  dsimp only
  rw [if_neg Bool.false_ne_true, if_neg (by rw [length, hl]; decide)]
  unfold State.startTake
  rw [State.setWork_of_piece h]
  rfl

end Discovery

/-- What DISCOVERY does with the access that it brings back. -/
theorem exec_discovery {s : State} {r : BusReturn} {req : Request} {rest : List Request}
    (hr : Returns s r req rest) (ha : req.access = .record) :
    exec (.discovery r) s =
      .next ((s.afterReturn r req rest).recordReturned (replyFailed r.reply) (s.wordReturned r req rest)) :=
  congrArg Host.Outcome.next (State.busEvent_of_returns _ hr (by simp [ha]))

/-- A return to a discovery leaves the recalls in force alone. -/
theorem State.recordReturned_recalls (s : State) (f : Bool) (w : Word) :
    (s.recordReturned f w).smon.recalls = s.smon.recalls :=
  (congrArg Outside.recalls (State.recordReturned_outside s f w) :)

/-! ### The judgement (04, R56; 05, R74) -/

theorem Posting.bad_iff (p : Posting) : p.bad = true ↔ p.stepCount.toNat = 0 ∨ 12 < p.stepCount.toNat ∨
    3 < p.priority.toNat ∨ 15 < p.outMask.toNat := by
  unfold Posting.bad
  simp [or_assoc]

/-- The four line bits of a record are the low half of its third byte. -/
theorem Posting.lines_ofWords (a : Word) (ws : List Word) :
    (Posting.ofWords (a :: ws)).lines = a.extractLsb' 16 4 := by
  show (byte2 a).extractLsb' 0 4 = _
  unfold byte2
  ext i hi
  have : i < 8 := by omega
  simp [this]

theorem State.linesBusy_iff (s : State) (m : BitVec 4) :
    s.linesBusy m = true ↔ ∃ o : OutLine, m.getLsbD o.val = true ∧
      ((s.admu.claims[o]).owner ≠ none ∨ (s.admu.claims[o]).reservation ≠ none) := by
  have every (o : OutLine) : o ∈ allOutLines := by revert o; decide
  unfold State.linesBusy
  simp [every, Option.isSome_iff_ne_none]

section Judgement
variable {s : State} {k : SlotId} {p : Posting} {post : Half}

theorem State.judge_bad (h : p.bad = true) : s.judge k p post = some .malformed := by
  unfold State.judge
  rw [if_pos h]

theorem State.judge_recalled (h : p.bad = false) (hr : s.recallStands k post = true) :
    s.judge k p post = some .recalled := by
  unfold State.judge
  simp [h, hr]

/-- A good record with no recall is refused only for a busy line, and not in DRAINING. -/
theorem State.judge_lines (h : p.bad = false) (hr : s.recallStands k post = false) :
    s.judge k p post =
      if flagNowait p.flags && s.engc.engine != .draining && s.linesBusy p.lines then some .linesBusy
      else none := by
  unfold State.judge
  simp [h, hr]

end Judgement

/-- Settles O39: by the word that returns, `State.recordReturned`'s three cases, and `State.judge`'s. -/
theorem discoveryJudgesAndTakes : Obligations.DiscoveryJudgesAndTakes := by
  refine ⟨?_, ?_, fun _ _ _ _ _ => rfl, Posting.bad_iff, State.linesBusy_iff⟩
  · intro s u r req rest p k post a b c d e hr ha hu he hp
    have harea : u.regp.area = s.regp.area := by rw [hu]; exact s.afterReturn_area r req rest
    have hepoch : u.tbu.epoch = s.tbu.epoch := by rw [hu]; exact s.afterReturn_epoch r req rest
    have hrest : u.mport = rest := by rw [hu]; rfl
    refine ⟨_, exec_discovery hr ha, ?_⟩
    rw [← hu, ← he]
    cases replyFailed r.reply with
    | true =>
      obtain ⟨⟨only, mirror⟩, piece, counts⟩ := State.smonFault_counted hp .readErr
      have recalls := u.recordReturned_recalls true e
      rw [State.recordReturned_failed hp] at recalls ⊢
      exact ⟨only, mirror, recalls, fun _ => ⟨piece, counts⟩, by simp⟩
    | false =>
      have recalls := u.recordReturned_recalls false e
      rw [State.recordReturned_last hp e rfl] at recalls ⊢
      simp only [List.cons_append, List.nil_append]
      refine ⟨(OnlyWork.of_goOn ..).1, (OnlyWork.of_goOn ..).2, recalls, by simp, fun _ => ?_⟩
      have stands := u.recallStands_iff k post
      rw [harea] at stands
      refine ⟨_, rfl, by rw [← hrest, ← hepoch]; rfl, State.judge_bad, fun hb hs => ?_, fun hb hs hrun => ?_,
        fun hb hs hdrain => ?_⟩
      · exact State.judge_recalled hb (stands.2 hs)
      · rw [State.judge_lines hb (Bool.eq_false_iff.2 (mt stands.1 hs)), Posting.lines_ofWords]
        simp [hrun, flagNowait, Posting.ofWords]
      · rw [State.judge_lines hb (Bool.eq_false_iff.2 (mt stands.1 hs))]
        simp [hdrain]
  · intro s u r req rest p k post got hr ha hu hp hl
    refine ⟨_, exec_discovery hr ha, ?_⟩
    have hrest : u.mport = rest := by rw [hu]; rfl
    rw [← hu]
    generalize s.wordReturned r req rest = w
    cases replyFailed r.reply with
    | true =>
      obtain ⟨⟨only, mirror⟩, piece, counts⟩ := State.smonFault_counted hp .readErr
      have recalls := u.recordReturned_recalls true w
      rw [State.recordReturned_failed hp] at recalls ⊢
      exact ⟨only, mirror, recalls, by simp, fun _ => ⟨piece, counts⟩⟩
    | false =>
      have recalls := u.recordReturned_recalls false w
      rw [State.recordReturned_next hp w hl] at recalls ⊢
      exact ⟨(OnlyWork.of_goOn ..).1, (OnlyWork.of_goOn ..).2, recalls,
        fun _ => ⟨rfl, by rw [← hrest]; rfl⟩, by simp⟩

end Sys2Proof.Machine
end

section
/-! LOADING: what each read brings, what ends it, and how it stops (10, R141, R142, R145; 01, R4, R5; 12, R164). -/

namespace Sys2Proof.Machine

/-! ### What ENGC does with the access that a command brings back -/

section Returns
variable {s : State} {r : BusReturn} {req : Request} {rest : List Request} (hr : Returns s r req rest)
include hr

theorem exec_loadingRead (ha : req.access = .loading) :
    exec (.loadingRead r) s =
      .next ((s.afterReturn r req rest).loadingReturned (replyFailed r.reply) (s.wordReturned r req rest)) :=
  congrArg Host.Outcome.next (State.busEvent_of_returns _ hr (by simp [ha]))

theorem exec_orphanSettle (ha : req.access = .orphanSettle) :
    exec (.settleWrite r) s =
      .next ((s.afterReturn r req rest).orphanSettleReturned (replyFailed r.reply) r.atStall) :=
  congrArg Host.Outcome.next ((State.busEvent_of_returns _ hr (by simp [ha])).trans (by simp only [ha]))

theorem exec_counterWrite (ha : req.access = .counter) :
    exec (.counterWrite r) s =
      .next ((s.afterReturn r req rest).counterReturned (replyFailed r.reply) r.atStall) :=
  congrArg Host.Outcome.next (State.busEvent_of_returns _ hr (by simp [ha]))

end Returns

/-! ### The header (01, R4; 12, R164) -/

theorem slotsGood_eq_false_iff (b : Byte) : slotsGood b = false ↔ b = 0 ∨ 16 < b.toNat := by
  rw [← Bool.not_eq_true, slotsGood_iff]
  bv_omega

/-! ### The next read (10, R141) -/

/-- LOADING goes on: it stands at y, and the read of the word at this offset of the Exchange Area is raised. -/
structure LoadsNext (s t : State) (next : Word) (y : Loading) : Prop where
  loading : t.engc.loading = some y
  raised : t.mport = s.mport ++ [s.requestOf .loading (s.regp.area + next) none]

/-- The places of the counter words after the first, in the order read. -/
theorem counterWordOffset_succ {n : Nat} (h : n < 3) :
    counterWordOffset (n + 1) = [0x10, 0x08, 0x18].getD n 0 := by
  match n with
  | 0 => rfl
  | 1 => rfl
  | 2 => rfl
  | n + 3 => omega

section Phases
variable {s : State} {x : Loading}

theorem State.loadingData_magic (h : x.phase = .magic) (w : Word) :
    LoadsNext s (s.loadingData x w) 0x04 { x with phase := .slots, magic := w } := by
  unfold State.loadingData
  rw [h]
  exact ⟨rfl, rfl⟩

/-- A bad header ends LOADING (10, R142). -/
theorem State.loadingData_badArea (h : x.phase = .slots) {w : Word}
    (hb : x.magic ≠ 0x4C4A4804#32 ∨ slotsGood (slotsInUse w) = false) :
    s.loadingData x w = s.enableFails .badArea := by
  unfold State.loadingData
  rw [h]
  exact if_pos hb

/-- A good header gives the slot count, and the line table is read next. -/
theorem State.loadingData_slots (h : x.phase = .slots) {w : Word} (hm : x.magic = 0x4C4A4804#32)
    (hg : slotsGood (slotsInUse w) = true) :
    (s.loadingData x w).engc.slotCount = (slotsInUse w).toNat ∧
      LoadsNext s (s.loadingData x w) 0x20 { x with phase := .table, configSeq := configSeq w } := by
  have good : ¬ (x.magic ≠ Config.magic ∨ slotsGood (slotsInUse w) = false) := by
    simp [hg, hm, Config.magic]
  unfold State.loadingData
  rw [h]
  dsimp only
  rw [if_neg good]
  exact ⟨rfl, rfl, rfl⟩

theorem State.loadingData_table (h : x.phase = .table) (w : Word) (hl : x.got.length < 2) :
    LoadsNext s (s.loadingData x w) (0x20 + BitVec.ofNat 32 (4 * (x.got.length + 1)))
      { x with got := x.got ++ [w] } := by
  have more : (x.got ++ [w]).length < 3 := by simp; omega
  unfold State.loadingData
  rw [h]
  dsimp only
  rw [if_pos more, List.length_append]
  exact ⟨rfl, rfl⟩

/-- The third word of a good line table: the counter words are read next. -/
theorem State.loadingData_goodTable (h : x.phase = .table) {w : Word} (hl : x.got.length = 2)
    (hg : lineTableGood (x.got ++ [w]) = true) :
    LoadsNext s (s.loadingData x w) 0x0C { x with phase := .counters, table := x.got ++ [w], got := [] } := by
  unfold State.loadingData
  rw [h]
  dsimp only
  rw [if_neg (by simp [hl]), if_pos hg]
  exact ⟨rfl, rfl⟩

/-- A bad line table ends LOADING (10, R142). -/
theorem State.loadingData_badConfig (h : x.phase = .table) {w : Word} (hl : x.got.length = 2)
    (hb : lineTableGood (x.got ++ [w]) = false) : s.loadingData x w = s.enableFails .badConfig := by
  unfold State.loadingData
  rw [h]
  dsimp only
  rw [if_neg (by simp [hl]), if_neg (by simp [hb])]

theorem State.loadingData_counters (h : x.phase = .counters) (w : Word) (hl : x.got.length < 3) :
    LoadsNext s (s.loadingData x w) ([0x10, 0x08, 0x18].getD x.got.length 0) { x with got := x.got ++ [w] } := by
  have more : (x.got ++ [w]).length < 4 := by simp; omega
  have place : counterWordOffset (x.got ++ [w]).length = [0x10, 0x08, 0x18].getD x.got.length 0 := by
    rw [List.length_append]
    exact counterWordOffset_succ hl
  unfold State.loadingData
  rw [h]
  dsimp only
  rw [if_pos more, place]
  exact ⟨rfl, rfl⟩

/-- The fourth counter word gives the counters their values, and slot 0's host word is read next. -/
theorem State.loadingData_lastCounter (h : x.phase = .counters) (w : Word) (hl : x.got.length = 3) :
    (s.loadingData x w).smon.counters = s.smon.counters.ofWords (x.got ++ [w]) ∧
      LoadsNext s (s.loadingData x w) 0x100 { x with phase := .hostWord 0, got := [] } := by
  unfold State.loadingData
  rw [h]
  dsimp only
  rw [if_neg (by simp [hl])]
  exact ⟨rfl, rfl, rfl⟩

/-- Nothing is done with a host word but the next read: the slot's part word. -/
theorem State.loadingData_hostWord {k : SlotId} (h : x.phase = .hostWord k) (w : Word) :
    s.loadingData x w = s.loadingRead { x with phase := .partWord k } (s.partWordAddr k) := by
  unfold State.loadingData
  rw [h]

end Phases

/-! ### A LOADING read returns (10, R141, R142, R145) -/

section Returned
variable {s : State} {x : Loading} (hx : s.engc.loading = some x)
include hx

theorem State.loadingReturned_failed (hs : x.stopping = false) (w : Word) :
    s.loadingReturned true w = s.enableFails .readErr := by
  unfold State.loadingReturned
  rw [hx]
  simp [hs]

theorem State.loadingReturned_ok (hs : x.stopping = false) (w : Word) :
    s.loadingReturned false w = s.loadingData x w := by
  unfold State.loadingReturned
  rw [hx]
  simp [hs]

/-- LOADING told to stop enters OFF with the return, error or not. -/
theorem State.loadingReturned_stopping (hs : x.stopping = true) (f : Bool) (w : Word) :
    s.loadingReturned f w = s.enterOff := by
  unfold State.loadingReturned
  rw [hx]
  simp [hs]

theorem State.orphanSettleReturned_stopping (hs : x.stopping = true) (b : Option OnBus) :
    s.orphanSettleReturned false b = s.enterOff := by
  unfold State.orphanSettleReturned
  rw [hx]
  simp [hs]

theorem State.stoppingLoad_eq : s.stoppingLoad = x.stopping := by
  unfold State.stoppingLoad
  rw [hx]

end Returned

/-! ### The counter set in LOADING (04, R61; 10, R143, R145) -/

/-- The counter set with no request left. -/
def State.noCounts (s : State) : State :=
  { s with smon := { s.smon with counts := [], secondWord := false } }

@[simp] theorem State.countEffect_counts (s : State) (k : CountKind) :
    (s.countEffect k).smon.counts = s.smon.counts := by
  cases k <;> rfl

/-- A request of one word is done when its write has landed, and LOADING told to stop then enters OFF. -/
theorem State.counterReturned_stopping {s : State} {q : CountReq} {qs : List CountReq}
    (h : s.smon.counts = q :: qs) (hk : ∀ n, q.kind ≠ .sweepClose n) (hs : s.stoppingLoad = true)
    (b : Option OnBus) : s.counterReturned false b = (s.countEffect q.kind).noCounts.enterOff := by
  obtain ⟨kind, requester⟩ := q
  unfold State.counterReturned
  rw [h]
  cases kind with
  | sweepClose n => exact absurd rfl (hk n)
  | _ => simp [hs, State.noCounts]

/-- A request of one word with none behind it is done when its write has landed: the requester is told. -/
theorem State.counterReturned_last {s : State} {q : CountReq} (h : s.smon.counts = [q])
    (hk : ∀ n, q.kind ≠ .sweepClose n) (hs : s.stoppingLoad = false) (b : Option OnBus) :
    s.counterReturned false b = (s.countEffect q.kind).noCounts.report q := by
  have served : (s.countEffect q.kind).nextCount = (s.countEffect q.kind).noCounts := by
    unfold State.nextCount State.serve State.noCounts
    simp [h]
  obtain ⟨kind, requester⟩ := q
  unfold State.counterReturned
  rw [h]
  cases kind with
  | sweepClose n => exact absurd rfl (hk n)
  | _ => simp [hs, served]

/-! ### LOADING ends (10, R142, R145) -/

/-- Entry to OFF from LOADING told to stop. -/
theorem LoadingStopped.of_enterOff (s : State) : LoadingStopped s s.enterOff s.mport where
  engine := ⟨rfl, rfl⟩
  faultCode := rfl
  enable := rfl
  cause := rfl
  epoch := rfl
  orderList := rfl
  mem := rfl
  inc := rfl
  outd := rfl

/-- The same where the counter write of an orphan or of its settlement has landed. -/
theorem LoadingStopped.of_counted (s : State) {kind : CountKind}
    (hk : kind = .orphan ∨ ∃ k seq, kind = .settlement k seq) :
    LoadingStopped s (s.countEffect kind).noCounts.enterOff s.mport := by
  rcases hk with rfl | ⟨k, seq, rfl⟩
  · exact { LoadingStopped.of_enterOff s with }
  · exact { LoadingStopped.of_enterOff s with }

/-- Settles O47: LOADING's reads by the phase they belong to, and LOADING told to stop by the access that returns. -/
theorem loadingReadsAreJudged : Obligations.LoadingReadsAreJudged := by
  refine ⟨?_, ?_⟩
  · intro s u r req rest x w hr ha hu hw hx hs
    have hepoch : u.tbu.epoch = s.tbu.epoch := by rw [hu]; exact s.afterReturn_epoch r req rest
    have harea : u.regp.area = s.regp.area := by rw [hu]; exact s.afterReturn_area r req rest
    have hrest : u.mport = rest := by rw [hu]; rfl
    have out := u.loadingReturned_outside (replyFailed r.reply) w
    refine ⟨_, exec_loadingRead hr ha, ?_⟩
    rw [← hu, ← hw]
    refine ⟨(congrArg Outside.epoch out).trans hepoch, ?_, ?_, ?_, ?_, ?_, (congrArg Outside.recalls out :)⟩
    · -- Each way in which LOADING fails.
      intro code why
      have fails : u.loadingReturned (replyFailed r.reply) w = u.enableFails code := by
        rcases why with ⟨hf, rfl⟩ | ⟨hf, hp, rfl, hb⟩ | ⟨hf, hp, rfl, hl, hb⟩ <;> rw [hf]
        · exact State.loadingReturned_failed hx hs w
        · rw [State.loadingReturned_ok hx hs, State.loadingData_badArea hp]
          exact hb.imp_right (slotsGood_eq_false_iff _).2
        · rw [State.loadingReturned_ok hx hs, State.loadingData_badConfig hp hl hb]
      rw [fails]
      exact ⟨rfl, rfl, rfl, rfl, hrest, rfl, rfl⟩
    · intro hf hp hm h0 h16
      rw [hf, State.loadingReturned_ok hx hs]
      exact (State.loadingData_slots hp hm ((slotsGood_iff _).2 ⟨h0, h16⟩)).1
    · intro a b c hf hp hg
      rw [hf, State.loadingReturned_ok hx hs, (State.loadingData_lastCounter hp w (by simp [hg])).1, hg]
      rfl
    · -- Each read that a word brings.
      intro next y read hf
      rw [hf, State.loadingReturned_ok hx hs]
      have loads : LoadsNext u (u.loadingData x w) next y := by
        rcases read with ⟨hp, rfl, rfl⟩ | ⟨hp, hm, h0, h16, rfl, rfl⟩ | ⟨hp, hl, rfl, rfl⟩ | ⟨hp, hl, hg, rfl, rfl⟩ |
          ⟨hp, hl, rfl, rfl⟩ | ⟨hp, hl, rfl, rfl⟩ | ⟨k, hp, rfl, rfl⟩
        · exact State.loadingData_magic hp w
        · exact (State.loadingData_slots hp hm ((slotsGood_iff _).2 ⟨h0, h16⟩)).2
        · exact State.loadingData_table hp w hl
        · exact State.loadingData_goodTable hp hl hg
        · exact State.loadingData_counters hp w hl
        · exact (State.loadingData_lastCounter hp w hl).2
        · rw [State.loadingData_hostWord hp]
          exact ⟨rfl, rfl⟩
      refine ⟨loads.loading, ?_⟩
      rw [loads.raised, hrest, harea]
    · intro k hf hp
      rw [hf, State.loadingReturned_ok hx hs, State.loadingData_hostWord hp]
      exact ⟨rfl, rfl, rfl, rfl, rfl, rfl, rfl, rfl, rfl⟩
  · intro s u r req rest x hr hu hx hs
    have hrest : u.mport = rest := by rw [hu]; rfl
    refine ⟨fun ha => ⟨_, exec_loadingRead hr ha, ?_⟩, fun ha hf => ⟨_, exec_orphanSettle hr ha, ?_⟩,
      fun q qs ha hf hq hk => ⟨_, exec_counterWrite hr ha, ?_⟩⟩
    · rw [← hu, State.loadingReturned_stopping hx hs, ← hrest]
      exact ⟨.of_enterOff u, rfl⟩
    · rw [← hu, hf, State.orphanSettleReturned_stopping hx hs, ← hrest]
      exact ⟨.of_enterOff u, rfl⟩
    · have one : ∀ n, q.kind ≠ .sweepClose n := by
        rcases hk with e | ⟨k, seq, e⟩ <;> simp [e]
      rw [← hu, hf, State.counterReturned_stopping hq one ((State.stoppingLoad_eq hx).trans hs), ← hrest]
      refine ⟨.of_counted u hk, rfl, ?_, fun k seq e => ?_⟩
      · rcases hk with e | ⟨k, seq, e⟩ <;> rw [e] <;> rfl
      · rw [e]
        exact congrArg Mirror.settleCopy (State.setMirror_mirror u k _)

end Sys2Proof.Machine
end

section
/-! The end of LOADING: the part words, the orphans' settles and counts, and the line table's application (10, R141,
R143, R144; 02, R23, R36; 07, R107; 08, R119). -/

namespace Sys2Proof.Machine

/-! ### Part words (10, R141, R143) -/

/-- The mirror entry that a part word gives its slot: known_seq is take_seq, and a settled slot's copy is take_seq
too. -/
def State.partEntry (s : State) (k : SlotId) (w : Word) : Mirror :=
  { Mirror.reset with
    knownSeq := takeSeq w
    settleCopy := if takeSeq w = settleSeq w then takeSeq w else (s.mirror k).settleCopy }

/-- LOADING with the orphans that a part word leaves: a slot whose two numbers differ joins them. -/
def Loading.withPart (x : Loading) (k : SlotId) (w : Word) : Loading :=
  { x with orphans := x.orphans ++ if takeSeq w = settleSeq w then [] else [(k, takeSeq w)] }

theorem State.notePart_eq (s : State) (x : Loading) (k : SlotId) (w : Word) :
    s.notePart x k w = (s.setMirror k (s.partEntry k w), x.withPart k w) := by
  unfold State.notePart State.partEntry Loading.withPart
  by_cases h : takeSeq w = settleSeq w <;> simp [h]

theorem foldl_resetMirrors (n : Nat) (ks : List SlotId) (s : State) (j : SlotId) :
    (ks.foldl (fun s k => if n ≤ k.val then s.setMirror k Mirror.reset else s) s).mirror j =
      if j ∈ ks ∧ n ≤ j.val then Mirror.reset else s.mirror j := by
  induction ks generalizing s with
  | nil => simp
  | cons k ks ih =>
    rw [List.foldl_cons, ih]
    by_cases hj : k = j
    · subst hj
      by_cases hn : n ≤ k.val <;> simp [hn]
    · have hj' : j ≠ k := Ne.symm hj
      by_cases hn : n ≤ k.val
      · simp [hn, hj', State.setMirror_other _ _ _ _ hj]
      · simp [hn, hj']

/-- The entries from slot n on take their reset values, and the others keep theirs. -/
theorem State.resetMirrorsFrom_mirror (s : State) (n : Nat) (j : SlotId) :
    (s.resetMirrorsFrom n).mirror j = if n ≤ j.val then Mirror.reset else s.mirror j := by
  have every : j ∈ allSlots := by revert j; decide
  unfold State.resetMirrorsFrom
  rw [foldl_resetMirrors]
  simp [every]

/-- Nothing but mirror entries differs. -/
def OnlyMirror (s t : State) : Prop := t = { s with smon := { s.smon with mirror := t.smon.mirror } }

theorem OnlyMirror.of_setMirror (s : State) (k : SlotId) (m : Mirror) : OnlyMirror s (s.setMirror k m) := rfl

theorem OnlyMirror.trans {s t u : State} (h : OnlyMirror s t) (g : OnlyMirror t u) : OnlyMirror s u := by
  unfold OnlyMirror at *
  rw [g, h]

theorem OnlyMirror.of_resetMirrorsFrom (s : State) (n : Nat) : OnlyMirror s (s.resetMirrorsFrom n) := by
  unfold State.resetMirrorsFrom
  generalize allSlots = ks
  induction ks generalizing s with
  | nil => rfl
  | cons k ks ih =>
    rw [List.foldl_cons]
    refine OnlyMirror.trans ?_ (ih _)
    split
    · exact .of_setMirror ..
    · rfl

/-- Slot k's part word has been noted in v, with these numbers, and after the last slot the entries behind it are
reset (log 22). -/
structure PartNoted (s v : State) (k : SlotId) (take settle : Half) : Prop where
  only : OnlyMirror s v
  idle : (v.mirror k).state = .idle ∧ (v.mirror k).lane = none ∧ (v.mirror k).pendingOutcome = none
  known : k.val < s.engc.slotCount →
    (v.mirror k).knownSeq = take ∧ (take = settle → (v.mirror k).settleCopy = take)
  before : ∀ j : SlotId, j.val < k.val → k.val < s.engc.slotCount → v.mirror j = s.mirror j
  behind : s.engc.slotCount = k.val + 1 → ∀ j : SlotId, k.val < j.val → v.mirror j = Mirror.reset

/-- Below the last slot, and after slot 15, no entry is reset. -/
theorem PartNoted.of_entry (s : State) {k : SlotId} (w : Word) (hk : s.engc.slotCount ≠ k.val + 1 ∨ k.val = 15) :
    PartNoted s (s.setMirror k (s.partEntry k w)) k (takeSeq w) (settleSeq w) where
  only := .of_setMirror ..
  idle := by rw [State.setMirror_mirror]; exact ⟨rfl, rfl, rfl⟩
  known := fun _ => by rw [State.setMirror_mirror]; exact ⟨rfl, fun e => if_pos e⟩
  before := fun j hj _ => State.setMirror_other _ _ _ _ (by rintro rfl; omega)
  behind := fun hc j hj => by omega

/-- After the last slot the entries behind it are reset. -/
theorem PartNoted.of_last (s : State) (k : SlotId) (w : Word) (hk : s.engc.slotCount ≤ k.val + 1) :
    PartNoted s ((s.setMirror k (s.partEntry k w)).resetMirrorsFrom s.engc.slotCount) k (takeSeq w)
      (settleSeq w) where
  only := (OnlyMirror.of_setMirror ..).trans (.of_resetMirrorsFrom ..)
  idle := by
    rw [State.resetMirrorsFrom_mirror, State.setMirror_mirror]
    split <;> exact ⟨rfl, rfl, rfl⟩
  known := fun h => by
    rw [State.resetMirrorsFrom_mirror, State.setMirror_mirror, if_neg (by omega)]
    exact ⟨rfl, fun e => if_pos e⟩
  before := fun j hj h => by
    rw [State.resetMirrorsFrom_mirror, if_neg (by omega)]
    exact State.setMirror_other _ _ _ _ (by rintro rfl; omega)
  behind := fun hc j hj => by rw [State.resetMirrorsFrom_mirror, if_pos (by omega)]

/-! ### The orphans and the line table (10, R143, R144; 02, R23, R36) -/

@[simp] theorem State.nextOrphan_smon (s : State) (x : Loading) : (s.nextOrphan x).smon = s.smon := by
  unfold State.nextOrphan
  split <;> rfl

/-- The next orphan's settle begins: its outcome word, ORPHANED with 0xFF, 0xFF and 0, at this epoch. -/
theorem State.nextOrphan_cons (s : State) {x : Loading} {k : SlotId} {seq : Half} {more : List (SlotId × Half)}
    (h : x.orphans = (k, seq) :: more) :
    (s.nextOrphan x).engc.loading = some { x with phase := .orphanWrite 0, settledEpoch := s.tbu.epoch } ∧
      (s.nextOrphan x).mport = s.mport ++ [s.requestOf .orphanSettle (s.slotWord k 0x1C#32)
        (some (quad8 0 0xFF#8 0xFF#8 12#8))] := by
  unfold State.nextOrphan
  rw [h]
  exact ⟨rfl, rfl⟩

/-- A line of INC when LOADING applies the table (07, R107). -/
theorem Inputs.apply_line (table : List Word) (x : Inputs) (i : InLine) :
    (x.apply table).lines[i] = { x.lines[i] with
      filterCode := filterCode table i, accepted := x.pins.getLsbD i.val, run := 0 } :=
  tabulate8_get _ i

/-- A line of OUTD when LOADING applies the table (08, R119). -/
theorem outdApply_line (table : List Word) (v : Vector OutputLine 4) (o : OutLine) :
    (outdApply table v)[o] = { v[o] with
      idle := idleByte table o != 0, level := idleByte table o != 0, keep := false } :=
  tabulate4_get _ o

/-- With no orphan left the line table is applied and the word of config_ack and torn_total is written. -/
structure TableApplied (s t : State) (x : Loading) : Prop where
  loading : t.engc.loading = some { x with phase := .configAck }
  inc : t.inc = s.inc.apply x.table
  outd : t.outd = outdApply x.table s.outd
  raised : t.mport = s.mport ++ [s.requestOf .configAck (s.regp.area + 0x08#32)
    (some (s.smon.counters.tornTotal ++ x.configSeq))]

theorem State.nextOrphan_nil (s : State) {x : Loading} (h : x.orphans = []) :
    TableApplied s (s.nextOrphan x) x := by
  unfold State.nextOrphan
  split
  · rename_i e
    rw [h] at e
    cases e
  · exact ⟨rfl, rfl, rfl, rfl⟩

/-- An orphan's settle write has landed, LOADING going on. -/
theorem State.orphanSettleReturned_ok {s : State} {x : Loading} {i : Nat} (hx : s.engc.loading = some x)
    (hs : x.stopping = false) (hp : x.phase = .orphanWrite i) (b : Option OnBus) :
    s.orphanSettleReturned false b = s.orphanWritten x i := by
  unfold State.orphanSettleReturned
  rw [hx]
  simp [hs, hp]

section Orphan
variable {s : State} {x : Loading} {k : SlotId} {seq : Half} {more : List (SlotId × Half)}
  (h : x.orphans = (k, seq) :: more)
include h

theorem State.orphanWritten_next {i : Nat} (hi : i < 3) :
    s.orphanWritten x i = s.orphanWrite x k seq (i + 1) := by
  unfold State.orphanWritten
  rw [h]
  exact if_pos hi

/-- After the last write the settlement is counted. -/
theorem State.orphanWritten_last {i : Nat} (hi : 3 ≤ i) :
    s.orphanWritten x i = (s.setLoading { x with phase := .orphanSettled }).count (.settlement k seq) .engc := by
  unfold State.orphanWritten
  rw [h]
  exact if_neg (by omega)

end Orphan

@[simp] theorem State.countEffect_loading (s : State) (k : CountKind) :
    (s.countEffect k).engc.loading = s.engc.loading := by
  cases k <;> rfl

/-- A request of one word that ENGC has made, with none behind it, is done: ENGC is told, LOADING going on. -/
theorem State.counterReturned_engc {s : State} {x : Loading} {kind : CountKind} (hx : s.engc.loading = some x)
    (hs : x.stopping = false) (h : s.smon.counts = [{ kind := kind, requester := .engc }])
    (hk : ∀ n, kind ≠ .sweepClose n) (b : Option OnBus) :
    s.counterReturned false b = (s.countEffect kind).noCounts.engcCounted x := by
  have loading : (s.countEffect kind).noCounts.engc.loading = some x := (s.countEffect_loading kind).trans hx
  rw [State.counterReturned_last h hk ((State.stoppingLoad_eq hx).trans hs)]
  unfold State.report
  rw [loading]

theorem State.engcCounted_settled (s : State) {x : Loading} (h : x.phase = .orphanSettled) :
    s.engcCounted x = (s.setLoading { x with phase := .orphanCounted }).count .orphan .engc := by
  unfold State.engcCounted
  rw [h]

theorem State.engcCounted_counted (s : State) {x : Loading} (h : x.phase = .orphanCounted) :
    s.engcCounted x = s.nextOrphan { x with orphans := x.orphans.tail } := by
  unfold State.engcCounted
  rw [h]

section PartWord
variable {s : State} {x : Loading} {k : SlotId} (h : x.phase = .partWord k)
include h

/-- Below the last slot the next slot's host word is read. -/
theorem State.loadingData_partWord {next : SlotId} (w : Word) (hn : next.val = k.val + 1)
    (hc : next.val < s.engc.slotCount) :
    s.loadingData x w =
      (s.setMirror k (s.partEntry k w)).loadingRead { x.withPart k w with phase := .hostWord next }
        (s.hostWordAddr next) := by
  obtain ⟨n, hlt⟩ := next
  obtain rfl : n = k.val + 1 := hn
  unfold State.loadingData
  rw [h]
  dsimp only
  rw [State.notePart_eq, dif_pos hlt, if_pos hc]

/-- After the last slot the first orphan, or the line table, has its turn. -/
theorem State.loadingData_lastPartWord (w : Word) (hc : s.engc.slotCount ≤ k.val + 1 ∨ k.val = 15) :
    ∃ v, PartNoted s v k (takeSeq w) (settleSeq w) ∧ s.loadingData x w = v.nextOrphan (x.withPart k w) := by
  unfold State.loadingData
  rw [h]
  dsimp only
  rw [State.notePart_eq]
  by_cases hk : k.val + 1 < 16
  · rw [dif_pos hk, if_neg (by omega)]
    exact ⟨_, .of_last s k w (by omega), rfl⟩
  · rw [dif_neg hk]
    exact ⟨_, .of_entry s w (.inr (by omega)), rfl⟩

/-- A part word is noted, whatever follows. -/
theorem State.loadingData_partNoted (w : Word) :
    ∃ v, PartNoted s v k (takeSeq w) (settleSeq w) ∧ (s.loadingData x w).smon.mirror = v.smon.mirror := by
  by_cases hc : s.engc.slotCount ≤ k.val + 1 ∨ k.val = 15
  · obtain ⟨v, noted, e⟩ := State.loadingData_lastPartWord h w hc
    exact ⟨v, noted, by rw [e, State.nextOrphan_smon]⟩
  · have hk : k.val + 1 < 16 := by omega
    rw [State.loadingData_partWord h (next := ⟨k.val + 1, hk⟩) w rfl (by dsimp only; omega)]
    exact ⟨_, .of_entry s w (.inl (by omega)), rfl⟩

end PartWord

/-- What the last part word brings where u differs from v in mirror entries alone. -/
theorem PartNoted.nextOrphan {u v : State} {k : SlotId} {take settle : Half} (noted : PartNoted u v k take settle)
    (x : Loading) :
    (x.orphans = [] → TableApplied u (v.nextOrphan x) x) ∧
    ∀ j seq more, x.orphans = (j, seq) :: more →
      (v.nextOrphan x).engc.loading = some { x with phase := .orphanWrite 0, settledEpoch := u.tbu.epoch } ∧
      (v.nextOrphan x).mport = u.mport ++ [u.requestOf .orphanSettle (u.slotWord j 0x1C#32)
        (some (quad8 0 0xFF#8 0xFF#8 12#8))] := by
  obtain ⟨m, rfl⟩ : ∃ m, v = { u with smon := { u.smon with mirror := m } } := ⟨_, noted.only⟩
  refine ⟨fun h => ?_, fun j seq more h => State.nextOrphan_cons _ h⟩
  obtain ⟨loading, inc, outd, raised⟩ := State.nextOrphan_nil { u with smon := { u.smon with mirror := m } } h
  exact ⟨loading, inc, outd, raised⟩

/-- Settles O48: the part words by the slot they belong to, then the orphans' writes and counts. -/
theorem lastPartWordAppliesTableOrSettlesOrphans : Obligations.LastPartWordAppliesTableOrSettlesOrphans := by
  refine ⟨?_, ?_, ?_⟩
  · intro s u r req rest x k take settle orphans hr ha hf hu hx hs hp htake hsettle horphans
    have hepoch : u.tbu.epoch = s.tbu.epoch := by rw [hu]; exact s.afterReturn_epoch r req rest
    have harea : u.regp.area = s.regp.area := by rw [hu]; exact s.afterReturn_area r req rest
    have hrest : u.mport = rest := by rw [hu]; rfl
    have hpins : u.inc.pins = r.pins := by rw [hu]; rfl
    generalize hw : s.wordReturned r req rest = w at htake hsettle
    obtain rfl : take = takeSeq w := htake
    obtain rfl : settle = settleSeq w := hsettle
    have hwith : (x.withPart k w).orphans = orphans := horphans.symm
    have hx' : x.withPart k w = { x with orphans := orphans } := by rw [horphans]; rfl
    refine ⟨u.loadingData x w, ?_, ?_⟩
    · rw [exec_loadingRead hr ha, ← hu, hw, hf, State.loadingReturned_ok hx hs]
    obtain ⟨v, noted, hv⟩ := State.loadingData_partNoted hp w
    have entry (j : SlotId) : (u.loadingData x w).mirror j = v.mirror j := State.mirror_of_mirror hv j
    simp only [entry]
    obtain ⟨hstate, hlane, hpending⟩ := noted.idle
    refine ⟨hstate, hlane, hpending, noted.known, noted.before, fun next hn hc => ?_,
      fun hc => ⟨noted.behind hc, fun hnil => ?_, fun j seq more hcons => ?_⟩⟩
    · rw [State.loadingData_partWord hp w hn hc, hx', ← hrest]
      exact ⟨rfl, rfl⟩
    · obtain ⟨v', noted', hlast⟩ := State.loadingData_lastPartWord hp w (.inl (Nat.le_of_eq hc))
      obtain ⟨-, inc, outd, raised⟩ := (noted'.nextOrphan (x.withPart k w)).1 (hwith.trans hnil)
      rw [hlast, inc, outd, raised, hrest, harea, ← hpins]
      exact ⟨rfl, Inputs.apply_line _ _, outdApply_line _ _, rfl⟩
    · obtain ⟨v', noted', hlast⟩ := State.loadingData_lastPartWord hp w (.inl (Nat.le_of_eq hc))
      obtain ⟨loading, raised⟩ := (noted'.nextOrphan (x.withPart k w)).2 j seq more (hwith.trans hcons)
      rw [hlast, loading, raised, hrest, hepoch, hx']
      exact ⟨rfl, rfl⟩
  · intro s u r req rest x k seq more i hr ha hf hu hx hs hp ho
    have hrest : u.mport = rest := by rw [hu]; rfl
    refine ⟨u.orphanWritten x i, ?_, fun hi => ?_, fun hi => ?_⟩
    · rw [exec_orphanSettle hr ha, ← hu, hf, State.orphanSettleReturned_ok hx hs hp]
    · rw [State.orphanWritten_next ho hi, ← hrest]
      exact ⟨rfl, rfl⟩
    · rw [State.orphanWritten_last ho hi, State.count_engc, State.count_counts]
      exact ⟨rfl, rfl⟩
  · intro s u r req rest x k seq hr ha hf hu hx hs
    have hepoch : u.tbu.epoch = s.tbu.epoch := by rw [hu]; exact s.afterReturn_epoch r req rest
    have harea : u.regp.area = s.regp.area := by rw [hu]; exact s.afterReturn_area r req rest
    have hrest : u.mport = rest := by rw [hu]; rfl
    refine ⟨fun hp hq => ⟨_, exec_counterWrite hr ha, ?_⟩, fun hp hq => ⟨_, exec_counterWrite hr ha, ?_⟩⟩
    · rw [← hu, hf, State.counterReturned_engc hx hs hq (by simp), State.engcCounted_settled _ hp]
      refine ⟨?_, by rw [State.count_engc]; rfl, State.count_counts ..⟩
      rw [State.mirror_of_mirror (OnlyWork.of_count ..).2]
      exact congrArg Mirror.settleCopy (State.setMirror_mirror u k _)
    · rw [← hu, hf, State.counterReturned_engc hx hs hq (by simp), State.engcCounted_counted _ hp]
      refine ⟨by rw [State.nextOrphan_smon]; rfl, fun hnil => ?_, fun j next more hcons => ?_⟩
      · obtain ⟨loading, inc, -, raised⟩ := State.nextOrphan_nil (u.countEffect .orphan).noCounts
          (x := { x with orphans := x.orphans.tail }) hnil
        rw [loading, inc, raised, hnil, ← hrest, ← harea]
        exact ⟨rfl, rfl, rfl⟩
      · obtain ⟨loading, raised⟩ := State.nextOrphan_cons (u.countEffect .orphan).noCounts
          (x := { x with orphans := x.orphans.tail }) hcons
        rw [loading, raised, hcons, ← hrest, ← hepoch]
        exact ⟨rfl, rfl⟩

end Sys2Proof.Machine
end

section
/-! The reached test (03, R42, R43), the sweep requests and how a sweep goes on (03, R45, R46; 04, R47, R48), and the
two commands that end LOADING and DRAINING (10, R144, R147). -/

namespace Sys2Proof.Machine

/-! ### The reached test (03, R42, R43) -/

theorem reached_iff (now t : Word) : reached now t = true ↔ (now - t).toNat < 2147483648 := by
  simp [reached]

theorem reached_eq_false_iff (now t : Word) : reached now t = false ↔ 2147483648 ≤ (now - t).toNat := by
  simp [reached]

/-- Settles O23: the distance now − t of each of the places named. -/
theorem reachedJudgesByDistance : Obligations.ReachedJudgesByDistance := by
  refine ⟨reached_iff, fun t d hd => ?_, fun now d h0 hd => ?_, fun now d hd => ?_, fun now t h => ?_⟩
  · have distance : t + d - t = d := by bv_omega
    rwa [reached_iff, distance]
  · have distance : (now - (now + d)).toNat = 4294967296 - d.toNat := by bv_omega
    rw [reached_eq_false_iff]
    omega
  · have distance : (now - (now + d)).toNat = 4294967296 - d.toNat := by bv_omega
    rw [reached_iff]
    omega
  · rw [reached_eq_false_iff] at h
    rw [reached_iff]
    bv_omega

/-! ### The sweep timer's period (03, R45) -/

theorem sweepPeriod_eq_zero_iff (code : BitVec 2) : sweepPeriod code = 0 ↔ code = 0 := by
  revert code
  decide

theorem State.timerDue_iff (s : State) : s.timerDue = true ↔
    (s.regp.sweep = 1 ∧ 1024 ≤ s.tbu.timer) ∨ (s.regp.sweep = 2 ∧ 16384 ≤ s.tbu.timer) ∨
      (s.regp.sweep = 3 ∧ 262144 ≤ s.tbu.timer) := by
  have codes : ∀ code : BitVec 2, code = 0 ∨ code = 1 ∨ code = 2 ∨ code = 3 := by decide
  unfold State.timerDue
  rcases codes s.regp.sweep with h | h | h | h <;> rw [h] <;> simp [sweepPeriod]

/-- A timer whose count is 0 is not due. -/
theorem State.timerDue_of_restarted {s : State} (h : s.tbu.timer = 0) : s.timerDue = false := by
  rw [Bool.eq_false_iff, ne_eq, State.timerDue_iff, h]
  omega

/-! ### How a sweep goes on -/

/-- The configuration piece of a sweep waits or is under way, its read not yet returned. -/
def Monitor.ConfigStands (m : Monitor) : Prop := .config ∈ m.waiting ∨ m.piece = some (.config, .config)

/-- What every event inside the part keeps of a sweep: one in progress goes on with the epoch it has noted, a pending
one stays so, and its configuration piece is begun but not ended. -/
structure SweepGoesOn (s t : State) : Prop where
  progress : s.smon.inProgress = true → t.smon.inProgress = true
  pending : s.smon.inProgress = true → s.smon.pendingSweep = true → t.smon.pendingSweep = true
  noted : s.smon.inProgress = true → t.smon.noted = s.smon.noted
  config : s.smon.ConfigStands → t.smon.ConfigStands

theorem SweepGoesOn.trans {s t u : State} (h : SweepGoesOn s t) (g : SweepGoesOn t u) : SweepGoesOn s u where
  progress := fun hs => g.progress (h.progress hs)
  pending := fun hs hp => g.pending (h.progress hs) (h.pending hs hp)
  noted := fun hs => (g.noted (h.progress hs)).trans (h.noted hs)
  config := fun hs => g.config (h.config hs)

/-- An operation that leaves the sweep's flags alone. -/
theorem SweepGoesOn.of_flags {s t : State} (progress : t.smon.inProgress = s.smon.inProgress)
    (pending : t.smon.pendingSweep = s.smon.pendingSweep) (noted : t.smon.noted = s.smon.noted)
    (config : s.smon.ConfigStands → t.smon.ConfigStands) : SweepGoesOn s t :=
  ⟨fun h => progress.trans h, fun _ h => pending.trans h, fun _ => noted, config⟩

/-- An operation that leaves SMON alone. -/
theorem SweepGoesOn.of_smon {s t : State} (h : t.smon = s.smon) : SweepGoesOn s t :=
  .of_flags (by rw [h]) (by rw [h]) (by rw [h]) (by rw [h]; exact id)

theorem SweepGoesOn.refl (s : State) : SweepGoesOn s s := .of_smon rfl

/-- A sweep request that has been heard stays so while its sweep goes on. -/
theorem SweepRequested.goesOn {s t u : State} (h : SweepRequested s t) (g : SweepGoesOn t u) :
    SweepRequested s u := by
  obtain ⟨progress, again, first⟩ := h
  refine ⟨g.progress progress, fun hp => g.pending progress (again hp), fun hn => ?_⟩
  obtain ⟨noted, config⟩ := first hn
  exact ⟨(g.noted progress).trans noted, g.config config⟩

/-- A piece under way holds up those that wait. -/
theorem State.takeNext_busy {s : State} {x : Piece × Work} (h : s.smon.piece = some x) : s.takeNext = s := by
  unfold State.takeNext
  rw [h]

theorem SweepGoesOn.of_takeNext (s : State) : SweepGoesOn s s.takeNext := by
  cases hp : s.smon.piece with
  | some x =>
    rw [State.takeNext_busy hp]
    exact .refl s
  | none =>
    obtain ⟨pieces, ⟨noted, pending, progress⟩, -, begins⟩ := s.takeNext_taken hp
    refine .of_flags progress pending noted fun hc => ?_
    have waits : .config ∈ s.smon.waiting := hc.resolve_right (by rw [hp]; exact nofun)
    have stands : .config ∈ s.takeNext.smon.pieces := by
      rw [pieces]
      exact List.mem_append_right _ waits
    rcases List.mem_append.mp stands with head | rest
    · obtain ⟨⟨q, w⟩, hq, rfl⟩ : ∃ x, s.takeNext.smon.piece = some x ∧ x.1 = .config := by
        simpa using head
      rcases begins _ w hq with ⟨-, rfl, -⟩ | ⟨k, hk, -⟩ | ⟨hc, -⟩
      · exact .inr hq
      · cases hk
      · cases hc
    · exact .inl rest

/-- In RUNNING a sweep request is heard (04, R47, R48). -/
theorem State.sweepRequest_requested {s : State} (h : s.engc.engine = .running) :
    SweepRequested s s.sweepRequest := by
  unfold State.sweepRequest
  rw [if_neg (not_not_intro h)]
  split
  · rename_i hp
    exact ⟨hp, fun _ => rfl, fun hn => absurd hp (by simp [hn])⟩
  · rename_i hn
    have started := SweepGoesOn.of_takeNext s.startSweep
    exact ⟨started.progress rfl, fun hp => absurd hp hn, fun _ =>
      ⟨started.noted rfl, started.config (.inl (List.mem_append_right _ (List.mem_singleton.mpr rfl)))⟩⟩

/-- Outside RUNNING it is not. -/
theorem State.sweepRequest_idle {s : State} (h : s.engc.engine ≠ .running) : s.sweepRequest = s := by
  unfold State.sweepRequest
  rw [if_pos h]

/-! ### Requests by NUDGE and by the timer (03, R45; 04, R47) -/

/-- Beside its own count the timer's expiry touches SMON's work and the order list alone. -/
theorem State.timerExpires_work (s : State) :
    OnlyWork { s with tbu := { s.tbu with timer := 0 } } s.timerExpires := .of_sweepRequest _

@[simp] theorem State.timerExpires_tbu (s : State) : s.timerExpires.tbu = { s.tbu with timer := 0 } :=
  s.timerExpires_work.1.tbu

/-- In RUNNING the timer's expiry is a sweep request (03, R45). -/
theorem State.timerExpires_requested {s : State} (h : s.engc.engine = .running) :
    SweepRequested s s.timerExpires :=
  State.sweepRequest_requested (s := { s with tbu := { s.tbu with timer := 0 } }) h

/-- Outside RUNNING only the count returns to 0. -/
theorem State.timerExpires_idle {s : State} (h : s.engc.engine ≠ .running) :
    s.timerExpires = { s with tbu := { s.tbu with timer := 0 } } :=
  State.sweepRequest_idle (s := { s with tbu := { s.tbu with timer := 0 } }) h

/-- A NUDGE that the port accepts. -/
theorem exec_nudge {s : State} (w : Word) (h : s.regp.resetLow = false) :
    exec (.nudge w) s = .next (s.settled.respond .normal).sweepRequest :=
  congrArg Host.Outcome.next (if_neg (by rw [s.settled_resetLow, h]; exact Bool.false_ne_true))

/-- An event that is due takes place. -/
theorem State.runDue_due {s : State} {e : Due} (h : e.holds s = true) : s.runDue e = e.act s := if_pos h

/-- An event that is not due does not. -/
theorem State.runDue_notDue {s : State} {e : Due} (h : e.holds s = false) : s.runDue e = s :=
  if_neg (Bool.eq_false_iff.1 h)

/-- Settles O15: NUDGE and the timer's expiry are `State.sweepRequest`, which is heard in RUNNING alone. -/
theorem nudgeAndTimerRequestSweeps : Obligations.NudgeAndTimerRequestSweeps := by
  refine ⟨fun s w hlow => ⟨fun hr => ?_, fun hr => ?_⟩, fun s hd => ⟨fun hr => ?_, fun hr => ?_⟩,
    fun s => ⟨s.timerDue_iff, fun hd => ?_⟩⟩
  · have work := OnlyWork.of_sweepRequest (s.settled.respond .normal)
    exact ⟨_, exec_nudge w hlow, State.sweepRequest_requested (s := s.settled.respond .normal) hr, work.1.engc,
      work.2, work.1.mem.trans s.settled_mem⟩
  · rw [exec_nudge w hlow, State.sweepRequest_idle (s := s.settled.respond .normal) hr]
    rfl
  · have work := s.timerExpires_work
    refine ⟨s.timerExpires, congrArg Host.Outcome.next (State.runDue_due hd), ?_, ?_,
      State.timerExpires_requested hr, work.2, work.1.mem⟩ <;> rw [State.timerExpires_tbu]
  · rw [← State.timerExpires_idle hr]
    exact congrArg Host.Outcome.next (State.runDue_due hd)
  · exact congrArg Host.Outcome.next (State.runDue_notDue hd)

/-! ### Entry to RUNNING and the end of DRAINING (10, R144, R147) -/

/-- No request to the counter set changes its copy of config_ack before it is done. -/
@[simp] theorem State.serve_ackCopy (s : State) : s.serve.smon.counters.ackCopy = s.smon.counters.ackCopy := by
  unfold State.serve
  dsimp only
  split
  · rfl
  · split <;> rfl

@[simp] theorem State.count_ackCopy (s : State) (k : CountKind) (q : Requester) :
    (s.count k q).smon.counters.ackCopy = s.smon.counters.ackCopy := by
  unfold State.count
  dsimp only
  split
  · exact State.serve_ackCopy _
  · rfl

@[simp] theorem State.takeNext_ackCopy (s : State) : s.takeNext.smon.counters.ackCopy = s.smon.counters.ackCopy := by
  unfold State.takeNext
  split
  · split
    case h_3 => exact State.count_ackCopy ..
    all_goals rfl
  · rfl

@[simp] theorem State.sweepRequest_ackCopy (s : State) :
    s.sweepRequest.smon.counters.ackCopy = s.smon.counters.ackCopy := by
  unfold State.sweepRequest
  split
  · rfl
  · split
    · rfl
    · exact State.takeNext_ackCopy _

/-- Entry to RUNNING is a sweep request with the timer restarted (03, R46). -/
theorem State.enterRunning_facts (s : State) :
    s.enterRunning.engc = { s.engc with engine := .running, loading := none } ∧
      s.enterRunning.tbu = { s.tbu with timer := 0 } ∧ SweepRequested s s.enterRunning ∧
      s.enterRunning.smon.counters.ackCopy = s.smon.counters.ackCopy := by
  unfold State.enterRunning
  exact ⟨State.sweepRequest_engc _, (OnlyWork.of_sweepRequest _).1.tbu, State.sweepRequest_requested rfl,
    State.sweepRequest_ackCopy _⟩

theorem exec_configAckWrite {s : State} {r : BusReturn} {req : Request} {rest : List Request}
    (hr : Returns s r req rest) (ha : req.access = .configAck) :
    exec (.configAckWrite r) s =
      .next ((s.afterReturn r req rest).configAckReturned (replyFailed r.reply) r.atStall) :=
  congrArg Host.Outcome.next (State.busEvent_of_returns _ hr (by simp [ha]))

/-- The config_ack write has landed: RUNNING, or OFF where LOADING has been told to stop. -/
theorem State.configAckReturned_ok {s : State} {x : Loading} (h : s.engc.loading = some x) (b : Option OnBus) :
    s.configAckReturned false b =
      let acked := s.setCounters { s.smon.counters with ackCopy := x.configSeq }
      if x.stopping then acked.enterOff else acked.enterRunning := by
  unfold State.configAckReturned
  rw [h]
  rfl

/-- Settles O49: by `State.configAckReturned_ok`'s two cases. -/
theorem configAckEntersRunning : Obligations.ConfigAckEntersRunning := by
  intro s r req rest x hr ha hf hx
  refine ⟨_, exec_configAckWrite hr ha, ?_⟩
  rw [hf, State.configAckReturned_ok hx]
  cases hs : x.stopping with
  | true => exact ⟨rfl, rfl, nofun, fun _ => ⟨rfl, rfl⟩⟩
  | false =>
    obtain ⟨hengc, htbu, requested, hcopy⟩ :=
      ((s.afterReturn r req rest).setCounters
        { (s.afterReturn r req rest).smon.counters with ackCopy := x.configSeq }).enterRunning_facts
    exact ⟨hcopy, congrArg EngineControl.loading hengc,
      fun _ => ⟨congrArg EngineControl.engine hengc, congrArg Timebase.timer htbu, requested⟩, nofun⟩

/-- DRAINING is over when no plan is queued or on a lane and SMON has nothing to do (10, R147). -/
theorem State.drainDone_iff (s : State) : s.drainDone = true ↔
    s.engc.engine = .draining ∧ s.admu.queue = [] ∧ (∀ l : LaneId, s.admu.pool[l] = true) ∧
      s.smon.piece = none ∧ s.smon.waiting = [] ∧ s.smon.counts = [] := by
  have lanes : allLanes.all (fun l => s.admu.pool[l]) = true ↔ ∀ l : LaneId, s.admu.pool[l] = true := by
    rw [List.all_eq_true]
    have every : ∀ l : LaneId, l ∈ allLanes := by decide
    exact ⟨fun h l => h l (every l), fun h l _ => h l⟩
  unfold State.drainDone
  simp only [Bool.and_eq_true, lanes, beq_iff_eq, List.isEmpty_iff, Option.isNone_iff_eq_none, and_assoc]

/-- Settles O50: the conditions are those of `State.drainDone`, and DRAIN_END then enters OFF. -/
theorem drainEndEntersOff : Obligations.DrainEndEntersOff := by
  intro s he hq hp hpiece hw hc
  have done : s.drainDone = true := s.drainDone_iff.mpr ⟨he, hq, hp, hpiece, hw, hc⟩
  exact ⟨s.enterOff, congrArg Host.Outcome.next (State.runDue_due (e := .drainEnd) done), rfl, rfl, rfl, rfl, rfl,
    rfl, rfl, rfl⟩

end Sys2Proof.Machine
end

section
/-! The frame of the lanes' events at an instant: each changes its lane, the order list and, where it drives, output
levels, and nothing else (06, R83, R87 to R97; 07, R110 to R117; 08, R124 to R129). -/

namespace Sys2Proof.Machine

theorem OnlyLane.of_abandon (s : State) (l : LaneId) (p : Access → Bool) : OnlyLane s (s.abandon p) l :=
  .of_bus s l _ s.outd

theorem OnlyLane.of_finishStep (s : State) (l : LaneId) (c : ResultCode) (v w : Word) (a : Byte)
    (verdict : Option PlanOutcome) (skip same : Bool) :
    OnlyLane s (s.finishStep l c v w a verdict skip same) l := (State.finishStep_completes ..).1

theorem OnlyLane.of_deliverEdge (s : State) (l : LaneId) (i : InLine) (b : Bool) (w : Word) :
    OnlyLane s (s.deliverEdge l i b w) l := (State.deliverEdge_onlyLane ..).1

theorem OnlyLane.of_conclude (s : State) (l : LaneId) (o : PlanOutcome) (b : Byte) :
    OnlyLane s (s.conclude l o b) l := by
  obtain ⟨a, e, q, h⟩ := State.conclude_eq s l o b
  rw [h]
  exact .of_write ..

theorem OnlyLane.of_beginStep (s : State) (l : LaneId) (k : Nat) : OnlyLane s (s.beginStep l k) l := by
  by_cases known : 1 ≤ ((s.lane l).steps.getD k StepReq.zero).kind.toNat ∧
      ((s.lane l).steps.getD k StepReq.zero).kind.toNat ≤ 9
  · exact (State.beginStep_facts s l k known.1 known.2).1
  · rw [State.beginStep_unknown s l k (by omega)]
    exact .refl s l

theorem OnlyLane.of_beginWaiting (s : State) (l : LaneId) : OnlyLane s (s.beginWaiting l) l := by
  unfold State.beginWaiting
  split
  · exact (OnlyLane.of_setLane ..).trans (.of_finishStep ..)
  · exact .of_beginStep ..
  · exact .refl s l

theorem OnlyLane.of_completeLoad (s : State) (l : LaneId) : OnlyLane s (s.completeLoad l) l :=
  (OnlyLane.of_setLane ..).trans (.of_beginStep ..)

theorem OnlyLane.of_overrangeStep (s : State) (l : LaneId) : OnlyLane s (s.overrangeStep l) l := by
  unfold State.overrangeStep
  split
  · exact .of_finishStep ..
  · exact .of_finishStep ..
  · exact .refl s l

theorem OnlyLane.of_timeoutStep (s : State) (l : LaneId) : OnlyLane s (s.timeoutStep l) l := by
  unfold State.timeoutStep
  extract_lets x t verdict ends
  have ended (v w : Word) (a : Byte) : OnlyLane s (ends v w a) l := .of_finishStep ..
  cases x.activity
  case edge | widthEnter | widthLeave | periodFirst | period => exact ended ..
  all_goals exact .refl s l

theorem OnlyLane.of_holdStep (s : State) (l : LaneId) : OnlyLane s (s.holdStep l) l := .of_finishStep ..

theorem OnlyLane.of_untilStep (s : State) (l : LaneId) : OnlyLane s (s.untilStep l) l := .of_finishStep ..

theorem OnlyLane.of_pulseStep (s : State) (l : LaneId) : OnlyLane s (s.pulseStep l) l := by
  unfold State.pulseStep
  dsimp only
  split
  · exact (OnlyLane.of_setLane ..).trans (.of_drive ..)
  · split
    · exact .of_finishStep ..
    · exact (OnlyLane.of_setLane ..).trans (.of_drive ..)
  · exact .refl s l

theorem OnlyLane.of_tallyStep (s : State) (l : LaneId) : OnlyLane s (s.tallyStep l) l := by
  unfold State.tallyStep
  split
  · exact .of_finishStep ..
  · exact .refl s l

/-! ### A lane whose flag takes effect (06, R95 to R97) -/

theorem OnlyLane.of_completeRunning (s : State) (l : LaneId) : OnlyLane s (s.completeRunning l) l := by
  unfold State.completeRunning
  extract_lets i s1 x
  have edge : OnlyLane s s1 l := by
    show OnlyLane s (if _ then _ else _) l
    split
    · exact .of_deliverEdge ..
    · exact .refl s l
  refine edge.trans ?_
  clear_value s1
  split
  · exact .of_overrangeStep ..
  split
  · exact .of_timeoutStep ..
  split
  · exact .of_holdStep ..
  split
  · exact .of_untilStep ..
  split
  · exact .of_pulseStep ..
  split
  · exact .of_tallyStep ..
  · exact .refl s1 l

theorem OnlyLane.of_chainInstant (s : State) (l : LaneId) : OnlyLane s (s.chainInstant l) l := by
  unfold State.chainInstant
  dsimp only
  split
  · split
    · exact .of_beginStep ..
    · exact .refl s l
  · exact .refl s l

theorem OnlyLane.of_cutRunning (s : State) (l : LaneId) (c : ResultCode) : OnlyLane s (s.cutRunning l c) l := by
  unfold State.cutRunning
  dsimp only
  split
  · exact (OnlyLane.of_setLane ..).trans (.of_drive ..)
  · exact (OnlyLane.of_setLane ..).trans (.of_abandon ..)
  · exact .of_setLane ..

theorem OnlyLane.of_flagEffect (s : State) (l : LaneId) : OnlyLane s (s.flagEffect l) l := by
  unfold State.flagEffect
  dsimp only
  split
  · exact (OnlyLane.of_abandon ..).trans (.of_conclude ..)
  · split
    · exact .refl s l
    · exact .of_conclude ..
    · exact (OnlyLane.of_cutRunning ..).trans (.of_conclude ..)
  · exact .refl s l

theorem OnlyLane.of_flaggedBoundary (s : State) (l : LaneId) : OnlyLane s (s.flaggedBoundary l) l := by
  unfold State.flaggedBoundary
  split
  · exact (((OnlyLane.of_completeRunning ..).trans (.of_chainInstant ..)).trans (.of_chainInstant ..)).trans
      (.of_flagEffect ..)
  · exact .of_flagEffect ..

end Sys2Proof.Machine
end

section
/-! The writes to TICKDIV and SWEEP: a sweep goes on through every event that is due at an instant, so that the expiry
of an instant at which SWEEP is written has been heard when the write is taken (03, R37, R45, R46; 04, R47 to R49). -/

namespace Sys2Proof.Machine

/-! ### A sweep goes on through ADMU's event and SMON's own -/

theorem SweepGoesOn.of_lane {s t : State} {l : LaneId} (h : OnlyLane s t l) : SweepGoesOn s t := .of_smon h.smon

theorem SweepGoesOn.of_walk (s : State) : SweepGoesOn s s.walk := by
  have h := (State.walk_frame s).1.smon
  exact .of_flags (by rw [h]) (by rw [h]) (by rw [h]) (by rw [h]; exact id)

theorem SweepGoesOn.of_setMirror (s : State) (k : SlotId) (m : Mirror) : SweepGoesOn s (s.setMirror k m) :=
  .of_flags rfl rfl rfl id

theorem SweepGoesOn.of_removeAs (s : State) (k : SlotId) (why : Removal) : SweepGoesOn s (s.removeAs k why) :=
  .of_flags rfl rfl rfl (Or.imp_left (List.mem_append_left _))

theorem SweepGoesOn.of_lateEntry (s : State) (k : SlotId) : SweepGoesOn s (s.lateEntry k) := by
  unfold State.lateEntry
  dsimp only
  split
  · exact ((SweepGoesOn.of_walk s).trans (.of_removeAs ..)).trans (.of_walk _)
  · exact .of_walk s

theorem SweepGoesOn.of_lateAll (n : Nat) (s : State) : SweepGoesOn s (lateAll n s) := by
  induction n generalizing s with
  | zero => exact .refl s
  | succ n ih =>
    unfold lateAll
    split
    · exact .refl s
    · exact (SweepGoesOn.of_lateEntry ..).trans (ih _)

theorem SweepGoesOn.of_admissionTick (s : State) : SweepGoesOn s s.admissionTick := by
  unfold State.admissionTick
  dsimp only
  refine SweepGoesOn.trans ?_ (.of_lateAll ..)
  split
  · unfold State.makeEligible
    refine SweepGoesOn.trans ?_ (.of_walk _)
    exact .of_smon rfl
  · exact .refl s

theorem SweepGoesOn.of_sweepRequest (s : State) : SweepGoesOn s s.sweepRequest := by
  unfold State.sweepRequest
  split
  · exact .refl s
  · split
    · exact ⟨id, fun _ _ => rfl, fun _ => rfl, id⟩
    · rename_i hn
      refine SweepGoesOn.trans (t := s.startSweep) ?_ (.of_takeNext _)
      exact ⟨fun _ => rfl, fun hp => absurd hp hn, fun hp => absurd hp hn,
        Or.imp_left (List.mem_append_left _)⟩

theorem SweepGoesOn.of_timerExpires (s : State) : SweepGoesOn s s.timerExpires := by
  unfold State.timerExpires
  refine SweepGoesOn.trans ?_ (.of_sweepRequest _)
  exact .of_smon rfl

theorem SweepGoesOn.of_count (s : State) (k : CountKind) (q : Requester) : SweepGoesOn s (s.count k q) := by
  obtain ⟨piece, waiting, progress, pending, noted, -⟩ := s.count_work k q
  refine .of_flags progress pending noted fun hc => ?_
  unfold Monitor.ConfigStands
  rwa [piece, waiting]

/-- A sweep request leaves the piece under way, where there is one. -/
theorem State.sweepRequest_piece {s : State} {x : Piece × Work} (h : s.smon.piece = some x) :
    s.sweepRequest.smon.piece = some x := by
  unfold State.sweepRequest
  split
  · exact h
  · split
    · exact h
    · rw [State.takeNext_busy (s := s.startSweep) h]
      exact h

/-- A piece that is no sweep's begins by its own command. -/
theorem SweepGoesOn.of_beginPiece {s : State} {p : Piece} (h : s.nextPiece = some p) (hp : p.ofSweep = false)
    (w : Work) : SweepGoesOn s (s.beginPiece p w) := by
  refine .of_flags rfl rfl rfl fun hc => .inl ?_
  unfold State.nextPiece at h
  split at h
  · rename_i idle
    obtain ⟨rest, hw⟩ := List.head?_eq_some_iff.mp h
    have waits : .config ∈ s.smon.waiting := hc.resolve_right (by rw [idle]; exact nofun)
    show .config ∈ s.smon.waiting.tail
    rw [hw] at waits ⊢
    exact (List.mem_cons.mp waits).resolve_left (by rintro rfl; cases hp)
  · cases h

/-- The end of a piece that is no sweep's. -/
theorem SweepGoesOn.of_endPiece {s : State} {p : Piece} {w : Work} (h : s.smon.piece = some (p, w))
    (hp : p.ofSweep = false) : SweepGoesOn s s.endPiece := by
  rw [State.endPiece_eq h]
  have nothing : s.dropPiece.readyAfter p = s.dropPiece := by
    unfold State.readyAfter
    rw [if_pos (by simp [hp])]
  rw [nothing]
  refine SweepGoesOn.trans (t := s.dropPiece) ?_ (.of_takeNext _)
  refine .of_flags rfl rfl rfl fun hc => .inl (hc.resolve_right fun he => ?_)
  rw [h] at he
  cases he
  cases hp

/-- A piece whose configuration read is not outstanding goes on to another stage. -/
theorem SweepGoesOn.of_setWork {s : State} {p : Piece} {w0 : Work} (h : s.smon.piece = some (p, w0))
    (hw : w0 ≠ .config) (w : Work) : SweepGoesOn s (s.setWork w) := by
  rw [State.setWork_of_piece h]
  refine .of_flags rfl rfl rfl fun hc => .inl (hc.resolve_right fun he => ?_)
  rw [h] at he
  cases he
  exact hw rfl

theorem SweepGoesOn.of_beginSettle {s : State} {p : Piece} {w0 : Work} (h : s.smon.piece = some (p, w0))
    (hw : w0 ≠ .config) (j : SettleJob) : SweepGoesOn s (s.beginSettle j) :=
  (SweepGoesOn.of_setWork h hw _).trans (.of_smon rfl)

theorem SweepGoesOn.of_beginDueSettle (s : State) : SweepGoesOn s s.beginDueSettle := by
  unfold State.beginDueSettle
  split
  · rename_i j hj
    unfold State.settleToBegin at hj
    split at hj
    · rename_i p j' hp
      exact .of_beginSettle hp nofun j
    · cases hj
  · split
    · rename_i k why notify hn
      exact (SweepGoesOn.of_beginPiece hn rfl (.counting .endPiece)).trans
        (.of_beginSettle (p := .removal k why notify) (w0 := .counting .endPiece) rfl nofun _)
    · exact .refl s

theorem SweepGoesOn.of_handleCompletion (s : State) : SweepGoesOn s s.handleCompletion := by
  unfold State.handleCompletion
  split
  · rename_i k hn
    extract_lets m s1
    have begun : SweepGoesOn s s1 :=
      (SweepGoesOn.of_beginPiece hn rfl (.counting .endPiece)).trans (.of_setMirror ..)
    have piece : s1.smon.piece = some (.completion k, .counting .endPiece) := rfl
    clear_value s1
    refine begun.trans ?_
    split
    · exact (SweepGoesOn.of_sweepRequest s1).trans (.of_endPiece (State.sweepRequest_piece piece) rfl)
    · exact .of_endPiece piece rfl
  · exact .refl s

theorem SweepGoesOn.of_handleTearRelease (s : State) : SweepGoesOn s s.handleTearRelease := by
  unfold State.handleTearRelease
  split
  · rename_i k hn
    extract_lets m
    refine SweepGoesOn.trans ?_ (.of_count ..)
    exact (SweepGoesOn.of_beginPiece hn rfl (.counting .tornRelease)).trans (.of_setMirror ..)
  · exact .refl s

/-- A sweep goes on through every event that may be due at an instant. -/
theorem SweepGoesOn.of_due (s : State) (e : Due) : SweepGoesOn s (e.act s) := by
  cases e with
  | acceptedEdge i =>
    obtain ⟨-, -, -, hsmon, -⟩ := s.acceptEdge_rest i
    exact .of_smon hsmon
  | overrange l => exact .of_lane (.of_overrangeStep s l)
  | windowExpiry l => exact .of_lane (.of_timeoutStep s l)
  | hold l => exact .of_lane (.of_holdStep s l)
  | untilReached l => exact .of_lane (.of_untilStep s l)
  | pulse l => exact .of_lane (.of_pulseStep s l)
  | tallyGateEnd l => exact .of_lane (.of_tallyStep s l)
  | loadCompletion l => exact .of_lane (.of_completeLoad s l)
  | stepBegin l => exact .of_lane (.of_beginWaiting s l)
  | sweepTimerExpiry => exact .of_timerExpires s
  | eligible => exact .of_admissionTick s
  | latenessLimit => exact .of_admissionTick s
  | removalSettle => exact .of_beginDueSettle s
  | completionReport => exact .of_handleCompletion s
  | tearRelease => exact .of_handleTearRelease s
  | drainEnd => exact .of_smon rfl

theorem SweepGoesOn.of_finishLoop (n : Nat) (s : State) : SweepGoesOn s (finishLoop n s) := by
  induction n generalizing s with
  | zero => exact .refl s
  | succ n ih =>
    cases hd : s.nextDue with
    | none =>
      rw [finishLoop_of_done _ hd]
      exact .refl s
    | some e =>
      rw [finishLoop_of_due _ hd]
      exact (SweepGoesOn.of_due s e).trans (ih _)

/-- The sweep timer's expiry is the first of the events due at an instant (log 4). -/
theorem State.nextDue_timer {s : State} (h : s.timerDue = true) : s.nextDue = some .sweepTimerExpiry :=
  List.find?_cons_of_pos h

/-- A command from outside finds heard the sweep request of an expiry that was due. -/
theorem State.settled_requested {s : State} (hr : s.engc.engine = .running) (hd : s.timerDue = true) :
    SweepRequested s s.settled := by
  have first : finishLoop instantBound s = finishLoop 127 s.timerExpires :=
    finishLoop_of_due 127 (State.nextDue_timer hd)
  have later : SweepGoesOn s.timerExpires (finishLoop instantBound s) := by
    rw [first]
    exact .of_finishLoop ..
  exact (State.timerExpires_requested hr).goesOn (later.trans (.of_smon rfl))

/-! ### CONTROL writes that leave ENABLE as it is, or set it -/

/-- A CONTROL write of these commands that resets nothing. -/
theorem State.control1_plain {s : State} {w : Word} (h : s.regp.resetLow = false) (hs : softResetBit w = false) :
    s.control1 w = (s.writeFields w).writeEnable w := s.controlWrite_plain w _ h hs

/-- The fields that a CONTROL write leaves whatever it does to ENABLE (11, R156). -/
theorem State.control1_fields {s : State} {w : Word} (h : s.regp.resetLow = false) (hs : softResetBit w = false) :
    (s.control1 w).mem = s.mem ∧ (s.control1 w).regp.area = s.regp.area ∧
      (s.control1 w).regp.tickdiv =
        (if s.engc.engine = .off ∧ (w.extractLsb' 2 3).toNat ≤ 4 then w.extractLsb' 2 3 else s.regp.tickdiv) ∧
      (s.control1 w).regp.sweep = w.extractLsb' 5 2 ∧
      (s.control1 w).tbu.timer = if w.extractLsb' 5 2 = s.regp.sweep then s.tbu.timer else 0 := by
  obtain ⟨hregp, hmem, -, htimer⟩ := (s.writeFields w).writeEnable_rest w
  obtain ⟨-, -, -, -, -, -, -, -, fmem, -, -, ftbu, fregp⟩ := s.writeFields_facts w
  rw [State.control1_plain h hs]
  refine ⟨hmem.trans fmem, ?_, ?_, ?_, htimer.trans (by rw [ftbu]; rfl)⟩ <;> rw [hregp, fregp] <;> rfl

/-- A write with ENABLE 1 leaves a sweep as it is, an enable request too (10, R140). -/
theorem State.writeEnable_goesOn {s : State} {w : Word} (h : enableBit w = true) :
    SweepGoesOn s (s.writeEnable w) := by
  have hc : ctlEnable w = true := h
  unfold State.writeEnable
  rw [if_pos hc]
  split
  · unfold State.enableRequest
    split <;> exact .of_flags rfl rfl rfl id
  · exact .refl s

/-- Elsewhere than in OFF a write with ENABLE 1 has no effect of its own (11, R156). -/
theorem State.writeEnable_kept {s : State} {w : Word} (h : enableBit w = true) (he : s.engc.engine ≠ .off) :
    s.writeEnable w = s := by
  have hc : ctlEnable w = true := h
  unfold State.writeEnable
  rw [if_pos hc, if_neg he]

/-- What a placed write meets beside memory: the fields that a write sets, and the epoch, as they were. -/
theorem State.met_fields (s : State) (early : Bool) : (s.met early).regp.resetLow = s.regp.resetLow ∧
    (s.met early).regp.sweep = s.regp.sweep ∧ (s.met early).tbu.epoch = s.tbu.epoch := by
  cases early
  · exact ⟨s.settled_resetLow, s.settled_sweep, s.settled_epoch⟩
  · exact ⟨rfl, rfl, rfl⟩

/-- Settles O18: the fields by `State.control1_fields`, on either side of the expiry; that the expiry's request has
been heard by `State.settled_requested`. -/
theorem tickdivAndSweepWritesTakeEffect : Obligations.TickdivAndSweepWritesTakeEffect := by
  refine ⟨fun s w hlow hs => ?_, fun s w early hlow hs => ?_, fun s w hlow hs hen hr hd => ?_⟩
  · obtain ⟨hmem, harea, hdiv, -⟩ := State.control1_fields (s := s.settled) (s.settled_resetLow.trans hlow) hs
    exact ⟨_, rfl, hmem.trans s.settled_mem, harea.trans s.settled_area, by rw [hdiv, s.settled_tickdiv]⟩
  · obtain ⟨mlow, msweep, -⟩ := s.met_fields early
    obtain ⟨hmem, -, -, hsweep, htimer⟩ := State.control1_fields (s := s.met early) (mlow.trans hlow) hs
    rw [msweep] at htimer
    have changed (hc : w.extractLsb' 5 2 ≠ s.regp.sweep) : ((s.met early).control1 w).tbu.timer = 0 :=
      htimer.trans (if_neg hc)
    have kept (hc : w.extractLsb' 5 2 = s.regp.sweep) :
        ((s.met early).control1 w).tbu.timer = (s.met early).tbu.timer := htimer.trans (if_pos hc)
    refine ⟨_, rfl, hsweep, hmem.trans (s.met_mem early), changed, ?_, ?_, ?_⟩
    · rintro hc rfl
      exact kept hc
    · rintro hc rfl
      exact kept hc
    · rintro rfl hen hr
      refine ⟨?_, fun hc => State.timerDue_of_restarted (changed hc)⟩
      obtain ⟨-, fengc, fsmon, -⟩ := s.writeFields_facts w
      show (s.control1 w).smon = s.smon
      rw [State.control1_plain hlow hs, State.writeEnable_kept hen (by rw [fengc, hr]; exact nofun), fsmon]
  · obtain ⟨-, -, fsmon, -⟩ := s.settled.writeFields_facts w
    refine ⟨s.settled.control1 w, rfl, (State.settled_requested hr hd).goesOn ?_⟩
    rw [State.control1_plain (s.settled_resetLow.trans hlow) hs]
    exact (SweepGoesOn.of_smon fsmon).trans (State.writeEnable_goesOn hen)

end Sys2Proof.Machine
end

section
/-! Writes with ENABLE 0, by the engine state that they find, and the entry to DRAINING (10, R145 to R147, R150; 11,
R156; 04, R63; 05, R80). -/

namespace Sys2Proof.Machine

/-! ### Entry to DRAINING (10, R146, R147) -/

theorem Piece.ofSweep_eq_false_iff (p : Piece) :
    p.ofSweep = false ↔ p ≠ .config ∧ p ≠ .closing ∧ ∀ k, p ≠ .visit k := by
  cases p <;> simp [Piece.ofSweep]

/-- Removing entries takes them off the queue. -/
theorem mem_haltEntries_queue (q : List Entry) (s : State) (e : Entry) :
    e ∈ (haltEntries q s).admu.queue ↔ e ∈ s.admu.queue ∧ ∀ x ∈ q, e.slot ≠ x.slot := by
  induction q generalizing s with
  | nil => simp [haltEntries]
  | cons a q ih =>
    have removed : e ∈ (s.removeAs a.slot .halted).admu.queue ↔ e ∈ s.admu.queue ∧ e.slot ≠ a.slot :=
      mem_withoutSlot ..
    rw [haltEntries, ih, removed, List.forall_mem_cons, and_assoc]

/-- Each removal makes a settle ready behind what waits. -/
theorem haltEntries_waiting (q : List Entry) (s : State) : ∃ notify : List Bool, notify.length = q.length ∧
    (haltEntries q s).smon.waiting =
      s.smon.waiting ++ List.zipWith (fun e n => .removal e.slot .halted n) q notify := by
  induction q generalizing s with
  | nil => exact ⟨[], rfl, (List.append_nil _).symm⟩
  | cons e q ih =>
    obtain ⟨notify, hl, hw⟩ := ih (s.removeAs e.slot .halted)
    refine ⟨s.entryNotify e.slot :: notify, congrArg (· + 1) hl, hw.trans ?_⟩
    show s.smon.waiting ++ [_] ++ _ = _
    rw [List.append_assoc]
    rfl

/-- What waits for SMON on entry to DRAINING: nothing, or a settle or report from before, or a removal. -/
theorem State.beginDrain_waiting (s : State) :
    (haltEntries s.admu.queue s.beginDrain).smon.waiting = [] ↔
      s.admu.queue = [] ∧ ∀ p ∈ s.smon.waiting, p.ofSweep = true := by
  obtain ⟨notify, hl, hw⟩ := haltEntries_waiting s.admu.queue s.beginDrain
  have before : s.beginDrain.smon.waiting = s.smon.waiting.filter (fun p => !p.ofSweep) := rfl
  have removals : List.zipWith (fun (e : Entry) n => Piece.removal e.slot .halted n) s.admu.queue notify = [] ↔
      s.admu.queue = [] := by
    rw [← List.length_eq_zero_iff, List.length_zipWith, hl, Nat.min_self, List.length_eq_zero_iff]
  rw [hw, List.append_eq_nil_iff, before, removals, List.filter_eq_nil_iff, and_comm]
  simp

/-- Whether the drain that begins is over at once. -/
theorem State.drainDone_onEntry (s : State) : (haltEntries s.admu.queue s.beginDrain).drainDone = true ↔
    (∀ l : LaneId, s.admu.pool[l] = true) ∧ s.admu.queue = [] ∧ s.smon.piece = none ∧ s.smon.counts = [] ∧
      ∀ p ∈ s.smon.waiting, p.ofSweep = true := by
  obtain ⟨-, -, hengc, -, -, -, -, hpool, -, -, hpiece, hcounts, -⟩ := haltEntries_rest s.admu.queue s.beginDrain
  have emptied : (haltEntries s.admu.queue s.beginDrain).admu.queue = [] := by
    refine List.eq_nil_iff_forall_not_mem.mpr fun e he => ?_
    obtain ⟨hmem, hne⟩ := (mem_haltEntries_queue ..).mp he
    exact hne e hmem rfl
  have draining : (haltEntries s.admu.queue s.beginDrain).engc.engine = .draining := by rw [hengc]; rfl
  have pool : s.beginDrain.admu.pool = s.admu.pool := rfl
  have piece : s.beginDrain.smon.piece = s.smon.piece := rfl
  have counts : s.beginDrain.smon.counts = s.smon.counts := rfl
  rw [State.drainDone_iff, s.beginDrain_waiting, hpool, hpiece, hcounts, pool, piece, counts]
  simp only [emptied, draining, true_and]
  exact ⟨fun ⟨hpool, hpiece, ⟨hqueue, hwaiting⟩, hcounts⟩ => ⟨hpool, hqueue, hpiece, hcounts, hwaiting⟩,
    fun ⟨hpool, hqueue, hpiece, hcounts, hwaiting⟩ => ⟨hpool, hpiece, ⟨hqueue, hwaiting⟩, hcounts⟩⟩

/-- A drain that begins goes on where a plan is queued or on a lane, or SMON has work but waiting sweep pieces (10,
R147). -/
theorem State.enterDraining_draining_iff (s : State) : s.enterDraining.engc.engine = .draining ↔
    (∃ l : LaneId, s.admu.pool[l] = false) ∨ s.admu.queue ≠ [] ∨ s.smon.piece ≠ none ∨ s.smon.counts ≠ [] ∨
      ∃ p ∈ s.smon.waiting, p ≠ .config ∧ p ≠ .closing ∧ ∀ k, p ≠ .visit k := by
  obtain ⟨-, -, hengc, -⟩ := haltEntries_rest s.admu.queue s.beginDrain
  have goesOn : s.enterDraining.engc.engine = .draining ↔
      ¬ (haltEntries s.admu.queue s.beginDrain).drainDone = true := by
    unfold State.enterDraining
    dsimp only
    split
    · rename_i done
      exact ⟨fun h => (by cases h), fun h => absurd done h⟩
    · rename_i hn
      exact ⟨fun _ => hn, fun _ => by rw [hengc]; rfl⟩
  rw [goesOn, State.drainDone_onEntry]
  simp only [← Piece.ofSweep_eq_false_iff, Classical.not_and_iff_not_or_not, Classical.not_forall,
    Bool.not_eq_true, ne_eq, exists_prop]

/-! ### A write with ENABLE 0 (11, R156) -/

/-- What a CONTROL write with ENABLE 0 leaves in every engine state. -/
theorem State.writeEnable_cleared {s : State} {w : Word} (h : enableBit w = false) :
    (s.writeEnable w).tbu.epoch = s.tbu.epoch ∧ (s.writeEnable w).regp.cause = s.regp.cause ∧
      (s.writeEnable w).engc.faultCode = s.engc.faultCode := by
  have hc : ¬ ctlEnable w = true := Bool.eq_false_iff.1 h
  unfold State.writeEnable
  rw [if_neg hc]
  split
  case h_3 =>
    obtain ⟨hregp, hepoch, -, hfault, -⟩ := s.enterDraining_rest
    exact ⟨hepoch, by rw [hregp], hfault⟩
  case h_2 => split <;> exact ⟨rfl, rfl, rfl⟩
  all_goals exact ⟨rfl, rfl, rfl⟩

section Cleared
variable {s : State} {w : Word} (h : enableBit w = false)
include h

theorem State.writeEnable_idle (he : s.engc.engine = .off ∨ s.engc.engine = .draining) : s.writeEnable w = s := by
  have hc : ¬ ctlEnable w = true := Bool.eq_false_iff.1 h
  unfold State.writeEnable
  rw [if_neg hc]
  rcases he with he | he <;> rw [he]

theorem State.writeEnable_stalled (he : s.engc.engine = .stalled) : s.writeEnable w = s.leaveStalled := by
  have hc : ¬ ctlEnable w = true := Bool.eq_false_iff.1 h
  unfold State.writeEnable
  rw [if_neg hc, he]

theorem State.writeEnable_loading {x : Loading} (he : s.engc.engine = .loading) (hx : s.engc.loading = some x) :
    s.writeEnable w =
      ({ s with regp := { s.regp with enable := false } }).setLoading { x with stopping := true } := by
  have hc : ¬ ctlEnable w = true := Bool.eq_false_iff.1 h
  unfold State.writeEnable
  rw [if_neg hc, he]
  dsimp only
  rw [hx]

theorem State.writeEnable_running (he : s.engc.engine = .running) : s.writeEnable w = s.enterDraining := by
  have hc : ¬ ctlEnable w = true := Bool.eq_false_iff.1 h
  unfold State.writeEnable
  rw [if_neg hc, he]

end Cleared

/-- What a DISABLE meets: the register fields and the epoch as they were. -/
theorem State.metBy_disable_fields (s : State) (w : PlacedWrite) :
    (s.metBy (.disable w)).regp.resetLow = s.regp.resetLow ∧ (s.metBy (.disable w)).tbu.epoch = s.tbu.epoch ∧
      (s.metBy (.disable w)).regp.area = s.regp.area := by
  obtain ⟨hlow, -, hepoch⟩ := s.met_fields w.early
  exact ⟨hlow, hepoch, (s.metBy_keeps _).1⟩

/-- Settles O20: by the engine state that the write finds, `State.writeEnable`'s cases on the state that the other
fields leave. -/
theorem disableByEngineState : Obligations.DisableByEngineState := by
  intro s m w hm hlow hen hs
  obtain ⟨mlow, mepoch, marea⟩ := s.metBy_disable_fields w
  have mmem := s.metBy_disable_mem w
  rw [← hm] at mlow mepoch marea mmem
  have run : exec (.disable w) s = .next ((m.writeFields w.word).writeEnable w.word) := by
    rw [← State.control1_plain (mlow.trans hlow) hs, hm]
    rfl
  obtain ⟨hmem, harea, -⟩ := State.control1_fields (mlow.trans hlow) hs
  rw [State.control1_plain (mlow.trans hlow) hs] at hmem harea
  obtain ⟨-, fengc, fsmon, fadmu, -, -, foutd, fmport, -, -, -, ftbu, fregp⟩ := m.writeFields_facts w.word
  have fengine : (m.writeFields w.word).engc.engine = m.engc.engine := by rw [fengc]
  obtain ⟨hepoch, hcause, hfault⟩ := State.writeEnable_cleared (s := m.writeFields w.word) hen
  rw [ftbu] at hepoch
  rw [fregp] at hcause
  rw [fengc] at hfault
  refine ⟨_, run, hmem.trans mmem, hmem.symm, hepoch.trans mepoch, harea.trans marea, hcause, hfault,
    fun he => ?_, fun he => ?_, fun x he hx => ?_, fun he => ?_⟩
  · rw [State.writeEnable_idle hen (fengine ▸ he)]
    exact ⟨fengc, by rw [fregp], foutd⟩
  · rw [State.writeEnable_stalled hen (fengine.trans he)]
    exact ⟨rfl, rfl, foutd, fmport⟩
  · rw [State.writeEnable_loading hen (fengine.trans he) (by rw [fengc]; exact hx)]
    exact ⟨fengine.trans he, rfl, rfl, fmport⟩
  · have goesOn := (m.writeFields w.word).enterDraining_draining_iff
    obtain ⟨hregp, -, -, -, hengine, -⟩ := (m.writeFields w.word).enterDraining_rest
    rw [fsmon, fadmu] at goesOn
    rw [State.writeEnable_running hen (fengine.trans he)]
    exact ⟨hengine, by rw [hregp], goesOn⟩

end Sys2Proof.Machine
end

section
/-! The tick boundary: what its acts leave alone, each act by the unit that it names, and what the boundary itself does
to the counters of running steps and to the input lines (03, R38 to R40, R44, R45; 05, R69, R76, R78; 06, R87, R95,
R98; 07, R103, R104). -/

namespace Sys2Proof.Machine

/-! ### What the acts of a boundary leave alone -/

/-- The lane is in use and holds no flag, so that no act of a boundary is meant for it. -/
structure State.Undisturbed (s : State) (l : LaneId) : Prop where
  busy : s.admu.pool[l] = false
  tear : (s.lane l).tear = false
  recalled : (s.lane l).recallFlag = false
  halted : (s.lane l).halt = false

/-- What the acts of a boundary leave alone: the register port, the epoch, Engine Control, the inputs, memory and the
lanes that hold no flag; the timer too where `quiet` holds. -/
structure BoundaryFrame (quiet : Prop) (s t : State) : Prop where
  regp : t.regp = s.regp
  epoch : t.tbu.epoch = s.tbu.epoch
  timer : quiet → t.tbu.timer = s.tbu.timer
  engc : t.engc = s.engc
  inc : t.inc = s.inc
  mem : t.mem = s.mem
  lanes : ∀ l : LaneId, s.Undisturbed l → t.lane l = s.lane l ∧ t.admu.pool[l] = false

theorem BoundaryFrame.refl (quiet : Prop) (s : State) : BoundaryFrame quiet s s :=
  ⟨rfl, rfl, fun _ => rfl, rfl, rfl, rfl, fun _ h => ⟨rfl, h.busy⟩⟩

theorem BoundaryFrame.undisturbed {quiet : Prop} {s t : State} (h : BoundaryFrame quiet s t) {l : LaneId}
    (hl : s.Undisturbed l) : t.Undisturbed l := by
  obtain ⟨same, busy⟩ := h.lanes l hl
  exact ⟨busy, same ▸ hl.tear, same ▸ hl.recalled, same ▸ hl.halted⟩

theorem BoundaryFrame.trans {quiet : Prop} {s t u : State} (h : BoundaryFrame quiet s t)
    (g : BoundaryFrame quiet t u) : BoundaryFrame quiet s u where
  regp := g.regp.trans h.regp
  epoch := g.epoch.trans h.epoch
  timer := fun q => (g.timer q).trans (h.timer q)
  engc := g.engc.trans h.engc
  inc := g.inc.trans h.inc
  mem := g.mem.trans h.mem
  lanes := fun l hl => by
    obtain ⟨same, -⟩ := h.lanes l hl
    obtain ⟨same', busy⟩ := g.lanes l (h.undisturbed hl)
    exact ⟨same'.trans same, busy⟩

/-- What stays where more is asked to be quiet. -/
theorem BoundaryFrame.mono {quiet more : Prop} {s t : State} (h : BoundaryFrame quiet s t) (hq : more → quiet) :
    BoundaryFrame more s t := { h with timer := fun q => h.timer (hq q) }

section Acts
variable {quiet : Prop}

/-- An event of one lane that holds a flag. -/
theorem BoundaryFrame.of_onlyLane {s t : State} {l : LaneId} (h : OnlyLane s t l) (hl : ¬ s.Undisturbed l) :
    BoundaryFrame quiet s t where
  regp := h.regp
  epoch := by rw [h.tbu]
  timer := fun _ => by rw [h.tbu]
  engc := h.engc
  inc := h.inc
  mem := h.mem
  lanes := fun k hk => by
    rw [h.admu]
    exact ⟨h.others k (fun e => hl (e ▸ hk)), hk.busy⟩

theorem BoundaryFrame.of_walk (s : State) : BoundaryFrame quiet s s.walk := by
  obtain ⟨h, -⟩ := s.walk_frame
  exact ⟨h.regp, by rw [h.tbu], fun _ => by rw [h.tbu], h.engc, h.inc, h.mem, fun l hl => h.busy l hl.busy⟩

theorem BoundaryFrame.of_removeAs (s : State) (k : SlotId) (why : Removal) :
    BoundaryFrame quiet s (s.removeAs k why) :=
  ⟨rfl, rfl, fun _ => rfl, rfl, rfl, rfl, fun _ hl => ⟨rfl, hl.busy⟩⟩

theorem BoundaryFrame.of_lateAll (n : Nat) (s : State) : BoundaryFrame quiet s (lateAll n s) := by
  induction n generalizing s with
  | zero => exact .refl _ s
  | succ n ih =>
    unfold lateAll
    split
    · exact .refl _ s
    · refine BoundaryFrame.trans ?_ (ih _)
      unfold State.lateEntry
      dsimp only
      split
      · exact ((BoundaryFrame.of_walk s).trans (.of_removeAs ..)).trans (.of_walk _)
      · exact .of_walk s

theorem BoundaryFrame.of_admissionTick (s : State) : BoundaryFrame quiet s s.admissionTick := by
  unfold State.admissionTick
  dsimp only
  refine BoundaryFrame.trans ?_ (.of_lateAll ..)
  split
  · unfold State.makeEligible
    refine BoundaryFrame.trans ?_ (.of_walk _)
    exact ⟨rfl, rfl, fun _ => rfl, rfl, rfl, rfl, fun _ hl => ⟨rfl, hl.busy⟩⟩
  · exact .refl _ s

/-- A torn lane stops. -/
theorem BoundaryFrame.of_tearStop (s : State) (l : LaneId) : BoundaryFrame quiet s (s.tearStop l) := by
  unfold State.tearStop
  extract_lets x kept
  clear_value kept
  split
  · rename_i hc
    have torn : (s.lane l).tear = true := (Bool.and_eq_true_iff.mp hc).1
    refine BoundaryFrame.trans ?_ (.of_walk _)
    refine ⟨rfl, rfl, fun _ => rfl, rfl, rfl, rfl, fun k hk => ⟨?_, hk.busy⟩⟩
    exact State.setLane_other s l k _ (fun e => absurd hk.tear (by rw [← e, torn]; exact nofun))
  · exact .refl _ s

/-- A torn lane goes FREE. -/
theorem BoundaryFrame.of_tearFinish (s : State) (l : LaneId) (torn : (s.lane l).tear = true) :
    BoundaryFrame quiet s (s.tearFinish l) := by
  unfold State.tearFinish
  dsimp only
  split
  · refine BoundaryFrame.trans ?_ (.of_walk _)
    refine ⟨rfl, rfl, fun _ => rfl, rfl, rfl, rfl, fun k hk => ?_⟩
    have other : l ≠ k := fun e => absurd hk.tear (by rw [← e, torn]; exact nofun)
    exact ⟨State.setLane_other s l k _ other, (vectorSet_other s.admu.pool l k true other).trans hk.busy⟩
  · exact .refl _ s

end Acts

/-! ### The acts, by the unit that each names -/

section LaneActs
variable {s : State} {l : LaneId}

theorem State.boundaryAct_torn (h : (s.lane l).tear = true) : s.boundaryAct (.lane l) = s.tearStop l := if_pos h

theorem State.boundaryAct_flagged (ht : (s.lane l).tear = false)
    (hf : (s.lane l).recallFlag = true ∨ (s.lane l).halt = true)
    (hs : (s.lane l).state = .loading ∨ (s.lane l).state = .stepping) :
    s.boundaryAct (.lane l) = s.flaggedBoundary l := by
  show s.boundaryLane l = _
  unfold State.boundaryLane
  simp [ht, hf, hs]

theorem State.boundaryAct_unflagged (ht : (s.lane l).tear = false)
    (h : ((s.lane l).recallFlag = false ∧ (s.lane l).halt = false) ∨
      ((s.lane l).state ≠ .loading ∧ (s.lane l).state ≠ .stepping)) : s.boundaryAct (.lane l) = s := by
  show s.boundaryLane l = _
  unfold State.boundaryLane
  rcases h with ⟨hr, hh⟩ | ⟨hl, hs⟩
  · simp [ht, hr, hh]
  · simp [ht, hl, hs]

theorem State.boundaryAct_frees (h : (s.lane l).tear = true) : s.boundaryAct (.laneFree l) = s.tearFinish l :=
  if_pos h

theorem State.boundaryAct_keeps (h : (s.lane l).tear = false) : s.boundaryAct (.laneFree l) = s :=
  if_neg (Bool.eq_false_iff.1 h)

end LaneActs

theorem State.boundaryAct_expires {s : State} (h : s.timerDue = true) : s.boundaryAct .timer = s.timerExpires :=
  if_pos h

theorem State.boundaryAct_counts {s : State} (h : s.timerDue = false) : s.boundaryAct .timer = s :=
  if_neg (Bool.eq_false_iff.1 h)

/-- With no lateness limit reached there is none to handle. -/
theorem lateAll_of_none (n : Nat) {s : State} (h : s.firstLate = none) : lateAll n s = s := by
  cases n with
  | zero => rfl
  | succ n => unfold lateAll; rw [h]

/-- Outside RUNNING ADMU has no event at a boundary (05, R69). -/
theorem State.admissionTick_idle {s : State} (h : s.engc.engine ≠ .running) : s.admissionTick = s := by
  have noTest : s.eligibleDue = false := by simp [State.eligibleDue, h]
  unfold State.admissionTick
  rw [noTest]
  exact lateAll_of_none _ (if_neg h)

/-- What one act of a boundary leaves alone. -/
theorem State.boundaryAct_frame (s : State) (a : Actor) : BoundaryFrame (a ≠ .timer) s (s.boundaryAct a) := by
  cases a with
  | lane l =>
    cases ht : (s.lane l).tear with
    | true =>
      rw [State.boundaryAct_torn ht]
      exact .of_tearStop s l
    | false =>
      by_cases hf : ((s.lane l).recallFlag = true ∨ (s.lane l).halt = true) ∧
          ((s.lane l).state = .loading ∨ (s.lane l).state = .stepping)
      · rw [State.boundaryAct_flagged ht hf.1 hf.2]
        refine .of_onlyLane (.of_flaggedBoundary s l) fun hl => ?_
        simpa [hl.recalled, hl.halted] using hf.1
      · rw [State.boundaryAct_unflagged ht ((Classical.not_and_iff_not_or_not.mp hf).imp (by simp) (by simp))]
        exact .refl _ s
  | laneFree l =>
    cases ht : (s.lane l).tear with
    | true =>
      rw [State.boundaryAct_frees ht]
      exact .of_tearFinish s l ht
    | false =>
      rw [State.boundaryAct_keeps ht]
      exact .refl _ s
  | admission => exact .of_admissionTick s
  | timer =>
    cases hd : s.timerDue with
    | false =>
      rw [State.boundaryAct_counts hd]
      exact .refl _ s
    | true =>
      rw [State.boundaryAct_expires hd]
      have work := s.timerExpires_work.1
      exact ⟨work.regp, by rw [work.tbu], fun h => absurd rfl h, work.engc, work.inc, work.mem,
        fun l hl => ⟨State.lane_of_lanes work.lanes l, by rw [work.admu]; exact hl.busy⟩⟩

theorem foldl_boundaryFrame (acts : List Actor) (s : State) :
    BoundaryFrame (.timer ∉ acts) s (acts.foldl State.boundaryAct s) := by
  induction acts generalizing s with
  | nil => exact .refl _ s
  | cons a acts ih =>
    exact ((s.boundaryAct_frame a).mono fun h e => h (e ▸ List.mem_cons_self)).trans
      ((ih _).mono fun h e => h (List.mem_cons_of_mem _ e))

/-! ### What the boundary itself does (03, R38, R39, R44, R45; 07, R103) -/

theorem State.openBoundary_lane (s : State) (p : Byte) (l : LaneId) :
    (s.openBoundary p).lane l = (s.lane l).tick := tabulate4_get _ l

theorem timerTick_eq (sweep : BitVec 2) (timer : Nat) :
    timerTick sweep timer = if sweep = 0 then 0 else timer + 1 := by
  unfold timerTick
  simp only [sweepPeriod_eq_zero_iff]

theorem Inputs.sampleAll_facts (now : Word) (pins : Byte) (x : Inputs) :
    (x.sampleAll now pins).pins = pins ∧ (x.sampleAll now pins).sampling = x.sampling ∧
      (x.sampling = false → (x.sampleAll now pins).lines = x.lines) ∧
      (x.sampling = true → ∀ i : InLine,
        (x.sampleAll now pins).lines[i] = (x.lines[i]).sample now (pins.getLsbD i.val)) := by
  unfold Inputs.sampleAll
  split
  · rename_i hs
    exact ⟨rfl, rfl, fun h => absurd hs (Bool.eq_false_iff.1 h), fun _ i => tabulate8_get _ i⟩
  · rename_i hs
    exact ⟨rfl, rfl, fun _ => rfl, fun h => absurd h hs⟩

/-- The run-length filter on one sample (07, R104). -/
theorem InputLine.sample_facts (now : Word) (level : Bool) (x : InputLine) :
    (level = x.accepted → x.sample now level = { x with run := 0 }) ∧
      (level ≠ x.accepted → x.run = 0 → x.sample now level = { x with run := 1, runStart := now }) ∧
      (level ≠ x.accepted → x.run ≠ 0 → x.sample now level = { x with run := x.run + 1 }) := by
  unfold InputLine.sample
  exact ⟨fun h => if_pos h, fun h h0 => by rw [if_neg h, if_pos h0], fun h h0 => by rw [if_neg h, if_neg h0]⟩

/-- The run lengths of the five filter codes (01, R6). -/
theorem filterLength_of_le {code : Byte} (h : code.toNat ≤ 4) :
    filterLength code = [1, 2, 4, 8, 16].getD code.toNat 0 := by
  unfold filterLength
  generalize code.toNat = n at h
  match n, h with
  | 0, _ | 1, _ | 2, _ | 3, _ | 4, _ => rfl

/-! ### The counters of a running step (03, R44) -/

theorem Lane.tickWindow_eq (x : Lane) :
    x.tickWindow = { x with
      windowCounter := if x.windowOf = 0 then x.windowCounter else saturate x.windowCounter } := by
  unfold Lane.tickWindow
  split <;> rfl

/-- The activity once a boundary has come: a waiting step may begin at it (06, R87). -/
def Activity.atBoundary : Activity → Activity
  | .wait k skip _ => .wait k skip true
  | a => a

/-- The step counts the ticks waited, its gate or its phase (07, R112, R115; 08, R125, R128). -/
def Activity.countsTicks : Activity → Bool
  | .hold | .edge | .tally _ | .pulse _ _ => true
  | _ => false

/-- The step counts a span between edges (07, R114, R117). -/
def Activity.countsSpan : Activity → Bool
  | .widthLeave _ | .period _ _ _ => true
  | _ => false

/-- The step has a window, where one is set (06, R94). -/
def Activity.hasWindow : Activity → Bool
  | .edge | .widthEnter | .widthLeave _ | .periodFirst | .period _ _ _ => true
  | _ => false

/-- What a boundary does to a lane: its marks, what it waits for, and the counters of its running step (03, R44). -/
theorem Lane.tick_eq (x : Lane) :
    x.tick = { x with
      fresh := false
      loadDue := x.loaded
      activity := x.activity.atBoundary
      counter := if x.activity.countsTicks then saturate x.counter else x.counter
      spanCounter := if x.activity.countsSpan then saturate x.spanCounter else x.spanCounter
      windowCounter := if x.activity.hasWindow then
          if x.windowOf = 0 then x.windowCounter else saturate x.windowCounter
        else x.windowCounter } := by
  unfold Lane.tick
  simp only [Lane.tickWindow_eq]
  cases x.activity <;> rfl

theorem Activity.atBoundary_of_ne {a : Activity} (h : ∀ k skip due, a ≠ .wait k skip due) : a.atBoundary = a := by
  cases a with
  | wait k skip due => exact absurd rfl (h k skip due)
  | _ => rfl

theorem Lane.tick_flags (x : Lane) :
    x.tick.tear = x.tear ∧ x.tick.recallFlag = x.recallFlag ∧ x.tick.halt = x.halt := by
  rw [x.tick_eq]
  exact ⟨rfl, rfl, rfl⟩

theorem saturate_eq (c : Word) : saturate c = if c = 0xFFFFFFFF#32 then 0xFFFFFFFF#32 else c + 1 := by
  unfold saturate
  split
  · assumption
  · rfl

/-- The boundary leaves undisturbed a lane that was so. -/
theorem State.openBoundary_undisturbed {s : State} {l : LaneId} (h : s.Undisturbed l) (p : Byte) :
    (s.openBoundary p).Undisturbed l := by
  obtain ⟨tear, recalled, halted⟩ := (s.lane l).tick_flags
  refine ⟨h.busy, ?_, ?_, ?_⟩ <;> rw [State.openBoundary_lane]
  · exact tear.trans h.tear
  · exact recalled.trans h.recalled
  · exact halted.trans h.halted

theorem exec_tickBoundary {s : State} (x : TickInput) (h : s.settled.ticking = true) :
    exec (.tickBoundary x) s = .next (s.settled.boundary x) := congrArg Host.Outcome.next (if_pos h)

/-- The sweep timer's act at a boundary of RUNNING is a sweep request. -/
theorem State.boundaryAct_timer_running {s : State} (hd : s.timerDue = true) (hr : s.engc.engine = .running) :
    SweepRequested s (s.boundaryAct .timer) ∧
      OnlyWork { s with tbu := { s.tbu with timer := 0 } } (s.boundaryAct .timer) := by
  rw [State.boundaryAct_expires hd]
  exact ⟨State.timerExpires_requested hr, s.timerExpires_work⟩

/-- Settles O22: the boundary's own changes are kept by its acts (`foldl_boundaryFrame`), and each act is its unit's. -/
theorem tickBoundaryAdvancesEpochAndSamples : Obligations.TickBoundaryAdvancesEpochAndSamples := by
  refine ⟨fun s x => ⟨fun ht => ⟨exec_tickBoundary x ht, _, exec_tickBoundary x ht, ?_⟩, fun ht => ?_⟩,
    fun s l => ⟨State.boundaryAct_torn, State.boundaryAct_flagged, State.boundaryAct_unflagged,
      State.boundaryAct_frees, State.boundaryAct_keeps⟩,
    fun s => ⟨s.admissionTick_taken, State.admissionTick_idle⟩, fun s => ⟨State.boundaryAct_counts, ?_, ?_⟩,
    fun x => ⟨_, _, _, _, x.tick_eq, fun k skip due h => by rw [h]; rfl, Activity.atBoundary_of_ne, ?_, ?_, ?_⟩,
    saturate_eq, fun now level x => ?_⟩
  · have acts := foldl_boundaryFrame (x.order ++ allLanes.map Actor.lane ++ allLanes.map Actor.laneFree)
      (s.settled.openBoundary x.pins)
    obtain ⟨pins, sampling, still, sampled⟩ :=
      s.settled.inc.sampleAll_facts (s.settled.tbu.epoch + 1) x.pins
    have inc : (s.settled.boundary x).inc = s.settled.inc.sampleAll (s.settled.tbu.epoch + 1) x.pins := acts.inc
    rw [inc, ← s.settled_epoch]
    refine ⟨acts.epoch, fun hq => ?_, pins, sampling, still, sampled, acts.mem.trans s.settled_mem, acts.regp,
      acts.engc, fun l hp htear hrecall hhalt => ?_⟩
    · have quiet : .timer ∉ x.order ++ allLanes.map Actor.lane ++ allLanes.map Actor.laneFree := by
        simpa [allLanes] using hq
      rw [← s.settled_sweep, ← timerTick_eq]
      exact acts.timer quiet
    · obtain ⟨same, -⟩ := acts.lanes l (State.openBoundary_undisturbed ⟨hp, htear, hrecall, hhalt⟩ x.pins)
      exact same.trans (State.openBoundary_lane ..)
  · exact congrArg Host.Outcome.next (if_neg (Bool.eq_false_iff.1 ht))
  · intro hd hr
    rw [State.boundaryAct_expires hd, State.timerExpires_idle hr]
  · intro hd hr
    obtain ⟨requested, only, mirror⟩ := State.boundaryAct_timer_running hd hr
    exact ⟨requested, only.tbu, only.engc, mirror, only.admu, only.lanes, only.mem⟩
  · cases x.activity <;> rfl
  · cases x.activity <;> rfl
  · by_cases hw : x.windowOf = 0
    · rw [if_pos hw, if_pos hw, ite_self]
    · rw [if_neg hw, if_neg hw]
      cases x.activity <;> rfl
  · obtain ⟨falls, starts, grows⟩ := x.sample_facts now level
    exact ⟨falls, starts, grows, filterLength_of_le⟩

end Sys2Proof.Machine
end

section
/-! ADMU's event for a tick boundary as its two commands take it, SMON's configuration check, and the lanes' reports to
SMON (05, R66, R69, R75, R76; 04, R47 to R50, R58 to R60, R63). -/

namespace Sys2Proof.Machine

/-! ### ADMU's event for a tick boundary (05, R66, R75, R76) -/

/-- An eligibility test is due where an entry that waits has its start_epoch reached. -/
theorem State.eligibleDue_iff (s : State) : s.eligibleDue = true ↔ s.engc.engine = .running ∧
    ∃ e ∈ s.admu.queue, e.eligible = false ∧ eligibleAt s.tbu.epoch e.posting = true := by
  unfold State.eligibleDue State.epoch
  simp

/-- In RUNNING a lateness limit is due where an entry has its limit reached. -/
theorem State.firstLate_ne_none_iff {s : State} (hr : s.engc.engine = .running) : s.firstLate ≠ none ↔
    ∃ e ∈ s.admu.queue, latenessReached s.tbu.epoch e.posting = true := by
  constructor
  · intro h
    obtain ⟨k, hk⟩ := Option.ne_none_iff_exists'.mp h
    obtain ⟨-, e, he, -, hl⟩ := State.firstLate_mem hk
    exact ⟨e, he, hl⟩
  · rintro ⟨e, he, hl⟩ hn
    rw [State.firstLate_none hn hr e he] at hl
    cases hl

theorem exec_eligible {s : State} (h : s.eligibleDue = true) : exec .eligible s = .next s.admissionTick :=
  congrArg Host.Outcome.next (State.runDue_due (e := .eligible) h)

theorem exec_latenessLimit {s : State} {k : SlotId} (h : s.firstLate = some k) :
    exec .latenessLimit s = .next s.admissionTick :=
  congrArg Host.Outcome.next (State.runDue_due (e := .latenessLimit) (Option.isSome_of_eq_some h))

@[simp] theorem State.makeEligible_tbu (s : State) : s.makeEligible.tbu = s.tbu :=
  (State.walk_frame (s.setQueue _)).1.tbu

@[simp] theorem lateAll_tbu (n : Nat) (s : State) : (lateAll n s).tbu = s.tbu := by
  induction n generalizing s with
  | zero => rfl
  | succ n ih =>
    unfold lateAll
    split
    · rfl
    · rename_i k _
      exact (ih _).trans (State.lateEntry_frame (single := False) s k nofun nofun).1.tbu

/-- ADMU's event moves no time. -/
@[simp] theorem State.admissionTick_tbu (s : State) : s.admissionTick.tbu = s.tbu := by
  unfold State.admissionTick
  rw [lateAll_tbu]
  split
  · exact s.makeEligible_tbu
  · rfl

@[simp] theorem State.admissionTick_mem (s : State) : s.admissionTick.mem = s.mem :=
  (congrArg Outside.mem s.admissionTick_outside :)

/-- The slot of an entry whose limit is reached is RUNNING or waits LATE once ADMU has taken its event: the entry
cannot have stayed, since its limit would still be reached. -/
theorem State.admissionTick_late {s : State} {k : SlotId} (h : s.firstLate = some k) :
    (s.admissionTick.mirror k).state = .running ∨ (s.admissionTick.mirror k).pendingOutcome = some .late := by
  obtain ⟨hr, e, he, rfl, hl⟩ := State.firstLate_mem h
  obtain ⟨-, inTime, leaves⟩ := s.admissionTick_taken hr
  rcases leaves e he with stays | runs | ⟨late, -⟩
  · have early := inTime _ stays
    exact absurd hl (Bool.eq_false_iff.1 early)
  · exact .inl runs
  · exact .inr late

/-- Settles O35: both commands take `State.admissionTick`, which `State.admissionTick_taken` describes. -/
theorem eligibleAndLatenessTestsTakeEffect : Obligations.EligibleAndLatenessTestsTakeEffect := by
  refine ⟨fun s hd => ?_, fun s k hk => ?_, fun s hr => ⟨?_, State.firstLate_ne_none_iff hr⟩⟩
  · obtain ⟨hr, -⟩ := s.eligibleDue_iff.mp hd
    exact ⟨_, exec_eligible hd, s.admissionTick_tbu, s.admissionTick_mem, s.admissionTick_taken hr⟩
  · obtain ⟨hr, -⟩ := State.firstLate_mem hk
    exact ⟨_, exec_latenessLimit hk, s.admissionTick_tbu, s.admissionTick_mem, s.admissionTick_taken hr,
      State.admissionTick_late hk⟩
  · rw [State.eligibleDue_iff]
    exact and_iff_right hr

/-! ### CONFIGURATION_CHECK (04, R48, R50, R63) -/

theorem State.configReturned_failed (s : State) (w : Word) : s.configReturned true w = s.smonFault .readErr := rfl

theorem State.configReturned_same {s : State} {w : Word} (h : configSeq w = s.smon.counters.ackCopy) :
    s.configReturned false w = s.endPiece := if_pos h

theorem State.configReturned_changed {s : State} {p : Piece} {w0 : Work} {w : Word}
    (hp : s.smon.piece = some (p, w0)) (h : configSeq w ≠ s.smon.counters.ackCopy) :
    s.configReturned false w = s.goOn p (.reload (configSeq w) []) .lineTable (s.lineTableAddr 0) none := by
  have differs : s.configReturned false w =
      (s.setWork (.reload (configSeq w) [])).raise .lineTable (s.lineTableAddr 0) none := if_neg h
  rw [differs, State.setWork_of_piece hp]
  rfl

/-- What CONFIGURATION_CHECK does with the access that it brings back. -/
theorem exec_configurationCheck {s : State} {r : BusReturn} {req : Request} {rest : List Request}
    (hr : Returns s r req rest) (ha : req.access = .config) :
    exec (.configurationCheck r) s =
      .next ((s.afterReturn r req rest).configReturned (replyFailed r.reply) (s.wordReturned r req rest)) :=
  congrArg Host.Outcome.next (State.busEvent_of_returns _ hr (by simp [ha]))

/-- In RUNNING the visit of slot 0 becomes ready after the configuration check (04, R48). -/
theorem State.readyAfter_config {s : State} (hr : s.engc.engine = .running) :
    s.readyAfter .config = s.ready (.visit 0) := if_neg (not_not_intro hr)

/-- With no other piece waiting, that visit is under way at once, its host word read raised. -/
theorem State.endPiece_config {s : State} {w : Work} (h : s.smon.piece = some (.config, w))
    (hr : s.engc.engine = .running) (hw : s.smon.waiting = []) :
    s.endPiece.smon.piece = some (.visit 0, .visit 0) ∧
      s.endPiece.mport = s.mport ++ [s.requestOf .hostWord (s.hostWordAddr 0) none] := by
  have alone : (s.dropPiece.ready (.visit 0)).smon.waiting = [.visit 0] :=
    congrArg (· ++ [Piece.visit 0]) hw
  rw [State.endPiece_eq h, State.readyAfter_config (s := s.dropPiece) hr, State.takeNext_cons rfl alone]
  exact ⟨rfl, rfl⟩

/-- Settles O36: by `State.configReturned`'s three cases. -/
theorem configurationCheckDecides : Obligations.ConfigurationCheckDecides := by
  intro s r req rest p k hr ha hp
  refine ⟨_, exec_configurationCheck hr ha, ?_⟩
  have harea : (s.afterReturn r req rest).regp.area = s.regp.area := s.afterReturn_area r req rest
  have hrest : (s.afterReturn r req rest).mport = rest := s.afterReturn_mport r req rest
  rw [← harea]
  generalize s.wordReturned r req rest = w
  generalize s.afterReturn r req rest = u at *
  subst hrest
  cases replyFailed r.reply with
  | true =>
    obtain ⟨⟨only, mirror⟩, piece, counts⟩ := State.smonFault_counted hp .readErr
    rw [State.configReturned_failed]
    exact ⟨only, mirror, fun _ => ⟨counts, piece⟩, nofun, nofun, nofun⟩
  | false =>
    by_cases same : configSeq w = u.smon.counters.ackCopy
    · obtain ⟨only, mirror⟩ := OnlyWork.of_endPiece u
      rw [State.configReturned_same same]
      refine ⟨only, mirror, nofun, fun _ differs => absurd same differs, fun _ _ => State.endPiece_ended hp, ?_⟩
      rintro - rfl - running alone
      exact State.endPiece_config hp running alone
    · obtain ⟨only, mirror⟩ := OnlyWork.of_goOn u p (.reload (configSeq w) []) .lineTable (u.lineTableAddr 0) none
      rw [State.configReturned_changed hp same]
      exact ⟨only, mirror, nofun, fun _ _ => ⟨rfl, rfl⟩, fun _ h => absurd h same, fun _ _ h => absurd h same⟩

/-! ### COMPLETION_REPORT and TEAR_RELEASE (04, R47, R49, R59, R60) -/

/-- A lane's report is under way, the mirror entry of its slot IDLE; `next` is what SMON goes on with after it. -/
def State.reportBegun (s : State) (k : SlotId) (p : Piece) (next : AfterCount) : State :=
  (s.beginPiece p (.counting next)).setMirror k { s.mirror k with state := .idle, lane := none }

/-- The mirror entry of slot k has gone IDLE with known_seq kept, and nothing but SMON and the order list differs. -/
structure SlotFreed (s t : State) (k : SlotId) : Prop where
  only : OnlyMonitor s t
  idle : (t.mirror k).state = .idle
  lane : (t.mirror k).lane = none
  known : (t.mirror k).knownSeq = (s.mirror k).knownSeq
  others : ∀ j : SlotId, j ≠ k → t.mirror j = s.mirror j

theorem SlotFreed.of_reportBegun (s : State) (k : SlotId) (p : Piece) (next : AfterCount) :
    SlotFreed s (s.reportBegun k p next) k := by
  have entry : (s.reportBegun k p next).mirror k = { s.mirror k with state := .idle, lane := none } :=
    State.setMirror_mirror ..
  refine ⟨by constructor <;> rfl, ?_, ?_, ?_, fun j hj => State.setMirror_other _ _ _ _ hj.symm⟩ <;> rw [entry]

theorem SlotFreed.then_work {s t u : State} {k : SlotId} (h : SlotFreed s t k) (g : OnlyWork t u) :
    SlotFreed s u k := by
  obtain ⟨only, mirror⟩ := g
  have same (j : SlotId) : u.mirror j = t.mirror j := congrArg (·[j]) mirror
  obtain ⟨honly, idle, lane, known, others⟩ := h
  exact ⟨honly.trans only, by rw [same, idle], by rw [same, lane], by rw [same, known],
    fun j hj => (same j).trans (others j hj)⟩

/-- No tear joins the counter set's requests. -/
def NoTearJoins (s t : State) : Prop := ∀ q ∈ t.smon.counts, q.kind = .tear → q ∈ s.smon.counts

theorem NoTearJoins.of_counts {s t : State} (h : t.smon.counts = s.smon.counts) : NoTearJoins s t :=
  fun _ hq _ => h ▸ hq

theorem NoTearJoins.trans {s t u : State} (h : NoTearJoins s t) (g : NoTearJoins t u) : NoTearJoins s u :=
  fun q hq ht => h q (g q hq ht) ht

theorem NoTearJoins.of_count (s : State) {k : CountKind} (q : Requester) (hk : k ≠ .tear) :
    NoTearJoins s (s.count k q) := by
  intro x hx ht
  rw [State.count_counts, List.mem_append, List.mem_singleton] at hx
  exact hx.resolve_right fun e => hk (by rw [e] at ht; exact ht)

/-- Of the pieces that may be taken next the closing alone asks for a count, which is no tear's (04, R48). -/
theorem NoTearJoins.of_takeNext (s : State) : NoTearJoins s s.takeNext := by
  unfold State.takeNext
  split
  · dsimp only
    split
    case h_3 => exact NoTearJoins.of_count (State.setPiece _ _ _) .smon nofun
    all_goals exact .of_counts rfl
  · exact .of_counts rfl

theorem NoTearJoins.of_sweepRequest (s : State) : NoTearJoins s s.sweepRequest := by
  unfold State.sweepRequest
  split
  · exact .of_counts rfl
  · split
    · exact .of_counts rfl
    · exact NoTearJoins.of_takeNext s.startSweep

@[simp] theorem State.endSweep_counts (s : State) : s.endSweep.smon.counts = s.smon.counts := by
  unfold State.endSweep
  split <;> rfl

/-- Making the next piece ready asks nothing of the counter set. -/
@[simp] theorem State.readyAfter_counts (s : State) (p : Piece) :
    (s.readyAfter p).smon.counts = s.smon.counts := by
  unfold State.readyAfter
  split
  · rfl
  · split
    · rfl
    · split
      · rfl
      · split
        · split <;> rfl
        · rfl
      · exact s.endSweep_counts

theorem NoTearJoins.of_endPiece (s : State) : NoTearJoins s s.endPiece := by
  unfold State.endPiece
  split
  · exact .of_counts rfl
  · exact (NoTearJoins.of_counts (State.readyAfter_counts s.dropPiece _)).trans (.of_takeNext _)

theorem exec_completionReport {s : State} {k : SlotId} (h : s.nextPiece = some (.completion k)) :
    exec .completionReport s = .next s.handleCompletion :=
  congrArg Host.Outcome.next (State.runDue_due (e := .completionReport) (by unfold Due.holds; rw [h]))

theorem exec_tearRelease {s : State} {k : SlotId} (h : s.nextPiece = some (.tearRelease k)) :
    exec .tearRelease s = .next s.handleTearRelease :=
  congrArg Host.Outcome.next (State.runDue_due (e := .tearRelease) (by unfold Due.holds; rw [h]))

section Completion
variable {s : State} {k : SlotId} (h : s.nextPiece = some (.completion k))
include h

/-- From TEARING a completion report is a sweep request too (04, R47). -/
theorem State.handleCompletion_tearing (ht : (s.mirror k).state = .tearing) :
    s.handleCompletion = (s.reportBegun k (.completion k) .endPiece).sweepRequest.endPiece := by
  unfold State.handleCompletion
  rw [h]
  dsimp only
  rw [if_pos ht]
  rfl

theorem State.handleCompletion_plain (ht : (s.mirror k).state ≠ .tearing) :
    s.handleCompletion = (s.reportBegun k (.completion k) .endPiece).endPiece := by
  unfold State.handleCompletion
  rw [h]
  dsimp only
  rw [if_neg ht]
  rfl

/-- No request is heard from a slot that is not TEARING, nor outside RUNNING (04, R47, R63). -/
theorem State.handleCompletion_quiet (hq : (s.mirror k).state ≠ .tearing ∨ s.engc.engine ≠ .running) :
    s.handleCompletion = (s.reportBegun k (.completion k) .endPiece).endPiece := by
  by_cases ht : (s.mirror k).state = .tearing
  · have idle : (s.reportBegun k (.completion k) .endPiece).engc.engine ≠ .running :=
      hq.resolve_left (not_not_intro ht)
    rw [State.handleCompletion_tearing h ht, State.sweepRequest_idle idle]
  · exact State.handleCompletion_plain h ht

theorem State.handleCompletion_freed : SlotFreed s s.handleCompletion k := by
  have begun := SlotFreed.of_reportBegun s k (.completion k) .endPiece
  by_cases ht : (s.mirror k).state = .tearing
  · rw [State.handleCompletion_tearing h ht]
    exact (begun.then_work (.of_sweepRequest _)).then_work (.of_endPiece _)
  · rw [State.handleCompletion_plain h ht]
    exact begun.then_work (.of_endPiece _)

theorem State.handleCompletion_noTear : NoTearJoins s s.handleCompletion := by
  have begun : NoTearJoins s (s.reportBegun k (.completion k) .endPiece) := .of_counts rfl
  by_cases ht : (s.mirror k).state = .tearing
  · rw [State.handleCompletion_tearing h ht]
    exact (begun.trans (.of_sweepRequest _)).trans (.of_endPiece _)
  · rw [State.handleCompletion_plain h ht]
    exact begun.trans (.of_endPiece _)

/-- The sweep requested from TEARING goes on through the end of the report's piece. -/
theorem State.handleCompletion_requested (ht : (s.mirror k).state = .tearing) (hr : s.engc.engine = .running) :
    SweepRequested s s.handleCompletion := by
  rw [State.handleCompletion_tearing h ht]
  have requested : SweepRequested s (s.reportBegun k (.completion k) .endPiece).sweepRequest :=
    State.sweepRequest_requested (s := s.reportBegun k (.completion k) .endPiece) hr
  exact requested.goesOn (.of_endPiece (State.sweepRequest_piece rfl) rfl)

end Completion

theorem State.handleTearRelease_eq {s : State} {k : SlotId} (h : s.nextPiece = some (.tearRelease k)) :
    s.handleTearRelease = (s.reportBegun k (.tearRelease k) .tornRelease).count .tear .smon := by
  unfold State.handleTearRelease
  rw [h]
  rfl

/-- Settles O46: each report frees the slot; the completion's piece then ends, the tear release's waits for its
count. -/
theorem laneReportsFreeTheSlot : Obligations.LaneReportsFreeTheSlot := by
  constructor
  · intro s k h
    obtain ⟨only, idle, lane, known, others⟩ := State.handleCompletion_freed h
    refine ⟨_, exec_completionReport h, only, idle, lane, known, others, State.handleCompletion_noTear h,
      State.handleCompletion_requested h, fun hq => ?_⟩
    rw [State.handleCompletion_quiet h hq]
    exact (State.endPiece_ended (s := s.reportBegun k (.completion k) .endPiece) rfl).other rfl
  · intro s k h
    obtain ⟨only, idle, lane, known, others⟩ :=
      (SlotFreed.of_reportBegun s k (.tearRelease k) .tornRelease).then_work (.of_count _ .tear .smon)
    obtain ⟨piece, -⟩ := (s.reportBegun k (.tearRelease k) .tornRelease).count_work .tear .smon
    refine ⟨_, exec_tearRelease h, ?_⟩
    rw [State.handleTearRelease_eq h]
    exact ⟨only, idle, lane, known, others, State.count_counts .., piece⟩

end Sys2Proof.Machine
end

section
/-! The agreement of claims along every step: the returns of accesses, the commands inside the part and the CONTROL
writes, each by the lemma of Laws/Claims for what it calls (05, R64, R67, R68, R78, R81; 08, R118). -/

namespace Sys2Proof.Machine

/-! ### The returns of accesses (11, R161) -/

/-- A unit that keeps the agreement as it handles a return keeps it through the command that brings the return. -/
theorem exec_busEvent_claims {c : Instr} {s t : State} (hs : s.ClaimsAgree) (h : exec c s = .next t)
    {accepts : Access → Bool} {r : BusReturn} {handle : State → Request → Bool → Word → State}
    (he : exec c s = .next (s.busEvent accepts r handle))
    (hh : ∀ u req f w, u.ClaimsAgree → (handle u req f w).ClaimsAgree) : t.ClaimsAgree := by
  obtain rfl := Host.Outcome.next.inj (he.symm.trans h)
  exact State.busEvent_claims hs accepts r handle hh

/-- The return to a lane's read or check: discarded where the lane has given the access up. -/
theorem State.discardedOr_claims {s t : State} (hs : s.ClaimsAgree) (req : Request) (ht : t.ClaimsAgree) :
    (if req.abandoned then s.discarded req else t).ClaimsAgree := by
  split
  · exact State.discarded_claims hs req
  · exact ht

theorem exec_return_claims {c : Instr} {r : BusReturn} (hc : busReturnOf c = some r) {s t : State}
    (hs : s.ClaimsAgree) (h : exec c s = .next t) : t.ClaimsAgree := by
  cases c <;> cases hc <;> refine exec_busEvent_claims hs h rfl fun u req f w hu => ?_
  case configurationCheck =>
    obtain ⟨config, -⟩ := State.smonReturns_claims hu f false w none
    exact config
  case lineTableReload =>
    obtain ⟨-, reload, -⟩ := State.smonReturns_claims hu f false w none
    exact reload
  case slotVisit =>
    obtain ⟨-, -, visit, -⟩ := State.smonReturns_claims hu f false w none
    exact visit
  case discovery =>
    obtain ⟨-, -, -, record, -⟩ := State.smonReturns_claims hu f false w none
    exact record
  case take first =>
    obtain ⟨-, -, -, -, take, -⟩ := State.smonReturns_claims hu f first w none
    exact take
  case counterWrite => exact State.counterReturned_claims hu f _
  case loadingRead => exact State.loadingReturned_claims hu f w
  case configAckWrite => exact State.configAckReturned_claims hu f _
  case settleWrite =>
    obtain ⟨-, -, -, -, -, bySmon, byEngc⟩ := State.smonReturns_claims hu f false w r.atStall
    split
    · exact bySmon
    · exact byEngc
    · exact State.laneSettleReturned_claims hu _ f _
    · exact hu
  case loadRead =>
    refine State.discardedOr_claims hu req ?_
    split
    · exact hu.of_same (.of_loadHostReturned ..)
    · exact hu.of_same (.of_loadStepReturned ..)
    · exact hu
  case preWriteCheck =>
    refine State.discardedOr_claims hu req ?_
    split
    · exact State.listCheckReturned_claims hu _ f w
    · exact State.settleCheckReturned_claims hu _ f w _
    · exact hu
  case resultWrite =>
    split
    · exact State.resultReturned_claims hu _ f
    · exact hu
  case check =>
    refine State.discardedOr_claims hu req ?_
    split
    · exact hu.of_same (.of_qualifierReturned ..)
    · exact hu
  case qualifierRead =>
    refine State.discardedOr_claims hu req ?_
    split
    · exact hu.of_same (.of_qualifierReturned ..)
    · exact hu

/-! ### The commands inside the part -/

theorem SameClaims.of_respond (s : State) (a : PortResponse) : SameClaims s (s.respond a) :=
  .of_units rfl rfl rfl rfl

theorem exec_inside_claims {c : Instr} {s t : State} (hr : busReturnOf c = none) (hb : onBusOf c = none)
    (hs : s.ClaimsAgree) (h : exec c s = .next t) : t.ClaimsAgree := by
  have met : s.settled.ClaimsAgree := State.settled_claims hs
  have edges : s.acceptEdges.ClaimsAgree := hs.of_same (.of_acceptEdges s)
  cases c <;> cases hr <;> cases hb <;> obtain rfl := Host.Outcome.next.inj h
  case areaWrite w =>
    refine met.of_same ?_
    split
    · exact .of_respond ..
    · split <;> exact .of_units rfl rfl rfl rfl
  case nudge w =>
    refine met.of_same ?_
    split
    · exact .of_respond ..
    · exact (SameClaims.of_respond ..).trans (.of_sweepRequest _)
  case causeClear w => split <;> exact hs.of_same (.of_units rfl rfl rfl rfl)
  case ignoredRegisterWrite o w =>
    split
    · exact hs.of_same (.of_respond ..)
    · split
      · exact hs.of_same (.of_respond ..)
      · exact hs
  case registerErrorResponse a =>
    split
    · exact hs.of_same (.of_respond ..)
    · exact hs
  case resetRelease => exact hs.of_same (.of_units rfl rfl rfl rfl)
  case tickBoundary x =>
    split
    · exact State.boundary_claims met x
    · exact hs
  case windowExpiry l => exact State.runDue_claims edges _
  case tallyGateEnd l => exact State.runDue_claims edges _
  case overrange l => exact State.runDue_claims edges _
  all_goals exact State.runDue_claims hs _

/-! ### CONTROL and the resets -/

theorem State.metBy_claims {s : State} (hs : s.ClaimsAgree) (c : Instr) : (s.metBy c).ClaimsAgree := by
  have met (early : Bool) : (s.met early).ClaimsAgree := by
    cases early
    · exact State.settled_claims hs
    · exact hs
  unfold State.metBy
  split
  · exact (met _).of_same (.of_units rfl rfl rfl rfl)
  · exact met _
  · exact met false

/-- A command keeps the agreement, whichever of the three ways it acts. -/
theorem exec_claims (c : Instr) (s t : State) (hs : s.ClaimsAgree) (h : exec c s = .next t) : t.ClaimsAgree := by
  cases hr : busReturnOf c with
  | some r => exact exec_return_claims hr hs h
  | none =>
    cases hb : onBusOf c with
    | some b =>
      rcases exec_control hb with ⟨w, he⟩ | he <;> obtain rfl := Host.Outcome.next.inj ((he s).symm.trans h)
      · exact State.controlWrite_claims (State.metBy_claims hs c) w b
      · exact State.resetUnits_claims ..
    | none => exact exec_inside_claims hr hb hs h

/-- Settles O9: an invariant of every command, which does not look at the queue of commands. -/
theorem claimsStayInAgreement : Obligations.ClaimsStayInAgreement :=
  fun _ _ => step_keeps (fun _ _ h => h.of_same (.of_units rfl rfl rfl rfl)) exec_claims

end Sys2Proof.Machine
end

section
/-! A start and a release of claims, each as one act on the claim table, OUTD and the lanes (05, R71, R77, R78; 06, R83,
R84; 08, R120, R121). -/

namespace Sys2Proof.Machine

/-! ### A start (05, R71) -/

/-- The lines of a posting are the four line bits of its out_mask. -/
theorem Posting.lines_get (p : Posting) (o : OutLine) : p.lines.getLsbD o.val = p.outMask.getLsbD o.val := by
  unfold Posting.lines
  rw [BitVec.getLsbD_extractLsb', Nat.zero_add]
  simp [o.isLt]

section Start
variable (s : State) (e : Entry) (l : LaneId)

theorem State.startPlan_claimedLine {o : OutLine} (h : e.posting.outMask.getLsbD o.val = true) :
    (s.startPlan e l).admu.claims[o] = { owner := some l, reservation := none } ∧
      (s.startPlan e l).outd[o] = { s.outd[o] with claimer := some l, keep := false } := by
  rw [← Posting.lines_get] at h
  rw [State.startPlan_claims_get, State.startPlan_outd_get, if_pos h, if_pos h]
  exact ⟨rfl, rfl⟩

theorem State.startPlan_otherLine {o : OutLine} (h : e.posting.outMask.getLsbD o.val = false) :
    ((s.startPlan e l).admu.claims[o]).owner = (s.admu.claims[o]).owner ∧
      (s.startPlan e l).outd[o] = s.outd[o] := by
  rw [← Posting.lines_get] at h
  rw [State.startPlan_claims_get, State.startPlan_outd_get, if_neg (ne_true_of_eq_false h),
    if_neg (ne_true_of_eq_false h)]
  refine ⟨?_, rfl⟩
  split <;> rfl

/-- A started entry has no reservation left (05, R71). -/
theorem State.startPlan_noReservation : (s.startPlan e l).NoReservation e.slot := by
  intro o
  rw [State.startPlan_claims_get]
  split
  · exact nofun
  · split
    · exact nofun
    · assumption

end Start

/-- Settles O33: the parts of a start, unit by unit. -/
theorem startIsOneAct : Obligations.StartIsOneAct := by
  intro s e l
  have pool := State.startPlan_pool s e l
  have lane := State.startPlan_lane s e l
  have mirror := (State.startPlan_mirror s e l e.slot).trans (if_pos rfl)
  refine ⟨(pool l).trans (if_pos rfl), fun k hk => ⟨(pool k).trans (if_neg hk), (lane k).trans (if_neg hk)⟩,
    fun o => s.startPlan_claimedLine e l, fun o => s.startPlan_otherLine e l, s.startPlan_noReservation e l,
    ?_, ?_, ?_, fun x hx => ?_, rfl⟩
  · rw [mirror]
  · rw [mirror]
  · rw [mirror]
  · rw [lane l, if_pos rfl, show x = Lane.empty from hx]
    rfl

/-! ### A release (05, R77, R78; 08, R121) -/

section Release
variable (s : State) (l : LaneId) (kept : Bool) (o : OutLine)

/-- The claim table after a release. -/
theorem State.releaseClaims_claims_get : (s.releaseClaims l kept).admu.claims[o] =
    if (s.admu.claims[o]).owner = some l then { s.admu.claims[o] with owner := none } else s.admu.claims[o] :=
  tabulate4_get ..

/-- OUTD after a release. -/
theorem State.releaseClaims_outd_get : (s.releaseClaims l kept).outd[o] =
    if (s.outd[o]).claimer = some l then
      if kept && s.engc.engine = .running then { s.outd[o] with claimer := none, keep := true }
      else { (s.outd[o]).toIdle with claimer := none }
    else s.outd[o] :=
  tabulate4_get ..

theorem State.releaseClaims_reservation :
    ((s.releaseClaims l kept).admu.claims[o]).reservation = (s.admu.claims[o]).reservation := by
  rw [State.releaseClaims_claims_get]
  split <;> rfl

variable {s l kept o}

theorem State.releaseClaims_otherLine (h : (s.outd[o]).claimer ≠ some l) :
    (s.releaseClaims l kept).outd[o] = s.outd[o] := by
  rw [State.releaseClaims_outd_get, if_neg h]

theorem State.releaseClaims_keepsLevel (h : (s.outd[o]).claimer = some l) (hk : kept = true)
    (hr : s.engc.engine = .running) :
    (s.releaseClaims l kept).outd[o] = { s.outd[o] with claimer := none, keep := true } := by
  rw [State.releaseClaims_outd_get, if_pos h, if_pos (by simp [hk, hr])]

theorem State.releaseClaims_drivesIdle (h : (s.outd[o]).claimer = some l)
    (hk : kept = false ∨ s.engc.engine ≠ .running) :
    (s.releaseClaims l kept).outd[o] =
      { s.outd[o] with claimer := none, keep := false, level := (s.outd[o]).idle } := by
  rw [State.releaseClaims_outd_get, if_pos h, if_neg]
  · rfl
  · rcases hk with hk | hk <;> simp [hk]

end Release

/-- Settles O34: a release, line by line. -/
theorem releaseDrivesIdleOrKeeps : Obligations.ReleaseDrivesIdleOrKeeps :=
  fun s l kept o => ⟨s.releaseClaims_reservation l kept o, (s.releaseClaims_lines l kept o).1,
    State.releaseClaims_otherLine, State.releaseClaims_keepsLevel, State.releaseClaims_drivesIdle⟩

end Sys2Proof.Machine
end

section
/-! The selection walk: each visit of an entry as an equation, the lowest-numbered free lane, the lines free to an entry
and its reservations, and that an entry once blocked by a line stays blocked for the rest of the walk (05, R69 to
R72). -/

namespace Sys2Proof.Machine

/-! ### The lane that a start takes (05, R71) -/

theorem allLanes_eq : allLanes = List.finRange 4 := by decide

theorem State.freeLane_eq_none_iff (s : State) : s.freeLane = none ↔ ∀ l : LaneId, s.admu.pool[l] = false := by
  unfold State.freeLane
  simp [allLanes_eq, List.find?_eq_none]

/-- The lane taken is the lowest-numbered one in the pool. -/
theorem State.freeLane_eq_some_iff (s : State) (l : LaneId) : s.freeLane = some l ↔
    s.admu.pool[l] = true ∧ ∀ j : LaneId, j.val < l.val → s.admu.pool[j] = false := by
  unfold State.freeLane
  rw [allLanes_eq, List.find?_eq_some_iff_getElem]
  refine and_congr_right fun _ => ⟨?_, fun lower => ?_⟩
  · rintro ⟨i, hi, rfl, lower⟩ j hj
    simpa using lower j (by simpa using hj)
  · refine ⟨l.val, by simp, by simp, fun j hj => ?_⟩
    simpa using lower ⟨j, by omega⟩ hj

/-! ### Lines free to an entry, and reservations for it (05, R70, R72) -/

theorem lineFreeTo_iff (v : Vector Claim 4) (k : SlotId) (later : List Entry) (o : OutLine) :
    lineFreeTo v k later o = true ↔ (v[o]).owner = none ∧ ((v[o]).reservation = none ∨
      (v[o]).reservation = some k ∨ ∃ x ∈ later, (v[o]).reservation = some x.slot) := by
  unfold lineFreeTo
  cases (v[o]).reservation with
  | none => simp
  | some j => simp [@eq_comm _ j]

theorem linesFreeTo_iff (v : Vector Claim 4) (e : Entry) (later : List Entry) :
    linesFreeTo v e later = true ↔ ∀ o : OutLine, e.posting.outMask.getLsbD o.val = true →
      (v[o]).owner = none ∧ ((v[o]).reservation = none ∨ (v[o]).reservation = some e.slot ∨
        ∃ x ∈ later, (v[o]).reservation = some x.slot) := by
  have every : ∀ o : OutLine, o ∈ allOutLines := by decide
  unfold linesFreeTo
  simp only [List.all_eq_true, every, true_implies, Bool.or_eq_true, Bool.not_eq_true', lineFreeTo_iff,
    Posting.lines_get]
  refine forall_congr' fun o => ?_
  cases e.posting.outMask.getLsbD o.val <;> simp

theorem reserveFor_get (e : Entry) (later : List Entry) (v : Vector Claim 4) (o : OutLine) :
    (reserveFor e later v)[o] =
      if e.posting.outMask.getLsbD o.val = true ∧ ((v[o]).reservation = none ∨
        ∃ x ∈ later, (v[o]).reservation = some x.slot) then { v[o] with reservation := some e.slot }
      else v[o] := by
  unfold reserveFor
  rw [tabulate4_get, Posting.lines_get]
  congr 1
  cases (v[o]).reservation with
  | none => simp
  | some j => simp [@eq_comm _ j]

/-! ### The visits of a walk (05, R70 to R72) -/

section Visits
variable {s : State} {kept later : List Entry} {e : Entry}

theorem walkFrom_noLane (h : s.freeLane = none) : walkFrom kept (e :: later) s = s.setQueue (kept ++ e :: later) := by
  unfold walkFrom
  rw [h]

theorem walkFrom_ineligible (h : s.freeLane ≠ none) (he : e.eligible = false) :
    walkFrom kept (e :: later) s = walkFrom (kept ++ [e]) later s := by
  obtain ⟨l, hl⟩ := Option.ne_none_iff_exists'.mp h
  rw [walkFrom, hl]
  simp [he]

theorem walkFrom_starts {l : LaneId} (h : s.freeLane = some l) (he : e.eligible = true)
    (hf : linesFreeTo s.admu.claims e later = true) :
    walkFrom kept (e :: later) s = walkFrom kept later (s.startPlan e l) := by
  rw [walkFrom, h]
  simp [he, hf]

theorem walkFrom_reserves (h : s.freeLane ≠ none) (he : e.eligible = true)
    (hf : linesFreeTo s.admu.claims e later = false) :
    walkFrom kept (e :: later) s = walkFrom (kept ++ [e]) later
      { s with admu := { s.admu with claims := reserveFor e later s.admu.claims } } := by
  obtain ⟨l, hl⟩ := Option.ne_none_iff_exists'.mp h
  rw [walkFrom, hl]
  simp [he, hf]

end Visits

/-! ### An entry blocked by a line stays blocked (05, R70, R72) -/

/-- A visit of an entry of `later` makes no line free to an entry that stands before them: it gives no line up, and a
reservation that goes belonged to one of `later`. -/
structure FreesNothing (later : List Entry) (v w : Vector Claim 4) : Prop where
  owner : ∀ o : OutLine, (w[o]).owner = none → (v[o]).owner = none
  reservation : ∀ (o : OutLine) (j : SlotId), (w[o]).owner = none → (v[o]).reservation = some j →
    (w[o]).reservation = some j ∨ ∃ x ∈ later, x.slot = j

theorem FreesNothing.of_start (s : State) (e : Entry) (later : List Entry) (l : LaneId) :
    FreesNothing (e :: later) s.admu.claims (s.startPlan e l).admu.claims where
  owner := fun o h => by
    rw [State.startPlan_claims_get] at h
    split at h
    · cases h
    · split at h <;> exact h
  reservation := fun o j h hj => by
    rw [State.startPlan_claims_get] at h ⊢
    split at h
    · cases h
    · rename_i notClaimed
      rw [if_neg notClaimed]
      split
      · rename_i own
        exact .inr ⟨e, List.mem_cons_self, Option.some.inj (own.symm.trans hj)⟩
      · exact .inl hj

theorem FreesNothing.of_reserve (v : Vector Claim 4) (e : Entry) (later : List Entry) :
    FreesNothing later v (reserveFor e later v) where
  owner := fun o h => by
    rw [reserveFor_owner] at h
    exact h
  reservation := fun o j _ hj => by
    rw [reserveFor_get]
    split
    · rename_i taken
      rcases taken.2 with absent | ⟨x, hx, own⟩
      · rw [absent] at hj
        cases hj
      · exact .inr ⟨x, hx, Option.some.inj (own.symm.trans hj)⟩
    · exact .inl hj

/-- What is free to an entry after such a visit was free to it before. -/
theorem FreesNothing.wasFree {later before after : List Entry} {v w : Vector Claim 4} {e : Entry}
    (h : FreesNothing later v w) (hl : ∀ x ∈ later, x ∈ before) (ha : ∀ x ∈ after, x ∈ before)
    (hf : linesFreeTo w e after = true) : linesFreeTo v e before = true := by
  rw [linesFreeTo_iff] at hf ⊢
  intro o ho
  obtain ⟨unowned, reserved⟩ := hf o ho
  refine ⟨h.owner o unowned, ?_⟩
  cases hv : (v[o]).reservation with
  | none => exact .inl rfl
  | some j =>
    refine .inr ?_
    rcases h.reservation o j unowned hv with same | ⟨x, hx, rfl⟩
    · rw [same] at reserved
      rcases reserved with none | own | ⟨x, hx, hj⟩
      · cases none
      · exact .inl own
      · exact .inr ⟨x, ha x hx, hj⟩
    · exact .inr ⟨x, hl x hx, rfl⟩

/-- Every eligible entry of `kept` is blocked by a line, where `rest` stands behind them in the queue. -/
def EachBlocked (v : Vector Claim 4) : List Entry → List Entry → Prop
  | [], _ => True
  | e :: kept, rest =>
    (e.eligible = true → linesFreeTo v e (kept ++ rest) = false) ∧ EachBlocked v kept rest

/-- An entry visited and kept, ineligible or itself blocked. -/
theorem EachBlocked.concat {v : Vector Claim 4} {kept rest : List Entry} {a : Entry}
    (h : EachBlocked v kept (a :: rest)) (ha : a.eligible = true → linesFreeTo v a rest = false) :
    EachBlocked v (kept ++ [a]) rest := by
  induction kept with
  | nil => exact ⟨ha, trivial⟩
  | cons e kept ih =>
    obtain ⟨he, hk⟩ := h
    exact ⟨fun h => by simpa using he h, ih hk⟩

/-- Visits behind them that free nothing, and entries that leave behind them, leave them blocked. -/
theorem EachBlocked.mono {v w : Vector Claim 4} {kept rest left : List Entry} (h : EachBlocked v kept rest)
    (hw : FreesNothing rest v w) (hl : ∀ x ∈ left, x ∈ rest) : EachBlocked w kept left := by
  induction kept with
  | nil => trivial
  | cons e kept ih =>
    obtain ⟨he, hk⟩ := h
    refine ⟨fun h => Bool.eq_false_iff.mpr fun free => ?_, ih hk⟩
    have before := hw.wasFree (before := kept ++ rest) (after := kept ++ left) (e := e)
      (fun x hx => List.mem_append_right _ hx)
      (fun x hx => List.mem_append.mpr ((List.mem_append.mp hx).imp id (hl x))) free
    rw [he h] at before
    cases before

/-- Each of them, by its place in the queue. -/
theorem EachBlocked.blocked {v : Vector Claim 4} {earlier later : List Entry} {e : Entry}
    (h : EachBlocked v (earlier ++ e :: later) []) (he : e.eligible = true) :
    linesFreeTo v e later = false := by
  induction earlier with
  | nil =>
    obtain ⟨hb, -⟩ := h
    simpa using hb he
  | cons a earlier ih =>
    obtain ⟨-, behind⟩ := h
    exact ih behind

/-- A walk that leaves a lane free has visited every entry, and each that it has kept is ineligible or blocked. -/
theorem walkFrom_eachBlocked (rest kept : List Entry) (s : State) (h : EachBlocked s.admu.claims kept rest)
    (hf : (walkFrom kept rest s).freeLane ≠ none) :
    EachBlocked (walkFrom kept rest s).admu.claims (walkFrom kept rest s).admu.queue [] := by
  induction rest generalizing kept s with
  | nil => exact h
  | cons a rest ih =>
    by_cases noLane : s.freeLane = none
    · rw [walkFrom_noLane noLane] at hf
      exact absurd noLane hf
    · cases ha : a.eligible with
      | false =>
        rw [walkFrom_ineligible noLane ha] at hf ⊢
        exact ih _ _ (h.concat fun eligible => absurd eligible (by simp [ha])) hf
      | true =>
        cases free : linesFreeTo s.admu.claims a rest with
        | true =>
          obtain ⟨l, hl⟩ := Option.ne_none_iff_exists'.mp noLane
          rw [walkFrom_starts hl ha free] at hf ⊢
          exact ih _ _ (h.mono (.of_start s a rest l) fun x hx => List.mem_cons_of_mem _ hx) hf
        | false =>
          rw [walkFrom_reserves noLane ha free] at hf ⊢
          exact ih _ _ ((h.concat fun _ => free).mono (.of_reserve s.admu.claims a rest) fun _ hx => hx) hf

/-- Settles O32: the walk entry by entry, and that an entry it leaves blocked stays blocked. -/
theorem walkLeavesNoStartableEntry : Obligations.WalkLeavesNoStartableEntry := by
  refine ⟨fun s hr hf earlier e later hq he => ?_, fun s => ⟨fun hr => if_pos hr, State.walk_idle⟩,
    fun s kept => ⟨rfl, fun e later => ⟨walkFrom_noLane, walkFrom_ineligible, fun l => walkFrom_starts,
      walkFrom_reserves⟩⟩,
    fun s => ⟨s.freeLane_eq_none_iff, s.freeLane_eq_some_iff⟩, fun v e later => ⟨linesFreeTo_iff v e later,
      fun o => ⟨fun bit taken => ?_, fun kept => ?_⟩⟩⟩
  · have walked : s.walk = walkFrom [] s.admu.queue s := if_pos hr
    rw [walked] at hf hq ⊢
    have kept := walkFrom_eachBlocked s.admu.queue [] s trivial hf
    rw [hq] at kept
    exact kept.blocked he
  · rw [reserveFor_get, if_pos ⟨bit, taken⟩]
  · rw [reserveFor_get, if_neg]
    rintro ⟨bit, taken⟩
    rcases kept with clear | ⟨reserved, others⟩
    · exact absurd bit (by simp [clear])
    · rcases taken with absent | ⟨x, hx, own⟩
      · exact reserved absent
      · exact others x hx own

end Sys2Proof.Machine
end

section
/-! A torn lane stops at a tick boundary and then, by an event of its own, goes FREE (05, R69, R76, R78; 06, R98; 09,
R138). -/

namespace Sys2Proof.Machine

/-! ### What a lane has outstanding (06, R98) -/

/-- The accesses of a lane. -/
theorem Access.lane?_eq_some_iff (a : Access) (l : LaneId) : a.lane? = some l ↔
    a = .loadHost l ∨ a = .loadStep l ∨ a = .check l ∨ a = .result l ∨ a = .settleCheck l ∨
      a = .laneSettle l ∨ ∃ last, a = .qualifier l last := by
  cases a <;> simp [Access.lane?]

theorem State.laneOutstanding_iff (s : State) (l : LaneId) : s.laneOutstanding l = true ↔ ∃ q ∈ s.mport,
    q.access = .loadHost l ∨ q.access = .loadStep l ∨ q.access = .check l ∨ q.access = .result l ∨
      q.access = .settleCheck l ∨ q.access = .laneSettle l ∨ ∃ last, q.access = .qualifier l last := by
  unfold State.laneOutstanding
  simp only [List.any_eq_true, beq_iff_eq, Access.lane?_eq_some_iff]

/-- An access given up is still outstanding: it is carried all the same (11, R161). -/
theorem State.abandon_laneOutstanding (s : State) (p : Access → Bool) (l : LaneId) :
    (s.abandon p).laneOutstanding l = s.laneOutstanding l := by
  unfold State.laneOutstanding State.abandon
  rw [List.any_map]
  congr 1
  funext q
  dsimp only [Function.comp_apply]
  split <;> rfl

theorem State.giveUpCheck_laneOutstanding (s : State) (l k : LaneId) :
    (s.giveUpCheck l).laneOutstanding k = s.laneOutstanding k :=
  State.abandon_laneOutstanding s (fun a => a == .qualifier l false || a == .qualifier l true) k

/-- The reads of a lane's CHECK are given up (09, R138). -/
def State.ChecksGivenUp (s : State) (l : LaneId) : Prop :=
  ∀ q ∈ s.mport, ∀ last : Bool, q.access = .qualifier l last → q.abandoned = true

theorem State.giveUpCheck_givenUp (s : State) (l : LaneId) : (s.giveUpCheck l).ChecksGivenUp l := by
  intro q hq last ha
  obtain ⟨r, -, rfl⟩ := List.mem_map.mp hq
  split at ha
  · rename_i given
    rw [if_pos given]
  · rename_i kept
    exact absurd (by cases last <;> simp [ha]) kept

/-! ### A walk and a lane that it does not start a plan on -/

/-- A walk raises load reads alone. -/
theorem State.walk_checksGivenUp {s : State} {l : LaneId} (h : s.ChecksGivenUp l) : s.walk.ChecksGivenUp l :=
  State.walk_keeps (fun t => t.ChecksGivenUp l) (fun _ _ h => h) (fun _ _ _ h => h)
    (fun t e k _ h q hq last ha => by
      rcases List.mem_append.mp hq with old | new
      · exact h q old last ha
      · obtain rfl := List.mem_singleton.mp new
        cases ha)
    s h

/-- What a lane is after a walk that starts no plan on it. -/
structure WalkedPast (s t : State) (l : LaneId) : Prop where
  lane : t.lane l = s.lane l
  pool : t.admu.pool[l] = s.admu.pool[l]
  unowned : (∀ o : OutLine, (s.admu.claims[o]).owner ≠ some l) →
    (∀ o : OutLine, (t.admu.claims[o]).owner ≠ some l) ∧ t.laneOutstanding l = s.laneOutstanding l

/-- Outside RUNNING, and on a lane out of the pool, a walk starts nothing. -/
theorem State.walk_past {s : State} {l : LaneId} (h : s.engc.engine ≠ .running ∨ s.admu.pool[l] = false) :
    WalkedPast s s.walk l := by
  rcases h with idle | busy
  · rw [State.walk_idle idle]
    exact ⟨rfl, rfl, fun h => ⟨h, rfl⟩⟩
  · obtain ⟨frame, -⟩ := s.walk_frame
    obtain ⟨lane, pool⟩ := frame.busy l busy
    exact ⟨lane, pool.trans busy.symm, State.walk_busyLane s l busy⟩

/-! ### The stop (06, R98) -/

/-- What a torn lane that stops keeps of its list: the entry whose check or write is in hand. -/
def Lane.inHand (x : Lane) : List StepResult :=
  match x.access with
  | .check _ => x.list.take 1
  | .write _ => x.list.take 1
  | _ => []

theorem Lane.inHand_length (x : Lane) : x.inHand.length ≤ 1 := by
  unfold Lane.inHand
  split
  · exact List.length_take_le ..
  · exact List.length_take_le ..
  · exact Nat.zero_le 1

theorem Lane.inHand_eq_nil {x : Lane} (hc : ∀ i, x.access ≠ .check i) (hw : ∀ i, x.access ≠ .write i) :
    x.inHand = [] := by
  unfold Lane.inHand
  split
  · rename_i h
    exact absurd h (hc _)
  · rename_i h
    exact absurd h (hw _)
  · rfl

/-- A torn lane once it has stopped. -/
def Lane.afterTear (x : Lane) : Lane :=
  { x with
    state := .closing, activity := .none, loaded := false, loadDue := false, stopped := true, outcome := none,
    claimed := 0, list := x.inHand }

/-- The stop of a torn lane but for the walk that follows it. -/
def State.stopBeforeWalk (s : State) (l : LaneId) : State :=
  ((s.setLane l (s.lane l).afterTear).giveUpCheck l).releaseClaims l false

theorem State.tearStop_eq {s : State} {l : LaneId} (ht : (s.lane l).tear = true) (hs : (s.lane l).stopped = false) :
    s.tearStop l = (s.stopBeforeWalk l).walk := by
  unfold State.tearStop
  dsimp only
  rw [if_pos (by simp [ht, hs])]
  rfl

section Stop
variable (s : State) (l : LaneId)

@[simp] theorem State.stopBeforeWalk_engc : (s.stopBeforeWalk l).engc = s.engc := rfl
@[simp] theorem State.stopBeforeWalk_lane : (s.stopBeforeWalk l).lane l = (s.lane l).afterTear := s.setLane_lane l _

theorem State.stopBeforeWalk_checksGivenUp : (s.stopBeforeWalk l).ChecksGivenUp l :=
  (s.setLane l (s.lane l).afterTear).giveUpCheck_givenUp l

theorem State.stopBeforeWalk_laneOutstanding : (s.stopBeforeWalk l).laneOutstanding l = s.laneOutstanding l :=
  (s.setLane l (s.lane l).afterTear).giveUpCheck_laneOutstanding l l

/-- The lane owns no line once it has stopped (05, R78). -/
theorem State.stopBeforeWalk_unowned (o : OutLine) : ((s.stopBeforeWalk l).admu.claims[o]).owner ≠ some l := by
  unfold State.stopBeforeWalk
  rw [(State.releaseClaims_lines ..).1]
  split
  · exact nofun
  · assumption

variable {s l}

/-- Its lines go to their idle levels (08, R121). -/
theorem State.stopBeforeWalk_outd {o : OutLine} (h : (s.outd[o]).claimer = some l) :
    (s.stopBeforeWalk l).outd[o] =
      { s.outd[o] with claimer := none, keep := false, level := (s.outd[o]).idle } :=
  State.releaseClaims_drivesIdle (s := (s.setLane l (s.lane l).afterTear).giveUpCheck l) h (.inl rfl)

end Stop

/-! ### The stop and the report (05, R78; 06, R98) -/

/-- The walk after the stop starts nothing on the lane, which is still out of the pool. -/
theorem State.stopBeforeWalk_walkedPast {s : State} {l : LaneId}
    (h : s.engc.engine = .draining ∨ (s.engc.engine = .running ∧ s.admu.pool[l] = false)) :
    WalkedPast (s.stopBeforeWalk l) (s.stopBeforeWalk l).walk l := by
  refine State.walk_past ?_
  rcases h with draining | ⟨-, busy⟩
  · exact .inl (by simp [draining])
  · exact .inr busy

/-- Settles O56: the stop is `State.stopBeforeWalk` and a walk past the lane, and the report is `State.tearFinish`. -/
theorem tornLaneStopsAtTheBoundary : Obligations.TornLaneStopsAtTheBoundary := by
  refine ⟨fun s t l hstop ht hs he => ?_, State.laneOutstanding_iff⟩
  rw [State.tearStop_eq ht hs] at hstop
  obtain ⟨walked, pool, past⟩ := hstop ▸ State.stopBeforeWalk_walkedPast he
  obtain ⟨frame, -⟩ := hstop ▸ (s.stopBeforeWalk l).walk_frame
  obtain ⟨unowned, requests⟩ := past (s.stopBeforeWalk_unowned l)
  have lane : t.lane l = (s.lane l).afterTear := walked.trans (s.stopBeforeWalk_lane l)
  have outstanding : t.laneOutstanding l = s.laneOutstanding l :=
    requests.trans (s.stopBeforeWalk_laneOutstanding l)
  refine ⟨fun o ho => ?_, fun hd o ho => ?_, ?_, ?_, ?_, ?_, ?_, ?_, fun hc hw => ?_, unowned, pool, ?_, ?_,
    ?_, fun waits => ?_, fun none counted => ?_⟩
  · obtain ⟨level, -, keep⟩ := hstop ▸ (s.stopBeforeWalk l).walk_outd o
    rw [State.stopBeforeWalk_outd ho] at level keep
    exact ⟨level, keep rfl⟩
  · rw [hstop, State.walk_idle (by simp [hd]), State.stopBeforeWalk_outd ho]
  · rw [lane]; rfl
  · rw [lane]; exact ht
  · rw [lane]; rfl
  · rw [lane]; rfl
  · rw [lane]; rfl
  · rw [lane]; exact (s.lane l).inHand_length
  · rw [lane]; exact Lane.inHand_eq_nil hc hw
  · rw [frame.smon]; rfl
  · rw [frame.smon]; rfl
  · exact hstop ▸ State.walk_checksGivenUp (s.stopBeforeWalk_checksGivenUp l)
  · exact State.tearFinish_waits t l (by rw [outstanding, lane]; exact waits)
  · obtain ⟨freed, owns⟩ := State.tearFinish_frees t l (by rw [lane]; rfl) (outstanding.trans none)
      (by rw [lane]; exact counted)
    exact ⟨freed, owns unowned⟩

end Sys2Proof.Machine
end

section
/-! The evaluation of a CHECK with its source data present: the three tests, INVERT, and the code and value that they
give (09, R133). -/

namespace Sys2Proof.Machine

/-! ### The tests -/

section Tests
variable {mask value low high m : Word}

theorem testTrue_equal : testTrue 0 mask value low high m = true ↔ m = value &&& mask := by
  simp [testTrue]

theorem testTrue_inside : testTrue 1 mask value low high m = true ↔ low ≤ m ∧ m ≤ high := by
  simp [testTrue]

theorem testTrue_outside : testTrue 2 mask value low high m = true ↔ m < low ∨ high < m := by
  simp [testTrue]

/-- OUTSIDE is the reverse of INSIDE, also with low above high. -/
theorem testTrue_outside_eq_not_inside :
    testTrue 2 mask value low high m = !testTrue 1 mask value low high m := by
  rw [Bool.eq_not, ne_eq, Bool.eq_iff_iff, testTrue_outside, testTrue_inside]
  bv_omega

/-- With low above high nothing is inside. -/
theorem testTrue_inside_crossed (crossed : high < low) : testTrue 1 mask value low high m = false := by
  rw [← Bool.not_eq_true, testTrue_inside]
  rintro ⟨above, below⟩
  exact absurd crossed (BitVec.not_lt.mpr (BitVec.le_trans above below))

/-- With low above high everything is outside. -/
theorem testTrue_outside_crossed (crossed : high < low) : testTrue 2 mask value low high m = true := by
  rw [testTrue_outside_eq_not_inside, testTrue_inside_crossed crossed, Bool.not_false]

/-- INSIDE and OUTSIDE do not look at the qualifier's value. -/
theorem testTrue_ignores_value {test : BitVec 2} (ranged : test ≠ 0) (value' : Word) :
    testTrue test mask value' low high m = testTrue test mask value low high m := by
  simp only [testTrue, if_neg ranged]

/-- EQUAL does not look at the qualifier's limits. -/
theorem testTrue_ignores_limits (low' high' : Word) :
    testTrue 0 mask value low' high' m = testTrue 0 mask value low high m := rfl

end Tests

/-! ### The mode's INVERT bit -/

theorem checkTest_flipInvert (mode : Byte) : checkTest (mode ^^^ 4#8) = checkTest mode := by
  have untouched : (4#8).extractLsb' 0 2 = 0#2 := by decide
  rw [checkTest, checkTest, BitVec.extractLsb'_xor, untouched, BitVec.xor_zero]

theorem checkInvert_flipInvert (mode : Byte) : checkInvert (mode ^^^ 4#8) = !checkInvert mode := by
  have flipped : (4#8).getLsbD 2 = true := by decide
  rw [checkInvert, checkInvert, BitVec.getLsbD_xor, flipped, Bool.xor_true]

/-! ### Code and value -/

section Result
variable {mode : Byte} {v mask value low high : Word}

/-- With source data the value is the masked one, and the code says whether the test's truth and INVERT differ. -/
theorem checkResult_some : checkResult mode (some v) [mask, value, low, high] =
    (if testTrue (checkTest mode) mask value low high (v &&& mask) != checkInvert mode then .matched else .miss,
      v &&& mask) := rfl

theorem checkResult_matched_iff : (checkResult mode (some v) [mask, value, low, high]).1 = .matched ↔
    testTrue (checkTest mode) mask value low high (v &&& mask) = !checkInvert mode := by
  simp [checkResult_some, Bool.eq_not]

theorem checkResult_miss_iff : (checkResult mode (some v) [mask, value, low, high]).1 = .miss ↔
    testTrue (checkTest mode) mask value low high (v &&& mask) = checkInvert mode := by
  simp [checkResult_some]

theorem checkResult_matched_or_miss : (checkResult mode (some v) [mask, value, low, high]).1 = .matched ∨
    (checkResult mode (some v) [mask, value, low, high]).1 = .miss := by
  rw [checkResult_matched_iff, checkResult_miss_iff, Bool.eq_not]
  exact (Classical.em _).symm

/-- Setting INVERT where it is clear, or clearing it where it is set, turns a MISS into a MATCH. -/
theorem checkResult_flipInvert : (checkResult (mode ^^^ 4#8) (some v) [mask, value, low, high]).1 = .matched ↔
    (checkResult mode (some v) [mask, value, low, high]).1 = .miss := by
  rw [checkResult_matched_iff, checkResult_miss_iff, checkTest_flipInvert, checkInvert_flipInvert, Bool.not_not]

/-- With INVERT clear a true test gives MATCH. -/
theorem checkResult_matched_iff_testTrue {test : BitVec 2} (ht : checkTest mode = test)
    (clear : checkInvert mode = false) : (checkResult mode (some v) [mask, value, low, high]).1 = .matched ↔
      testTrue test mask value low high (v &&& mask) = true := by
  rw [checkResult_matched_iff, ht, clear, Bool.not_false]

/-- INSIDE under INVERT and OUTSIDE give the same result. -/
theorem checkResult_insideInverted_eq_outside {mode' : Byte} (inside : checkTest mode = 1)
    (invert : checkInvert mode = true) (outside : checkTest mode' = 2) (clear : checkInvert mode' = false) :
    checkResult mode (some v) [mask, value, low, high] = checkResult mode' (some v) [mask, value, low, high] := by
  rw [checkResult_some, checkResult_some, inside, invert, outside, clear, testTrue_outside_eq_not_inside,
    Bool.bne_true, Bool.bne_false]

end Result

/-- Settles O57: the code by the test's truth and INVERT (`checkResult_some`), and the truth test by test. -/
theorem checkTestsTheMaskedValue : Obligations.CheckTestsTheMaskedValue := by
  intro mode v mask value low high
  refine ⟨rfl, fun equal clear => ?_, fun inside clear => ?_, fun outside clear => ?_, checkResult_matched_or_miss,
    checkResult_flipInvert, fun value' (ranged : checkTest mode ≠ 0) => ?_,
    fun low' high' (equal : checkTest mode = 0) => ?_, fun crossed (inside : checkTest mode = 1) clear => ?_,
    fun crossed outside clear => ?_, fun mode' => checkResult_insideInverted_eq_outside, rfl⟩
  · exact (checkResult_matched_iff_testTrue equal clear).trans testTrue_equal
  · exact (checkResult_matched_iff_testTrue inside clear).trans testTrue_inside
  · exact (checkResult_matched_iff_testTrue outside clear).trans testTrue_outside
  · rw [checkResult_some, checkResult_some, testTrue_ignores_value ranged]
  · rw [checkResult_some, checkResult_some, equal, testTrue_ignores_limits low' high']
  · rw [checkResult_miss_iff, inside, testTrue_inside_crossed crossed]
    exact clear.symm
  · exact (checkResult_matched_iff_testTrue outside clear).mpr (testTrue_outside_crossed crossed)

end Sys2Proof.Machine
end

section
/-! Requests to enable the part, judged by AREA in OFF and without effect elsewhere (10, R140, R141; 11, R156). -/

namespace Sys2Proof.Machine

/-! ### A write with ENABLE 1 (11, R156) -/

theorem State.writeEnable_request {s : State} {w : Word} (h : enableBit w = true) (he : s.engc.engine = .off) :
    s.writeEnable w = s.enableRequest := by
  have hc : ctlEnable w = true := h
  unfold State.writeEnable
  rw [if_pos hc, if_pos he]

/-! ### The judgement of an enable request (10, R140, R141) -/

theorem State.enableRequest_badArea {s : State} (h : s.regp.area = 0) :
    s.enableRequest = ({ s with engc := { s.engc with faultCode := .badArea } }).setCause causeFault := if_pos h

/-- The state of an enable request that is accepted, but for the read of the word holding magic. -/
def State.loadingEntered (s : State) : State :=
  { s with
    engc := { s.engc with engine := .loading, faultCode := .none, loading := some Loading.start }
    regp := { s.regp with enable := true }
    tbu := { s.tbu with prescaler := 0, epoch := 0 }
    inc := { s.inc with sampling := false }
    admu := Admission.reset
    smon := { s.smon with discovery := 0 }
    mport := [] }

theorem State.enableRequest_goodArea {s : State} (h : s.regp.area ≠ 0) :
    s.enableRequest = s.loadingEntered.raise .loading (s.area 0x00) none := if_neg h

/-- The word holding magic is the first of the Exchange Area (12, R164). -/
theorem State.area_first (s : State) : s.area 0x00 = s.regp.area := BitVec.add_zero _

/-! ### The command (11, R156) -/

/-- The state `m` in which ENABLE acts still holds what an enable request looks at or leaves: the fields of the same
write that act first are TICKDIV, SWEEP and MASK. -/
structure RequestFinds (s m : State) : Prop where
  engc : m.engc = s.settled.engc
  smon : m.smon = s.settled.smon
  lines : m.inc.lines = s.settled.inc.lines
  outd : m.outd = s.settled.outd
  mport : m.mport = s.settled.mport
  enable : m.regp.enable = s.settled.regp.enable
  cause : m.regp.cause = s.settled.regp.cause
  area : m.regp.area = s.regp.area
  epoch : m.tbu.epoch = s.tbu.epoch
  mem : m.mem = s.mem

theorem RequestFinds.of_writeFields (s : State) (w : Word) : RequestFinds s (s.settled.writeFields w) := by
  obtain ⟨-, engc, smon, -, -, inc, outd, mport, mem, -, -, tbu, regp⟩ := s.settled.writeFields_facts w
  exact ⟨engc, smon, by rw [inc], outd, mport, by rw [regp], by rw [regp], by rw [regp, ← s.settled_area],
    by rw [tbu, ← s.settled_epoch], mem.trans s.settled_mem⟩

section Command
variable {s : State} {w : Word} (hlow : s.regp.resetLow = false) (hen : enableBit w = true)
  (hs : softResetBit w = false)
include hlow hen hs

/-- In OFF it is an enable request, made once the other fields have acted. -/
theorem exec_enableRequest_off (hoff : s.settled.engc.engine = .off) :
    exec (.enableRequest w) s = .next (s.settled.writeFields w).enableRequest := by
  have found : (s.settled.writeFields w).engc.engine = .off := by
    rw [(RequestFinds.of_writeFields s w).engc]
    exact hoff
  rw [← State.writeEnable_request hen found, ← State.control1_plain (s.settled_resetLow.trans hlow) hs]
  rfl

/-- Elsewhere the other fields alone act. -/
theorem exec_enableRequest_on (hon : s.settled.engc.engine ≠ .off) :
    exec (.enableRequest w) s = .next (s.settled.writeFields w) := by
  have found : (s.settled.writeFields w).engc.engine ≠ .off := by
    rw [(RequestFinds.of_writeFields s w).engc]
    exact hon
  rw [← State.writeEnable_kept hen found, ← State.control1_plain (s.settled_resetLow.trans hlow) hs]
  rfl

end Command

/-- Settles O19: in OFF by the two judgements of `State.enableRequest`, elsewhere by `exec_enableRequest_on`. -/
theorem enableRequestIsJudgedByArea : Obligations.EnableRequestIsJudgedByArea := by
  refine ⟨fun s w hlow hen hs hoff harea => ?_, fun s w hlow hen hs hoff harea => ?_,
    fun s w hlow hen hs hon => ?_⟩
  all_goals
    obtain ⟨engc, smon, lines, outd, mport, enable, cause, area, epoch, mem⟩ := RequestFinds.of_writeFields s w
  · have run := exec_enableRequest_off hlow hen hs hoff
    rw [State.enableRequest_badArea (area.trans harea)] at run
    exact ⟨_, run, (congrArg EngineControl.engine engc).trans hoff, rfl, enable, congrArg (· ||| causeFault) cause,
      epoch, mport, mem, smon, outd⟩
  · have run := exec_enableRequest_off hlow hen hs hoff
    rw [State.enableRequest_goodArea (by rw [area]; exact harea), State.area_first, area] at run
    exact ⟨_, run, rfl, rfl, rfl, rfl, rfl, rfl, lines, rfl, rfl, outd, cause, rfl, mem⟩
  · exact ⟨_, exec_enableRequest_on hlow hen hs hon, engc, enable, epoch, mem⟩

end Sys2Proof.Machine
end

section
/-! The state after reset: it is what a reset leaves, nothing is due in it, and every invariant holds in it (10, R153;
11, R155 to R160). -/

namespace Sys2Proof.Machine

/-! ### The units and the registers -/

/-- The state after reset is what a reset makes of it. -/
theorem State.reset_resetUnits (b : OnBus) : State.reset.resetUnits b RegPort.reset = State.reset := rfl

theorem State.reset_unitsReset : State.reset.UnitsReset :=
  State.reset_resetUnits ⟨0, .ok⟩ ▸ State.resetUnits_unitsReset State.reset ⟨0, .ok⟩ RegPort.reset

/-- Nothing is due after a reset. -/
theorem State.reset_nextDue : State.reset.nextDue = none := by decide

/-- So a register read finds the state after reset as it stands (log 25). -/
theorem State.reset_finishInstant : State.reset.finishInstant = State.reset := by
  unfold State.finishInstant
  rw [finishLoop_of_done instantBound State.reset_nextDue]
  rfl

theorem State.reset_readRegister (o : BitVec 6) : State.reset.readRegister o = State.reset.registerValue o :=
  congrArg (fun s : State => s.registerValue o) State.reset_finishInstant

/-- Settles O11: the units by `State.resetUnits_unitsReset`, each register by its value in `State.reset` itself. -/
theorem stateAfterReset : Obligations.StateAfterReset := by
  have control : State.reset.control = 0 := State.control_of_fields rfl rfl rfl rfl
  have status : State.reset.status = 0x21000000#32 := by decide
  refine ⟨State.reset_unitsReset, ?_, ?_, ?_, ?_, ?_, State.irq_of_cause rfl⟩
  all_goals rw [State.reset_readRegister]
  · exact congrArg some control
  · rfl
  · rfl
  · exact congrArg some status
  · rfl

/-! ### The invariants -/

section UnitsReset
variable {s : State} (h : s.UnitsReset)
include h

/-- Every lane is FREE with its list empty, so that its list is within its bound. -/
theorem State.UnitsReset.listsBounded : s.ListsBounded := .of_empty h.lanes

/-- No line is claimed and the queue is empty. -/
theorem State.UnitsReset.claimsAgree : s.ClaimsAgree := by
  obtain ⟨queue, claims, -⟩ := h.admission
  have unowned (o : OutLine) : (s.admu.claims[o]).owner = none := congrArg Claim.owner (claims o)
  have owned {P : Prop} {o : OutLine} {l : LaneId} (ho : (s.admu.claims[o]).owner = some l) : P :=
    absurd ((unowned o).symm.trans ho) nofun
  refine ⟨fun o => ?_, fun o l => owned, fun o l => owned, fun _ _ => unowned, fun loads => ?_, ?_⟩
  · rw [h.outputs, unowned]
  · exact absurd (congrArg EngineControl.loading h.engine) loads
  · unfold State.OneEntryPerSlot
    rw [queue]
    exact List.nodup_nil

/-- ENGC has read no slot count. -/
theorem State.UnitsReset.slotCountLegal : s.SlotCountLegal := by
  unfold State.SlotCountLegal
  rw [h.engine]
  exact Nat.zero_le 16

end UnitsReset

/-- Settles O10: memory is empty, AREA and the divisor code are 0, and the rest follows from the units' reset values. -/
theorem invariantsHoldAtReset : Obligations.InvariantsHoldAtReset := by
  have canonical : State.reset.MemoryCanonical := rfl
  have aligned : State.reset.AreaAligned := BitVec.zero_and
  have divisor : State.reset.DivisorLegal := Nat.zero_le 4
  exact ⟨canonical, aligned, divisor, State.reset_unitsReset.slotCountLegal, State.reset_unitsReset.listsBounded,
    State.reset_unitsReset.claimsAgree⟩

end Sys2Proof.Machine
end

section
/-! The register port: what each register reads, when IRQ is high, and the accesses that change a register or none
(11, R154 to R160; 12, R169). -/

namespace Sys2Proof.Machine

/-! ### CONTROL as it reads (11, R155; 12, R169) -/

/-- A bit of a word is a bit of the field that it lies in. -/
theorem getLsbD_of_field {n len : Nat} {x : BitVec n} {start : Nat} {field : BitVec len}
    (h : x.extractLsb' start len = field) {i : Nat} (hi : i < len) : x.getLsbD (start + i) = field.getLsbD i := by
  rw [← h, BitVec.getLsbD_extractLsb', decide_eq_true hi, Bool.true_and]

/-- Each field of CONTROL lies below bit 12, so that it is the same field of the twelve bits that are appended. -/
theorem State.control_fields (s : State) : s.control.extractLsb' 0 1 = BitVec.ofBool s.regp.enable ∧
    s.control.extractLsb' 1 1 = 0#1 ∧ s.control.extractLsb' 2 3 = s.regp.tickdiv ∧
    s.control.extractLsb' 5 2 = s.regp.sweep ∧ s.control.extractLsb' 7 1 = 0#1 ∧
    s.control.extractLsb' 8 4 = s.regp.mask := by
  unfold State.control
  refine ⟨?_, ?_, ?_, ?_, ?_, ?_⟩
  all_goals
    rw [BitVec.extractLsb'_setWidth_of_le (by omega)]
    simp (disch := omega) only [BitVec.extractLsb'_append_eq_of_le, BitVec.extractLsb'_append_eq_of_add_le]
    exact BitVec.extractLsb'_eq_self

/-- CONTROL has no bit from 12 on. -/
theorem State.control_high (s : State) : s.control.extractLsb' 12 20 = 0 := by
  refine BitVec.eq_of_getLsbD_eq fun i _ => ?_
  unfold State.control
  rw [BitVec.getLsbD_extractLsb', BitVec.getLsbD_setWidth, BitVec.getLsbD_of_ge _ _ (Nat.le_add_right 12 i)]
  simp

/-! ### STATUS as it reads (05, R79; 06, R82; 11, R158; 12, R169) -/

theorem State.status_fields (s : State) : s.status.extractLsb' 0 3 = s.engc.engine.code ∧
    s.status.extractLsb' 3 1 = 0#1 ∧ s.status.extractLsb' 4 4 = s.lanesBusy ∧
    s.status.extractLsb' 8 5 = s.queueDepth ∧ s.status.extractLsb' 13 3 = 0 ∧
    s.status.extractLsb' 16 8 = s.engc.faultCode.code ∧ s.status.extractLsb' 24 8 = Config.revision := by
  unfold State.status
  refine ⟨?_, ?_, ?_, ?_, ?_, ?_, ?_⟩
  all_goals
    simp (disch := omega) only [BitVec.extractLsb'_append_eq_of_le, BitVec.extractLsb'_append_eq_of_add_le]
    exact BitVec.extractLsb'_eq_self

/-- LANES_BUSY has a lane's bit at the lane's number. -/
theorem State.lanesBusy_get (s : State) (l : LaneId) :
    s.lanesBusy.getLsbD l.val = ((s.lane l).state != .free) := by
  unfold State.lanesBusy State.lane
  simp only [BitVec.getLsbD_append, BitVec.getLsbD_ofBool]
  match l with
  | 0 => rfl
  | 1 => rfl
  | 2 => rfl
  | 3 => rfl

/-! ### Reads (11, R154) -/

section Reads
variable {s : State} {o : BitVec 6}

theorem State.registerValue_error (h : s.regp.resetLow = true ∨ o.toNat % 4 ≠ 0) : s.registerValue o = none := by
  unfold State.registerValue
  rw [if_pos (by simpa using h)]

/-- A word read at a multiple of four, with RESETn high, is not answered with the error response. -/
theorem State.registerValue_accepts (hlow : s.regp.resetLow = false) (ho : o.toNat % 4 = 0) :
    ¬ (s.regp.resetLow || o.toNat % 4 != 0) = true := by
  simp [hlow, ho]

theorem State.registerValue_reserved (hlow : s.regp.resetLow = false) (ho : o.toNat % 4 = 0)
    (h : 0x18 ≤ o.toNat) : s.registerValue o = some 0 := by
  unfold State.registerValue
  rw [if_neg (State.registerValue_accepts hlow ho)]
  split
  case h_6 => rfl
  all_goals omega

end Reads

/-- Settles O17: CONTROL and STATUS field by field, and each offset with `State.registerValue_accepts`. -/
theorem registersReadTheirFields : Obligations.RegistersReadTheirFields := by
  refine ⟨fun s => ?_, fun s => ?_, fun s hlow => ?_, fun s o => State.registerValue_error⟩
  · obtain ⟨enable, bit1, tickdiv, sweep, bit7, mask⟩ := s.control_fields
    have enabled : s.control.getLsbD 0 = s.regp.enable :=
      (getLsbD_of_field enable Nat.one_pos).trans (BitVec.getLsbD_ofBool s.regp.enable 0)
    exact ⟨enabled, getLsbD_of_field bit1 Nat.one_pos, tickdiv, sweep, getLsbD_of_field bit7 Nat.one_pos, mask,
      s.control_high⟩
  · obtain ⟨engine, bit3, busy, depth, zero, fault, revision⟩ := s.status_fields
    exact ⟨engine, getLsbD_of_field bit3 Nat.one_pos,
      fun l => (getLsbD_of_field busy l.isLt).trans (s.lanesBusy_get l), depth, zero, fault, revision⟩
  · refine ⟨?_, ?_, ?_, ?_, ?_, ?_, fun o h ho => State.registerValue_reserved hlow ho h⟩
    all_goals exact if_neg (State.registerValue_accepts hlow rfl)

/-! ### IRQ (11, R160) -/

/-- Two vectors share a set bit exactly when their conjunction is not 0. -/
theorem and_ne_zero_iff {n : Nat} (x y : BitVec n) :
    x &&& y ≠ 0 ↔ ∃ i : Fin n, x.getLsbD i.val = true ∧ y.getLsbD i.val = true := by
  rw [ne_eq, BitVec.eq_of_getLsbD_eq_iff]
  simp only [BitVec.ofNat_eq_ofNat, BitVec.getLsbD_and, BitVec.getLsbD_zero, Classical.not_forall,
    Bool.not_eq_false, Bool.and_eq_true, exists_prop, Fin.exists_iff]

theorem State.irq_iff (s : State) : s.irq = true ↔ s.regp.resetLow = false ∧
    ∃ i : Fin 4, s.regp.cause.getLsbD i.val = true ∧ s.regp.mask.getLsbD i.val = true := by
  rw [← and_ne_zero_iff]
  simp [State.irq]

/-- IRQ is a function of CAUSE, MASK and RESETn. -/
theorem State.irq_congr {s t : State} (hc : s.regp.cause = t.regp.cause) (hm : s.regp.mask = t.regp.mask)
    (hl : s.regp.resetLow = t.regp.resetLow) : s.irq = t.irq := by
  unfold State.irq
  rw [hc, hm, hl]

theorem State.irq_of_unmasked {s : State} (h : s.regp.cause &&& s.regp.mask = 0) : s.irq = false := by
  unfold State.irq
  simp [h]

/-- A CAUSE bit set before a CONTROL write's ENABLE acts is set after it: an enable request with AREA 0 sets FAULT, and
nothing there clears a bit (10, R140; 11, R156). -/
theorem State.writeEnable_keepsCause (s : State) (w : Word) {i : Nat} (h : s.regp.cause.getLsbD i = true) :
    (s.writeEnable w).regp.cause.getLsbD i = true := by
  cases hen : enableBit w with
  | false =>
    obtain ⟨-, cause, -⟩ := State.writeEnable_cleared (s := s) hen
    rwa [cause]
  | true =>
    by_cases hoff : s.engc.engine = .off
    · rw [State.writeEnable_request hen hoff]
      by_cases harea : s.regp.area = 0
      · rw [State.enableRequest_badArea harea]
        exact (BitVec.getLsbD_or ..).trans (by rw [h, Bool.true_or])
      · rw [State.enableRequest_goodArea harea]
        exact h
    · rwa [State.writeEnable_kept hen hoff]

/-- What a CONTROL write that resets nothing leaves of what IRQ depends on. -/
theorem State.control1_irq {s : State} {w : Word} (hlow : s.regp.resetLow = false) (hs : softResetBit w = false) :
    (s.control1 w).regp.mask = w.extractLsb' 8 4 ∧ (s.control1 w).regp.resetLow = false ∧
      ∀ i, s.regp.cause.getLsbD i = true → (s.control1 w).regp.cause.getLsbD i = true := by
  obtain ⟨regp, -⟩ := (s.writeFields w).writeEnable_rest w
  obtain ⟨-, -, -, -, -, -, -, -, -, -, -, -, fields⟩ := s.writeFields_facts w
  rw [State.control1_plain hlow hs]
  refine ⟨by rw [regp, fields]; rfl, by rw [regp, fields]; exact hlow, fun i h => ?_⟩
  exact State.writeEnable_keepsCause _ w (by rw [fields]; exact h)

theorem State.metBy_resetLow (s : State) (c : Instr) : (s.metBy c).regp.resetLow = s.regp.resetLow := by
  unfold State.metBy
  split
  · exact (s.met_fields _).1
  · exact (s.met_fields _).1
  · exact s.settled_resetLow

/-- The CONTROL writes that say nothing of the bus act on the state that they meet. -/
theorem exec_control1 (s : State) (w : Word) (early : Bool) (hs : List HostWrite) :
    ∀ c ∈ [Instr.mask w, .disable { word := w, early := early, hostWrites := hs }, .enableRequest w, .tickdiv w,
      .sweep w early], exec c s = .next ((s.metBy c).control1 w) := by
  simp only [List.forall_mem_cons]
  exact ⟨rfl, rfl, rfl, rfl, rfl, nofun⟩

theorem exec_causeClear {s : State} (w : Word) (h : s.regp.resetLow = false) : exec (.causeClear w) s =
    .next { s with regp := { s.regp with
      cause := s.regp.cause &&& ~~~ (w.extractLsb' 0 4), response := .normal } } :=
  congrArg Host.Outcome.next (if_neg (Bool.eq_false_iff.1 h))

/-- Settles O14: IRQ by `State.irq_iff`, after a CONTROL write by `State.control1_irq`, and low after a reset with no
CAUSE bit set. -/
theorem irqFollowsCauseAndMask : Obligations.IrqFollowsCauseAndMask := by
  refine ⟨State.irq_iff, fun s t => State.irq_congr, fun s w early hs hlow hsoft c hc => ?_,
    fun s c i hlow hcause hmask => ?_, fun s t w h hclear hlow => ?_, fun s t b h => ?_,
    fun s t w b hlow hsoft h => ?_⟩
  · obtain ⟨mask, low, cause⟩ := State.control1_irq ((s.metBy_resetLow c).trans hlow) hsoft
    refine ⟨_, exec_control1 s w early hs c hc, mask, fun i hi hw => (State.irq_iff _).2 ⟨low, i, cause i hi, ?_⟩⟩
    rw [mask, BitVec.getLsbD_extractLsb', hw, Bool.and_true]
    exact decide_eq_true i.isLt
  · refine (State.irq_iff _).2 ⟨hlow, i, ?_, hmask⟩
    rw [State.setCause_regp, BitVec.getLsbD_or, hcause, Bool.or_true]
  · obtain rfl := Host.Outcome.next.inj ((exec_causeClear w hlow).symm.trans h)
    refine State.irq_of_unmasked (Eq.trans ?_ hclear)
    show s.regp.cause &&& ~~~ (w.extractLsb' 0 4) &&& s.regp.mask = _
    rw [BitVec.and_assoc, BitVec.and_comm (~~~ _), BitVec.and_assoc]
  · obtain rfl := Host.Outcome.next.inj h
    exact State.irq_of_cause rfl
  · have soft := State.controlWrite_soft (s.settled_resetLow.trans hlow) hsoft b
    obtain rfl := Host.Outcome.next.inj ((congrArg Host.Outcome.next soft).symm.trans h)
    exact State.irq_of_cause rfl

/-! ### AREA_WRITE and CAUSE_CLEAR (11, R158, R159) -/

theorem exec_areaWrite_off {s : State} (w : Word) (hlow : s.regp.resetLow = false)
    (hoff : s.settled.engc.engine = .off) : exec (.areaWrite w) s =
      .next (({ s.settled with regp := { s.settled.regp with area := w &&& 0xFFFFFF00#32 } } : State).respond
        .normal) := by
  have low : ¬ s.settled.regp.resetLow = true := Bool.eq_false_iff.1 (s.settled_resetLow.trans hlow)
  exact congrArg Host.Outcome.next ((if_neg low).trans (if_pos hoff))

theorem exec_areaWrite_on {s : State} (w : Word) (hlow : s.regp.resetLow = false)
    (hon : s.settled.engc.engine ≠ .off) : exec (.areaWrite w) s = .next (s.settled.respond .normal) := by
  have low : ¬ s.settled.regp.resetLow = true := Bool.eq_false_iff.1 (s.settled_resetLow.trans hlow)
  exact congrArg Host.Outcome.next ((if_neg low).trans (if_neg hon))

/-- Settles O13: AREA_WRITE by the engine state that it meets, CAUSE_CLEAR bit by bit. -/
theorem areaAndCauseWritesTakeEffect : Obligations.AreaAndCauseWritesTakeEffect := by
  refine ⟨fun s w hlow => ?_, fun s w hlow => ⟨_, fun i => ?_, exec_causeClear w hlow⟩⟩
  · by_cases hoff : s.settled.engc.engine = .off
    · rw [exec_areaWrite_off w hlow hoff, if_pos hoff]
      rfl
    · rw [exec_areaWrite_on w hlow hoff, if_neg hoff, ← s.settled_area]
      rfl
  · simp [i.isLt]

/-! ### Ignored writes and refused accesses (11, R154, R158) -/

theorem exec_ignoredRegisterWrite {s : State} {o : BitVec 6} (w : Word) (hlow : s.regp.resetLow = false)
    (h : 0x10 ≤ o.toNat ∧ o.toNat % 4 = 0) :
    exec (.ignoredRegisterWrite o w) s = .next (s.respond .normal) :=
  congrArg Host.Outcome.next ((if_neg (Bool.eq_false_iff.1 hlow)).trans (if_pos h))

theorem exec_registerErrorResponse {s : State} {a : PortAccess}
    (h : s.regp.resetLow = true ∨ a.size ≠ .word ∨ a.offset.toNat % 4 ≠ 0) :
    exec (.registerErrorResponse a) s = .next (s.respond .error) :=
  congrArg Host.Outcome.next (if_pos (by simpa [or_assoc] using h))

/-- Settles O16: both are `State.respond`, which changes nothing but the response. -/
theorem ignoredAndRefusedAccesses : Obligations.IgnoredAndRefusedAccesses :=
  ⟨fun _ _ w hlow ho hal => exec_ignoredRegisterWrite w hlow ⟨ho, hal⟩, fun _ _ => exec_registerErrorResponse⟩

end Sys2Proof.Machine
end

section
/-! The numbers of the codes and of the step kinds, where they are written, shown and judged (12, R170). -/

namespace Sys2Proof.Machine

/-! ### Codes in the words (12, R165, R166, R170) -/

/-- The outcome word has the outcome's code in its lowest byte. -/
theorem byte0_outcomeWord (o : PlanOutcome) (lastStep lane passes : Byte) :
    byte0 (outcomeWord o lastStep lane passes) = o.code :=
  (quad8_bytes passes lane lastStep o.code).1

/-- The result head has the result's code in its lowest byte. -/
theorem StepResult.byte0_head (e : StepResult) : byte0 e.head = e.code.code :=
  (quad8_bytes 0 e.aux e.pass e.code.code).1

/-- NOT_RUN, 0, is the code of no result that the part writes. -/
theorem ResultCode.code_ne_zero (c : ResultCode) : c.code ≠ 0 := by
  cases c <;> decide

/-! ### Step kinds (06, R85, R87; 12, R170) -/

/-- The kinds are 1 to 9. -/
theorem stepGood_unknown {t : StepReq} (outMask : Byte) (i : Nat) (h : t.kind.toNat = 0 ∨ 10 ≤ t.kind.toNat) :
    stepGood outMask i t = false := by
  unfold stepGood
  split
  case h_10 => rfl
  all_goals omega

/-- A line's level is driven by its claim alone, whatever the lanes hold. -/
theorem State.setLane_drive_outd (s : State) (l k : LaneId) (x : Lane) (o : OutLine) (b : Bool) :
    ((s.setLane l x).drive k o b).outd = (s.drive k o b).outd := by
  unfold State.drive
  rw [State.setLane_outd]
  split <;> rfl

/-- The step that begins is the request at its place in the lane's list. -/
theorem Lane.getD_steps {x : Lane} {k : Nat} {t : StepReq} (h : x.steps[k]? = some t) :
    x.steps.getD k StepReq.zero = t := by
  rw [List.getD_eq_getElem?_getD, h, Option.getD_some]

/-- Settles O60: the codes by their tables, the words and STATUS by their fields, and each kind by what its step
begins. -/
theorem codesHaveTheirNumbers : Obligations.CodesHaveTheirNumbers := by
  refine ⟨rfl, rfl, ResultCode.code_ne_zero, rfl, rfl, byte0_outcomeWord, StepResult.byte0_head, fun s => ?_,
    fun m i t => stepGood_unknown m i, fun s l k t ht => ?_⟩
  · obtain ⟨engine, -, -, -, -, fault, -⟩ := s.status_fields
    exact ⟨engine, fault⟩
  · obtain rfl := Lane.getD_steps ht
    refine ⟨fun hold now => ?_, fun wait (ahead : reached s.epoch _ = false) => ?_, fun edge => ?_,
      fun width => ?_, fun tally => ?_, fun period => ?_, fun set => ?_, fun pulse => ?_, fun check => ?_⟩
    · rw [State.beginStep_hold s l k hold, if_neg now, State.setLane_lane]; rfl
    · rw [State.beginStep_until s l k wait, if_neg (Bool.eq_false_iff.1 ahead), State.setLane_lane]; rfl
    · rw [State.beginStep_edge s l k edge, State.setLane_lane]; rfl
    · rw [State.beginStep_width s l k width, State.setLane_lane]; rfl
    · rw [State.beginStep_tally s l k tally, State.setLane_lane]; rfl
    · rw [State.beginStep_period s l k period, State.setLane_lane]; rfl
    · obtain ⟨-, outd, -⟩ := State.finishStep_completes ..
      rw [State.beginStep_set s l k set]
      exact outd.trans (State.setLane_drive_outd ..)
    · rw [State.beginStep_pulse s l k pulse, State.drive_lane, State.setLane_lane]; rfl
    · rw [State.beginStep_check s l k check, State.lane_of_lanes (State.raise_lanes ..), State.setLane_lane]; rfl

end Sys2Proof.Machine
end

section
/-! The step and the queue of commands: a step runs the front command on the rest of the queue, and every command
answers a next state whose queue is the one it met (logs 3, 5, 26, 27). -/

namespace Sys2Proof.Machine

/-! ### A step, by its queue -/

theorem step_of_front {s : State} {c : Instr} {rest : List Instr} (h : s.pending = c :: rest) :
    step s = exec c { s with pending := rest } := by
  unfold step
  rw [h]

theorem step_of_idle {s : State} (h : s.pending = []) : step s = .next s := by
  unfold step
  rw [h]

/-- Settles O1, by the equation of `step` for a queue with a front. -/
theorem frontCommandRuns : Obligations.FrontCommandRuns := fun _ _ _ => step_of_front

/-! ### The queue is outside the part -/

theorem State.pending_of_outside {s t : State} (h : t.outside = s.outside) : t.pending = s.pending :=
  congrArg Outside.pending h

theorem OutsideButRecalls.pending {s t : State} (h : OutsideButRecalls s t) : t.pending = s.pending :=
  (congrArg Outside.pending h :)

/-- A stall too leaves the queue. -/
theorem OutsideButBus.pending {b : Option OnBus} {s t : State} (h : OutsideButBus b s t) : t.pending = s.pending :=
  h.elim (fun same => (congrArg Outside.pending same :)) (fun stalled => (congrArg Outside.pending stalled :))

/-! ### The returns of accesses (11, R161) -/

/-- A unit that leaves the queue as it handles a return leaves it where the return is not due as well. -/
theorem State.busEvent_pending (s : State) (accepts : Access → Bool) (r : BusReturn)
    {handle : State → Request → Bool → Word → State}
    (hh : ∀ u req f w, (handle u req f w).pending = u.pending) :
    (s.busEvent accepts r handle).pending = s.pending := by
  rcases s.busEvent_cases accepts r handle with e | ⟨req, rest, -, -, e⟩ <;> rw [e]
  rw [hh]
  exact s.settled_pending

/-- A return that its lane has given up leaves the queue, and so the whole return does where its handling does. -/
theorem State.discardedOr_pending {s t : State} (req : Request) (ht : t.pending = s.pending) :
    (if req.abandoned then s.discarded req else t).pending = s.pending := by
  split
  · exact State.pending_of_outside (s.discarded_outside req)
  · exact ht

theorem exec_return_queue {c : Instr} {r : BusReturn} (hc : busReturnOf c = some r) (s : State) :
    ∃ t, exec c s = .next t ∧ t.pending = s.pending := by
  cases c <;> cases hc <;> refine ⟨_, rfl, s.busEvent_pending _ r fun u req f w => ?_⟩
  case configurationCheck => exact State.pending_of_outside (u.configReturned_outside f w)
  case lineTableReload => exact State.pending_of_outside (u.reloadReturned_outside f w)
  case slotVisit => exact (u.visitReturned_outside f w).pending
  case discovery => exact State.pending_of_outside (u.recordReturned_outside f w)
  case take first => exact (u.takeReturned_outside f first).pending
  case counterWrite => exact (u.counterReturned_outside f r.atStall).pending
  case loadingRead => exact State.pending_of_outside (u.loadingReturned_outside f w)
  case configAckWrite => exact (u.configAckReturned_outside f r.atStall).pending
  case settleWrite =>
    split
    · exact (u.smonSettleReturned_outside f r.atStall).pending
    · exact (u.orphanSettleReturned_outside f r.atStall).pending
    · exact (u.laneSettleReturned_outside _ f r.atStall).pending
    · rfl
  case loadRead =>
    refine State.discardedOr_pending req ?_
    split
    · exact State.pending_of_outside (u.loadHostReturned_outside _ f w)
    · exact State.pending_of_outside (u.loadStepReturned_outside _ f w)
    · rfl
  case preWriteCheck =>
    refine State.discardedOr_pending req ?_
    split
    · exact State.pending_of_outside (u.listCheckReturned_outside _ f w)
    · exact (u.settleCheckReturned_outside _ f w r.atStall).pending
    · rfl
  case resultWrite =>
    split
    · exact State.pending_of_outside (u.resultReturned_outside _ f)
    · rfl
  case check =>
    refine State.discardedOr_pending req ?_
    split
    · exact State.pending_of_outside (u.qualifierReturned_outside _ f w)
    · rfl
  case qualifierRead =>
    refine State.discardedOr_pending req ?_
    split
    · exact State.pending_of_outside (u.qualifierReturned_outside _ f w)
    · rfl

/-! ### The commands inside the part -/

theorem State.boundary_pending (s : State) (x : TickInput) : (s.boundary x).pending = s.pending :=
  State.pending_of_outside (s := s.openBoundary x.pins) (foldl_outside _ State.boundaryAct_outside _ _)

theorem State.runDue_pending (s : State) (e : Due) : (s.runDue e).pending = s.pending :=
  State.pending_of_outside (s.runDue_outside e)

theorem exec_inside_queue {c : Instr} (hr : busReturnOf c = none) (hb : onBusOf c = none) (s : State) :
    ∃ t, exec c s = .next t ∧ t.pending = s.pending := by
  have afterEdges (e : Due) : (s.acceptEdges.runDue e).pending = s.pending :=
    (State.runDue_pending _ e).trans (State.pending_of_outside s.acceptEdges_outside)
  cases c <;> cases hr <;> cases hb <;> refine ⟨_, rfl, ?_⟩
  case areaWrite w =>
    refine Eq.trans ?_ s.settled_pending
    split
    · rfl
    · split <;> rfl
  case nudge w =>
    refine Eq.trans ?_ s.settled_pending
    split
    · rfl
    · exact State.pending_of_outside (s := s.settled.respond .normal) (State.sweepRequest_outside _)
  case causeClear w => split <;> rfl
  case ignoredRegisterWrite o w =>
    split
    · rfl
    · split <;> rfl
  case registerErrorResponse a => split <;> rfl
  case resetRelease => rfl
  case tickBoundary x =>
    split
    · exact (State.boundary_pending ..).trans s.settled_pending
    · rfl
  case windowExpiry l => exact afterEdges _
  case tallyGateEnd l => exact afterEdges _
  case overrange l => exact afterEdges _
  all_goals exact s.runDue_pending _

/-! ### CONTROL and the resets (10, R153; 11, R156, R157) -/

theorem State.metBy_pending (s : State) (c : Instr) : (s.metBy c).pending = s.pending := by
  have met (early : Bool) : (s.met early).pending = s.pending := by
    cases early
    · exact s.settled_pending
    · rfl
  unfold State.metBy
  split
  · exact met _
  · exact met _
  · exact met false

/-- A CONTROL write leaves the queue, also where it resets the part. -/
theorem State.controlWrite_pending (s : State) (w : Word) (b : OnBus) :
    (s.controlWrite w b).pending = s.pending := by
  have plain (h : s.regp.resetLow = true ∨ ctlSoftReset w = false) :
      (s.controlWrite w b).pending = s.pending := by
    obtain ⟨-, queue, -⟩ := s.controlWrite_keeps w b h
    exact queue
  cases hlow : s.regp.resetLow with
  | true => exact plain (.inl hlow)
  | false =>
    cases hsoft : ctlSoftReset w with
    | false => exact plain (.inr hsoft)
    | true =>
      rw [State.controlWrite_soft hlow hsoft]
      rfl

theorem exec_control_queue {c : Instr} {b : OnBus} (hb : onBusOf c = some b) (s : State) :
    ∃ t, exec c s = .next t ∧ t.pending = s.pending := by
  rcases exec_control hb with ⟨w, he⟩ | he
  · exact ⟨_, he s, (State.controlWrite_pending ..).trans (s.metBy_pending c)⟩
  · exact ⟨_, he s, s.metBy_pending c⟩

/-! ### Every command -/

/-- Settles O2: a command brings an access back, may reset the part or acts inside it, and each of the three answers a
next state with the queue it met. -/
theorem commandsAnswerNextAndEmptyQueueIdles : Obligations.CommandsAnswerNextAndEmptyQueueIdles := by
  refine ⟨fun c s => ?_, fun _ => step_of_idle⟩
  cases hr : busReturnOf c with
  | some r => exact exec_return_queue hr s
  | none =>
    cases hb : onBusOf c with
    | some b => exact exec_control_queue hb s
    | none => exact exec_inside_queue hr hb s

end Sys2Proof.Machine
end

section
/-! The write-behind lists stay within their bounds (06, R90): every command keeps them, in the three ways in which a
command acts. -/

namespace Sys2Proof.Machine

/-! ### The returns of accesses (11, R161) -/

/-- A command that brings an access back keeps the lists, where what it does with the access keeps them. -/
theorem exec_busEvent_lists {c : Instr} {s t : State} (hs : s.ListsBounded) (h : exec c s = .next t)
    {accepts : Access → Bool} {r : BusReturn} {handle : State → Request → Bool → Word → State}
    (he : exec c s = .next (s.busEvent accepts r handle))
    (hh : ∀ u req f w, u.ListsBounded → (handle u req f w).ListsBounded) : t.ListsBounded := by
  obtain rfl := Host.Outcome.next.inj (he.symm.trans h)
  exact State.busEvent_lists hs accepts r handle hh

/-- The return to a lane's read or check: discarded where the lane has given the access up. -/
theorem State.discardedOr_lists {s t : State} (hs : s.ListsBounded) (req : Request) (ht : t.ListsBounded) :
    (if req.abandoned then s.discarded req else t).ListsBounded := by
  split
  · exact State.discarded_lists hs req
  · exact ht

theorem exec_return_lists {c : Instr} {r : BusReturn} (hc : busReturnOf c = some r) {s t : State}
    (hs : s.ListsBounded) (h : exec c s = .next t) : t.ListsBounded := by
  cases c <;> cases hc <;> refine exec_busEvent_lists hs h rfl fun u req f w hu => ?_
  case configurationCheck =>
    obtain ⟨config, -⟩ := State.smonReturns_lists hu f false w none
    exact config
  case lineTableReload =>
    obtain ⟨-, reload, -⟩ := State.smonReturns_lists hu f false w none
    exact reload
  case slotVisit =>
    obtain ⟨-, -, visit, -⟩ := State.smonReturns_lists hu f false w none
    exact visit
  case discovery =>
    obtain ⟨-, -, -, record, -⟩ := State.smonReturns_lists hu f false w none
    exact record
  case take first =>
    obtain ⟨-, -, -, -, take, -⟩ := State.smonReturns_lists hu f first w none
    exact take
  case settleWrite =>
    obtain ⟨-, -, -, -, -, smon, orphan⟩ := State.smonReturns_lists hu f false w r.atStall
    split
    · exact smon
    · exact orphan
    · exact State.laneSettleReturned_lists hu _ f _
    · exact hu
  case counterWrite => exact State.counterReturned_lists hu f _
  case loadingRead => exact State.loadingReturned_lists hu f w
  case configAckWrite => exact State.configAckReturned_lists hu f _
  case loadRead =>
    refine State.discardedOr_lists hu req ?_
    split
    · exact State.loadHostReturned_lists hu _ f w
    · exact State.loadStepReturned_lists hu _ f w
    · exact hu
  case preWriteCheck =>
    refine State.discardedOr_lists hu req ?_
    split
    · exact State.listCheckReturned_lists hu _ f w
    · exact State.settleCheckReturned_lists hu _ f w _
    · exact hu
  case resultWrite =>
    split
    · exact State.resultReturned_lists hu _ f
    · exact hu
  case check =>
    refine State.discardedOr_lists hu req ?_
    split
    · exact State.qualifierReturned_lists hu _ f w
    · exact hu
  case qualifierRead =>
    refine State.discardedOr_lists hu req ?_
    split
    · exact State.qualifierReturned_lists hu _ f w
    · exact hu

/-! ### The commands inside the part -/

theorem exec_inside_lists {c : Instr} {s t : State} (hr : busReturnOf c = none) (hb : onBusOf c = none)
    (hs : s.ListsBounded) (h : exec c s = .next t) : t.ListsBounded := by
  have met : s.settled.ListsBounded := State.settled_lists hs
  have edges : s.acceptEdges.ListsBounded := State.acceptEdges_lists hs
  cases c <;> cases hr <;> cases hb <;> obtain rfl := Host.Outcome.next.inj h
  case areaWrite w =>
    refine met.of_lanes ?_
    split
    · rfl
    · split <;> rfl
  case nudge w =>
    split
    · exact met.of_lanes rfl
    · exact State.sweepRequest_lists (met.of_lanes rfl)
  case causeClear w => split <;> exact hs.of_lanes rfl
  case ignoredRegisterWrite o w =>
    split
    · exact hs.of_lanes rfl
    · split
      · exact hs.of_lanes rfl
      · exact hs
  case registerErrorResponse a =>
    split
    · exact hs.of_lanes rfl
    · exact hs
  case resetRelease => exact hs.of_lanes rfl
  case tickBoundary x =>
    split
    · exact State.boundary_lists met x
    · exact hs
  case windowExpiry l => exact State.runDue_lists edges _
  case tallyGateEnd l => exact State.runDue_lists edges _
  case overrange l => exact State.runDue_lists edges _
  all_goals exact State.runDue_lists hs _

/-! ### CONTROL and the resets -/

theorem State.metBy_lists {s : State} (hs : s.ListsBounded) (c : Instr) : (s.metBy c).ListsBounded := by
  have met (early : Bool) : (s.met early).ListsBounded := by
    cases early
    · exact State.settled_lists hs
    · exact hs
  unfold State.metBy
  split
  · exact (met _).of_lanes rfl
  · exact met _
  · exact met false

/-- A command keeps the lists within their bounds, whichever of the three ways it acts. -/
theorem exec_lists (c : Instr) (s t : State) (hs : s.ListsBounded) (h : exec c s = .next t) :
    t.ListsBounded := by
  cases hr : busReturnOf c with
  | some r => exact exec_return_lists hr hs h
  | none =>
    cases hb : onBusOf c with
    | some b =>
      rcases exec_control hb with ⟨w, he⟩ | he <;> obtain rfl := Host.Outcome.next.inj ((he s).symm.trans h)
      · exact State.controlWrite_lists (State.metBy_lists hs c) w b
      · exact State.resetUnits_lists _ _ _
    | none => exact exec_inside_lists hr hb hs h

/-- Settles O8: an invariant of every command, which does not look at the queue of commands. -/
theorem writeBehindListsStayBounded : Obligations.WriteBehindListsStayBounded :=
  fun _ _ => step_keeps (fun _ _ h => h.of_lanes rfl) exec_lists

end Sys2Proof.Machine
end

section
/-! What of the settings each command leaves alone: AREA, TICKDIV, SWEEP, MASK, the epoch, the pins and the recalls in
force (11, R155 to R158; 03, R39; 07, R103, R107; 02, R28). -/

namespace Sys2Proof.Machine

/-! ### The returns of accesses (11, R161) -/

/-- Outside the part everything is as it was but memory and, unless they are held fixed, the recalls in force. -/
structure SettingsKept (fixed : Prop) (s t : State) : Prop where
  outside : t.outside = { s.outside with mem := t.mem, recalls := t.smon.recalls }
  recalls : fixed → t.smon.recalls = s.smon.recalls

section Kept

variable {fixed : Prop} {s t : State}

theorem SettingsKept.of_outside (h : t.outside = s.outside) : SettingsKept fixed s t where
  outside := by
    have hm : t.mem = s.mem := congrArg Outside.mem h
    have hr : t.smon.recalls = s.smon.recalls := congrArg Outside.recalls h
    rw [h, hm, hr]
    rfl
  recalls := fun _ => congrArg Outside.recalls h

theorem SettingsKept.of_butBus {b : Option OnBus} (h : OutsideButBus b s t) : SettingsKept fixed s t := by
  rcases h with h | h
  · exact .of_outside h
  · have hm : t.mem = (s.emptyBus b).mem := congrArg Outside.mem h
    have hr : t.smon.recalls = s.smon.recalls := congrArg Outside.recalls h
    refine ⟨?_, fun _ => hr⟩
    rw [h, hm, hr]
    rfl

theorem SettingsKept.of_butRecalls (h : OutsideButRecalls s t) (hf : ¬ fixed) : SettingsKept fixed s t where
  outside := by
    have hm : t.mem = s.mem := congrArg Outside.mem h
    rw [h, hm]
    rfl
  recalls := fun f => absurd f hf

/-- The return to a lane's read or check: discarded where the lane has given the access up. -/
theorem SettingsKept.of_discardedOr (req : Request) (h : SettingsKept fixed s t) :
    SettingsKept fixed s (if req.abandoned then s.discarded req else t) := by
  split
  · exact .of_outside (State.discarded_outside s req)
  · exact h

end Kept

/-- The commands that may change the recalls in force: a visit's read and a take's write. -/
def actsOnRecalls : Instr → Bool
  | .slotVisit _ => true
  | .take _ _ => true
  | _ => false

/-- What a command does with the access that it brings back leaves the settings alone. -/
theorem exec_return_settings {c : Instr} {r : BusReturn} (hc : busReturnOf c = some r) :
    ∃ (accepts : Access → Bool) (handle : State → Request → Bool → Word → State),
      (∀ s, exec c s = .next (s.busEvent accepts r handle)) ∧
      ∀ s req f w, SettingsKept (actsOnRecalls c = false) s (handle s req f w) := by
  cases c <;> cases hc <;> refine ⟨_, _, fun _ => rfl, fun s req f w => ?_⟩
  case configurationCheck => exact .of_outside (s.configReturned_outside f w)
  case lineTableReload => exact .of_outside (s.reloadReturned_outside f w)
  case slotVisit => exact .of_butRecalls (s.visitReturned_outside f w) nofun
  case discovery => exact .of_outside (s.recordReturned_outside f w)
  case take first => exact .of_butRecalls (s.takeReturned_outside f first) nofun
  case settleWrite =>
    split
    · exact .of_butBus (s.smonSettleReturned_outside f _)
    · exact .of_butBus (s.orphanSettleReturned_outside f _)
    · exact .of_butBus (s.laneSettleReturned_outside _ f _)
    · exact .of_outside rfl
  case counterWrite => exact .of_butBus (s.counterReturned_outside f _)
  case loadingRead => exact .of_outside (s.loadingReturned_outside f w)
  case configAckWrite => exact .of_butBus (s.configAckReturned_outside f _)
  case loadRead =>
    refine .of_discardedOr req ?_
    split
    · exact .of_outside (s.loadHostReturned_outside _ f w)
    · exact .of_outside (s.loadStepReturned_outside _ f w)
    · exact .of_outside rfl
  case preWriteCheck =>
    refine .of_discardedOr req ?_
    split
    · exact .of_outside (s.listCheckReturned_outside _ f w)
    · exact .of_butBus (s.settleCheckReturned_outside _ f w _)
    · exact .of_outside rfl
  case resultWrite =>
    split
    · exact .of_outside (s.resultReturned_outside _ f)
    · exact .of_outside rfl
  case check =>
    refine .of_discardedOr req ?_
    split
    · exact .of_outside (s.qualifierReturned_outside _ f w)
    · exact .of_outside rfl
  case qualifierRead =>
    refine .of_discardedOr req ?_
    split
    · exact .of_outside (s.qualifierReturned_outside _ f w)
    · exact .of_outside rfl

/-- After a return the settings are as they were, and the pins show what the return has brought. -/
theorem exec_return_keepsSettings {c : Instr} {r : BusReturn} (hc : busReturnOf c = some r) {s t : State}
    (h : exec c s = .next t) :
    (t.regp.area = s.regp.area ∧ t.regp.tickdiv = s.regp.tickdiv ∧ t.regp.sweep = s.regp.sweep ∧
      t.regp.mask = s.regp.mask ∧ t.tbu.epoch = s.tbu.epoch) ∧
      (t.inc.pins = s.inc.pins ∨ t.inc.pins = r.pins) ∧
      (actsOnRecalls c = false → t.smon.recalls = s.smon.recalls) := by
  obtain ⟨accepts, handle, he, kept⟩ := exec_return_settings hc
  obtain rfl := Host.Outcome.next.inj ((he s).symm.trans h)
  rcases State.busEvent_cases s accepts r handle with e | ⟨req, rest, -, -, e⟩ <;> rw [e]
  · exact ⟨⟨rfl, rfl, rfl, rfl, rfl⟩, .inl rfl, fun _ => rfl⟩
  · have k := kept (s.afterReturn r req rest) req (replyFailed r.reply) (s.wordReturned r req rest)
    have o := State.afterReturn_outside s r req rest
    have both := k.outside
    rw [o] at both
    exact ⟨⟨congrArg Outside.area both, congrArg Outside.tickdiv both, congrArg Outside.sweep both,
      congrArg Outside.mask both, congrArg Outside.epoch both⟩, .inr (congrArg Outside.pins both),
      fun hf => (k.recalls hf).trans (congrArg Outside.recalls o)⟩

/-! ### The commands inside the part -/

/-- The settings are held, the epoch and the pins where `still`, AREA where `fixed`. -/
structure SettingsHeld (fixed still : Prop) (s t : State) : Prop where
  tickdiv : t.regp.tickdiv = s.regp.tickdiv
  sweep : t.regp.sweep = s.regp.sweep
  mask : t.regp.mask = s.regp.mask
  recalls : t.smon.recalls = s.smon.recalls
  area : fixed → t.regp.area = s.regp.area
  epoch : still → t.tbu.epoch = s.tbu.epoch
  pins : still → t.inc.pins = s.inc.pins

section Held

variable {fixed still : Prop} {s t : State}

theorem SettingsHeld.of_outside (h : t.outside = s.outside) : SettingsHeld fixed still s t where
  tickdiv := congrArg Outside.tickdiv h
  sweep := congrArg Outside.sweep h
  mask := congrArg Outside.mask h
  recalls := congrArg Outside.recalls h
  area := fun _ => congrArg Outside.area h
  epoch := fun _ => congrArg Outside.epoch h
  pins := fun _ => congrArg Outside.pins h

theorem SettingsHeld.of_runDue (s : State) (e : Due) : SettingsHeld fixed still s (s.runDue e) :=
  .of_outside (s.runDue_outside e)

theorem SettingsHeld.of_respond (s : State) (a : PortResponse) : SettingsHeld fixed still s (s.respond a) :=
  ⟨rfl, rfl, rfl, rfl, fun _ => rfl, fun _ => rfl, fun _ => rfl⟩

theorem SettingsHeld.trans {u : State} (h : SettingsHeld fixed still s t) (g : SettingsHeld fixed still t u) :
    SettingsHeld fixed still s u where
  tickdiv := g.tickdiv.trans h.tickdiv
  sweep := g.sweep.trans h.sweep
  mask := g.mask.trans h.mask
  recalls := g.recalls.trans h.recalls
  area := fun f => (g.area f).trans (h.area f)
  epoch := fun f => (g.epoch f).trans (h.epoch f)
  pins := fun f => (g.pins f).trans (h.pins f)

/-- Finishing the instant holds them all. -/
theorem SettingsHeld.of_settled (s : State) : SettingsHeld fixed still s s.settled where
  tickdiv := s.settled_tickdiv
  sweep := s.settled_sweep
  mask := s.settled_mask
  recalls := s.settled_recalls
  area := fun _ => s.settled_area
  epoch := fun _ => s.settled_epoch
  pins := fun _ => s.settled_pins

end Held

/-- Of what is outside the part a boundary changes the epoch and the pins, which it takes from the command. -/
theorem State.boundary_outside (s : State) (x : TickInput) :
    (s.boundary x).outside = { s.outside with epoch := s.tbu.epoch + 1, pins := x.pins } := by
  obtain ⟨hp, -⟩ := Inputs.sampleAll_facts (s.tbu.epoch + 1) x.pins s.inc
  have opened : (s.openBoundary x.pins).outside =
      { s.outside with epoch := s.tbu.epoch + 1, pins := (s.inc.sampleAll (s.tbu.epoch + 1) x.pins).pins } := rfl
  rw [State.boundary, foldl_outside _ State.boundaryAct_outside, opened, hp]

theorem exec_inside_settings {c : Instr} {s t : State} (hr : busReturnOf c = none) (hb : onBusOf c = none)
    (h : exec c s = .next t) :
    SettingsHeld (∀ w, c ≠ .areaWrite w) (∀ x, c ≠ .tickBoundary x) s t := by
  cases c <;> cases hr <;> cases hb <;> obtain rfl := Host.Outcome.next.inj h
  case areaWrite w =>
    refine (SettingsHeld.of_settled s).trans ?_
    split
    · exact .of_respond ..
    · split
      · exact ⟨rfl, rfl, rfl, rfl, fun f => absurd rfl (f w), fun _ => rfl, fun _ => rfl⟩
      · exact .of_respond ..
  case nudge w =>
    refine (SettingsHeld.of_settled s).trans ?_
    split
    · exact .of_respond ..
    · exact (SettingsHeld.of_respond ..).trans (.of_outside (State.sweepRequest_outside _))
  case causeClear w =>
    split <;> exact ⟨rfl, rfl, rfl, rfl, fun _ => rfl, fun _ => rfl, fun _ => rfl⟩
  case ignoredRegisterWrite o w =>
    split
    · exact .of_respond ..
    · split
      · exact .of_respond ..
      · exact .of_outside rfl
  case registerErrorResponse a =>
    split
    · exact .of_respond ..
    · exact .of_outside rfl
  case resetRelease => exact ⟨rfl, rfl, rfl, rfl, fun _ => rfl, fun _ => rfl, fun _ => rfl⟩
  case tickBoundary x =>
    split
    · have o := s.settled.boundary_outside x
      exact (SettingsHeld.of_settled s).trans ⟨congrArg Outside.tickdiv o, congrArg Outside.sweep o,
        congrArg Outside.mask o, congrArg Outside.recalls o, fun _ => congrArg Outside.area o,
        fun f => absurd rfl (f x), fun f => absurd rfl (f x)⟩
    · exact .of_outside rfl
  case windowExpiry l => exact (SettingsHeld.of_outside s.acceptEdges_outside).trans (.of_runDue ..)
  case tallyGateEnd l => exact (SettingsHeld.of_outside s.acceptEdges_outside).trans (.of_runDue ..)
  case overrange l => exact (SettingsHeld.of_outside s.acceptEdges_outside).trans (.of_runDue ..)
  all_goals exact .of_runDue ..

/-- The pins after a tick boundary. -/
theorem exec_tickBoundary_pins {x : TickInput} {s t : State} (h : exec (.tickBoundary x) s = .next t) :
    t.inc.pins = s.inc.pins ∨ t.inc.pins = x.pins := by
  obtain rfl := Host.Outcome.next.inj h
  split
  · exact .inr (congrArg Outside.pins (s.settled.boundary_outside x))
  · exact .inl rfl

/-! ### CONTROL and the resets (10, R153; 11, R156) -/

theorem State.metBy_pins (s : State) (c : Instr) : (s.metBy c).inc.pins = s.inc.pins := by
  have met (early : Bool) : (s.met early).inc.pins = s.inc.pins := by
    cases early
    · exact s.settled_pins
    · rfl
  unfold State.metBy
  split
  · exact met _
  · exact met _
  · exact met false

theorem State.writeEnable_pins (s : State) (w : Word) : (s.writeEnable w).inc.pins = s.inc.pins := by
  unfold State.writeEnable
  repeat' split
  case isTrue.isTrue =>
    unfold State.enableRequest
    split <;> rfl
  case h_3 => exact congrArg Outside.pins s.enterDraining_outside
  all_goals rfl

theorem State.controlWrite_pins (s : State) (w : Word) (b : OnBus) :
    (s.controlWrite w b).inc.pins = s.inc.pins := by
  obtain ⟨-, -, -, -, -, fields, -⟩ := s.writeFields_facts w
  unfold State.controlWrite
  split
  · rfl
  · split
    · rfl
    · rw [State.writeEnable_pins, fields]

/-- A command that may reset the part holds the pins, and AREA where it is no hardware reset. -/
theorem exec_control_settings {c : Instr} {b : OnBus} (hb : onBusOf c = some b) {s t : State}
    (h : exec c s = .next t) :
    ((∀ b, c ≠ .hardwareReset b) → t.regp.area = s.regp.area) ∧ t.inc.pins = s.inc.pins := by
  by_cases hh : ∃ b, c = .hardwareReset b
  · obtain ⟨b', rfl⟩ := hh
    obtain rfl := Host.Outcome.next.inj h
    exact ⟨fun f => absurd rfl (f b'), s.settled_pins⟩
  · have he : ∃ w, exec c s = .next ((s.metBy c).controlWrite w b) := by
      cases c <;> cases hb
      case hardwareReset => exact absurd ⟨_, rfl⟩ hh
      all_goals exact ⟨_, rfl⟩
    obtain ⟨w, he⟩ := he
    obtain rfl := Host.Outcome.next.inj (he.symm.trans h)
    obtain ⟨area, -⟩ := (s.metBy c).controlWrite_cases w b
    obtain ⟨met, -⟩ := s.metBy_keeps c
    exact ⟨fun _ => area.trans met, ((s.metBy c).controlWrite_pins w b).trans (s.metBy_pins c)⟩

/-! ### Every command -/

theorem actsOnRecalls_eq_false {c : Instr} (hv : ∀ r, c ≠ .slotVisit r) (ht : ∀ r f, c ≠ .take r f) :
    actsOnRecalls c = false := by
  unfold actsOnRecalls
  split
  · exact absurd rfl (hv _)
  · exact absurd rfl (ht _ _)
  · rfl

/-- Settles O5: a command brings an access back, may reset the part or acts inside it, and each of the three says which
settings it holds. -/
theorem configurationChangesOnlyByItsWrites : Obligations.ConfigurationChangesOnlyByItsWrites := by
  intro c s t h
  cases hr : busReturnOf c with
  | some r =>
    obtain ⟨⟨area, tickdiv, sweep, mask, epoch⟩, pins, recalls⟩ := exec_return_keepsSettings hr h
    refine ⟨fun _ _ => area, fun _ => ⟨tickdiv, sweep, mask⟩, fun _ _ => epoch, nofun, ?_, ?_,
      fun _ hv ht => recalls (actsOnRecalls_eq_false hv ht)⟩
    · rintro _ ⟨⟩
      exact pins
    · rintro x rfl
      cases hr
  | none =>
    cases hb : onBusOf c with
    | some b =>
      obtain ⟨area, pins⟩ := exec_control_settings hb h
      exact ⟨fun _ => area, nofun, nofun, fun _ _ => pins, nofun, fun _ _ => .inl pins, nofun⟩
    | none =>
      have held := exec_inside_settings hr hb h
      refine ⟨fun hw _ => held.area hw, fun _ => ⟨held.tickdiv, held.sweep, held.mask⟩, fun _ => held.epoch,
        fun _ => held.pins, nofun, ?_, fun _ _ _ => held.recalls⟩
      rintro x rfl
      exact exec_tickBoundary_pins h

end Sys2Proof.Machine
end

section
/-! Accepted edges: what an edge brings to each kind of measurement step (07, R104 to R116; 06, R87 to R89). -/

namespace Sys2Proof.Machine

/-! ### An edge that is accepted (07, R104) -/

theorem Inputs.edgeDue_iff (x : Inputs) (i : InLine) :
    x.edgeDue i = true ↔ x.sampling = true ∧ (x.lines[i]).length ≤ (x.lines[i]).run := by
  simp [Inputs.edgeDue]

theorem Inputs.accept_self (x : Inputs) (i : InLine) :
    (x.accept i).lines[i] = { x.lines[i] with accepted := !(x.lines[i]).accepted, run := 0 } :=
  vectorSet_self ..

theorem Inputs.accept_other (x : Inputs) {i j : InLine} (h : j ≠ i) : (x.accept i).lines[j] = x.lines[j] :=
  vectorSet_other x.lines i j _ h.symm

theorem exec_acceptedEdge {s : State} {i : InLine} (h : s.inc.edgeDue i = true) :
    exec (.acceptedEdge i) s = .next (s.acceptEdge i) :=
  congrArg Host.Outcome.next (State.runDue_due h)

theorem exec_acceptedEdge_notDue {s : State} {i : InLine} (h : s.inc.edgeDue i = false) :
    exec (.acceptedEdge i) s = .next s :=
  congrArg Host.Outcome.next (State.runDue_notDue (e := .acceptedEdge i) h)

theorem directionMatches_iff (mode : Byte) (level : Bool) :
    directionMatches mode level = true ↔ mode = 3 ∨ (mode = 1 ∧ level = true) ∨ (mode = 2 ∧ level = false) := by
  have num (n : Byte) : mode.toNat = n.toNat ↔ mode = n := BitVec.toNat_inj
  have h3 := num 3
  have h1 := num 1
  have h2 := num 2
  cases level <;> simp_all [directionMatches]

/-! ### An edge announced to a lane, by the lane's step (07, R106, R110 to R116) -/

section Announced

variable {s : State} {l : LaneId} {i : InLine} (b : Bool) (w : Word)

/-- An edge does not concern a lane that runs no step on that line, whose step began at this boundary, or whose step
waits for no edge. -/
theorem State.deliverEdge_left (h : (s.lane l).state ≠ .stepping ∨ (s.lane l).fresh = true ∨
      (s.lane l).request.line.toNat ≠ i.val ∨ (s.lane l).activity = .none ∨
      (∃ k skip due, (s.lane l).activity = .wait k skip due) ∨ (s.lane l).activity = .hold ∨
      (s.lane l).activity = .untilEpoch ∨ (∃ n active, (s.lane l).activity = .pulse n active) ∨
      ∃ got, (s.lane l).activity = .check got) : s.deliverEdge l i b w = s := by
  unfold State.deliverEdge
  dsimp only
  split
  · rfl
  · next hc =>
    simp only [not_or] at hc
    obtain ⟨hs, hf, hl⟩ := hc
    rcases h with h | h | h | h | ⟨k, skip, due, h⟩ | h | h | ⟨n, a, h⟩ | ⟨got, h⟩
    · exact absurd h hs
    · exact absurd h hf
    · exact absurd h hl
    all_goals rw [h]

variable (hs : (s.lane l).state = .stepping) (hf : (s.lane l).fresh = false)
  (hl : (s.lane l).request.line.toNat = i.val)

include hs hf hl

/-- The test that lets an edge act on the lane's step. -/
theorem Lane.edgeConcerns : ¬ ((s.lane l).state ≠ .stepping ∨ (s.lane l).fresh = true ∨
    (s.lane l).request.line.toNat ≠ i.val) := by
  simp [hs, hf, hl]

theorem State.deliverEdge_edge (ha : (s.lane l).activity = .edge) :
    s.deliverEdge l i b w =
      if directionMatches (s.lane l).request.mode b then
        s.finishStep l .ok (s.lane l).counter w (levelByte b) none false true
      else s := by
  unfold State.deliverEdge
  dsimp only
  rw [if_neg (Lane.edgeConcerns hs hf hl), ha]

theorem State.deliverEdge_widthEnter (ha : (s.lane l).activity = .widthEnter) :
    s.deliverEdge l i b w =
      if b = ((s.lane l).request.mode == 1) then
        s.setLane l { s.lane l with activity := .widthLeave w, spanCounter := s.epoch - w }
      else s := by
  unfold State.deliverEdge
  dsimp only
  rw [if_neg (Lane.edgeConcerns hs hf hl), ha]

theorem State.deliverEdge_widthLeave {enter : Word} (ha : (s.lane l).activity = .widthLeave enter) :
    s.deliverEdge l i b w =
      if b ≠ ((s.lane l).request.mode == 1) then
        s.finishStep l .ok ((s.lane l).spanCounter - (s.epoch - w)) enter 2 none false true
      else s := by
  unfold State.deliverEdge
  dsimp only
  rw [if_neg (Lane.edgeConcerns hs hf hl), ha]

theorem State.deliverEdge_tally {n : Word} (ha : (s.lane l).activity = .tally n) :
    s.deliverEdge l i b w =
      if directionMatches (s.lane l).request.mode b then
        if (s.lane l).request.paramB ≠ 0 ∧ n + 1 = (s.lane l).request.paramB then
          s.finishStep l .ok (n + 1) (s.lane l).startTick 1 none false true
        else s.setLane l { s.lane l with activity := .tally (n + 1) }
      else s := by
  unfold State.deliverEdge
  dsimp only
  rw [if_neg (Lane.edgeConcerns hs hf hl), ha]

theorem State.deliverEdge_periodFirst (ha : (s.lane l).activity = .periodFirst) :
    s.deliverEdge l i b w =
      if directionMatches (s.lane l).request.mode b then
        s.setLane l { s.lane l with activity := .period w 0 0, spanCounter := s.epoch - w }
      else s := by
  unfold State.deliverEdge
  dsimp only
  rw [if_neg (Lane.edgeConcerns hs hf hl), ha]

theorem State.deliverEdge_period {first : Word} {n : Nat} {span : Word}
    (ha : (s.lane l).activity = .period first n span) :
    s.deliverEdge l i b w =
      if directionMatches (s.lane l).request.mode b then
        if n + 1 = (s.lane l).request.arg.toNat then
          s.finishStep l .ok ((s.lane l).spanCounter - (s.epoch - w)) first (s.lane l).request.arg none false true
        else s.setLane l { s.lane l with
          activity := .period first (n + 1) ((s.lane l).spanCounter - (s.epoch - w)) }
      else s := by
  unfold State.deliverEdge
  dsimp only
  rw [if_neg (Lane.edgeConcerns hs hf hl), ha]

end Announced

/-! ### EDGE (07, R112) -/

/-- Settles O24: an accepted edge acts on each lane as if it were announced to that lane alone. -/
theorem acceptedEdgeCompletesEdge : Obligations.AcceptedEdgeCompletesEdge := by
  refine ⟨fun s i hd => ?_, fun s t i l he h => ?_, fun s i => ⟨s.inc.edgeDue_iff i, fun hd => ?_⟩,
    directionMatches_iff, rfl, rfl⟩
  · obtain ⟨inc, mem, outd, smon, admu, -⟩ := s.acceptEdge_rest i
    refine ⟨_, exec_acceptedEdge hd, ?_, fun j hj => ?_, mem, outd, smon, admu, fun l hs hf hl ha => ?_⟩
    · rw [inc, Inputs.accept_self]
    · rw [inc, Inputs.accept_other _ hj]
    · rw [State.acceptEdge_lane, State.deliverEdge_edge _ _ hs hf hl ha]
      constructor <;> intro hm
      · rw [if_pos hm]
        exact State.finishStep_stepEnds ..
      · rw [hm]
        rfl
  · cases hd : s.inc.edgeDue i with
    | true =>
      obtain rfl := Host.Outcome.next.inj ((exec_acceptedEdge hd).symm.trans he)
      rw [State.acceptEdge_lane, State.deliverEdge_left _ _ h]
    | false =>
      obtain rfl := Host.Outcome.next.inj ((exec_acceptedEdge_notDue hd).symm.trans he)
      rfl
  · exact exec_acceptedEdge_notDue hd

/-! ### WIDTH and PERIOD (07, R111, R113, R116) -/

/-- Settles O25: the announced edge starts or ends the span by the step's activity. -/
theorem spansRunBetweenStamps : Obligations.SpansRunBetweenStamps := by
  intro s i l hd hs hf hl
  refine ⟨_, exec_acceptedEdge hd, ?_⟩
  rw [State.acceptEdge_lane]
  refine ⟨?_, fun ha hm => ?_, fun enter ha hm => ?_, fun ha hm => ?_,
    fun first n span ha hm => ⟨fun hn => ?_, fun hn => ?_⟩⟩
  · rintro (⟨ha, hm⟩ | ⟨⟨enter, ha⟩, hm⟩ | ⟨ha | ⟨first, n, span, ha⟩, hm⟩)
    · rw [State.deliverEdge_widthEnter _ _ hs hf hl ha, if_neg hm]
    · rw [State.deliverEdge_widthLeave _ _ hs hf hl ha, if_neg (not_not_intro hm)]
    · rw [State.deliverEdge_periodFirst _ _ hs hf hl ha, hm]
      rfl
    · rw [State.deliverEdge_period _ _ hs hf hl ha, hm]
      rfl
  · rw [State.deliverEdge_widthEnter _ _ hs hf hl ha, if_pos hm, State.setLane_lane]
    exact ⟨rfl, rfl⟩
  · rw [State.deliverEdge_widthLeave _ _ hs hf hl ha, if_pos hm]
    exact State.finishStep_stepEnds ..
  · rw [State.deliverEdge_periodFirst _ _ hs hf hl ha, if_pos hm, State.setLane_lane]
    exact ⟨rfl, rfl⟩
  · rw [State.deliverEdge_period _ _ hs hf hl ha, if_pos hm, if_pos hn]
    exact State.finishStep_stepEnds ..
  · rw [State.deliverEdge_period _ _ hs hf hl ha, if_pos hm, if_neg hn, State.setLane_lane]
    exact ⟨rfl, rfl⟩

/-! ### TALLY (07, R115) -/

theorem State.tallyStep_eq {s : State} {l : LaneId} {n : Word} (ha : (s.lane l).activity = .tally n) :
    s.tallyStep l = s.finishStep l .ok n (s.lane l).startTick 0 none false true := by
  unfold State.tallyStep
  rw [ha]

theorem Lane.tallyDue_of {x : Lane} {n : Word} (hs : x.state = .stepping) (ha : x.activity = .tally n)
    (hc : x.counter = x.request.paramA) : x.tallyDue = true := by
  simp [Lane.tallyDue, hs, ha, hc]

theorem exec_tallyGateEnd {s : State} {l : LaneId} (h : (s.acceptEdges.lane l).tallyDue = true) :
    exec (.tallyGateEnd l) s = .next (s.acceptEdges.tallyStep l) :=
  congrArg Host.Outcome.next (State.runDue_due (s := s.acceptEdges) (e := .tallyGateEnd l) h)

/-- Settles O26: the announced edge raises the tally, or brings it to the stop count; the gate's end comes after the
boundary's edges. -/
theorem tallyCountsEdgesInItsGate : Obligations.TallyCountsEdgesInItsGate := by
  refine ⟨fun s i l n hd hs hf hl ha => ⟨_, exec_acceptedEdge hd, ?_⟩, fun s l n hs ha hc => ?_⟩
  · rw [State.acceptEdge_lane, State.deliverEdge_tally _ _ hs hf hl ha]
    refine ⟨fun hm => ⟨fun hn => ?_, fun hn => ?_⟩, fun hm => ?_⟩
    · rw [if_pos hm, if_pos hn]
      exact State.finishStep_stepEnds ..
    · rw [if_pos hm, if_neg hn, State.setLane_lane]
      exact ⟨rfl, rfl⟩
    · rw [hm]
      rfl
  · refine ⟨_, exec_tallyGateEnd (Lane.tallyDue_of hs ha hc), ?_⟩
    rw [State.tallyStep_eq ha]
    obtain ⟨only, lines, -⟩ := s.acceptEdges.finishStep_completes l .ok n (s.acceptEdges.lane l).startTick 0 none
      false true
    exact ⟨only, lines, State.finishStep_stepEnds ..⟩

end Sys2Proof.Machine
end

section
/-! The timed ends of steps: HOLD, UNTIL and PULSE at their boundaries, windows, and span counters at their end
(06, R94; 07, R111 to R117; 08, R125 to R128). -/

namespace Sys2Proof.Machine

/-- A completion that brings a verdict concludes the plan with it at that step (06, R89). -/
theorem State.finishStep_verdict (s : State) (l : LaneId) (c : ResultCode) (v w : Word) (a : Byte)
    (o : PlanOutcome) (skip same : Bool) :
    ((s.finishStep l c v w a (some o) skip same).lane l).state = .closing ∧
      ((s.finishStep l c v w a (some o) skip same).lane l).activity = .none ∧
      ((s.finishStep l c v w a (some o) skip same).lane l).outcome =
        some (o, BitVec.ofNat 8 (s.lane l).step) := by
  obtain ⟨acc, e, q, h⟩ := s.finishStep_ends l c v w a (some o) skip same o rfl
  rw [h, State.mport_lane, State.setLane_lane]
  exact ⟨rfl, rfl, rfl⟩

/-! ### HOLD and UNTIL (08, R125, R126) -/

theorem Lane.holdDue_of {x : Lane} (hs : x.state = .stepping) (ha : x.activity = .hold)
    (hc : x.counter = x.request.paramA) : x.holdDue = true := by
  simp [Lane.holdDue, hs, ha, hc]

theorem Lane.untilDue_of {x : Lane} {now : Word} (hs : x.state = .stepping) (ha : x.activity = .untilEpoch)
    (hf : x.fresh = false) (hr : reached now x.request.paramA = true) : x.untilDue now = true := by
  simp [Lane.untilDue, hs, ha, hf, hr]

theorem exec_hold {s : State} {l : LaneId} (h : (s.lane l).holdDue = true) :
    exec (.hold l) s = .next (s.holdStep l) :=
  congrArg Host.Outcome.next (State.runDue_due (e := .hold l) h)

theorem exec_untilReached {s : State} {l : LaneId} (h : (s.lane l).untilDue s.epoch = true) :
    exec (.untilReached l) s = .next (s.untilStep l) :=
  congrArg Host.Outcome.next (State.runDue_due (e := .untilReached l) h)

/-- Settles O27: both are completions with no verdict. -/
theorem holdAndUntilComplete : Obligations.HoldAndUntilComplete := by
  refine ⟨fun s l hs ha hc => ⟨_, exec_hold (Lane.holdDue_of hs ha hc), ?_⟩,
    fun s l hs ha hf hr => ⟨_, exec_untilReached (Lane.untilDue_of hs ha hf hr), ?_⟩⟩
  all_goals
    obtain ⟨only, lines, -⟩ := s.finishStep_completes l .ok _ _ 0 none false true
    exact ⟨only, lines, State.finishStep_stepEnds ..⟩

/-! ### PULSE (08, R124, R128) -/

theorem exec_pulse {s : State} {l : LaneId} (h : (s.lane l).pulseDue = true) :
    exec (.pulse l) s = .next (s.pulseStep l) :=
  congrArg Host.Outcome.next (State.runDue_due (e := .pulse l) h)

theorem Lane.pulseDue_of {x : Lane} {n : Nat} {active : Bool} (hs : x.state = .stepping)
    (ha : x.activity = .pulse n active)
    (hc : x.counter = if active then x.request.paramA else x.request.paramB) : x.pulseDue = true := by
  simp [Lane.pulseDue, hs, ha, hc]

section Pulse

variable {s : State} {l : LaneId} {n : Nat}

/-- The lane as a phase change leaves it: the phase that begins, its counter at 0. -/
def Lane.inPhase (x : Lane) (n : Nat) (active : Bool) : Lane :=
  { x with activity := .pulse n active, counter := 0 }

/-- A phase change moves the line, where the lane has claimed it, to the level that it drives. -/
theorem State.phaseChange (s : State) (l : LaneId) (n : Nat) (active level : Bool) :
    let t := (s.setLane l ((s.lane l).inPhase n active)).drive l (s.lane l).request.outLine level
    OnlyLane s t l ∧ (t.lane l).activity = .pulse n active ∧ (t.lane l).counter = 0 ∧
      (t.lane l).list = (s.lane l).list ∧
      ∀ o : OutLine, t.outd[o] =
        if o = (s.lane l).request.outLine ∧ (s.outd[o]).claimer = some l then { s.outd[o] with level := level }
        else s.outd[o] := by
  intro t
  have lane : t.lane l = (s.lane l).inPhase n active := by
    rw [State.drive_lane, State.setLane_lane]
  rw [lane]
  exact ⟨(OnlyLane.of_setLane ..).trans (.of_drive ..), rfl, rfl, rfl, fun o => State.drive_line ..⟩

theorem State.pulseStep_active (ha : (s.lane l).activity = .pulse n true) :
    s.pulseStep l = (s.setLane l ((s.lane l).inPhase (n + 1) false)).drive l (s.lane l).request.outLine
      (!pulseActive (s.lane l).request.mode) := by
  unfold State.pulseStep
  dsimp only
  rw [ha]
  rfl

theorem State.pulseStep_rest (ha : (s.lane l).activity = .pulse n false)
    (hn : n ≠ (s.lane l).request.arg.toNat) :
    s.pulseStep l = (s.setLane l ((s.lane l).inPhase n true)).drive l (s.lane l).request.outLine
      (pulseActive (s.lane l).request.mode) := by
  unfold State.pulseStep
  dsimp only
  rw [ha]
  dsimp only
  rw [if_neg hn]
  rfl

theorem State.pulseStep_last (ha : (s.lane l).activity = .pulse n false)
    (hn : n = (s.lane l).request.arg.toNat) :
    s.pulseStep l = s.finishStep l .ok (BitVec.setWidth 32 (s.lane l).request.arg) (s.lane l).startTick
      (levelByte (pulseActive (s.lane l).request.mode)) none false true := by
  unfold State.pulseStep
  dsimp only
  rw [ha]
  dsimp only
  rw [if_pos hn]

end Pulse

/-- Settles O28: two phase changes and the completion after the last rest phase. -/
theorem pulsePhases : Obligations.PulsePhases := by
  refine ⟨fun s l n hs => ⟨fun ha hc => ?_, fun ha hc hn => ?_, fun ha hc hn => ?_⟩, fun _ => rfl, rfl, rfl⟩
  all_goals refine ⟨_, exec_pulse (Lane.pulseDue_of hs ha hc), ?_⟩
  · rw [State.pulseStep_active ha]
    exact State.phaseChange ..
  · rw [State.pulseStep_rest ha hn]
    exact State.phaseChange ..
  · rw [State.pulseStep_last ha hn]
    obtain ⟨only, lines, -⟩ := s.finishStep_completes l .ok (BitVec.setWidth 32 (s.lane l).request.arg)
      (s.lane l).startTick (levelByte (pulseActive (s.lane l).request.mode)) none false true
    exact ⟨only, lines, State.finishStep_stepEnds ..⟩

/-! ### The boundary's edges (07, R104) -/

/-- INC at a boundary for one line: an edge that is due is accepted. -/
def Inputs.acceptDue (x : Inputs) (i : InLine) : Inputs := if x.edgeDue i then x.accept i else x

theorem Inputs.acceptDue_other (x : Inputs) {i j : InLine} (h : j ≠ i) : (x.acceptDue i).lines[j] = x.lines[j] := by
  unfold Inputs.acceptDue
  split
  · exact x.accept_other h
  · rfl

theorem Inputs.acceptDue_sampling (x : Inputs) (i : InLine) : (x.acceptDue i).sampling = x.sampling := by
  unfold Inputs.acceptDue
  split <;> rfl

theorem Inputs.edgeDue_congr {x y : Inputs} {i : InLine} (hs : x.sampling = y.sampling)
    (hl : x.lines[i] = y.lines[i]) : x.edgeDue i = y.edgeDue i := by
  unfold Inputs.edgeDue
  rw [hs, hl]

theorem InputLine.length_pos (x : InputLine) : 0 < x.length := Nat.two_pow_pos _

/-- An accepted edge is not due a second time. -/
theorem Inputs.acceptDue_self (x : Inputs) (i : InLine) : (x.acceptDue i).edgeDue i = false := by
  unfold Inputs.acceptDue
  split
  · unfold Inputs.edgeDue
    rw [x.accept_self]
    simp only [Bool.and_eq_false_iff, decide_eq_false_iff_not]
    exact .inr (Nat.not_le.2 (InputLine.length_pos _))
  · next h => simpa using h

theorem Inputs.acceptDue_accepted (x : Inputs) (i : InLine) :
    ((x.acceptDue i).lines[i]).accepted =
      if x.edgeDue i then !(x.lines[i]).accepted else (x.lines[i]).accepted := by
  unfold Inputs.acceptDue
  split
  · rw [x.accept_self]
  · rfl

/-- The lines of a list that names none of them twice, taken one by one, each become what they become alone. -/
theorem foldl_acceptDue (is : List InLine) (hd : is.Nodup) (x : Inputs) :
    (is.foldl Inputs.acceptDue x).sampling = x.sampling ∧
      ∀ j : InLine, (is.foldl Inputs.acceptDue x).lines[j] =
        if j ∈ is then (x.acceptDue j).lines[j] else x.lines[j] := by
  induction is generalizing x with
  | nil => exact ⟨rfl, fun j => rfl⟩
  | cons i is ih =>
    obtain ⟨hi, hd⟩ := List.nodup_cons.1 hd
    obtain ⟨sampling, lines⟩ := ih hd (x.acceptDue i)
    refine ⟨sampling.trans (x.acceptDue_sampling i), fun j => ?_⟩
    rw [List.foldl_cons, lines j]
    by_cases hj : j = i
    · subst hj
      rw [if_neg hi, if_pos (List.mem_cons_self ..)]
    · have line : (x.acceptDue i).lines[j] = x.lines[j] := x.acceptDue_other hj
      have due : (x.acceptDue i).edgeDue j = x.edgeDue j :=
        Inputs.edgeDue_congr (x.acceptDue_sampling i) line
      simp only [List.mem_cons, hj, false_or]
      split
      · unfold Inputs.acceptDue at line due ⊢
        rw [due]
        split
        · rw [Inputs.accept_self, Inputs.accept_self, line]
        · exact line
      · exact line

theorem State.acceptEdges_inc (s : State) : s.acceptEdges.inc = allInLines.foldl Inputs.acceptDue s.inc := by
  unfold State.acceptEdges
  generalize allInLines = is
  induction is generalizing s with
  | nil => rfl
  | cons i is ih =>
    rw [List.foldl_cons, List.foldl_cons, ih]
    unfold Inputs.acceptDue
    split
    · obtain ⟨inc, -⟩ := s.acceptEdge_rest i
      rw [inc]
    · rfl

theorem allInLines_nodup : allInLines.Nodup := by decide

theorem mem_allInLines (i : InLine) : i ∈ allInLines := by decide +revert

theorem State.acceptEdges_line (s : State) (i : InLine) :
    s.acceptEdges.inc.lines[i] = (s.inc.acceptDue i).lines[i] := by
  rw [s.acceptEdges_inc, (foldl_acceptDue _ allInLines_nodup s.inc).2 i, if_pos (mem_allInLines i)]

/-- With the boundary's edges taken none is due. -/
theorem State.acceptEdges_edgeDue (s : State) (i : InLine) : s.acceptEdges.inc.edgeDue i = false := by
  have sampling : s.acceptEdges.inc.sampling = (s.inc.acceptDue i).sampling := by
    rw [s.acceptEdges_inc, (foldl_acceptDue _ allInLines_nodup s.inc).1, s.inc.acceptDue_sampling]
  rw [Inputs.edgeDue_congr sampling (s.acceptEdges_line i), s.inc.acceptDue_self]

theorem State.acceptEdges_accepted (s : State) (i : InLine) : (s.acceptEdges.inc.lines[i]).accepted =
    if s.inc.edgeDue i then !(s.inc.lines[i]).accepted else (s.inc.lines[i]).accepted := by
  rw [s.acceptEdges_line, Inputs.acceptDue_accepted]

theorem State.acceptEdges_of_none {s : State} (h : ∀ i : InLine, s.inc.edgeDue i = false) : s.acceptEdges = s := by
  unfold State.acceptEdges
  generalize allInLines = is
  induction is with
  | nil => rfl
  | cons i is ih =>
    rw [List.foldl_cons, h i]
    exact ih

theorem State.acceptEdges_epoch (s : State) : s.acceptEdges.epoch = s.tbu.epoch :=
  congrArg Outside.epoch s.acceptEdges_outside

/-! ### Windows (06, R94; 07, R112, R114, R117) -/

/-- The verdict that a window's end brings: none under GO_ON_TIMEOUT (06, R94). -/
def Lane.timeoutVerdict (x : Lane) : Option PlanOutcome := if flagGoOn x.flags then none else some .timedOut

/-- The kinds of step that a window ends, and the result that each gives. -/
inductive TimesOut (s : State) (x : Lane) : Word → Word → Byte → Prop
  | edge (h : x.activity = .edge) : TimesOut s x x.windowOf s.epoch
      (levelByte (s.inc.levelAfter (Fin.ofNat 8 x.request.line.toNat)))
  | before (h : x.activity = .widthEnter ∨ x.activity = .periodFirst) : TimesOut s x 0 s.epoch 0
  | width (stamp : Word) (h : x.activity = .widthLeave stamp) : TimesOut s x x.spanCounter stamp 1
  | period (stamp : Word) (n : Nat) (value : Word) (h : x.activity = .period stamp n value) :
    TimesOut s x value stamp (BitVec.ofNat 8 n)

theorem State.timeoutStep_eq {s : State} {l : LaneId} {value stamp : Word} {aux : Byte}
    (h : TimesOut s (s.lane l) value stamp aux) :
    s.timeoutStep l =
      s.finishStep l .timeout value stamp aux (s.lane l).timeoutVerdict false true := by
  unfold State.timeoutStep
  cases h with
  | before h => rcases h with h | h <;> dsimp only <;> rw [h] <;> rfl
  | edge h => dsimp only; rw [h]; rfl
  | width _ h => dsimp only; rw [h]; rfl
  | period _ _ _ h => dsimp only; rw [h]; rfl

theorem exec_windowExpiry {s : State} {l : LaneId} (h : (s.acceptEdges.lane l).windowDue = true) :
    exec (.windowExpiry l) s = .next (s.acceptEdges.timeoutStep l) :=
  congrArg Host.Outcome.next (State.runDue_due (s := s.acceptEdges) (e := .windowExpiry l) h)

theorem exec_overrange {s : State} {l : LaneId} (h : (s.acceptEdges.lane l).overrangeDue = true) :
    exec (.overrange l) s = .next (s.acceptEdges.overrangeStep l) :=
  congrArg Host.Outcome.next (State.runDue_due (s := s.acceptEdges) (e := .overrange l) h)

/-- A window that has run out is due in a step that it ends, unless the span counter ends the step first. -/
theorem Lane.windowDue_of {s : State} {x : Lane} {value stamp : Word} {aux : Byte} (hs : x.state = .stepping)
    (hw : x.windowOf ≠ 0) (hc : x.windowCounter = x.windowOf) (h : TimesOut s x value stamp aux)
    (ho : x.overrangeDue = false) : x.windowDue = true := by
  have set : (x.windowOf != 0) = true := bne_iff_ne.2 hw
  unfold Lane.windowDue
  cases h with
  | before h => rcases h with h | h <;> rw [h, hs, hc, ho, set] <;> simp
  | edge h => rw [h, hs, hc, ho, set]; simp
  | width _ h => rw [h, hs, hc, ho, set]; simp
  | period _ _ _ h => rw [h, hs, hc, ho, set]; simp

theorem Lane.overrangeDue_eq_false {x : Lane} (h : x.spanCounter ≠ 0xFFFFFFFF#32 ∨ x.activity = .edge ∨
    x.activity = .widthEnter ∨ x.activity = .periodFirst) : x.overrangeDue = false := by
  unfold Lane.overrangeDue
  rcases h with h | h | h | h <;> simp [h]

theorem Lane.windowOf_edge {x : Lane} (h : x.request.kind = 3) :
    x.windowOf = if x.request.paramB ≠ 0 then x.request.paramB else x.window := by
  unfold Lane.windowOf
  dsimp only
  rw [h]
  simp

theorem Lane.windowOf_plan {x : Lane} (h : x.request.kind = 4 ∨ x.request.kind = 6) : x.windowOf = x.window := by
  unfold Lane.windowOf
  dsimp only
  rcases h with h | h <;> rw [h] <;> rfl

theorem Lane.windowOf_none {x : Lane} (h3 : x.request.kind ≠ 3) (h4 : x.request.kind ≠ 4)
    (h6 : x.request.kind ≠ 6) : x.windowOf = 0 := by
  have num {n : Byte} (h : x.request.kind ≠ n) : x.request.kind.toNat ≠ n.toNat :=
    fun same => h (BitVec.toNat_inj.1 same)
  unfold Lane.windowOf
  dsimp only
  split
  · next h => exact absurd h (num h3)
  · next h => exact absurd h (num h4)
  · next h => exact absurd h (num h6)
  · rfl

/-! ### Span counters at their end (07, R111, R114, R117) -/

theorem State.overrangeStep_width {s : State} {l : LaneId} {enter : Word}
    (ha : (s.lane l).activity = .widthLeave enter) :
    s.overrangeStep l = s.finishStep l .overrange 0xFFFFFFFF#32 enter 1 none false true := by
  unfold State.overrangeStep
  rw [ha]
  rfl

theorem State.overrangeStep_period {s : State} {l : LaneId} {first : Word} {n : Nat} {span : Word}
    (ha : (s.lane l).activity = .period first n span) :
    s.overrangeStep l = s.finishStep l .overrange 0xFFFFFFFF#32 first (BitVec.ofNat 8 n) none false true := by
  unfold State.overrangeStep
  rw [ha]
  rfl

theorem Lane.overrangeDue_of {x : Lane} (hs : x.state = .stepping) (hc : x.spanCounter = 0xFFFFFFFF#32)
    (ha : (∃ enter, x.activity = .widthLeave enter) ∨ ∃ first n span, x.activity = .period first n span) :
    x.overrangeDue = true := by
  unfold Lane.overrangeDue
  rcases ha with ⟨_, ha⟩ | ⟨_, _, _, ha⟩ <;> simp [hs, hc, ha]

/-- Settles O29: with the boundary's edges taken, a window and a span counter end the step by its kind. -/
theorem windowAndOverrangeEndSteps : Obligations.WindowAndOverrangeEndSteps := by
  refine ⟨?_, fun x => ⟨Lane.windowOf_edge, Lane.windowOf_plan, Lane.windowOf_none⟩,
    fun s => ⟨State.acceptEdges_of_none, s.acceptEdges_accepted⟩, ?_, rfl, rfl⟩
  · rintro s l x value stamp aux rfl hs hw hc kinds
    have due : TimesOut s.acceptEdges (s.acceptEdges.lane l) value stamp aux ∧
        (s.acceptEdges.lane l).overrangeDue = false := by
      rcases kinds with ⟨ha, rfl, rfl, rfl⟩ | ⟨ha, rfl, rfl, rfl⟩ | ⟨ha, hn, rfl, rfl⟩ | ⟨n, ha, hn, rfl⟩
      · refine ⟨?_, Lane.overrangeDue_eq_false (.inr (.inl ha))⟩
        have level : s.acceptEdges.inc.levelAfter (Fin.ofNat 8 (s.acceptEdges.lane l).request.line.toNat) =
            (s.acceptEdges.inc.lines[Fin.ofNat 8 (s.acceptEdges.lane l).request.line.toNat]).accepted := by
          unfold Inputs.levelAfter
          rw [s.acceptEdges_edgeDue]
          rfl
        rw [← level, ← s.acceptEdges_epoch]
        exact .edge ha
      · refine ⟨?_, Lane.overrangeDue_eq_false (.inr (.inr ha))⟩
        rw [← s.acceptEdges_epoch]
        exact .before ha
      · exact ⟨.width stamp ha, Lane.overrangeDue_eq_false (.inl hn)⟩
      · exact ⟨.period stamp n value ha, Lane.overrangeDue_eq_false (.inl hn)⟩
    obtain ⟨kind, notOver⟩ := due
    refine ⟨_, exec_windowExpiry (Lane.windowDue_of hs hw hc kind notOver), ?_⟩
    rw [State.timeoutStep_eq kind]
    obtain ⟨only, lines, completed⟩ := s.acceptEdges.finishStep_completes l .timeout value stamp aux
      (s.acceptEdges.lane l).timeoutVerdict false true
    refine ⟨only, lines, completed, fun hg => ?_, fun hg => ?_⟩
    · have verdict : (s.acceptEdges.lane l).timeoutVerdict = none := if_pos hg
      rw [verdict]
      exact State.finishStep_passGoesOn ..
    · have verdict : (s.acceptEdges.lane l).timeoutVerdict = some .timedOut :=
        if_neg (Bool.not_eq_true _ ▸ hg)
      rw [verdict]
      exact State.finishStep_verdict ..
  · rintro s l x rfl hs hc
    refine ⟨fun enter ha => ⟨_, exec_overrange (Lane.overrangeDue_of hs hc (.inl ⟨_, ha⟩)), ?_⟩,
      fun first n span ha => ⟨_, exec_overrange (Lane.overrangeDue_of hs hc (.inr ⟨_, _, _, ha⟩)), ?_⟩⟩
    · rw [State.overrangeStep_width ha]
      obtain ⟨only, lines, -⟩ := s.acceptEdges.finishStep_completes l .overrange 0xFFFFFFFF#32 enter 1 none false true
      exact ⟨only, lines, State.finishStep_stepEnds ..⟩
    · rw [State.overrangeStep_period ha]
      obtain ⟨only, lines, -⟩ := s.acceptEdges.finishStep_completes l .overrange 0xFFFFFFFF#32 first
        (BitVec.ofNat 8 n) none false true
      exact ⟨only, lines, State.finishStep_stepEnds ..⟩

end Sys2Proof.Machine
end

section
/-! PROOF. How a step begins, kind by kind, at the completion of a load and at a boundary (06, R86 to R88;
08, R124 to R128; 09, R131, R136): O30 and O31. -/

namespace Sys2Proof.Machine

/-! ### The lane as a step finds it -/

/-- Two lanes stand alike in their plan: what a completion of a step looks at is the same. -/
structure Lane.SamePlan (x y : Lane) : Prop where
  list : x.list = y.list
  passesDone : x.passesDone = y.passesDone
  stepCount : x.stepCount = y.stepCount
  passes : x.passes = y.passes
  state : x.state = y.state
  outcome : x.outcome = y.outcome
  results : x.results = y.results

theorem Lane.SamePlan.doing {x y : Lane} (h : x.SamePlan y) (a : Activity) : x.SamePlan (y.doing a) := ⟨h.list,
  h.passesDone, h.stepCount, h.passes, h.state, h.outcome, h.results⟩

theorem Completed.congr {x y z : Lane} {k : Nat} {c : ResultCode} {v w : Word} {a : Byte} (h : x.SamePlan y)
    (g : Completed y z k c v w a) : Completed x z k c v w a where
  list := by
    have number : x.passNumber = y.passNumber := congrArg (fun p => byte0 (p + 1)) h.passesDone
    rw [g.list, h.list, number]
  lastDone := g.lastDone
  ended := g.ended
  passes := by rw [g.passes, h.stepCount, h.passesDone]
  current := by simpa only [h.results] using g.current

theorem PassGoesOn.congr {x y z : Lane} {k : Nat} {skip same : Bool} (h : x.SamePlan y)
    (g : PassGoesOn y z k skip same) : PassGoesOn x z k skip same := by
  constructor
  · simpa only [h.stepCount, h.state, h.outcome] using g.next
  · simpa only [h.stepCount, h.state, h.outcome, h.passes, h.passesDone] using g.again
  · simpa only [h.stepCount, h.passes, h.passesDone] using g.done

theorem StepEnds.congr {x y z : Lane} {k : Nat} {c : ResultCode} {v w : Word} {a : Byte} (h : x.SamePlan y)
    (g : StepEnds y z k c v w a) : StepEnds x z k c v w a := ⟨g.1.congr h, g.2.congr h⟩

/-! ### The beginning of a step, for every kind -/

/-- The nine kinds of step, and the bytes that are no kind. -/
theorem StepReq.kind_cases (b : Byte) : b = 1 ∨ b = 2 ∨ b = 3 ∨ b = 4 ∨ b = 5 ∨ b = 6 ∨ b = 7 ∨ b = 8 ∨ b = 9 ∨
    (b.toNat = 0 ∨ 10 ≤ b.toNat) := by
  bv_omega

section

variable (s : State) (l : LaneId) (k : Nat)

/-- A step that begins and completes in one act completes as the lane's plan says. -/
theorem State.finishStep_begun {x : Lane} {t : State} (c : ResultCode) (v w : Word) (a : Byte)
    (h : x.SamePlan (t.lane l)) (hk : (t.lane l).step = k) :
    StepEnds x ((t.finishStep l c v w a none false true).lane l) k c v w a :=
  (hk ▸ t.finishStep_stepEnds l c v w a).congr h

/-- A step that has begun runs with its lane as `Lane.begun` leaves it, or no step runs. -/
theorem State.beginStep_running (idle : (s.lane l).activity.isRunning = false) :
    (∃ a : Activity, (s.beginStep l k).lane l = ((s.lane l).begun k s.epoch).doing a) ∨
      ((s.beginStep l k).lane l).activity.isRunning = false := by
  have ended (t : State) (c : ResultCode) (v w : Word) (a : Byte) :
      ((t.finishStep l c v w a none false true).lane l).activity.isRunning = false :=
    (t.finishStep_completes l c v w a none false true).2.2.ended
  rcases StepReq.kind_cases ((s.lane l).steps.getD k StepReq.zero).kind with
    h | h | h | h | h | h | h | h | h | h
  · rw [s.beginStep_hold l k h]
    split
    · exact .inr (ended ..)
    · exact .inl ⟨_, State.setLane_lane ..⟩
  · rw [s.beginStep_until l k h]
    split
    · exact .inr (ended ..)
    · exact .inl ⟨_, State.setLane_lane ..⟩
  · rw [s.beginStep_edge l k h]
    exact .inl ⟨_, State.setLane_lane ..⟩
  · rw [s.beginStep_width l k h]
    exact .inl ⟨_, State.setLane_lane ..⟩
  · rw [s.beginStep_tally l k h]
    exact .inl ⟨_, State.setLane_lane ..⟩
  · rw [s.beginStep_period l k h]
    exact .inl ⟨_, State.setLane_lane ..⟩
  · rw [s.beginStep_set l k h]
    exact .inr (ended ..)
  · rw [s.beginStep_pulse l k h, State.drive_lane]
    exact .inl ⟨_, State.setLane_lane ..⟩
  · rw [s.beginStep_check l k h]
    exact .inl ⟨_, State.setLane_lane ..⟩
  · rw [s.beginStep_unknown l k h]
    exact .inr idle

/-- A SET whose request is `q` drives its line and ends. -/
theorem State.beginStep_set_of {q : StepReq} (hq : (s.lane l).steps.getD k StepReq.zero = q) (h : q.kind = 7) :
    s.beginStep l k = ((s.setLane l (((s.lane l).begun k s.epoch).doing .none)).drive l q.outLine
      (q.mode == 1)).finishStep l .ok (levelWord (q.mode == 1)) s.epoch (levelByte (s.outd[q.outLine]).level)
      none false true := by
  subst hq
  exact s.beginStep_set l k h

/-- The output lines once step k, whose request is `q`, has begun. -/
theorem State.beginStep_line (o : OutLine) {q : StepReq} (hq : (s.lane l).steps.getD k StepReq.zero = q) :
    (s.beginStep l k).outd[o] =
      if q.kind = 7 ∧ o = q.outLine ∧ (s.outd[o]).claimer = some l then { s.outd[o] with level := q.mode == 1 }
      else if q.kind = 8 ∧ o = q.outLine ∧ (s.outd[o]).claimer = some l then
        { s.outd[o] with level := !q.mode.getLsbD 0 }
      else s.outd[o] := by
  subst hq
  have finished (t : State) (c : ResultCode) (v w : Word) (a : Byte) :
      (t.finishStep l c v w a none false true).outd[o] = t.outd[o] :=
    congrArg (fun lines => lines[o]) (t.finishStep_completes l c v w a none false true).2.1
  rcases StepReq.kind_cases ((s.lane l).steps.getD k StepReq.zero).kind with
    h | h | h | h | h | h | h | h | h | h
  · rw [s.beginStep_hold l k h, h]
    split
    · exact finished ..
    · rfl
  · rw [s.beginStep_until l k h, h]
    split
    · exact finished ..
    · rfl
  · rw [s.beginStep_edge l k h, h]; rfl
  · rw [s.beginStep_width l k h, h]; rfl
  · rw [s.beginStep_tally l k h, h]; rfl
  · rw [s.beginStep_period l k h, h]; rfl
  · rw [s.beginStep_set l k h, finished, State.drive_line, h]
    simp only [true_and]
    rfl
  · rw [s.beginStep_pulse l k h, State.drive_line, h]
    simp only [true_and, pulseActive]
    rfl
  · rw [s.beginStep_check l k h, h]; rfl
  · rw [s.beginStep_unknown l k h, if_neg, if_neg] <;> rintro ⟨hk, -⟩ <;> rw [hk] at h <;> revert h <;> decide

end

/-- Step k of a lane written as `y` begins by its kind; `x` is the lane as the step finds it. -/
theorem State.beginStep_stepBegun (s : State) (l : LaneId) (k : Nat) {x y : Lane}
    (same : x.SamePlan (y.begun k s.epoch)) (idle : y.activity.isRunning = false) :
    StepBegun s ((s.setLane l y).beginStep l k) l k x (y.steps.getD k StepReq.zero) := by
  have hy : (s.setLane l y).lane l = y := State.setLane_lane ..
  have hq : ((s.setLane l y).lane l).steps.getD k StepReq.zero = y.steps.getD k StepReq.zero := by rw [hy]
  have found : x.SamePlan (((s.setLane l y).setLane l ((((s.setLane l y).lane l).begun k
      (s.setLane l y).epoch).doing .none)).lane l) := by
    rw [State.setLane_lane, hy]
    exact same.doing .none
  have begun : (((s.setLane l y).setLane l ((((s.setLane l y).lane l).begun k
      (s.setLane l y).epoch).doing .none)).lane l).step = k := by
    rw [State.setLane_lane]
    rfl
  constructor
  case holdZero =>
    intro h p
    rw [State.beginStep_hold _ l k (hq ▸ h), if_pos (hq ▸ p)]
    exact State.finishStep_begun l k _ _ _ _ found begun
  case hold =>
    intro h p
    rw [State.beginStep_hold _ l k (hq ▸ h), if_neg (hq ▸ p), State.setLane_lane]
    rfl
  case untilReached =>
    intro h p
    have p' : reached (s.setLane l y).epoch (y.steps.getD k StepReq.zero).paramA = true := p
    rw [State.beginStep_until _ l k (hq ▸ h), hq, if_pos p']
    exact State.finishStep_begun l k _ _ _ _ found begun
  case untilAhead =>
    intro h p
    have p' : ¬ reached (s.setLane l y).epoch (y.steps.getD k StepReq.zero).paramA = true :=
      Bool.eq_false_iff.1 p
    rw [State.beginStep_until _ l k (hq ▸ h), hq, if_neg p', State.setLane_lane]
    rfl
  case edge => intro h; rw [State.beginStep_edge _ l k (hq ▸ h), State.setLane_lane]; rfl
  case width => intro h; rw [State.beginStep_width _ l k (hq ▸ h), State.setLane_lane]; rfl
  case tally => intro h; rw [State.beginStep_tally _ l k (hq ▸ h), State.setLane_lane]; rfl
  case period => intro h; rw [State.beginStep_period _ l k (hq ▸ h), State.setLane_lane]; rfl
  case set =>
    intro h
    rw [State.beginStep_set_of _ l k hq h]
    refine State.finishStep_begun l k _ _ _ _ ?_ ?_ <;> rw [State.drive_lane]
    · exact found
    · exact begun
  case pulse =>
    intro h
    rw [State.beginStep_pulse _ l k (hq ▸ h), State.drive_lane, State.setLane_lane]
    rfl
  case check =>
    intro h
    rw [State.beginStep_check _ l k (hq ▸ h), hq]
    exact ⟨congrArg Lane.activity (State.setLane_lane ..), rfl⟩
  case lines => exact fun o => State.beginStep_line _ l k o hq
  case runs =>
    intro run
    rcases (s.setLane l y).beginStep_running l k (hy.symm ▸ idle) with ⟨a, h⟩ | h
    · rw [h, hy]
      exact ⟨same.results.symm, same.list.symm, same.passesDone.symm, rfl, rfl, rfl⟩
    · exact absurd run (Bool.eq_false_iff.1 h)
  case place =>
    intro lo hi
    obtain ⟨-, step, tick, -⟩ := (s.setLane l y).beginStep_facts l k (hq ▸ lo) (hq ▸ hi)
    exact ⟨step, tick⟩

/-! ### The completion of a load (06, R86) -/

theorem exec_loadCompletion {s : State} {l : LaneId} (h : (s.lane l).loadCompletionDue = true) :
    exec (.loadCompletion l) s = .next (s.completeLoad l) :=
  congrArg Host.Outcome.next (State.runDue_due (e := .loadCompletion l) h)

/-- Settles O30: the completed load enters STEPPING and begins step 0, which records its own start tick. -/
theorem loadCompletionBeginsStepZero : Obligations.LoadCompletionBeginsStepZero := by
  intro s l hs hl hd ht lo hi
  have due : (s.lane l).loadCompletionDue = true := by
    unfold Lane.loadCompletionDue
    rw [hs, hl, hd, ht]
    rfl
  let y : Lane := { s.lane l with
    state := .stepping, loaded := false, loadDue := false, startedEpoch := s.epoch, passesDone := 0,
    activity := .none }
  have hq : ((s.setLane l y).lane l).steps.getD 0 StepReq.zero = (s.lane l).steps.getD 0 StepReq.zero := by
    rw [State.setLane_lane]
  obtain ⟨only, step, tick, epoch, state⟩ := (s.setLane l y).beginStep_facts l 0 (hq ▸ lo) (hq ▸ hi)
  rw [State.setLane_lane] at epoch state
  exact ⟨_, exec_loadCompletion due, (OnlyLane.of_setLane s l y).trans only, epoch, tick, step, state,
    s.beginStep_stepBegun l 0 (y := y) ⟨rfl, rfl, rfl, rfl, rfl, rfl, rfl⟩ rfl⟩

/-! ### A waiting step (06, R87; 09, R136) -/

theorem exec_stepBegin {s : State} {l : LaneId} (h : (s.lane l).beginDue = true) :
    exec (.stepBegin l) s = .next (s.beginWaiting l) :=
  congrArg Host.Outcome.next (State.runDue_due (e := .stepBegin l) h)

/-- A step that waits for this boundary may begin at it if its lane steps, is not torn and has room. -/
theorem Lane.beginDue_of {x : Lane} {k : Nat} {skip : Bool} (hs : x.state = .stepping) (ht : x.tear = false)
    (hl : x.list.length < 2) (ha : x.activity = .wait k skip true) : x.beginDue = true := by
  unfold Lane.beginDue
  rw [hs, ht, ha, decide_eq_true hl]
  rfl

theorem State.beginWaiting_skip {s : State} {l : LaneId} {k : Nat} {due : Bool}
    (h : (s.lane l).activity = .wait k true due) : s.beginWaiting l =
      (s.setLane l { s.lane l with step := k }).finishStep l .skipped 0 s.epoch 0 none false true := by
  unfold State.beginWaiting
  rw [h]

theorem State.beginWaiting_step {s : State} {l : LaneId} {k : Nat} {due : Bool}
    (h : (s.lane l).activity = .wait k false due) : s.beginWaiting l = s.beginStep l k := by
  unfold State.beginWaiting
  rw [h]

/-! ### What a pin shows (08, R118, R124) -/

theorem State.outputPin_done {s : State} (h : s.nextDue = none) (o : OutLine) :
    s.outputPin o = (s.outd[o]).level := by
  rw [State.outputPin_eq, finishLoop_of_done instantBound h]

/-- Within the bound on an instant's events, a pin shows the same before and after an event due. -/
theorem State.outputPin_act {s : State} {e : Due} (h : s.nextDue = some e)
    (done : (finishLoop 127 (e.act s)).nextDue = none) (o : OutLine) :
    (e.act s).outputPin o = s.outputPin o := by
  have bound : instantBound = 127 + 1 := rfl
  rw [State.outputPin_eq, State.outputPin_eq, bound, finishLoop_of_due 127 h, finishLoop_succ 127 done]

/-! ### Two SETs at one boundary (08, R124, R127) -/

/-- A SET of a line that its lane has claimed, with a step after it in the pass: the line has the SET's level, and
the next step may begin at the same boundary, one result being in the list. -/
theorem State.beginStep_set_next {s : State} {l : LaneId} {k : Nat} {a : StepReq} {o : OutLine}
    (ha : (s.lane l).steps.getD k StepReq.zero = a) (h7 : a.kind = 7) (ho : a.outLine = o)
    (claimed : (s.outd[o]).claimer = some l) :
    ((s.beginStep l k).outd[o]).level = (a.mode == 1) ∧
      ((s.beginStep l k).outd[o]).claimer = some l ∧
      ((s.beginStep l k).lane l).steps = (s.lane l).steps ∧
      ((s.beginStep l k).lane l).tear = (s.lane l).tear ∧
      (k + 1 ≠ (s.lane l).stepCount.toNat →
        ((s.beginStep l k).lane l).list.length = (s.lane l).list.length + 1 ∧
        ((s.beginStep l k).lane l).state = (s.lane l).state ∧
        ((s.beginStep l k).lane l).activity = .wait (k + 1) false true) := by
  subst ho
  have line := s.beginStep_line l k a.outLine ha
  rw [if_pos ⟨h7, rfl, claimed⟩] at line
  refine ⟨congrArg OutputLine.level line, (congrArg OutputLine.claimer line).trans claimed, ?_⟩
  rw [s.beginStep_set_of l k ha h7]
  generalize ht : (s.setLane l (((s.lane l).begun k s.epoch).doing .none)).drive l a.outLine (a.mode == 1) = t
  have hl : t.lane l = ((s.lane l).begun k s.epoch).doing .none := by
    rw [← ht, State.drive_lane, State.setLane_lane]
  obtain ⟨y, q, h, list, -, -, -, -, -, -, tear, -, -, -, -, -, steps, -, -, -, goesOn⟩ :=
    State.finishStep_eq t l .ok (levelWord (a.mode == 1)) s.epoch (levelByte (s.outd[a.outLine]).level) none false true
  rw [h, State.mport_lane, State.setLane_lane]
  rw [hl] at list tear steps goesOn
  refine ⟨steps, tear, fun hk => ?_⟩
  have notLast : (((s.lane l).begun k s.epoch).doing .none).atLast = false := by
    simpa [Lane.atLast, Lane.doing, Lane.begun] using hk
  obtain ⟨state, -, act⟩ := goesOn (by simp [Lane.endingWith, notLast])
  refine ⟨by rw [list]; exact List.length_append, state, act.trans ?_⟩
  unfold Lane.nextWait
  rw [notLast]
  rfl

/-- Two SETs of one claimed line begin one after the other at one boundary. -/
theorem stepBegin_twoSets {s : State} {l : LaneId} {k : Nat} {a b : StepReq} {o : OutLine}
    (ha : (s.lane l).steps.getD k StepReq.zero = a) (hb : (s.lane l).steps.getD (k + 1) StepReq.zero = b)
    (a7 : a.kind = 7) (b7 : b.kind = 7) (ao : a.outLine = o) (bo : b.outLine = o)
    (claimed : (s.outd[o]).claimer = some l) (hs : (s.lane l).state = .stepping) (ht : (s.lane l).tear = false)
    (hl : (s.lane l).list = []) (hw : (s.lane l).activity = .wait k false true)
    (hk : k + 1 ≠ (s.lane l).stepCount.toNat) :
    exec (.stepBegin l) s = .next (s.beginWaiting l) ∧
      exec (.stepBegin l) (s.beginWaiting l) = .next ((s.beginWaiting l).beginWaiting l) ∧
      ((s.beginWaiting l).outd[o]).level = (a.mode == 1) ∧
      (((s.beginWaiting l).beginWaiting l).outd[o]).level = (b.mode == 1) := by
  obtain ⟨level, claimer, steps, tear, next⟩ := State.beginStep_set_next ha a7 ao claimed
  obtain ⟨list, state, act⟩ := next hk
  rw [State.beginWaiting_step hw]
  refine ⟨?_, ?_, level, ?_⟩
  · rw [exec_stepBegin (Lane.beginDue_of hs ht (by rw [hl]; decide) hw), State.beginWaiting_step hw]
  · exact exec_stepBegin (Lane.beginDue_of (state.trans hs) (tear.trans ht) (by rw [list, hl]; decide) act)
  · rw [State.beginWaiting_step act]
    exact (State.beginStep_set_next ((congrArg (·.getD (k + 1) StepReq.zero) steps).trans hb) b7 bo claimer).1

/-- Settles O31: a step passed over completes SKIPPED, any other begins by its kind; then the pins. -/
theorem stepBegins : Obligations.StepBegins := by
  refine ⟨?_, ⟨rfl, rfl, rfl, rfl⟩, fun s o h => State.outputPin_done h o,
    fun s e o h done => State.outputPin_act h done o, ?_⟩
  · rintro s l k x q rfl rfl hs ht hl
    refine ⟨fun ha => ⟨_, exec_stepBegin (Lane.beginDue_of hs ht hl ha), ?_⟩,
      fun ha => ⟨_, exec_stepBegin (Lane.beginDue_of hs ht hl ha), ?_⟩⟩
    · rw [State.beginWaiting_skip ha]
      obtain ⟨only, lines, -⟩ :=
        (s.setLane l { s.lane l with step := k }).finishStep_completes l .skipped 0 s.epoch 0 none false true
      refine ⟨(OnlyLane.of_setLane ..).trans only, lines, State.finishStep_begun l k _ _ _ _ ?_ ?_⟩ <;>
        rw [State.setLane_lane]
      exact ⟨rfl, rfl, rfl, rfl, rfl, rfl, rfl⟩
    · rw [State.beginWaiting_step ha]
      have begun := s.beginStep_stepBegun l k (y := s.lane l)
        (x := { s.lane l with results := if k = 0 then Vector.replicate 12 none else (s.lane l).results })
        ⟨rfl, rfl, rfl, rfl, rfl, rfl, rfl⟩ (by rw [ha]; rfl)
      rw [State.setLane_same] at begun
      exact ⟨OnlyLane.of_beginStep s l k, begun⟩
  · rintro s l k a b o ha hb a7 b7 ao bo claimed hs ht hl hw hk
    obtain ⟨first, second, level, final⟩ :=
      stepBegin_twoSets ha.symm hb.symm a7 b7 ao bo claimed hs ht hl hw hk
    refine ⟨_, _, first, second, level, final, fun done => ?_⟩
    have pin : ((s.beginWaiting l).beginWaiting l).outputPin o = (b.mode == 1) :=
      (State.outputPin_done done o).trans final
    refine ⟨pin, fun dueT => ?_⟩
    have loopU : (finishLoop 127 ((s.beginWaiting l).beginWaiting l)).nextDue = none := by
      rw [finishLoop_of_done 127 done]
      exact done
    have pinT : (s.beginWaiting l).outputPin o = (b.mode == 1) :=
      (State.outputPin_act dueT loopU o).symm.trans pin
    refine ⟨pinT, fun dueS => (State.outputPin_act dueS ?_ o).symm.trans pinT⟩
    have loopT : finishLoop 127 (s.beginWaiting l) = finishLoop 126 ((s.beginWaiting l).beginWaiting l) :=
      finishLoop_of_due 126 dueT
    show (finishLoop 127 (s.beginWaiting l)).nextDue = none
    rw [loopT, finishLoop_of_done 126 done]
    exact done

end Sys2Proof.Machine
end

section
/-! PROOF. The accesses of settles and of lanes that a command brings back, and the stall of a failed hand-off
(10, R148, R149; 02, R25, R26): O51. -/

namespace Sys2Proof.Machine

/-! ### What a unit does with the access that a command brings back -/

section Returns
variable {s : State} {r : BusReturn} {req : Request} {rest : List Request} (hr : Returns s r req rest)
include hr

theorem exec_smonSettle (ha : req.access = .smonSettle) :
    exec (.settleWrite r) s =
      .next ((s.afterReturn r req rest).smonSettleReturned (replyFailed r.reply) r.atStall) :=
  congrArg Host.Outcome.next ((State.busEvent_of_returns _ hr (by simp [ha])).trans (by simp only [ha]))

theorem exec_laneSettle {l : LaneId} (ha : req.access = .laneSettle l) :
    exec (.settleWrite r) s =
      .next ((s.afterReturn r req rest).laneSettleReturned l (replyFailed r.reply) r.atStall) :=
  congrArg Host.Outcome.next ((State.busEvent_of_returns _ hr (by simp [ha])).trans (by simp only [ha]))

theorem exec_listCheck {l : LaneId} (ha : req.access = .check l) (hb : req.abandoned = false) :
    exec (.preWriteCheck r) s = .next ((s.afterReturn r req rest).listCheckReturned l (replyFailed r.reply)
      (s.wordReturned r req rest)) :=
  congrArg Host.Outcome.next ((State.busEvent_of_returns _ hr (by simp [ha])).trans
    (by simp only [ha, hb]; rfl))

theorem exec_settleCheck {l : LaneId} (ha : req.access = .settleCheck l) (hb : req.abandoned = false) :
    exec (.preWriteCheck r) s = .next ((s.afterReturn r req rest).settleCheckReturned l (replyFailed r.reply)
      (s.wordReturned r req rest) r.atStall) :=
  congrArg Host.Outcome.next ((State.busEvent_of_returns _ hr (by simp [ha])).trans
    (by simp only [ha, hb]; rfl))

end Returns

/-! ### Entry to STALLED (10, R148, R149) -/

/-- Memory keeps what it has unless an access is under way. -/
theorem State.emptyBus_mem_idle {s : State} {b : Option OnBus} (h : b = none ∨ s.mport = []) :
    (s.emptyBus b).mem = s.mem := by
  cases b with
  | none => rfl
  | some o =>
    rcases h with h | h
    · exact nomatch h
    · exact State.dropBus_mem_of_empty o h

/-- `State.stall` written out: an access under way touches memory and the order list alone. -/
theorem State.stall_frame (s : State) (code : FaultCode) (b : Option OnBus) :
    s.stall code b = (({ s with
      mport := []
      mem := (s.emptyBus b).mem
      engc := { s.engc with engine := .stalled, faultCode := code, loading := none }
      lanes := Vector.replicate 4 Lane.empty
      admu := { queue := [], claims := Vector.replicate 4 Claim.reset, pool := Vector.replicate 4 true }
      outd := outdStall s.outd
      smon := { s.smon with
        inProgress := false, pendingSweep := false, piece := none, waiting := [], counts := [],
        secondWord := false } } : State).setCause causeStall).stopTicks := by
  unfold State.stall
  rw [State.emptyBus_frame]

/-- What `State.stall` leaves, whichever access is under way at it. -/
theorem State.stall_stalledFrom (s : State) (code : FaultCode) (b : Option OnBus) :
    StalledFrom s (s.stall code b) code b := by
  rw [s.stall_frame]
  constructor
  case lanes =>
    intro l
    show Lane.Clear ((Vector.replicate 4 Lane.empty)[l])
    simp [Lane.Clear, Lane.empty]
  case claims =>
    intro o
    show (Vector.replicate 4 Claim.reset)[o] = _
    simp [Claim.reset]
  case pool =>
    intro l
    show (Vector.replicate 4 true)[l] = true
    simp
  case lines =>
    intro o
    have line : (outdStall s.outd)[o] = { (s.outd[o]).toIdle with claimer := none } := tabulate4_get ..
    show ((outdStall s.outd)[o]).claimer = none ∧ ((outdStall s.outd)[o]).keep = false ∧
      ((outdStall s.outd)[o]).idle = (s.outd[o]).idle ∧ ((outdStall s.outd)[o]).level = (s.outd[o]).idle
    rw [line]
    exact ⟨rfl, rfl, rfl, rfl⟩
  case memory => exact State.emptyBus_mem_idle
  case underWay =>
    rintro o two rest rfl hp
    exact State.dropBus_mem_of_pick hp
  case flags => exact ⟨rfl, rfl⟩
  case work => exact ⟨rfl, rfl, rfl⟩
  case mirror => exact ⟨rfl, rfl⟩
  all_goals rfl

/-! ### The hand-offs that fail -/

section HandOffs
variable (s : State) (b : Option OnBus)

theorem State.smonSettleReturned_failed {p : Piece} {j : SettleJob} {i : Nat}
    (h : s.smon.piece = some (p, .settle j i)) : s.smonSettleReturned true b = s.stall .settleLost b := by
  unfold State.smonSettleReturned
  rw [h]
  rfl

theorem State.orphanSettleReturned_failed {x : Loading} (h : s.engc.loading = some x) :
    s.orphanSettleReturned true b = s.stall .settleLost b := by
  unfold State.orphanSettleReturned
  rw [h]
  rfl

theorem State.laneSettleReturned_failed {l : LaneId} {i : Nat} (h : (s.lane l).access = .settleWrite i) :
    s.laneSettleReturned l true b = s.stall .settleLost b := by
  unfold State.laneSettleReturned
  dsimp only
  rw [h]
  rfl

theorem State.settleCheckReturned_failed {l : LaneId} {i : Nat} (h : (s.lane l).access = .settleCheck i)
    (w : Word) : s.settleCheckReturned l true w b = s.stall .settleLost b := by
  unfold State.settleCheckReturned
  dsimp only
  rw [h]
  rfl

theorem State.counterReturned_failed : s.counterReturned true b = s.stall .headerLost b := rfl

theorem State.configAckReturned_failed {x : Loading} (h : s.engc.loading = some x) :
    s.configAckReturned true b = s.stall .headerLost b := by
  unfold State.configAckReturned
  rw [h]
  rfl

end HandOffs

/-- Settles O51: each hand-off that fails is a stall. -/
theorem failedHandOffStalls : Obligations.FailedHandOffStalls := by
  rintro s u r req rest hr hf rfl
  refine ⟨fun p j i ha hp => ⟨_, exec_smonSettle hr ha, ?_⟩, fun x ha hx => ⟨_, exec_orphanSettle hr ha, ?_⟩,
    fun l i ha hx => ⟨_, exec_laneSettle hr ha, ?_⟩, fun l i ha hb hx => ⟨_, exec_settleCheck hr ha hb, ?_⟩,
    fun ha => ⟨_, exec_counterWrite hr ha, ?_⟩, fun x ha hx => ⟨_, exec_configAckWrite hr ha, ?_⟩⟩ <;> rw [hf]
  · rw [State.smonSettleReturned_failed _ _ hp]
    exact State.stall_stalledFrom ..
  · rw [State.orphanSettleReturned_failed _ _ hx]
    exact State.stall_stalledFrom ..
  · rw [State.laneSettleReturned_failed _ _ hx]
    exact State.stall_stalledFrom ..
  · rw [State.settleCheckReturned_failed _ _ hx]
    exact State.stall_stalledFrom ..
  · rw [State.counterReturned_failed]
    exact State.stall_stalledFrom ..
  · rw [State.configAckReturned_failed _ _ hx]
    exact State.stall_stalledFrom ..

end Sys2Proof.Machine
end

section
/-! SUPPORT. What the return of a lane's access can bring: the frame of a lane and the counter set, a discarded result,
a fault, a tear that is learned, and a torn lane that goes FREE (06, R91 to R93, R98; 11, R161). -/

namespace Sys2Proof.Machine

/-! ### Nothing but a lane, the order list and the counter set -/

theorem OnlyLane.withCounts {s t : State} {l : LaneId} (h : OnlyLane s t l) (ho : t.outd = s.outd) :
    OnlyLaneAndCounts s t l where
  pending := h.pending
  regp := h.regp
  tbu := h.tbu
  engc := h.engc
  mirror := by rw [h.smon]
  work := by rw [h.smon]; exact ⟨rfl, rfl⟩
  sweep := by rw [h.smon]; exact ⟨rfl, rfl⟩
  admu := h.admu
  inc := h.inc
  outd := ho
  mem := h.mem
  others := h.others

theorem OnlyLaneAndCounts.trans {s t u : State} {l : LaneId} (h : OnlyLaneAndCounts s t l)
    (g : OnlyLaneAndCounts t u l) : OnlyLaneAndCounts s u l where
  pending := g.pending.trans h.pending
  regp := g.regp.trans h.regp
  tbu := g.tbu.trans h.tbu
  engc := g.engc.trans h.engc
  mirror := g.mirror.trans h.mirror
  work := ⟨g.work.1.trans h.work.1, g.work.2.trans h.work.2⟩
  sweep := ⟨g.sweep.1.trans h.sweep.1, g.sweep.2.trans h.sweep.2⟩
  admu := g.admu.trans h.admu
  inc := g.inc.trans h.inc
  outd := g.outd.trans h.outd
  mem := g.mem.trans h.mem
  others := fun k hk => (g.others k hk).trans (h.others k hk)

theorem OnlyLaneAndCounts.of_setLane (s : State) (l : LaneId) (x : Lane) : OnlyLaneAndCounts s (s.setLane l x) l :=
  (OnlyLane.of_setLane s l x).withCounts rfl

theorem OnlyLaneAndCounts.of_raise (s : State) (l : LaneId) (a : Access) (w : Word) (d : Option Word) :
    OnlyLaneAndCounts s (s.raise a w d) l := (OnlyLane.of_raise s l a w d).withCounts rfl

theorem OnlyLaneAndCounts.of_abandon (s : State) (l : LaneId) (p : Access → Bool) :
    OnlyLaneAndCounts s (s.abandon p) l := (OnlyLane.of_abandon s l p).withCounts rfl

@[simp] theorem State.raise_lane (s : State) (a : Access) (w : Word) (d : Option Word) (l : LaneId) :
    (s.raise a w d).lane l = s.lane l := rfl

/-- A request to the counter set leaves every lane alone. -/
theorem State.count_lane (s : State) (kind : CountKind) (q : Requester) (l : LaneId) :
    (s.count kind q).lane l = s.lane l := State.lane_of_lanes (OnlyWork.of_count s kind q).1.lanes l

theorem OnlyLaneAndCounts.of_count (s : State) (l : LaneId) (kind : CountKind) (q : Requester) :
    OnlyLaneAndCounts s (s.count kind q) l := by
  obtain ⟨only, mirror⟩ := OnlyWork.of_count s kind q
  obtain ⟨piece, waiting, progress, pending, -⟩ := s.count_work kind q
  exact ⟨only.pending, only.regp, only.tbu, only.engc, mirror, ⟨piece, waiting⟩, ⟨progress, pending⟩, only.admu,
    only.inc, only.outd, only.mem, fun k _ => s.count_lane kind q k⟩

theorem OnlyLane.of_pump (s : State) (l : LaneId) : OnlyLane s (s.pump l) l := by
  obtain ⟨a, e, q, h⟩ := s.pump_eq l
  rw [h]
  exact .of_write ..

theorem State.pump_outd (s : State) (l : LaneId) : (s.pump l).outd = s.outd := by
  obtain ⟨a, e, q, h⟩ := s.pump_eq l
  rw [h]
  rfl

theorem State.conclude_outd (s : State) (l : LaneId) (o : PlanOutcome) (b : Byte) :
    (s.conclude l o b).outd = s.outd := by
  obtain ⟨a, e, q, h⟩ := s.conclude_eq l o b
  rw [h]
  rfl

/-! ### A fault (06, R86, R93) -/

section
variable (s : State) (l : LaneId)

/-- A fault on the lane's memory path, and what it leaves in the lane. -/
theorem State.laneFault_lane (o : PlanOutcome) (last : Byte) (code : FaultCode) (drop : Bool) :
    (s.laneFault l o last code drop).lane l = { s.lane l with
      state := .closing, activity := .none, loaded := false, loadDue := false, outcome := some (o, last),
      faultCounts := (s.lane l).faultCounts + 1, list := if drop then [] else (s.lane l).list,
      access := if drop then .idle else (s.lane l).access } := by
  unfold State.laneFault
  rw [State.count_lane]
  exact State.setLane_lane ..

theorem State.laneFault_counts (o : PlanOutcome) (last : Byte) (code : FaultCode) (drop : Bool) :
    (s.laneFault l o last code drop).smon.counts =
      s.smon.counts ++ [{ kind := .fault code, requester := .lane l }] := by
  unfold State.laneFault
  rw [State.count_counts]
  rfl

theorem OnlyLaneAndCounts.of_laneFault (o : PlanOutcome) (last : Byte) (code : FaultCode) (drop : Bool) :
    OnlyLaneAndCounts s (s.laneFault l o last code drop) l :=
  ((OnlyLaneAndCounts.of_setLane ..).trans (.of_abandon ..)).trans (.of_count ..)

end

/-! ### A tear that a lane learns of (06, R95, R98) -/

/-- A lane with a plan that has not passed the check of its settle word learns of a tear. -/
theorem State.learnTear_learns {s : State} {l : LaneId} (hs : (s.lane l).state ≠ .free)
    (ht : (s.lane l).tear = false) (hp : (s.lane l).pastSettleCheck = false) :
    OnlyLane s (s.learnTear l) l ∧ (s.learnTear l).outd = s.outd ∧
      (s.learnTear l).mport = givenUpBy l s.mport ∧
      (s.learnTear l).lane l = { s.lane l with
        tear := true, access := if let .settleCheck _ := (s.lane l).access then .idle else (s.lane l).access } := by
  unfold State.learnTear
  dsimp only
  rw [if_neg (by simp [hs, ht, hp])]
  refine ⟨(OnlyLane.of_setLane ..).trans (.of_abandon ..), rfl, ?_, (State.setLane_lane ..).trans ?_⟩
  · rw [State.abandon_mport]
    unfold givenUpBy
    simp [or_assoc]
  · cases (s.lane l).access <;> rfl

/-! ### A result that is discarded, and a torn lane that goes FREE (06, R98; 05, R78) -/

theorem State.discarded_of {s : State} {req : Request} {l : LaneId} (h : req.access.lane? = some l) :
    s.discarded req = s.tearFinish l := by
  unfold State.discarded
  rw [h]

theorem ReturnDiscarded.of_discarded (s : State) {req : Request} {l : LaneId} (h : req.access.lane? = some l) :
    ReturnDiscarded s (s.discarded req) l := by
  rw [State.discarded_of h]
  exact s.tearFinish_discarded l

/-- A torn lane's release is the same report from a state that agrees in SMON's queue, the engine's state and the
slot. -/
theorem TornLaneFreed.congr {u v t : State} {l : LaneId} (h : TornLaneFreed u t l)
    (waiting : v.smon.waiting = u.smon.waiting) (slot : (v.lane l).slot = (u.lane l).slot)
    (engine : v.engc.engine = u.engc.engine) : TornLaneFreed v t l where
  report := by rw [h.report, waiting, slot]
  lane := engine ▸ h.lane

/-- A torn lane's release asks nothing of the counter set. -/
theorem State.tearFinish_counts (s : State) (l : LaneId) : (s.tearFinish l).smon.counts = s.smon.counts := by
  unfold State.tearFinish
  dsimp only
  split
  · rw [(State.walk_frame _).1.smon]
    rfl
  · rfl

/-- A lane that has not stopped, or waits for an access or a count, does not go FREE. -/
theorem State.tearFinish_stays {s : State} {l : LaneId} (h : (s.lane l).stopped = false ∨
    s.laneOutstanding l = true ∨ (s.lane l).faultCounts ≠ 0) : s.tearFinish l = s :=
  (s.tearFinish_discarded l).waits h

/-- A torn lane rewritten to a lane with the same slot, flags and fault counts goes FREE, or stays as rewritten. -/
theorem State.tearFinish_rewritten (u : State) (l : LaneId) {y : Lane} (slot : y.slot = (u.lane l).slot)
    (stopped : y.stopped = (u.lane l).stopped) (faults : y.faultCounts = (u.lane l).faultCounts) :
    ((u.setLane l y).tearFinish l).smon.counts = u.smon.counts ∧
      ((u.lane l).stopped = true → u.laneOutstanding l = false → (u.lane l).faultCounts = 0 →
        TornLaneFreed u ((u.setLane l y).tearFinish l) l) ∧
      ((u.lane l).stopped = false ∨ u.laneOutstanding l = true ∨ (u.lane l).faultCounts ≠ 0 →
        (u.setLane l y).tearFinish l = u.setLane l y) := by
  have lane : (u.setLane l y).lane l = y := State.setLane_lane ..
  refine ⟨State.tearFinish_counts .., fun h1 h2 h3 => ?_, fun h => State.tearFinish_stays ?_⟩
  · have freed := (State.tearFinish_frees (u.setLane l y) l (by rw [lane, stopped, h1]) h2
      (by rw [lane, faults, h3])).1
    exact freed.congr rfl (by rw [lane, slot]) rfl
  · rw [lane, stopped, faults]
    exact h

end Sys2Proof.Machine
end

section
/-! PROOF. The reads of a CHECK's qualifier, and its completion at the fourth (09, R131 to R138; 06, R93): O58 and
O59. -/

namespace Sys2Proof.Machine

/-! ### What a lane does with a qualifier word -/

section Returns
variable {s : State} {r : BusReturn} {req : Request} {rest : List Request} (hr : Returns s r req rest)
include hr

theorem exec_check {l : LaneId} (ha : req.access = .qualifier l true) :
    exec (.check r) s = .next (if req.abandoned then (s.afterReturn r req rest).discarded req
      else (s.afterReturn r req rest).qualifierReturned l (replyFailed r.reply) (s.wordReturned r req rest)) :=
  congrArg Host.Outcome.next ((State.busEvent_of_returns _ hr (by simp [ha])).trans (by simp only [ha]))

theorem exec_qualifierRead {l : LaneId} (ha : req.access = .qualifier l false) :
    exec (.qualifierRead r) s = .next (if req.abandoned then (s.afterReturn r req rest).discarded req
      else (s.afterReturn r req rest).qualifierReturned l (replyFailed r.reply) (s.wordReturned r req rest)) :=
  congrArg Host.Outcome.next ((State.busEvent_of_returns _ hr (by simp [ha])).trans (by simp only [ha]))

end Returns

section Words
variable {s : State} {l : LaneId} {got : List Word} (h : (s.lane l).activity = .check got)
include h

theorem State.qualifierReturned_failed (w : Word) : s.qualifierReturned l true w =
    s.laneFault l .fetchFault (BitVec.ofNat 8 (s.lane l).step) .readErr false := by
  unfold State.qualifierReturned
  dsimp only
  rw [h]
  rfl

/-- One of the first three words brings the read of the next, but not on a lane that has learned of a tear. -/
theorem State.qualifierReturned_next (w : Word) (hg : got.length < 3) : s.qualifierReturned l false w =
    if (s.lane l).tear then s.setLane l { s.lane l with activity := .check (got ++ [w]) }
    else (s.setLane l { s.lane l with activity := .check (got ++ [w]) }).raise (.qualifier l (got.length == 2))
      (s.qualifierAddr (s.lane l).request.arg.toNat (got.length + 1)) none := by
  have more : (got ++ [w]).length < 4 := by simp; omega
  have last : ((got ++ [w]).length == 3) = (got.length == 2) := by simp
  unfold State.qualifierReturned
  dsimp only
  rw [h]
  dsimp only
  rw [if_neg Bool.false_ne_true, if_pos more, last, List.length_append]
  rfl

end Words

/-- The fourth word evaluates the CHECK. -/
theorem State.qualifierReturned_last {s : State} {l : LaneId} {a b c : Word}
    (h : (s.lane l).activity = .check [a, b, c]) (d : Word) :
    s.qualifierReturned l false d = s.evaluateCheck l [a, b, c, d] := by
  unfold State.qualifierReturned
  dsimp only
  rw [h]
  rfl

/-- What a fault on a qualifier read leaves: no result, the list kept, and the count asked for. -/
theorem State.qualifierFault_facts (s : State) (l : LaneId) (last : Byte) :
    let t := s.laneFault l .fetchFault last .readErr false
    OnlyLaneAndCounts s t l ∧ (t.lane l).list = (s.lane l).list ∧ (t.lane l).state = .closing ∧
      (t.lane l).activity = .none ∧ (t.lane l).outcome = some (.fetchFault, last) ∧
      t.smon.counts = s.smon.counts ++ [{ kind := .fault .readErr, requester := .lane l }] := by
  refine ⟨.of_laneFault .., ?_, ?_, ?_, ?_, State.laneFault_counts ..⟩ <;> rw [State.laneFault_lane]
  rfl

/-- Settles O59: by the reply, and for a good one by `State.qualifierReturned_next`'s two cases. -/
theorem qualifierReadsFollowInOrder : Obligations.QualifierReadsFollowInOrder := by
  constructor
  · intro s r req rest l hr hb ha
    exact ⟨_, exec_qualifierRead hr ha, by rw [if_pos hb]; exact .of_discarded _ (by rw [ha]; rfl)⟩
  · rintro s u r req rest l got hr ha hb rfl hx hg
    refine ⟨_, exec_qualifierRead hr ha, ?_⟩
    rw [hb, if_neg Bool.false_ne_true]
    cases hf : replyFailed r.reply with
    | true =>
      rw [State.qualifierReturned_failed hx]
      obtain ⟨only, list, ended⟩ := State.qualifierFault_facts (s.afterReturn r req rest) l
        (BitVec.ofNat 8 ((s.afterReturn r req rest).lane l).step)
      exact ⟨only, list, nofun, fun _ => ended⟩
    | false =>
      rw [State.qualifierReturned_next hx _ hg]
      cases ht : ((s.afterReturn r req rest).lane l).tear with
      | true =>
        rw [if_pos rfl]
        refine ⟨.of_setLane .., ?_, fun _ => ⟨?_, fun _ => rfl, nofun⟩, nofun⟩ <;> rw [State.setLane_lane]
      | false =>
        rw [if_neg Bool.false_ne_true]
        refine ⟨(OnlyLaneAndCounts.of_setLane ..).trans (.of_raise ..), ?_, fun _ => ⟨?_, nofun, fun _ => rfl⟩,
          nofun⟩ <;>
          rw [State.raise_lane, State.setLane_lane]

/-! ### The CHECK's completion (09, R131, R132, R134, R135) -/

/-- The two bits of a CHECK's action. -/
theorem CheckAction.number_ofBits (b : BitVec 2) : (CheckAction.ofBits b).number = BitVec.setWidth 8 b := by
  revert b
  decide

theorem checkAction_eq (mode : Byte) (code : ResultCode) : checkAction mode code =
    CheckAction.ofBits (if code = .matched then mode.extractLsb' 3 2 else mode.extractLsb' 5 2) := by
  unfold checkAction
  split <;> rfl

/-- The evaluation as the completion of a step, with the action's two bits. -/
theorem State.evaluateCheck_eq {s : State} {l : LaneId} {q : List Word} {code : ResultCode} {value : Word}
    {action : BitVec 2} (hc : checkResult (s.lane l).request.mode (s.lane l).sourceData q = (code, value))
    (ha : action = if code = .matched then (s.lane l).request.mode.extractLsb' 3 2
      else (s.lane l).request.mode.extractLsb' 5 2) :
    s.evaluateCheck l q = s.finishStep l code value s.epoch (BitVec.setWidth 8 action)
      (CheckAction.ofBits action).verdict (CheckAction.ofBits action == .skipNext) false := by
  unfold State.evaluateCheck
  dsimp only
  rw [hc, checkAction_eq, ← ha, CheckAction.number_ofBits]

/-- A completion whose verdict concludes the plan. -/
theorem State.finishStep_concludes (s : State) (l : LaneId) (c : ResultCode) (v w : Word) (a : Byte)
    (o : PlanOutcome) (skip same : Bool) :
    ((s.finishStep l c v w a (some o) skip same).lane l).state = .closing ∧
      ((s.finishStep l c v w a (some o) skip same).lane l).activity = .none ∧
      ((s.finishStep l c v w a (some o) skip same).lane l).outcome = some (o, BitVec.ofNat 8 (s.lane l).step) := by
  obtain ⟨acc, e, q, h⟩ := s.finishStep_ends l c v w a (some o) skip same o rfl
  rw [h, State.mport_lane, State.setLane_lane]
  exact ⟨rfl, rfl, rfl⟩

/-- What each action brings. -/
theorem State.finishStep_action (s : State) (l : LaneId) (c : ResultCode) (v w : Word) (action : BitVec 2) :
    let t := s.finishStep l c v w (BitVec.setWidth 8 action) (CheckAction.ofBits action).verdict
      (CheckAction.ofBits action == .skipNext) false
    (action = 0 → PassGoesOn (s.lane l) (t.lane l) (s.lane l).step false false) ∧
      (action = 1 → PassGoesOn (s.lane l) (t.lane l) (s.lane l).step true false) ∧
      (action = 2 → (t.lane l).state = .closing ∧ (t.lane l).activity = .none ∧
        (t.lane l).outcome = some (.passed, BitVec.ofNat 8 (s.lane l).step)) ∧
      (action = 3 → (t.lane l).state = .closing ∧ (t.lane l).activity = .none ∧
        (t.lane l).outcome = some (.failed, BitVec.ofNat 8 (s.lane l).step)) := by
  refine ⟨?_, ?_, ?_, ?_⟩ <;> rintro rfl
  · exact State.finishStep_passGoesOn ..
  · exact State.finishStep_passGoesOn ..
  · exact State.finishStep_concludes ..
  · exact State.finishStep_concludes ..

theorem Current.data_eq_some {c : Current}
    (h : c.code = .ok ∨ c.code = .matched ∨ c.code = .miss ∨ c.code = .overrange) : c.data = some c.value := by
  unfold Current.data
  rcases h with h | h | h | h <;> rw [h]

theorem Current.data_eq_none {c : Current} (ok : c.code ≠ .ok) (matched : c.code ≠ .matched)
    (miss : c.code ≠ .miss) (range : c.code ≠ .overrange) : c.data = none := by
  unfold Current.data
  split <;> first | rfl | contradiction

theorem Lane.sourceData_eq {x : Lane} (h : x.request.line.toNat < 12) :
    x.sourceData = (x.results[x.request.line.toNat]).bind Current.data := by
  unfold Lane.sourceData
  rw [Vector.getElem?_eq_getElem h]
  cases x.results[x.request.line.toNat] <;> rfl

/-- Settles O58: a good fourth read completes the CHECK by `State.evaluateCheck_eq`, and a failed one is a fault. -/
theorem checkCompletesAndActs : Obligations.CheckCompletesAndActs := by
  refine ⟨fun s r req rest l hr hb ha => ?_, ?_, fun x h => ⟨fun hn => ?_, fun c hc => ⟨fun hd => ?_, ?_⟩⟩⟩
  · exact ⟨_, exec_check hr ha, by rw [if_pos hb]; exact .of_discarded _ (by rw [ha]; rfl)⟩
  · rintro s u r req rest l x a b c d value code action hr ha hb rfl rfl rfl hx hc hact
    have run := exec_check hr ha
    rw [hb, if_neg Bool.false_ne_true] at run
    refine ⟨fun hf => ⟨_, run, ?_⟩, fun hf => ⟨_, run, ?_⟩⟩
    · have epoch : (s.afterReturn r req rest).epoch = s.tbu.epoch := s.settled_epoch
      rw [hf, State.qualifierReturned_last hx, State.evaluateCheck_eq hc hact, epoch]
      obtain ⟨only, lines, completed⟩ := (s.afterReturn r req rest).finishStep_completes l code value s.tbu.epoch
        (BitVec.setWidth 8 action) (CheckAction.ofBits action).verdict (CheckAction.ofBits action == .skipNext) false
      exact ⟨only, lines, completed, State.finishStep_action ..⟩
    · rw [hf, State.qualifierReturned_failed hx]
      exact State.qualifierFault_facts ..
  · rw [Lane.sourceData_eq h, hn]
    rfl
  · rw [Lane.sourceData_eq h, hc]
    exact Current.data_eq_some hd
  · intro ok matched miss range
    rw [Lane.sourceData_eq h, hc]
    exact Current.data_eq_none ok matched miss range

end Sys2Proof.Machine
end

section
/-! PROOF. A lane's checks and writes on its slot: the check before each write, the result words, and the count of a
fault (06, R91 to R93, R98 to R100; 02, R23, R26, R32, R36): O53 and O54. -/

namespace Sys2Proof.Machine

/-! ### What a unit does with the access -/

section Returns
variable {s : State} {r : BusReturn} {req : Request} {rest : List Request} (hr : Returns s r req rest)
include hr

theorem exec_preWriteCheck_abandoned {l : LaneId} (ha : req.access = .check l ∨ req.access = .settleCheck l)
    (hb : req.abandoned = true) :
    exec (.preWriteCheck r) s = .next ((s.afterReturn r req rest).discarded req) :=
  congrArg Host.Outcome.next ((State.busEvent_of_returns _ hr (by rcases ha with ha | ha <;> simp [ha])).trans
    (if_pos hb))

theorem exec_resultWrite {l : LaneId} (ha : req.access = .result l) :
    exec (.resultWrite r) s = .next ((s.afterReturn r req rest).resultReturned l (replyFailed r.reply)) :=
  congrArg Host.Outcome.next ((State.busEvent_of_returns _ hr (by simp [ha])).trans (by simp only [ha]))

end Returns

/-! ### The check before a result word (06, R92, R93, R98) -/

section ListCheck
variable {s : State} {l : LaneId} {i : Nat} {e : StepResult} {more : List StepResult}
  (hx : (s.lane l).access = .check i) (hl : (s.lane l).list = e :: more)
include hx hl

/-- The return of a check, by whether the lane has learned of a tear and whether the word read is the plan's. -/
theorem State.listCheckReturned_eq (failed : Bool) (w : Word) : s.listCheckReturned l failed w =
    if (s.lane l).tear then
      if failed = false ∧ postSeq w = (s.lane l).seq then
        (s.setLane l { s.lane l with access := .write i }).raiseResult l i e
      else (s.setLane l { s.lane l with access := .idle, list := [] }).tearFinish l
    else if failed then s.laneFault l .fetchFault (BitVec.ofNat 8 e.step) .readErr true
    else if postSeq w = (s.lane l).seq then
      (s.setLane l { s.lane l with
        access := .write i
        recallFlag := (s.lane l).recallFlag || recallSeq w == (s.lane l).seq }).raiseResult l i e
    else (s.setLane l { s.lane l with access := .idle }).learnTear l := by
  unfold State.listCheckReturned
  dsimp only
  rw [hx, hl]

/-- The checked write of a torn lane goes ahead. -/
theorem State.listCheckReturned_tornOwn (ht : (s.lane l).tear = true) {w : Word} (own : postSeq w = (s.lane l).seq) :
    s.listCheckReturned l false w = (s.setLane l { s.lane l with access := .write i }).raiseResult l i e := by
  rw [State.listCheckReturned_eq hx hl, if_pos ht, if_pos ⟨rfl, own⟩]

/-- Another word, or an error, drops the list of a torn lane. -/
theorem State.listCheckReturned_tornDrops (ht : (s.lane l).tear = true) {failed : Bool} {w : Word}
    (h : failed = true ∨ postSeq w ≠ (s.lane l).seq) :
    s.listCheckReturned l failed w = (s.setLane l { s.lane l with access := .idle, list := [] }).tearFinish l := by
  rw [State.listCheckReturned_eq hx hl, if_pos ht, if_neg]
  rcases h with rfl | h
  · exact fun g => nomatch g.1
  · exact fun g => h g.2

variable (ht : (s.lane l).tear = false)
include ht

theorem State.listCheckReturned_failed (w : Word) : s.listCheckReturned l true w =
    s.laneFault l .fetchFault (BitVec.ofNat 8 e.step) .readErr true := by
  rw [State.listCheckReturned_eq hx hl, ht]
  rfl

theorem State.listCheckReturned_own {w : Word} (own : postSeq w = (s.lane l).seq) :
    s.listCheckReturned l false w = (s.setLane l { s.lane l with
      access := .write i
      recallFlag := (s.lane l).recallFlag || recallSeq w == (s.lane l).seq }).raiseResult l i e := by
  rw [State.listCheckReturned_eq hx hl, ht, if_neg Bool.false_ne_true, if_neg Bool.false_ne_true, if_pos own]

theorem State.listCheckReturned_other {w : Word} (other : postSeq w ≠ (s.lane l).seq) :
    s.listCheckReturned l false w = (s.setLane l { s.lane l with access := .idle }).learnTear l := by
  rw [State.listCheckReturned_eq hx hl, ht, if_neg Bool.false_ne_true, if_neg Bool.false_ne_true, if_neg other]

end ListCheck

/-- A lane whose check has shown another post learns of the tear, with no access in hand. -/
theorem State.learnTear_afterCheck {s : State} {l : LaneId} (hs : (s.lane l).state ≠ .free)
    (ht : (s.lane l).tear = false) :
    let t := (s.setLane l { s.lane l with access := .idle }).learnTear l
    OnlyLaneAndCounts s t l ∧ (t.lane l).tear = true ∧ (t.lane l).access = .idle ∧ t.mport = givenUpBy l s.mport := by
  have lane : (s.setLane l { s.lane l with access := .idle }).lane l = { s.lane l with access := .idle } :=
    State.setLane_lane ..
  obtain ⟨only, lines, orders, learned⟩ := State.learnTear_learns (s := s.setLane l { s.lane l with access := .idle })
    (l := l) (by rwa [lane]) (by rwa [lane]) (by rw [lane]; rfl)
  rw [lane] at learned
  refine ⟨((OnlyLane.of_setLane ..).trans only).withCounts lines, ?_, ?_, orders⟩ <;> rw [learned]

/-! ### The check before a settle write (02, R26; 06, R92, R99) -/

section SettleCheck
variable {s : State} {l : LaneId} {i : Nat} (hx : (s.lane l).access = .settleCheck i) (b : Option OnBus)
include hx

theorem State.settleCheckReturned_own {w : Word} (own : postSeq w = (s.lane l).seq) :
    s.settleCheckReturned l false w b =
      (s.setLane l { s.lane l with access := .settleWrite i }).raiseSettle l i := by
  unfold State.settleCheckReturned
  dsimp only
  rw [hx]
  exact (if_neg Bool.false_ne_true).trans (if_pos own)

theorem State.settleCheckReturned_other {w : Word} (other : postSeq w ≠ (s.lane l).seq) :
    s.settleCheckReturned l false w b = (s.setLane l { s.lane l with access := .idle }).learnTear l := by
  unfold State.settleCheckReturned
  dsimp only
  rw [hx]
  exact (if_neg Bool.false_ne_true).trans (if_neg other)

end SettleCheck

/-- The request of write i of a lane's settle, for its outcome. -/
theorem State.raiseSettle_mport {s : State} {l : LaneId} {i : Nat} {o : PlanOutcome} {last : Byte} {y : Lane}
    (hy : s.lane l = y) (ho : y.outcome = some (o, last)) :
    (s.raiseSettle l i).mport = s.mport ++ [s.requestOf (.laneSettle l)
      (s.slotWord y.slot (settleWordOffset i)) (some (settleWord i
        (quad8 (y.passesDone.extractLsb' 0 8) (BitVec.ofNat 8 l.val) last o.code)
        y.startedEpoch y.settledEpoch y.seq))] := by
  unfold State.raiseSettle
  dsimp only
  rw [hy, ho]
  rfl

/-- Settles O53: each part is one case of the check's return. -/
theorem preWriteCheckGuardsTheWrite : Obligations.PreWriteCheckGuardsTheWrite := by
  refine ⟨fun s r req rest l hr hb ha => ?_, ?_, ?_, ?_⟩
  · exact ⟨_, exec_preWriteCheck_abandoned hr ha hb,
      .of_discarded _ (by rcases ha with ha | ha <;> rw [ha] <;> rfl)⟩
  · rintro s u r req rest l i w e more hr ha hb rfl rfl hx hl ht hs
    refine ⟨_, exec_listCheck hr ha hb, ?_⟩
    cases hf : replyFailed r.reply with
    | true =>
      rw [State.listCheckReturned_failed hx hl ht]
      refine ⟨.of_laneFault .., nofun, nofun, fun _ => ⟨?_, ?_, ?_, State.laneFault_counts ..⟩⟩ <;>
        rw [State.laneFault_lane]
      rfl
    | false =>
      by_cases own : postSeq (s.wordReturned r req rest) = ((s.afterReturn r req rest).lane l).seq
      · rw [State.listCheckReturned_own hx hl ht own]
        refine ⟨(OnlyLaneAndCounts.of_setLane ..).trans (.of_raise ..), fun _ _ => ⟨?_, ?_, fun recalled => ?_⟩,
          fun _ other => absurd own other, nofun⟩
        · unfold State.raiseResult
          rw [State.raise_lane, State.setLane_lane]
        · unfold State.raiseResult
          rw [State.setLane_lane]
          rfl
        · unfold State.raiseResult
          rw [State.raise_lane, State.setLane_lane]
          have seen : recallSeq (s.wordReturned r req rest) = ((s.afterReturn r req rest).lane l).seq := recalled
          simp [seen]
      · rw [State.listCheckReturned_other hx hl ht own]
        obtain ⟨only, learned⟩ := State.learnTear_afterCheck hs ht
        exact ⟨only, fun _ eq => absurd eq own, fun _ _ => learned, nofun⟩
  · rintro s u r req rest l i w o last hr ha hb hf rfl rfl hx ht hs ho
    refine ⟨_, exec_settleCheck hr ha hb, ?_⟩
    rw [hf]
    by_cases own : postSeq (s.wordReturned r req rest) = ((s.afterReturn r req rest).lane l).seq
    · rw [State.settleCheckReturned_own hx _ own]
      exact ⟨(OnlyLaneAndCounts.of_setLane ..).trans (.of_raise ..),
        fun _ => ⟨State.setLane_lane .., State.raiseSettle_mport
          (y := { (s.afterReturn r req rest).lane l with access := .settleWrite i }) (State.setLane_lane ..) ho⟩,
        fun other => absurd own other⟩
    · rw [State.settleCheckReturned_other hx _ own]
      obtain ⟨only, learned⟩ := State.learnTear_afterCheck hs ht
      exact ⟨only, fun eq => absurd eq own, fun _ => learned⟩
  · rintro s u r req rest l i w e more hr ha hb rfl rfl hx hl ht
    refine ⟨_, exec_listCheck hr ha hb, ?_⟩
    have drops {failed : Bool} (h : failed = true ∨
        postSeq (s.wordReturned r req rest) ≠ ((s.afterReturn r req rest).lane l).seq) :=
      State.listCheckReturned_tornDrops hx hl ht h
    obtain ⟨counts, freed, stays⟩ := (s.afterReturn r req rest).tearFinish_rewritten l
      (y := { (s.afterReturn r req rest).lane l with access := .idle, list := [] }) rfl rfl rfl
    by_cases h : replyFailed r.reply = true ∨
        postSeq (s.wordReturned r req rest) ≠ ((s.afterReturn r req rest).lane l).seq
    · rw [drops h]
      refine ⟨counts, fun hf own => ?_, fun _ => ⟨freed, fun waits => ?_⟩⟩
      · exact absurd h (by rw [hf]; exact fun g => g.elim nofun (fun other => other own))
      · rw [stays waits]
        exact ⟨.of_setLane .., rfl, State.setLane_lane ..⟩
    · obtain ⟨ok, own⟩ := not_or.1 h
      rw [Bool.eq_false_iff.2 ok, State.listCheckReturned_tornOwn hx hl ht (Decidable.not_not.1 own)]
      refine ⟨rfl, fun _ _ => ⟨(OnlyLaneAndCounts.of_setLane ..).trans (.of_raise ..), State.setLane_lane .., ?_⟩,
        fun g => (g.elim nofun fun other => own other).elim⟩
      unfold State.raiseResult
      rw [State.setLane_lane]
      rfl

/-! ### The result words (06, R91, R93, R98) -/

section Results
variable {s : State} {l : LaneId} {i : Nat} {e : StepResult} {more : List StepResult}
  (hx : (s.lane l).access = .write i) (hl : (s.lane l).list = e :: more)
include hx hl

theorem State.resultReturned_tornFailed (ht : (s.lane l).tear = true) :
    s.resultReturned l true = s.tornWriteFault l := by
  unfold State.resultReturned
  dsimp only
  rw [hx, hl, ht]
  rfl

theorem State.resultReturned_torn (ht : (s.lane l).tear = true) :
    s.resultReturned l false = (s.setLane l { s.lane l with
      access := .idle
      list := if (s.lane l).stopped = true ∨ i = 2 then more else e :: more }).tearFinish l := by
  unfold State.resultReturned
  dsimp only
  rw [hx, hl]
  simp [ht]

variable (ht : (s.lane l).tear = false)
include ht

theorem State.resultReturned_failed :
    s.resultReturned l true = s.laneFault l .writeFault (BitVec.ofNat 8 e.step) .writeErr true := by
  unfold State.resultReturned
  dsimp only
  rw [hx, hl, ht]
  rfl

/-- Value and stamp are followed by the next check. -/
theorem State.resultReturned_next (hi : i < 2) : s.resultReturned l false =
    (s.setLane l { s.lane l with access := .check (i + 1) }).raise (.check l)
      (s.hostWordAddr (s.lane l).slot) none := by
  unfold State.resultReturned
  dsimp only
  rw [hx, hl]
  simp [ht, hi]

/-- With its head written the entry leaves the list. -/
theorem State.resultReturned_head (hi : 2 ≤ i) : s.resultReturned l false =
    (s.setLane l { s.lane l with access := .idle, list := more }).pump l := by
  unfold State.resultReturned
  dsimp only
  rw [hx, hl]
  simp [ht, Nat.not_lt.2 hi]

end Results

/-! ### Going on with the list, or with the settle (06, R91, R99) -/

section Pump
variable {s : State} {l : LaneId}

/-- The list's next entry begins with its check. -/
theorem State.pump_list (ht : (s.lane l).tear = false) (ha : (s.lane l).access = .idle)
    (hl : (s.lane l).list ≠ []) : s.pump l =
      (s.setLane l { s.lane l with access := .check 0 }).raise (.check l)
        (s.hostWordAddr (s.lane l).slot) none := by
  obtain ⟨e, more, hl⟩ := List.exists_cons_of_ne_nil hl
  unfold State.pump
  dsimp only
  rw [ht, ha, hl]
  rfl

/-- With nothing left to write a closing lane begins its settle. -/
theorem State.pump_settles (ht : (s.lane l).tear = false) (ha : (s.lane l).access = .idle)
    (hl : (s.lane l).list = []) (hs : (s.lane l).state = .closing) (ho : (s.lane l).outcome ≠ none)
    (hf : (s.lane l).faultCounts = 0) : s.pump l =
      (s.setLane l { s.lane l with access := .settleCheck 0, settledEpoch := s.epoch }).raise (.settleCheck l)
        (s.hostWordAddr (s.lane l).slot) none := by
  obtain ⟨o, ho⟩ := Option.ne_none_iff_exists'.1 ho
  unfold State.pump
  dsimp only
  rw [ht, ha, hl, hs, ho, if_neg Bool.false_ne_true]
  exact if_pos hf

/-- A lane that has learned of a tear, has an access in hand, or has nothing to write and nothing to settle yet
raises nothing. -/
theorem State.pump_waits (h : (s.lane l).tear = true ∨ (s.lane l).access ≠ .idle ∨ ((s.lane l).list = [] ∧
    ((s.lane l).state ≠ .closing ∨ (s.lane l).outcome = none ∨ (s.lane l).faultCounts ≠ 0))) : s.pump l = s := by
  unfold State.pump
  dsimp only
  split
  · rfl
  · next ht =>
    split
    · next ha hl =>
      rcases h with h | h | ⟨h, -⟩
      · exact absurd h ht
      · exact absurd ha h
      · exact nomatch hl.symm.trans h
    · next ha hl hs ho =>
      rw [if_neg]
      rcases h with h | h | ⟨-, h | h | h⟩
      · exact absurd h ht
      · exact absurd ha h
      · exact absurd hs h
      · exact nomatch ho.symm.trans h
      · exact h
    · rfl

end Pump

/-- What the last word of an entry leaves: the list without it, and the next check, the settle, or nothing. -/
theorem State.pump_afterHead {u : State} {l : LaneId} {more : List StepResult} (ht : (u.lane l).tear = false) :
    let t := (u.setLane l { u.lane l with access := .idle, list := more }).pump l
    OnlyLaneAndCounts u t l ∧ (t.lane l).list = more ∧ (t.lane l).state = (u.lane l).state ∧
      (more ≠ [] → (t.lane l).access = .check 0 ∧
        t.mport = u.mport ++ [u.requestOf (.check l) (u.hostWordAddr (u.lane l).slot) none]) ∧
      (more = [] → (u.lane l).state = .closing → (u.lane l).outcome ≠ none → (u.lane l).faultCounts = 0 →
        (t.lane l).access = .settleCheck 0 ∧ (t.lane l).settledEpoch = u.tbu.epoch ∧
        t.mport = u.mport ++ [u.requestOf (.settleCheck l) (u.hostWordAddr (u.lane l).slot) none]) ∧
      (more = [] → (u.lane l).state ≠ .closing → (t.lane l).access = .idle ∧ t.mport = u.mport) := by
  let v := u.setLane l { u.lane l with access := .idle, list := more }
  have lane : v.lane l = { u.lane l with access := .idle, list := more } := State.setLane_lane ..
  refine ⟨((OnlyLane.of_setLane ..).trans (.of_pump ..)).withCounts (State.pump_outd ..), ?_, ?_,
    fun hm => ?_, fun hm hs ho hf => ?_, fun hm hs => ?_⟩
  · obtain ⟨a, e, q, h⟩ := v.pump_eq l
    show ((v.pump l).lane l).list = more
    rw [h, State.mport_lane, State.setLane_lane, lane]
  · obtain ⟨a, e, q, h⟩ := v.pump_eq l
    show ((v.pump l).lane l).state = _
    rw [h, State.mport_lane, State.setLane_lane, lane]
  · have next := State.pump_list (s := v) (l := l) (by rwa [lane]) (by rw [lane]) (by rwa [lane])
    dsimp only
    rw [next, State.raise_lane, State.setLane_lane, lane]
    exact ⟨rfl, rfl⟩
  · have settles := State.pump_settles (s := v) (l := l) (by rwa [lane]) (by rw [lane]) (by rwa [lane])
      (by rwa [lane]) (by rwa [lane]) (by rwa [lane])
    dsimp only
    rw [settles, State.raise_lane, State.setLane_lane, lane]
    exact ⟨rfl, rfl, rfl⟩
  · have waits := State.pump_waits (s := v) (l := l) (.inr (.inr ⟨by rwa [lane], .inl (by rwa [lane])⟩))
    dsimp only
    rw [waits, lane]
    exact ⟨rfl, rfl⟩

/-- A conclusion begins the settle, or goes on with the list. -/
theorem State.conclude_goesOn {s : State} {l : LaneId} (o : PlanOutcome) (last : Byte)
    (ht : (s.lane l).tear = false) (ha : (s.lane l).access = .idle) :
    let t := s.conclude l o last
    (t.lane l).state = .closing ∧ (t.lane l).outcome = some (o, last) ∧
      ((s.lane l).list = [] → (s.lane l).faultCounts = 0 →
        (t.lane l).access = .settleCheck 0 ∧ (t.lane l).settledEpoch = s.tbu.epoch ∧
        t.mport = s.mport ++ [s.requestOf (.settleCheck l) (s.hostWordAddr (s.lane l).slot) none]) ∧
      ((s.lane l).list ≠ [] → (t.lane l).access = .check 0 ∧
        t.mport = s.mport ++ [s.requestOf (.check l) (s.hostWordAddr (s.lane l).slot) none]) := by
  let v := s.setLane l { s.lane l with
    state := .closing, activity := .none, loaded := false, loadDue := false, outcome := some (o, last) }
  have lane : v.lane l = { s.lane l with
    state := .closing, activity := .none, loaded := false, loadDue := false, outcome := some (o, last) } :=
    State.setLane_lane ..
  have concluded : s.conclude l o last = v.pump l := rfl
  obtain ⟨a, e, q, h⟩ := v.pump_eq l
  refine ⟨?_, ?_, fun hl hf => ?_, fun hl => ?_⟩ <;> rw [concluded]
  · rw [h, State.mport_lane, State.setLane_lane, lane]
  · rw [h, State.mport_lane, State.setLane_lane, lane]
  · rw [State.pump_settles (s := v) (by rwa [lane]) (by rwa [lane]) (by rwa [lane]) (by rw [lane])
      (by rw [lane]; exact Option.some_ne_none _) (by rwa [lane]), State.raise_lane, State.setLane_lane, lane]
    exact ⟨rfl, rfl, rfl⟩
  · rw [State.pump_list (s := v) (by rwa [lane]) (by rwa [lane]) (by rwa [lane]), State.raise_lane,
      State.setLane_lane, lane]
    exact ⟨rfl, rfl⟩

/-! ### A fault of a torn lane's last write, and the count of a fault (06, R93, R98) -/

theorem State.tornWriteFault_facts (s : State) (l : LaneId) :
    OnlyLaneAndCounts s (s.tornWriteFault l) l ∧
      (s.tornWriteFault l).lane l = { s.lane l with
        activity := .none, faultCounts := (s.lane l).faultCounts + 1, access := .idle, list := [] } ∧
      (s.tornWriteFault l).smon.counts =
        s.smon.counts ++ [{ kind := .fault .writeErr, requester := .lane l }] := by
  unfold State.tornWriteFault
  refine ⟨((OnlyLaneAndCounts.of_setLane ..).trans (.of_abandon ..)).trans (.of_count ..), ?_, ?_⟩
  · rw [State.count_lane]
    exact State.setLane_lane ..
  · rw [State.count_counts]
    rfl

end Sys2Proof.Machine
end

section
/-! PROOF. A request of the counter set that is done: the next is taken and the requester told (04, R61; 06, R93, R98,
R99); O54. -/

namespace Sys2Proof.Machine

/-! ### The next request -/

/-- The counter set has taken up its next request: nothing but its own registers, and its write at the end of the
order list. -/
structure CountTaken (s t : State) : Prop where
  lanes : t.lanes = s.lanes
  outd : t.outd = s.outd
  admu : t.admu = s.admu
  work : t.smon.piece = s.smon.piece ∧ t.smon.waiting = s.smon.waiting
  sweep : t.smon.inProgress = s.smon.inProgress ∧ t.smon.pendingSweep = s.smon.pendingSweep ∧
    t.smon.noted = s.smon.noted
  engine : t.engc.engine = s.engc.engine ∧ t.engc.slotCount = s.engc.slotCount ∧
    t.engc.loading = s.engc.loading
  epoch : t.tbu = s.tbu
  area : t.regp.area = s.regp.area
  instant : t.instant = s.instant
  orders : ∃ q : List Request, t.mport = s.mport ++ q ∧ ∀ x ∈ q, x.access = .counter

theorem CountTaken.trans {s t u : State} (h : CountTaken s t) (g : CountTaken t u) : CountTaken s u where
  lanes := g.lanes.trans h.lanes
  outd := g.outd.trans h.outd
  admu := g.admu.trans h.admu
  work := ⟨g.work.1.trans h.work.1, g.work.2.trans h.work.2⟩
  sweep := ⟨g.sweep.1.trans h.sweep.1, g.sweep.2.1.trans h.sweep.2.1, g.sweep.2.2.trans h.sweep.2.2⟩
  engine := ⟨g.engine.1.trans h.engine.1, g.engine.2.1.trans h.engine.2.1, g.engine.2.2.trans h.engine.2.2⟩
  epoch := g.epoch.trans h.epoch
  area := g.area.trans h.area
  instant := g.instant.trans h.instant
  orders := by
    obtain ⟨p, hp, ap⟩ := h.orders
    obtain ⟨q, hq, aq⟩ := g.orders
    exact ⟨p ++ q, by rw [hq, hp, List.append_assoc], fun x hx => (List.mem_append.1 hx).elim (ap x) (aq x)⟩

/-- Rewriting the counter set, the mirror, the fault code and CAUSE is within that frame. -/
theorem CountTaken.of_countEffect (s : State) (k : CountKind) : CountTaken s (s.countEffect k) := by
  cases k <;> exact ⟨rfl, rfl, rfl, ⟨rfl, rfl⟩, ⟨rfl, rfl, rfl⟩, ⟨rfl, rfl, rfl⟩, rfl, rfl, rfl, [],
    (List.append_nil _).symm, nofun⟩

theorem CountTaken.of_serve (s : State) : CountTaken s s.serve := by
  unfold State.serve
  dsimp only
  cases s.smon.counts with
  | nil => exact ⟨rfl, rfl, rfl, ⟨rfl, rfl⟩, ⟨rfl, rfl, rfl⟩, ⟨rfl, rfl, rfl⟩, rfl, rfl, rfl, [],
      (List.append_nil _).symm, nofun⟩
  | cons q qs =>
    obtain ⟨kind, requester⟩ := q
    cases kind <;> exact ⟨rfl, rfl, rfl, ⟨rfl, rfl⟩, ⟨rfl, rfl, rfl⟩, ⟨rfl, rfl, rfl⟩, rfl, rfl, rfl, [_], rfl,
      fun x hx => by rw [List.mem_singleton.1 hx]⟩

theorem CountTaken.of_nextCount (s : State) : CountTaken s s.nextCount := by
  refine CountTaken.trans (t := { s with smon := { s.smon with counts := s.smon.counts.tail, secondWord := false } })
    ?_ (.of_serve _)
  exact ⟨rfl, rfl, rfl, ⟨rfl, rfl⟩, ⟨rfl, rfl, rfl⟩, ⟨rfl, rfl, rfl⟩, rfl, rfl, rfl, [],
    (List.append_nil _).symm, nofun⟩

/-- The state in which the requester of a request that is done is told. -/
def State.counted (s : State) (k : CountKind) : State := (s.countEffect k).nextCount

theorem State.counted_taken (s : State) (k : CountKind) : CountTaken s (s.counted k) :=
  (CountTaken.of_countEffect s k).trans (.of_nextCount _)

theorem CountTaken.lane {s t : State} (h : CountTaken s t) (l : LaneId) : t.lane l = s.lane l :=
  State.lane_of_lanes h.lanes l

/-- The counter set's writes are no lane's accesses. -/
theorem CountTaken.laneOutstanding {s t : State} (h : CountTaken s t) (l : LaneId) :
    t.laneOutstanding l = s.laneOutstanding l := by
  obtain ⟨q, hq, own⟩ := h.orders
  unfold State.laneOutstanding
  rw [hq, List.any_append]
  have none : q.any (fun r => r.access.lane? == some l) = false := by
    rw [List.any_eq_false]
    intro x hx
    rw [own x hx]
    exact Bool.false_ne_true
  rw [none, Bool.or_false]

theorem CountTaken.hostWordAddr {s t : State} (h : CountTaken s t) (k : SlotId) :
    t.hostWordAddr k = s.hostWordAddr k := by
  unfold State.hostWordAddr State.slotWord State.area
  rw [h.area]

/-- With no LOADING under way none is told to stop. -/
theorem State.stoppingLoad_idle {s : State} (h : s.engc.loading = none) : s.stoppingLoad = false := by
  unfold State.stoppingLoad
  rw [h]

/-- A request is done, with its last word written: its effect, the next request, and the report. -/
theorem State.counterReturned_done {s : State} {q : CountReq} {qs : List CountReq} (h : s.smon.counts = q :: qs)
    (hw : s.smon.secondWord = true ∨ ∀ n, q.kind ≠ .sweepClose n) (going : s.stoppingLoad = false)
    (b : Option OnBus) : s.counterReturned false b = (s.counted q.kind).report q := by
  obtain ⟨kind, requester⟩ := q
  unfold State.counterReturned State.counted
  rw [h, going]
  cases kind with
  | sweepClose n =>
    rcases hw with hw | hw
    · simp [hw]
    · exact absurd rfl (hw n)
  | _ => rfl

/-! ### A lane is told of a fault's count (06, R93, R98, R99) -/

/-- The lane with one fault count fewer to wait for. -/
def Lane.counted (x : Lane) : Lane := { x with faultCounts := x.faultCounts - 1 }

theorem State.laneCounted_fault (s : State) (l : LaneId) (code : FaultCode) :
    s.laneCounted l (.fault code) = if (s.lane l).stopped then (s.setLane l (s.lane l).counted).tearFinish l
      else (s.setLane l (s.lane l).counted).pump l := rfl

/-- On a stopped lane the last count may free it. -/
theorem State.laneCounted_stopped {u z : State} {l : LaneId} (h : CountTaken u z) (code : FaultCode)
    (hs : (u.lane l).stopped = true) :
    (u.laneOutstanding l = false → (u.lane l).faultCounts = 1 → TornLaneFreed u (z.laneCounted l (.fault code)) l) ∧
      (u.laneOutstanding l = true ∨ 1 < (u.lane l).faultCounts →
        (z.laneCounted l (.fault code)).lane l = (u.lane l).counted) := by
  have same := h.lane l
  have set : (z.setLane l (u.lane l).counted).lane l = (u.lane l).counted := State.setLane_lane ..
  rw [State.laneCounted_fault, same, hs, if_pos rfl]
  refine ⟨fun none one => ?_, fun waits => ?_⟩
  · have freed := (State.tearFinish_frees (z.setLane l (u.lane l).counted) l (by rw [set]; exact hs)
      ((h.laneOutstanding l).trans none) (by rw [set, Lane.counted, one])).1
    exact freed.congr h.work.2.symm (by rw [set]; rfl) h.engine.1.symm
  · rw [State.tearFinish_stays, set]
    refine .inr (waits.imp (h.laneOutstanding l).trans fun many => ?_)
    rw [set]
    show (u.lane l).faultCounts - 1 ≠ 0
    omega

/-- A lane that has not stopped goes on with its slot. -/
theorem State.laneCounted_goesOn {u z : State} {l : LaneId} (h : CountTaken u z) (code : FaultCode)
    (hs : (u.lane l).stopped = false) :
    let t := z.laneCounted l (.fault code)
    (t.lane l).faultCounts = (u.lane l).faultCounts - 1 ∧ (t.lane l).state = (u.lane l).state ∧
      (t.lane l).outcome = (u.lane l).outcome ∧ (t.lane l).list = (u.lane l).list ∧
      ((u.lane l).tear = false → (u.lane l).access = .idle → (u.lane l).list = [] →
        (u.lane l).state = .closing → (u.lane l).outcome ≠ none → (u.lane l).faultCounts = 1 →
        (t.lane l).access = .settleCheck 0 ∧ (t.lane l).settledEpoch = u.tbu.epoch ∧
        t.mport.getLast? = some (u.requestOf (.settleCheck l) (u.hostWordAddr (u.lane l).slot) none)) ∧
      ((u.lane l).tear = true ∨ (u.lane l).access ≠ .idle ∨ ((u.lane l).list = [] ∧
          ((u.lane l).state ≠ .closing ∨ (u.lane l).outcome = none ∨ 1 < (u.lane l).faultCounts)) →
        t.lane l = (u.lane l).counted) := by
  let v := z.setLane l (u.lane l).counted
  have lane : v.lane l = (u.lane l).counted := State.setLane_lane ..
  have told : z.laneCounted l (.fault code) = v.pump l := by
    rw [State.laneCounted_fault, h.lane l, hs]
    rfl
  obtain ⟨a, e, q, written⟩ := v.pump_eq l
  have after : (v.pump l).lane l = { (u.lane l).counted with access := a, settledEpoch := e } := by
    rw [written, State.mport_lane, State.setLane_lane, lane]
  dsimp only
  rw [told, after]
  refine ⟨rfl, rfl, rfl, rfl, fun ht ha hl hc ho one => ?_, fun waits => ?_⟩
  · have settles := State.pump_settles (s := v) (l := l) (by rwa [lane]) (by rwa [lane]) (by rwa [lane])
      (by rwa [lane]) (by rwa [lane]) (by rw [lane, Lane.counted, one])
    rw [← after, settles, State.raise_lane, State.setLane_lane, lane]
    refine ⟨rfl, congrArg Timebase.epoch h.epoch, ?_⟩
    have addr : v.hostWordAddr (u.lane l).slot = u.hostWordAddr (u.lane l).slot := h.hostWordAddr _
    have inst : v.instant = u.instant := h.instant
    show (_ ++ [_]).getLast? = _
    rw [List.getLast?_concat]
    show some (v.requestOf (.settleCheck l) (v.hostWordAddr (u.lane l).slot) none) = _
    unfold State.requestOf
    rw [addr, inst]
  · rw [← after, State.pump_waits, lane]
    rw [lane]
    refine waits.imp id (Or.imp id (And.imp id (Or.imp id (Or.imp id fun many => ?_))))
    show (u.lane l).faultCounts - 1 ≠ 0
    omega

/-- Settles O54: result words, conclusions, a torn lane's last write, and the counts of faults. -/
theorem resultWriteAdvancesTheList : Obligations.ResultWriteAdvancesTheList := by
  refine ⟨?_, fun s l o last ht ha => State.conclude_goesOn o last ht ha, ?_, ?_⟩
  · rintro s u r req rest l i e more hr ha rfl hx hl ht
    refine ⟨_, exec_resultWrite hr ha, ?_⟩
    cases hf : replyFailed r.reply with
    | true =>
      rw [State.resultReturned_failed hx hl ht]
      refine ⟨.of_laneFault .., nofun, nofun, fun _ => ⟨?_, ?_, ?_, State.laneFault_counts ..⟩⟩ <;>
        rw [State.laneFault_lane]
      rfl
    | false =>
      by_cases hi : i < 2
      · rw [State.resultReturned_next hx hl ht hi]
        refine ⟨(OnlyLaneAndCounts.of_setLane ..).trans (.of_raise ..), fun _ _ => ⟨?_, ?_, rfl⟩,
          fun _ late => absurd hi (Nat.not_lt.2 late), nofun⟩ <;> rw [State.raise_lane, State.setLane_lane]
        exact hl
      · have late : 2 ≤ i := Nat.not_lt.1 hi
        have epoch : (s.afterReturn r req rest).tbu.epoch = s.tbu.epoch := s.settled_epoch
        rw [State.resultReturned_head hx hl ht late, ← epoch]
        obtain ⟨only, wrote⟩ := State.pump_afterHead (u := s.afterReturn r req rest) (more := more) ht
        exact ⟨only, fun _ early => absurd early hi, fun _ _ => wrote, nofun⟩
  · rintro s u r req rest l i e more hr ha rfl hx hl ht
    refine ⟨_, exec_resultWrite hr ha, ?_⟩
    cases hf : replyFailed r.reply with
    | true =>
      rw [State.resultReturned_tornFailed hx hl ht]
      obtain ⟨only, lane, counts⟩ := (s.afterReturn r req rest).tornWriteFault_facts l
      rw [lane]
      exact ⟨fun _ => ⟨only, rfl, rfl, rfl, rfl, rfl, counts⟩, nofun⟩
    | false =>
      rw [State.resultReturned_torn hx hl ht]
      obtain ⟨counts, freed, stays⟩ := (s.afterReturn r req rest).tearFinish_rewritten l
        (y := { (s.afterReturn r req rest).lane l with
          access := .idle
          list := if ((s.afterReturn r req rest).lane l).stopped = true ∨ i = 2 then more else e :: more }) rfl rfl rfl
      refine ⟨nofun, fun _ => ⟨counts, freed, fun waits => ?_⟩⟩
      rw [stays waits]
      exact ⟨.of_setLane .., rfl, State.setLane_lane ..⟩
  · rintro s u r req rest l code qs hr ha hf rfl hl hq
    refine ⟨_, exec_counterWrite hr ha, ?_⟩
    have epoch : (s.afterReturn r req rest).tbu.epoch = s.tbu.epoch := s.settled_epoch
    have told : (s.afterReturn r req rest).counterReturned false r.atStall =
        ((s.afterReturn r req rest).counted (.fault code)).laneCounted l (.fault code) :=
      State.counterReturned_done hq (.inr nofun) (State.stoppingLoad_idle hl) _
    rw [hf, told, ← epoch]
    exact ⟨State.laneCounted_stopped (State.counted_taken ..) code,
      State.laneCounted_goesOn (State.counted_taken ..) code⟩

end Sys2Proof.Machine
end

section
/-! PROOF. A lane's load: its reads, the judgement of its steps, and a load read that fails or is discarded (06, R84 to
R86, R95, R98; 12, R166, R167): O52. -/

namespace Sys2Proof.Machine

/-! ### What a lane does with a load read -/

section Returns
variable {s : State} {r : BusReturn} {req : Request} {rest : List Request} (hr : Returns s r req rest)
include hr

theorem exec_loadRead_abandoned {l : LaneId} (ha : req.access = .loadHost l ∨ req.access = .loadStep l)
    (hb : req.abandoned = true) :
    exec (.loadRead r) s = .next ((s.afterReturn r req rest).discarded req) :=
  congrArg Host.Outcome.next ((State.busEvent_of_returns _ hr (by rcases ha with ha | ha <;> simp [ha])).trans
    (if_pos hb))

theorem exec_loadHost {l : LaneId} (ha : req.access = .loadHost l) (hb : req.abandoned = false) :
    exec (.loadRead r) s = .next ((s.afterReturn r req rest).loadHostReturned l (replyFailed r.reply)
      (s.wordReturned r req rest)) :=
  congrArg Host.Outcome.next ((State.busEvent_of_returns _ hr (by simp [ha])).trans
    (by simp only [ha, hb]; rfl))

theorem exec_loadStep {l : LaneId} (ha : req.access = .loadStep l) (hb : req.abandoned = false) :
    exec (.loadRead r) s = .next ((s.afterReturn r req rest).loadStepReturned l (replyFailed r.reply)
      (s.wordReturned r req rest)) :=
  congrArg Host.Outcome.next ((State.busEvent_of_returns _ hr (by simp [ha])).trans
    (by simp only [ha, hb]; rfl))

end Returns

section Load
variable (s : State) (l : LaneId)

theorem State.loadHostReturned_other {w : Word} (h : postSeq w ≠ (s.lane l).seq) :
    s.loadHostReturned l false w = s.learnTear l := by
  unfold State.loadHostReturned
  dsimp only
  rw [if_neg Bool.false_ne_true, if_pos h]

/-- The lane after its load's own host word: an equal recall_seq sets the recall flag. -/
def Lane.recalledBy (x : Lane) (w : Word) : Lane :=
  if recallSeq w = x.seq then { x with recallFlag := true } else x

theorem Lane.recalledBy_slot (x : Lane) (w : Word) : (x.recalledBy w).slot = x.slot := by
  unfold Lane.recalledBy
  split <;> rfl

theorem Lane.recalledBy_own {x : Lane} {w : Word} (h : recallSeq w = x.seq) :
    (x.recalledBy w).recallFlag = true := by
  unfold Lane.recalledBy
  rw [if_pos h]

theorem Lane.recalledBy_other {x : Lane} {w : Word} (h : recallSeq w ≠ x.seq) : x.recalledBy w = x := if_neg h

theorem State.loadHostReturned_own {w : Word} (h : postSeq w = (s.lane l).seq) :
    s.loadHostReturned l false w = (s.setLane l ((s.lane l).recalledBy w)).raiseLoad l 0 := by
  unfold State.loadHostReturned
  dsimp only
  rw [if_neg Bool.false_ne_true, if_neg (not_not_intro h)]
  rfl

/-- The lane with one more word of its step records. -/
def Lane.withWord (x : Lane) (w : Word) : Lane := { x with loadWords := x.loadWords ++ [w] }

theorem State.loadStepReturned_next {w : Word}
    (h : (s.lane l).loadWords.length + 1 < 3 * (s.lane l).stepCount.toNat) :
    s.loadStepReturned l false w =
      (s.setLane l ((s.lane l).withWord w)).raiseLoad l ((s.lane l).loadWords.length + 1) := by
  have more : ((s.lane l).loadWords ++ [w]).length < 3 * (s.lane l).stepCount.toNat := by
    rw [List.length_append]
    exact h
  unfold State.loadStepReturned
  dsimp only
  rw [if_neg Bool.false_ne_true, if_pos more, List.length_append]
  rfl

/-- After the last word the steps are judged. -/
theorem State.loadStepReturned_last {w : Word}
    (h : (s.lane l).loadWords.length + 1 = 3 * (s.lane l).stepCount.toNat) :
    s.loadStepReturned l false w =
      match firstBad (s.lane l).outMask 0 (stepsOf ((s.lane l).loadWords ++ [w])) with
      | some i => (s.setLane l { (s.lane l).withWord w with
          steps := stepsOf ((s.lane l).loadWords ++ [w]) }).conclude l .malformed (BitVec.ofNat 8 i)
      | none => s.setLane l { (s.lane l).withWord w with
          steps := stepsOf ((s.lane l).loadWords ++ [w]), loaded := true, loadDue := false } := by
  have full : ¬ ((s.lane l).loadWords ++ [w]).length < 3 * (s.lane l).stepCount.toNat := by
    rw [List.length_append]
    exact h ▸ Nat.lt_irrefl _
  unfold State.loadStepReturned
  dsimp only
  rw [if_neg Bool.false_ne_true, if_neg full]
  rfl

/-- The read of word i of the step records. -/
theorem State.raiseLoad_facts {y : Lane} (hy : s.lane l = y) (i : Nat) :
    OnlyLaneAndCounts s (s.raiseLoad l i) l ∧ (s.raiseLoad l i).lane l = y ∧
      (s.raiseLoad l i).mport = s.mport ++ [s.requestOf (.loadStep l)
        (s.stepAddr y.slot (i / 3) (BitVec.ofNat 32 (4 * (i % 3)))) none] := by
  subst hy
  exact ⟨.of_raise .., rfl, rfl⟩

/-- A bus error on a load read. -/
theorem State.loadFault_facts :
    OnlyLaneAndCounts s (s.loadFault l) l ∧ ((s.loadFault l).lane l).state = .closing ∧
      ((s.loadFault l).lane l).outcome = some (.fetchFault, 0) ∧
      (s.loadFault l).smon.counts = s.smon.counts ++ [{ kind := .fault .readErr, requester := .lane l }] := by
  unfold State.loadFault
  refine ⟨.of_laneFault .., ?_, ?_, State.laneFault_counts ..⟩ <;> rw [State.laneFault_lane]

/-- A conclusion from a lane written as `y`. -/
theorem State.conclude_written (y : Lane) (o : PlanOutcome) (last : Byte) :
    OnlyLaneAndCounts s ((s.setLane l y).conclude l o last) l ∧
      (((s.setLane l y).conclude l o last).lane l).steps = y.steps ∧
      (((s.setLane l y).conclude l o last).lane l).state = .closing ∧
      (((s.setLane l y).conclude l o last).lane l).outcome = some (o, last) := by
  refine ⟨((OnlyLane.of_setLane ..).trans (.of_conclude ..)).withCounts (State.conclude_outd ..), ?_⟩
  obtain ⟨a, e, q, h⟩ := (s.setLane l y).conclude_eq l o last
  rw [h, State.mport_lane, State.setLane_lane, State.setLane_lane]
  exact ⟨rfl, rfl, rfl⟩

end Load

/-! ### The judgement of steps (06, R85; 12, R167) -/

/-- Modes 1 to 3, 1 and 2, and 0 and 1. -/
theorem mode_oneToThree (b : Byte) : 1 ≤ b.toNat ∧ b.toNat ≤ 3 ↔ b = 1 ∨ b = 2 ∨ b = 3 := by bv_omega

theorem mode_oneToTwo (b : Byte) : 1 ≤ b.toNat ∧ b.toNat ≤ 2 ↔ b = 1 ∨ b = 2 := by bv_omega

theorem mode_atMostOne (b : Byte) : b.toNat ≤ 1 ↔ b = 0 ∨ b = 1 := by bv_omega

/-- R85's table, kind by kind. -/
theorem stepGood_iff (outMask : Byte) (i : Nat) (t : StepReq) : stepGood outMask i t = true ↔
    t.kind = 1 ∨ t.kind = 2 ∨
    (t.kind = 3 ∧ t.line.toNat ≤ 7 ∧ (t.mode = 1 ∨ t.mode = 2 ∨ t.mode = 3)) ∨
    (t.kind = 4 ∧ t.line.toNat ≤ 7 ∧ (t.mode = 0 ∨ t.mode = 1)) ∨
    (t.kind = 5 ∧ t.line.toNat ≤ 7 ∧ (t.mode = 1 ∨ t.mode = 2 ∨ t.mode = 3) ∧ t.paramA ≠ 0) ∨
    (t.kind = 6 ∧ t.line.toNat ≤ 7 ∧ (t.mode = 1 ∨ t.mode = 2) ∧ t.arg ≠ 0) ∨
    (t.kind = 7 ∧ t.line.toNat ≤ 3 ∧ outMask.getLsbD t.line.toNat = true ∧ (t.mode = 0 ∨ t.mode = 1)) ∨
    (t.kind = 8 ∧ t.line.toNat ≤ 3 ∧ outMask.getLsbD t.line.toNat = true ∧ t.paramA ≠ 0 ∧
      t.paramB ≠ 0 ∧ t.arg ≠ 0) ∨
    (t.kind = 9 ∧ t.line.toNat < i ∧ t.arg.toNat ≤ 7 ∧ t.mode.extractLsb' 0 2 ≠ 3) := by
  rw [← mode_oneToThree, ← mode_oneToTwo, ← mode_atMostOne]
  rcases StepReq.kind_cases t.kind with h | h | h | h | h | h | h | h | h | h
  case inr.inr.inr.inr.inr.inr.inr.inr.inr =>
    rw [stepGood_unknown outMask i h]
    constructor
    · exact nofun
    · rintro (g | g | ⟨g, -⟩ | ⟨g, -⟩ | ⟨g, -⟩ | ⟨g, -⟩ | ⟨g, -⟩ | ⟨g, -⟩ | ⟨g, -⟩) <;> rw [g] at h <;>
        revert h <;> decide
  all_goals simp [stepGood, h, inputLineGood, outputLineGood, and_assoc]

/-- No step is bad. -/
theorem firstBad_eq_none_iff (outMask : Byte) (n : Nat) (ts : List StepReq) : firstBad outMask n ts = none ↔
    ∀ (i : Nat) (h : i < ts.length), stepGood outMask (n + i) ts[i] = true := by
  induction ts generalizing n with
  | nil => exact ⟨fun _ i h => absurd h (Nat.not_lt_zero i), fun _ => rfl⟩
  | cons t ts ih =>
    unfold firstBad
    cases ht : stepGood outMask n t with
    | true =>
      rw [if_pos rfl, ih]
      constructor
      · intro h i hi
        cases i with
        | zero => exact ht
        | succ i =>
          have := h i (Nat.lt_of_succ_lt_succ hi)
          rwa [Nat.add_right_comm, Nat.add_assoc] at this
      · intro h i hi
        have := h (i + 1) (Nat.succ_lt_succ hi)
        rwa [← Nat.add_assoc, Nat.add_right_comm] at this
    | false =>
      rw [if_neg Bool.false_ne_true]
      exact ⟨nofun, fun h => absurd (h 0 (Nat.succ_pos _)) (by simp [ht])⟩

/-- The first bad step is the one of lowest index. -/
theorem firstBad_eq_some_iff (outMask : Byte) (n m : Nat) (ts : List StepReq) :
    firstBad outMask n ts = some m ↔ ∃ (i : Nat) (h : i < ts.length), m = n + i ∧
      stepGood outMask (n + i) ts[i] = false ∧
      ∀ (j : Nat) (hj : j < i), stepGood outMask (n + j) (ts[j]'(Nat.lt_trans hj h)) = true := by
  induction ts generalizing n with
  | nil => exact ⟨nofun, fun ⟨i, h, _⟩ => absurd h (Nat.not_lt_zero i)⟩
  | cons t ts ih =>
    unfold firstBad
    cases ht : stepGood outMask n t with
    | true =>
      rw [if_pos rfl, ih]
      constructor
      · rintro ⟨i, h, rfl, bad, before⟩
        refine ⟨i + 1, Nat.succ_lt_succ h, by omega, ?_, fun j hj => ?_⟩
        · rwa [Nat.add_right_comm, Nat.add_assoc] at bad
        · cases j with
          | zero => exact ht
          | succ j =>
            have := before j (Nat.lt_of_succ_lt_succ hj)
            rwa [Nat.add_right_comm, Nat.add_assoc] at this
      · rintro ⟨i, h, rfl, bad, before⟩
        cases i with
        | zero => exact absurd bad (by simp [ht])
        | succ i =>
          refine ⟨i, Nat.lt_of_succ_lt_succ h, by omega, ?_, fun j hj => ?_⟩
          · rw [Nat.add_right_comm, Nat.add_assoc]
            exact bad
          · have := before (j + 1) (Nat.succ_lt_succ hj)
            rwa [← Nat.add_assoc, Nat.add_right_comm] at this
    | false =>
      rw [if_neg Bool.false_ne_true]
      constructor
      · intro h
        cases h
        exact ⟨0, Nat.succ_pos _, rfl, ht, fun j hj => absurd hj (Nat.not_lt_zero j)⟩
      · rintro ⟨i, h, rfl, bad, before⟩
        cases i with
        | zero => rfl
        | succ i => exact absurd (before 0 (Nat.succ_pos i)) (by simp [ht])

/-! ### The load -/

/-- Settles O52: the reads by their replies and words, and the judgement by `stepGood_iff` and the first bad step. -/
theorem loadReadsAndJudgesTheSteps : Obligations.LoadReadsAndJudgesTheSteps := by
  refine ⟨?_, fun s r req rest l hr hb ha => ?_, ?_, ⟨rfl, fun _ _ _ _ => rfl⟩, stepGood_iff, fun outMask ts =>
    ⟨by simpa using firstBad_eq_none_iff outMask 0 ts, fun i => ?_⟩⟩
  · rintro s u r req rest l w hr hb rfl rfl hs hx ht
    refine ⟨fun ha => ⟨_, exec_loadHost hr ha hb, ?_⟩, fun ha hf more => ⟨_, exec_loadStep hr ha hb, ?_⟩,
      fun ha hf => ?_⟩
    · cases hf : replyFailed r.reply with
      | true => exact ⟨(State.loadFault_facts ..).1, nofun, nofun⟩
      | false =>
        by_cases own : postSeq (s.wordReturned r req rest) = ((s.afterReturn r req rest).lane l).seq
        · rw [State.loadHostReturned_own _ _ own]
          obtain ⟨only, lane, orders⟩ := State.raiseLoad_facts ((s.afterReturn r req rest).setLane l
            (((s.afterReturn r req rest).lane l).recalledBy (s.wordReturned r req rest))) l (State.setLane_lane ..) 0
          rw [Lane.recalledBy_slot] at orders
          refine ⟨(OnlyLaneAndCounts.of_setLane ..).trans only, fun _ other => absurd own other,
            fun _ _ => ⟨orders, fun recalled => ?_, fun other => ?_⟩⟩
          · exact (congrArg Lane.recallFlag lane).trans (Lane.recalledBy_own recalled)
          · exact congrArg Lane.recallFlag (lane.trans (Lane.recalledBy_other other))
        · rw [State.loadHostReturned_other _ _ own]
          obtain ⟨only, lines, orders, learned⟩ := State.learnTear_learns
            (s := s.afterReturn r req rest) (l := l) (by rw [hs]; decide) ht (by unfold Lane.pastSettleCheck; rw [hx])
          exact ⟨only.withCounts lines, fun _ _ => ⟨by rw [learned], orders⟩, fun _ eq => absurd eq own⟩
    · rw [hf, State.loadStepReturned_next _ _ more]
      obtain ⟨only, lane, orders⟩ := State.raiseLoad_facts ((s.afterReturn r req rest).setLane l
        (((s.afterReturn r req rest).lane l).withWord (s.wordReturned r req rest))) l (State.setLane_lane ..)
        (((s.afterReturn r req rest).lane l).loadWords.length + 1)
      exact ⟨(OnlyLaneAndCounts.of_setLane ..).trans only, lane, orders⟩
    · have fault : exec (.loadRead r) s = .next ((s.afterReturn r req rest).loadFault l) := by
        rcases ha with ha | ha
        · rw [exec_loadHost hr ha hb, hf]
          rfl
        · rw [exec_loadStep hr ha hb, hf]
          rfl
      exact ⟨_, fault, State.loadFault_facts ..⟩
  · exact ⟨_, exec_loadRead_abandoned hr ha hb, .of_discarded _ (by rcases ha with ha | ha <;> rw [ha] <;> rfl)⟩
  · rintro s r req rest l hr ha hb hf full
    refine ⟨_, exec_loadStep hr ha hb, ?_⟩
    rw [hf, State.loadStepReturned_last _ _ full]
    cases judged : firstBad ((s.afterReturn r req rest).lane l).outMask 0
        (stepsOf (((s.afterReturn r req rest).lane l).loadWords ++ [s.wordReturned r req rest])) with
    | none =>
      dsimp only
      rw [State.setLane_lane]
      exact ⟨.of_setLane .., rfl, fun _ => ⟨rfl, rfl, rfl, rfl⟩, fun i bad => nomatch judged.symm.trans bad⟩
    | some i =>
      dsimp only
      obtain ⟨only, steps, state, outcome⟩ := (s.afterReturn r req rest).conclude_written l
        { ((s.afterReturn r req rest).lane l).withWord (s.wordReturned r req rest) with
          steps := stepsOf (((s.afterReturn r req rest).lane l).loadWords ++ [s.wordReturned r req rest]) }
        .malformed (BitVec.ofNat 8 i)
      refine ⟨only, steps, fun good => ?_, fun j bad => ⟨state, ?_⟩⟩
      · rw [steps] at good
        exact nomatch judged.symm.trans good
      · rw [steps] at bad
        cases judged.symm.trans bad
        exact outcome
  · simpa using firstBad_eq_some_iff outMask 0 i ts

end Sys2Proof.Machine
end

section
/-! PROOF. A recall or a halt that takes effect at a boundary: the running step completes, or is cut, and the plan
concludes (06, R83, R87 to R89, R94 to R97; 08, R129; 09, R138): O55. -/

namespace Sys2Proof.Machine

/-! ### The completion of the running step, in its two parts (06, R96) -/

/-- The edge due on the line of the lane's running step, announced to the lane. -/
def State.lineEdge (s : State) (l : LaneId) : State :=
  let i : InLine := Fin.ofNat 8 (s.lane l).request.line.toNat
  if s.inc.edgeDue i then s.deliverEdge l i (!(s.inc.lines[i]).accepted) (s.inc.lines[i]).runStart else s

/-- The end that the lane's counters bring. -/
def State.counterEnd (s : State) (l : LaneId) : State :=
  if (s.lane l).overrangeDue then s.overrangeStep l
  else if (s.lane l).windowDue then s.timeoutStep l
  else if (s.lane l).holdDue then s.holdStep l
  else if (s.lane l).untilDue s.epoch then s.untilStep l
  else if (s.lane l).pulseEnds then s.pulseStep l
  else if (s.lane l).tallyDue then s.tallyStep l
  else s

theorem State.completeRunning_eq (s : State) (l : LaneId) : s.completeRunning l = (s.lineEdge l).counterEnd l := rfl

theorem State.lineEdge_of_none {s : State} (h : ∀ i : InLine, s.inc.edgeDue i = false) (l : LaneId) :
    s.lineEdge l = s := if_neg (Bool.eq_false_iff.1 (h _))

/-- A step of this kind waits for an edge under a window. -/
def Activity.windowed : Activity → Bool
  | .edge => true
  | .widthEnter => true
  | .widthLeave _ => true
  | .periodFirst => true
  | .period _ _ _ => true
  | _ => false

theorem Lane.notDue_of_notWindowed {x : Lane} (h : x.activity.windowed = false) :
    x.overrangeDue = false ∧ x.windowDue = false := by
  unfold Lane.windowDue Lane.overrangeDue
  generalize x.activity = a at h
  cases a
  case edge | widthEnter | widthLeave | periodFirst | period => exact nomatch h
  all_goals exact ⟨Bool.and_false _, Bool.and_false _⟩

section CounterEnd
variable {s : State} {l : LaneId}

theorem State.counterEnd_overrange (h : (s.lane l).overrangeDue = true) : s.counterEnd l = s.overrangeStep l := if_pos h

theorem State.counterEnd_window (ho : (s.lane l).overrangeDue = false) (h : (s.lane l).windowDue = true) :
    s.counterEnd l = s.timeoutStep l := (if_neg (Bool.eq_false_iff.1 ho)).trans (if_pos h)

/-- Past the window, the end is that of HOLD, UNTIL, PULSE or TALLY. -/
theorem State.counterEnd_notWindowed (h : (s.lane l).activity.windowed = false) : s.counterEnd l =
    if (s.lane l).holdDue then s.holdStep l
    else if (s.lane l).untilDue s.epoch then s.untilStep l
    else if (s.lane l).pulseEnds then s.pulseStep l
    else if (s.lane l).tallyDue then s.tallyStep l
    else s := by
  obtain ⟨range, window⟩ := Lane.notDue_of_notWindowed h
  unfold State.counterEnd
  rw [range, window]
  rfl

theorem State.counterEnd_hold (h : (s.lane l).holdDue = true) (ha : (s.lane l).activity = .hold) :
    s.counterEnd l = s.holdStep l := by
  rw [State.counterEnd_notWindowed (by rw [ha]; rfl), if_pos h]

theorem State.counterEnd_until (h : (s.lane l).untilDue s.epoch = true) (ha : (s.lane l).activity = .untilEpoch) :
    s.counterEnd l = s.untilStep l := by
  rw [State.counterEnd_notWindowed (by rw [ha]; rfl), if_neg (by simp [Lane.holdDue, ha]), if_pos h]

theorem State.counterEnd_pulse {n : Nat} {active : Bool} (h : (s.lane l).pulseEnds = true)
    (ha : (s.lane l).activity = .pulse n active) : s.counterEnd l = s.pulseStep l := by
  rw [State.counterEnd_notWindowed (by rw [ha]; rfl), if_neg (by simp [Lane.holdDue, ha]),
    if_neg (by simp [Lane.untilDue, ha]), if_pos h]

theorem State.counterEnd_tally {n : Word} (h : (s.lane l).tallyDue = true) (ha : (s.lane l).activity = .tally n) :
    s.counterEnd l = s.tallyStep l := by
  rw [State.counterEnd_notWindowed (by rw [ha]; rfl), if_neg (by simp [Lane.holdDue, ha]),
    if_neg (by simp [Lane.untilDue, ha]), if_neg (by simp [Lane.pulseEnds, Lane.pulseDue, ha]), if_pos h]

/-- Where no step runs no counter ends one. -/
theorem State.counterEnd_idle (h : (s.lane l).activity.isRunning = false) : s.counterEnd l = s := by
  generalize ha : (s.lane l).activity = a at h
  cases a with
  | none | wait =>
    rw [State.counterEnd_notWindowed (by rw [ha]; rfl)]
    simp [Lane.holdDue, Lane.untilDue, Lane.pulseEnds, Lane.tallyDue, ha]
  | _ => exact nomatch h

/-- A step that its counters end completes in one of the ways in which a step completes. -/
theorem State.counterEnd_cases (s : State) (l : LaneId) : s.counterEnd l = s ∨
    ∃ (c : ResultCode) (v w : Word) (a : Byte) (verdict : Option PlanOutcome),
      s.counterEnd l = s.finishStep l c v w a verdict false true := by
  unfold State.counterEnd
  split
  · unfold State.overrangeStep
    split
    · exact .inr ⟨_, _, _, _, _, rfl⟩
    · exact .inr ⟨_, _, _, _, _, rfl⟩
    · exact .inl rfl
  split
  · unfold State.timeoutStep
    extract_lets x t verdict ends
    have ended (v w : Word) (a : Byte) : ∃ (c : ResultCode) (v' w' : Word) (a' : Byte)
        (o : Option PlanOutcome), ends v w a = s.finishStep l c v' w' a' o false true := ⟨_, _, _, _, _, rfl⟩
    cases x.activity
    case edge | widthEnter | widthLeave | periodFirst | period => exact .inr (ended ..)
    all_goals exact .inl rfl
  split
  · exact .inr ⟨_, _, _, _, _, rfl⟩
  split
  · exact .inr ⟨_, _, _, _, _, rfl⟩
  split
  · next h =>
    obtain ⟨-, last⟩ := Bool.and_eq_true_iff.1 h
    split at last
    · next n active ha =>
      obtain ⟨rest, count⟩ := Bool.and_eq_true_iff.1 last
      obtain rfl : active = false := by simpa using rest
      exact .inr ⟨_, _, _, _, _, State.pulseStep_last ha (beq_iff_eq.1 count)⟩
    · exact nomatch last
  split
  · unfold State.tallyStep
    split
    · exact .inr ⟨_, _, _, _, _, rfl⟩
    · exact .inl rfl
  · exact .inl rfl

end CounterEnd

/-! ### The lane while its step goes on -/

/-- The same lane but for how far its running step has come: the pulses, and the words of a CHECK, are what they
were. -/
structure Lane.RunsOn (x y : Lane) : Prop where
  same : y = { x with activity := y.activity, spanCounter := y.spanCounter }
  running : y.activity.isRunning = x.activity.isRunning
  special : y = x ∨ (∀ n b, x.activity ≠ .pulse n b) ∧ (∀ n b, y.activity ≠ .pulse n b) ∧
    (∀ got, x.activity ≠ .check got)

theorem Lane.RunsOn.refl (x : Lane) : x.RunsOn x := ⟨rfl, rfl, .inl rfl⟩

/-- A step goes on from one activity to another that is neither a PULSE's nor a CHECK's. -/
theorem Lane.RunsOn.of_activity {x : Lane} {a b : Activity} (c : Word) (ha : x.activity = a)
    (hr : b.isRunning = a.isRunning) (pa : ∀ n f, a ≠ .pulse n f) (pb : ∀ n f, b ≠ .pulse n f)
    (ca : ∀ got, a ≠ .check got) : x.RunsOn { x with activity := b, spanCounter := c } :=
  ⟨rfl, hr.trans (by rw [ha]), .inr ⟨by rwa [ha], pb, by rwa [ha]⟩⟩

theorem Lane.pulsesNow_eq_zero {x : Lane} (h : ∀ n b, x.activity ≠ .pulse n b) : x.pulsesNow = 0 := by
  unfold Lane.pulsesNow
  split
  · next n b ha => exact absurd ha (h n b)
  · rfl

/-- The plan's own fields are what they were. -/
theorem Lane.RunsOn.plan {x y : Lane} (h : x.RunsOn y) : y.state = x.state ∧ y.halt = x.halt ∧ y.list = x.list ∧
    y.step = x.step ∧ y.passNumber = x.passNumber := by
  rw [h.same]
  exact ⟨rfl, rfl, rfl, rfl, rfl⟩

theorem Lane.RunsOn.pulsesNow {x y : Lane} (h : x.RunsOn y) : y.pulsesNow = x.pulsesNow := by
  rcases h.special with e | ⟨px, py, -⟩
  · rw [e]
  · rw [Lane.pulsesNow_eq_zero px, Lane.pulsesNow_eq_zero py]

theorem Lane.RunsOn.notPulse {x y : Lane} (h : x.RunsOn y) (hx : ∀ n b, x.activity ≠ .pulse n b) :
    ∀ n b, y.activity ≠ .pulse n b := by
  rcases h.special with e | ⟨-, py, -⟩
  · rwa [e]
  · exact py

theorem Lane.RunsOn.eq_of_pulse {x y : Lane} (h : x.RunsOn y) {n : Nat} {b : Bool} (hx : x.activity = .pulse n b) :
    y = x := h.special.elim id fun g => absurd hx (g.1 n b)

theorem Lane.RunsOn.eq_of_check {x y : Lane} (h : x.RunsOn y) {got : List Word} (hx : x.activity = .check got) :
    y = x := h.special.elim id fun g => absurd hx (g.2.2 got)

/-- An edge announced to a lane lets its step go on, or completes it. -/
theorem State.deliverEdge_cases (s : State) (l : LaneId) (i : InLine) (b : Bool) (stamp : Word) :
    (∃ y : Lane, (s.lane l).RunsOn y ∧ s.deliverEdge l i b stamp = s.setLane l y) ∨
      ∃ (c : ResultCode) (v w : Word) (a : Byte),
        s.deliverEdge l i b stamp = s.finishStep l c v w a none false true := by
  have left : ∃ y : Lane, (s.lane l).RunsOn y ∧ s = s.setLane l y := ⟨_, .refl _, (s.setLane_same l).symm⟩
  unfold State.deliverEdge
  extract_lets x t delay
  split
  · exact .inl left
  cases ha : x.activity with
  | edge =>
    dsimp only
    split
    · exact .inr ⟨_, _, _, _, rfl⟩
    · exact .inl left
  | widthEnter =>
    dsimp only
    split
    · exact .inl ⟨_, .of_activity (b := .widthLeave stamp) delay ha rfl nofun nofun nofun, rfl⟩
    · exact .inl left
  | widthLeave enter =>
    dsimp only
    split
    · exact .inr ⟨_, _, _, _, rfl⟩
    · exact .inl left
  | tally n =>
    dsimp only
    split
    · split
      · exact .inr ⟨_, _, _, _, rfl⟩
      · exact .inl ⟨_, .of_activity (b := .tally (n + 1)) x.spanCounter ha rfl nofun nofun nofun, rfl⟩
    · exact .inl left
  | periodFirst =>
    dsimp only
    split
    · exact .inl ⟨_, .of_activity (b := .period stamp 0 0) delay ha rfl nofun nofun nofun, rfl⟩
    · exact .inl left
  | period first n span =>
    dsimp only
    split
    · split
      · exact .inr ⟨_, _, _, _, rfl⟩
      · exact .inl ⟨_, .of_activity (b := .period first (n + 1) (x.spanCounter - delay)) x.spanCounter ha rfl nofun
          nofun nofun, rfl⟩
    · exact .inl left
  | _ => exact .inl left

/-- The running step goes on, or completes. -/
theorem State.completeRunning_cases (s : State) (l : LaneId) :
    (∃ y : Lane, (s.lane l).RunsOn y ∧ s.completeRunning l = s.setLane l y) ∨
      ∃ (y : Lane) (c : ResultCode) (v w : Word) (a : Byte) (verdict : Option PlanOutcome), (s.lane l).RunsOn y ∧
        s.completeRunning l = (s.setLane l y).finishStep l c v w a verdict false true := by
  have edge : (∃ y : Lane, (s.lane l).RunsOn y ∧ s.lineEdge l = s.setLane l y) ∨
      ∃ (c : ResultCode) (v w : Word) (a : Byte), s.lineEdge l = s.finishStep l c v w a none false true := by
    unfold State.lineEdge
    dsimp only
    split
    · exact s.deliverEdge_cases ..
    · exact .inl ⟨_, .refl _, (s.setLane_same l).symm⟩
  rw [State.completeRunning_eq]
  rcases edge with ⟨y, runs, e⟩ | ⟨c, v, w, a, e⟩
  · rw [e]
    rcases (s.setLane l y).counterEnd_cases l with e | ⟨c, v, w, a, verdict, e⟩
    · exact .inl ⟨y, runs, e⟩
    · exact .inr ⟨y, c, v, w, a, verdict, runs, e⟩
  · have ended : ((s.finishStep l c v w a none false true).lane l).activity.isRunning = false :=
      (s.finishStep_completes ..).2.2.ended
    refine .inr ⟨s.lane l, c, v, w, a, none, .refl _, ?_⟩
    rw [e, State.counterEnd_idle ended, State.setLane_same]

/-! ### The flag takes effect (06, R95 to R97) -/

/-- What the plan concludes with, and the result of the step that a flag ends: the halt governs. -/
def Lane.flagOutcome (x : Lane) : PlanOutcome := if x.halt = true then .halted else .recalled

def Lane.flagCode (x : Lane) : ResultCode := if x.halt = true then .halted else .recalled

section Flag
variable {s : State} {l : LaneId}

theorem State.flagEffect_loading (h : (s.lane l).state = .loading) : s.flagEffect l =
    (s.abandon (fun a => a == .loadHost l || a == .loadStep l)).conclude l (s.lane l).flagOutcome 0 := by
  unfold State.flagEffect
  dsimp only
  rw [h]
  rfl

theorem State.flagEffect_waiting (h : (s.lane l).state = .stepping) {k : Nat} {skip due : Bool}
    (ha : (s.lane l).activity = .wait k skip due) :
    s.flagEffect l = s.conclude l (s.lane l).flagOutcome (BitVec.ofNat 8 (s.lane l).lastDone) := by
  unfold State.flagEffect
  dsimp only
  rw [h, ha]
  rfl

theorem State.flagEffect_running (h : (s.lane l).state = .stepping) (ha : (s.lane l).activity.isRunning = true) :
    s.flagEffect l = (s.cutRunning l (s.lane l).flagCode).conclude l (s.lane l).flagOutcome
      (BitVec.ofNat 8 (s.lane l).step) := by
  unfold State.flagEffect
  dsimp only
  rw [h]
  generalize (s.lane l).activity = a at ha
  cases a
  case none | wait => exact nomatch ha
  all_goals rfl

theorem State.flagEffect_closing (h : (s.lane l).state = .closing) : s.flagEffect l = s := by
  unfold State.flagEffect
  dsimp only
  rw [h]

/-- No step follows the completion at the same boundary. -/
theorem State.chainInstant_ends (h : ∀ k, (s.lane l).activity = .wait k false true →
    (s.lane l).beginDue = false ∨ ((s.lane l).steps.getD k StepReq.zero).instantAt s.epoch = false) :
    s.chainInstant l = s := by
  unfold State.chainInstant
  dsimp only
  split
  · next k ha =>
    rw [if_neg]
    rw [Bool.and_eq_true]
    rcases h k ha with h | h <;> rw [h] <;> simp
  · rfl

theorem State.chainInstant_goesOn {k : Nat} (ha : (s.lane l).activity = .wait k false true)
    (hb : (s.lane l).beginDue = true) (hi : ((s.lane l).steps.getD k StepReq.zero).instantAt s.epoch = true) :
    s.chainInstant l = s.beginStep l k := by
  unfold State.chainInstant
  dsimp only
  rw [ha]
  exact if_pos (by rw [hb, hi]; rfl)

/-- A plan that does not step begins nothing. -/
theorem Lane.beginDue_eq_false {x : Lane} (h : x.state ≠ .stepping ∨ x.tear = true ∨ 2 ≤ x.list.length) :
    x.beginDue = false := by
  unfold Lane.beginDue
  rcases h with h | h | h
  · simp [h]
  · simp [h]
  · simp [Nat.not_lt.2 h]

theorem State.chainInstant_closing (h : (s.lane l).state = .closing) : s.chainInstant l = s :=
  State.chainInstant_ends fun _ _ => .inl (Lane.beginDue_eq_false (.inl (by rw [h]; decide)))

theorem State.flaggedBoundary_idle (h : (s.lane l).activity.isRunning = false) :
    s.flaggedBoundary l = s.flagEffect l := if_neg (Bool.eq_false_iff.1 h)

theorem State.flaggedBoundary_running (h : (s.lane l).activity.isRunning = true) : s.flaggedBoundary l =
    (((s.completeRunning l).chainInstant l).chainInstant l).flagEffect l := if_pos h

end Flag

/-! ### What concluding leaves on the order list -/

/-- Going on with the slot raises nothing but a check. -/
theorem State.pump_mport (s : State) (l : LaneId) : ∀ q ∈ (s.pump l).mport,
    q ∈ s.mport ∨ q.access = .check l ∨ q.access = .settleCheck l := by
  have raised {q r : Request} (h : q ∈ s.mport ++ [r]) (hr : r.access = .check l ∨ r.access = .settleCheck l) :
      q ∈ s.mport ∨ q.access = .check l ∨ q.access = .settleCheck l :=
    (List.mem_append.1 h).imp id fun h => by rwa [List.mem_singleton.1 h]
  unfold State.pump
  dsimp only
  intro q hq
  split at hq
  · exact .inl hq
  split at hq
  · exact raised hq (.inl rfl)
  · split at hq
    · exact raised hq (.inr rfl)
    · exact .inl hq
  · exact .inl hq

theorem State.conclude_mport (s : State) (l : LaneId) (o : PlanOutcome) (b : Byte) : ∀ q ∈ (s.conclude l o b).mport,
    q ∈ s.mport ∨ q.access = .check l ∨ q.access = .settleCheck l := State.pump_mport _ l

/-- What a conclusion leaves of the lane. -/
theorem State.conclude_lane (s : State) (l : LaneId) (o : PlanOutcome) (b : Byte) :
    ∃ (a : SlotAccess) (e : Word), (s.conclude l o b).lane l = { s.lane l with
      state := .closing, activity := .none, loaded := false, loadDue := false, outcome := some (o, b),
      access := a, settledEpoch := e } := by
  obtain ⟨a, e, q, h⟩ := s.conclude_eq l o b
  exact ⟨a, e, by rw [h, State.mport_lane, State.setLane_lane]⟩

/-! ### A running step that a flag cuts (06, R96; 08, R129; 09, R138) -/

section Cut
variable {s : State} {l : LaneId} {code : ResultCode}

theorem State.cutRunning_outd (h : ∀ n b, (s.lane l).activity ≠ .pulse n b) : (s.cutRunning l code).outd = s.outd := by
  unfold State.cutRunning
  dsimp only
  split
  · next n b ha => exact absurd ha (h n b)
  · rfl
  · rfl

/-- A PULSE's claimed line goes to its rest level. -/
theorem State.cutRunning_pulse {n : Nat} {b : Bool} (ha : (s.lane l).activity = .pulse n b)
    (hc : (s.outd[(s.lane l).request.outLine]).claimer = some l) :
    ((s.cutRunning l code).outd[(s.lane l).request.outLine]).level = !pulseActive (s.lane l).request.mode := by
  unfold State.cutRunning
  dsimp only
  rw [ha]
  dsimp only
  rw [State.drive_line, if_pos ⟨rfl, hc⟩]

/-- A CHECK's read is given up. -/
theorem State.cutRunning_check {got : List Word} (ha : (s.lane l).activity = .check got) :
    (s.cutRunning l code).ChecksGivenUp l := by
  unfold State.cutRunning
  dsimp only
  rw [ha]
  exact (State.setLane s l _).giveUpCheck_givenUp l

end Cut

theorem State.ChecksGivenUp.conclude {s : State} {l : LaneId} (h : s.ChecksGivenUp l) (o : PlanOutcome) (b : Byte) :
    (s.conclude l o b).ChecksGivenUp l := by
  intro q hq last ha
  rcases s.conclude_mport l o b q hq with old | check | check
  · exact h q old last ha
  · exact nomatch check.symm.trans ha
  · exact nomatch check.symm.trans ha

/-- What a flag leaves of a lane whose step runs. -/
theorem State.flagEffect_cut {s : State} {l : LaneId} (h : (s.lane l).state = .stepping)
    (ha : (s.lane l).activity.isRunning = true) :
    let t := s.flagEffect l
    (t.lane l).state = .closing ∧ (t.lane l).activity = .none ∧
      (t.lane l).outcome = some ((s.lane l).flagOutcome, BitVec.ofNat 8 (s.lane l).step) ∧
      (t.lane l).list = (s.lane l).list ++
        [{ step := (s.lane l).step, code := (s.lane l).flagCode, value := (s.lane l).pulsesNow,
           stamp := s.tbu.epoch, aux := 0, pass := (s.lane l).passNumber }] ∧
      t.outd = (s.cutRunning l (s.lane l).flagCode).outd ∧
      (∀ got, (s.lane l).activity = .check got → t.ChecksGivenUp l) := by
  dsimp only
  rw [State.flagEffect_running h ha]
  obtain ⟨a, e, lane⟩ := (s.cutRunning l (s.lane l).flagCode).conclude_lane l (s.lane l).flagOutcome
    (BitVec.ofNat 8 (s.lane l).step)
  rw [lane, (State.cutRunning_lane ..).1]
  exact ⟨rfl, rfl, rfl, rfl, State.conclude_outd .., fun got hg =>
    State.ChecksGivenUp.conclude (State.cutRunning_check hg) _ _⟩

/-- A running step that nothing completes at the boundary goes on, up to the flag's effect. -/
theorem State.flaggedBoundary_cut {s : State} {l : LaneId} (ha : (s.lane l).activity.isRunning = true)
    (hr : ((s.completeRunning l).lane l).activity.isRunning = true) :
    ∃ y : Lane, (s.lane l).RunsOn y ∧ s.flaggedBoundary l = (s.setLane l y).flagEffect l := by
  rcases s.completeRunning_cases l with ⟨y, runs, e⟩ | ⟨y, c, v, w, a, verdict, -, e⟩
  · refine ⟨y, runs, ?_⟩
    have stays : (s.setLane l y).chainInstant l = s.setLane l y := State.chainInstant_ends fun k hk => by
      rw [State.setLane_lane] at hk
      have running := runs.running.trans ha
      rw [hk] at running
      exact nomatch running
    rw [State.flaggedBoundary_running ha, e, stays, stays]
  · rw [e, ((s.setLane l y).finishStep_completes l c v w a verdict false true).2.2.ended] at hr
    exact nomatch hr

/-- A flag at whose boundary nothing completes the running step. -/
theorem State.flaggedBoundary_cutFacts {s : State} {l : LaneId} (hs : (s.lane l).state = .stepping)
    (ha : (s.lane l).activity.isRunning = true) (hr : ((s.completeRunning l).lane l).activity.isRunning = true) :
    let t := s.flaggedBoundary l
    (t.lane l).state = .closing ∧ (t.lane l).activity = .none ∧
      (t.lane l).outcome = some ((s.lane l).flagOutcome, BitVec.ofNat 8 (s.lane l).step) ∧
      (t.lane l).list = (s.lane l).list ++
        [{ step := (s.lane l).step, code := (s.lane l).flagCode, value := (s.lane l).pulsesNow,
           stamp := s.tbu.epoch, aux := 0, pass := (s.lane l).passNumber }] ∧
      ((∀ n b, (s.lane l).activity ≠ .pulse n b) → t.outd = s.outd) ∧
      (∀ n b, (s.lane l).activity = .pulse n b → (s.outd[(s.lane l).request.outLine]).claimer = some l →
        (t.outd[(s.lane l).request.outLine]).level = !pulseActive (s.lane l).request.mode) ∧
      (∀ got, (s.lane l).activity = .check got → t.ChecksGivenUp l) := by
  obtain ⟨y, runs, e⟩ := State.flaggedBoundary_cut ha hr
  have lane : (s.setLane l y).lane l = y := State.setLane_lane ..
  obtain ⟨state, halt, list, step, number⟩ := runs.plan
  have outcome : y.flagOutcome = (s.lane l).flagOutcome := by unfold Lane.flagOutcome; rw [halt]
  have code : y.flagCode = (s.lane l).flagCode := by unfold Lane.flagCode; rw [halt]
  obtain ⟨f1, f2, f3, f4, f5, f6⟩ := State.flagEffect_cut (s := s.setLane l y) (l := l) (by rw [lane, state, hs])
    (by rw [lane, runs.running, ha])
  rw [lane] at f3 f4 f5 f6
  dsimp only
  rw [e]
  refine ⟨f1, f2, by rw [f3, outcome, step], by rw [f4, list, step, code, runs.pulsesNow, number]; rfl,
    fun np => ?_, fun n b hp hc => ?_, fun got hg => ?_⟩
  · rw [f5, State.cutRunning_outd (by rw [lane]; exact runs.notPulse np)]
    rfl
  · rw [runs.eq_of_pulse hp, State.setLane_same] at f5 ⊢
    rw [f5]
    exact State.cutRunning_pulse hp hc
  · exact f6 got (runs.eq_of_check hg ▸ hg)

/-! ### The instant step that follows a completion (06, R87; 08, R127) -/

theorem StepReq.instantAt_iff (q : StepReq) (now : Word) : q.instantAt now = true ↔
    (q.kind = 1 ∧ q.paramA = 0) ∨ (q.kind = 2 ∧ reached now q.paramA = true) ∨ q.kind = 7 := by
  rcases StepReq.kind_cases q.kind with h | h | h | h | h | h | h | h | h | h
  case inr.inr.inr.inr.inr.inr.inr.inr.inr =>
    have never : q.instantAt now = false := by
      unfold StepReq.instantAt
      generalize q.kind.toNat = n at h
      split <;> first | rfl | omega
    rw [never]
    constructor
    · exact nofun
    · rintro (⟨g, -⟩ | ⟨g, -⟩ | g) <;> rw [g] at h <;> revert h <;> decide
  all_goals simp [StepReq.instantAt, h]

/-- An instant step completes in the act in which it begins. -/
theorem State.beginStep_instant {s : State} {l : LaneId} {k : Nat}
    (h : ((s.lane l).steps.getD k StepReq.zero).instantAt s.epoch = true) :
    ∃ (t : State) (c : ResultCode) (v w : Word) (a : Byte), t.lane l = ((s.lane l).begun k s.epoch).doing .none ∧
      s.beginStep l k = t.finishStep l c v w a none false true := by
  rcases (StepReq.instantAt_iff ..).1 h with ⟨k1, zero⟩ | ⟨k2, past⟩ | k7
  · rw [s.beginStep_hold l k k1, if_pos zero]
    exact ⟨_, _, _, _, _, State.setLane_lane .., rfl⟩
  · rw [s.beginStep_until l k k2, if_pos past]
    exact ⟨_, _, _, _, _, State.setLane_lane .., rfl⟩
  · rw [s.beginStep_set l k k7]
    exact ⟨_, _, _, _, _, by rw [State.drive_lane, State.setLane_lane], rfl⟩

/-- What a completion leaves for the flag: the lane closes, or waits for its next step with that one done. -/
theorem State.finishStep_waits {s : State} {l : LaneId} {c : ResultCode} {v w : Word} {a : Byte}
    {verdict : Option PlanOutcome} {skip same : Bool} :
    let t := s.finishStep l c v w a verdict skip same
    (t.lane l).list.length = (s.lane l).list.length + 1 ∧ (t.lane l).halt = (s.lane l).halt ∧
      (t.lane l).lastDone = (s.lane l).step ∧
      ((t.lane l).state = .closing ∨ ∃ j skip' due, (t.lane l).activity = .wait j skip' due) := by
  obtain ⟨y, q, h, list, last, -, -, -, -, -, -, -, -, -, -, halt, -, -, -, ends, goesOn⟩ :=
    s.finishStep_eq l c v w a verdict skip same
  dsimp only
  rw [h, State.mport_lane, State.setLane_lane]
  refine ⟨by rw [list]; exact List.length_append, halt, last, ?_⟩
  cases e : (s.lane l).endingWith verdict with
  | some o => exact .inl (ends o e).1
  | none =>
    rw [(goesOn e).2.2]
    unfold Lane.nextWait
    split
    · exact .inr ⟨_, _, _, rfl⟩
    · exact .inr ⟨_, _, _, rfl⟩

/-- The flag on a lane that waits for a step. -/
theorem State.flagEffect_waitingFacts {s : State} {l : LaneId} (h : (s.lane l).state = .stepping) {k : Nat}
    {skip due : Bool} (ha : (s.lane l).activity = .wait k skip due) :
    OnlyLane s (s.flagEffect l) l ∧ (s.flagEffect l).outd = s.outd ∧ ((s.flagEffect l).lane l).state = .closing ∧
      ((s.flagEffect l).lane l).activity = .none ∧
      ((s.flagEffect l).lane l).outcome = some ((s.lane l).flagOutcome, BitVec.ofNat 8 (s.lane l).lastDone) ∧
      ((s.flagEffect l).lane l).list = (s.lane l).list ∧
      ((s.flagEffect l).lane l).passesDone = (s.lane l).passesDone := by
  rw [State.flagEffect_waiting h ha]
  obtain ⟨a, e, lane⟩ := s.conclude_lane l (s.lane l).flagOutcome (BitVec.ofNat 8 (s.lane l).lastDone)
  rw [lane]
  exact ⟨.of_conclude .., State.conclude_outd .., rfl, rfl, rfl, rfl, rfl⟩

/-- The flag on a lane that loads. -/
theorem State.flagEffect_loadingFacts {s : State} {l : LaneId} (h : (s.lane l).state = .loading) :
    OnlyLane s (s.flagEffect l) l ∧ (s.flagEffect l).outd = s.outd ∧ ((s.flagEffect l).lane l).state = .closing ∧
      ((s.flagEffect l).lane l).activity = .none ∧
      ((s.flagEffect l).lane l).outcome = some ((s.lane l).flagOutcome, 0) ∧
      ((s.flagEffect l).lane l).list = (s.lane l).list ∧
      ((s.flagEffect l).lane l).passesDone = (s.lane l).passesDone ∧
      ((s.flagEffect l).lane l).startedEpoch = (s.lane l).startedEpoch ∧
      ∀ q ∈ (s.flagEffect l).mport, q.access = .loadHost l ∨ q.access = .loadStep l → q.abandoned = true := by
  rw [State.flagEffect_loading h]
  let u := s.abandon (fun a => a == .loadHost l || a == .loadStep l)
  obtain ⟨a, e, lane⟩ := u.conclude_lane l (s.lane l).flagOutcome 0
  rw [lane]
  refine ⟨(OnlyLane.of_abandon ..).trans (.of_conclude ..), State.conclude_outd .., rfl, rfl, rfl, rfl, rfl, rfl,
    fun q hq ha => ?_⟩
  rcases u.conclude_mport l (s.lane l).flagOutcome 0 q hq with old | check | check
  · obtain ⟨r, -, rfl⟩ := List.mem_map.1 old
    split at ha
    · next given => rw [if_pos given]
    · next kept => exact absurd (by simpa using ha) kept
  · rw [check] at ha
    exact ha.elim nofun nofun
  · rw [check] at ha
    exact ha.elim nofun nofun

/-- A step that completes at the flag's boundary: what stands before an instant step that may follow. -/
theorem State.completeRunning_waits {s : State} {l : LaneId} (ha : (s.lane l).activity.isRunning = true) :
    ((s.completeRunning l).lane l).halt = (s.lane l).halt ∧
      (((s.completeRunning l).lane l).activity.isRunning = false → 1 ≤ ((s.completeRunning l).lane l).list.length) := by
  rcases s.completeRunning_cases l with ⟨y, runs, e⟩ | ⟨y, c, v, w, a, verdict, runs, e⟩
  · rw [e, State.setLane_lane]
    refine ⟨runs.plan.2.1, fun ended => ?_⟩
    rw [runs.running, ha] at ended
    exact nomatch ended
  · obtain ⟨list, halt, -⟩ := State.finishStep_waits (s := s.setLane l y) (l := l) (c := c) (v := v) (w := w) (a := a)
      (verdict := verdict) (skip := false) (same := true)
    rw [e]
    refine ⟨halt.trans ?_, fun _ => list ▸ Nat.succ_pos _⟩
    rw [State.setLane_lane]
    exact runs.plan.2.1

/-! ### The completion is the event's own -/

section Events
variable {s t : State} {l : LaneId} (none : ∀ i : InLine, s.inc.edgeDue i = false) (hs : (s.lane l).state = .stepping)
include none

/-- With no edge due the running step completes as its counters say. -/
theorem State.completeRunning_of_none : s.completeRunning l = s.counterEnd l := by
  rw [State.completeRunning_eq, State.lineEdge_of_none none]

include hs

theorem State.completeRunning_hold (he : exec (.hold l) s = .next t) (ha : (s.lane l).activity = .hold)
    (hc : (s.lane l).counter = (s.lane l).request.paramA) : s.completeRunning l = t := by
  have due := Lane.holdDue_of hs ha hc
  rw [State.completeRunning_of_none none, State.counterEnd_hold due ha]
  exact Host.Outcome.next.inj ((exec_hold due).symm.trans he)

theorem State.completeRunning_until (he : exec (.untilReached l) s = .next t)
    (ha : (s.lane l).activity = .untilEpoch) (hf : (s.lane l).fresh = false)
    (hr : reached s.tbu.epoch (s.lane l).request.paramA = true) : s.completeRunning l = t := by
  have due : (s.lane l).untilDue s.epoch = true := Lane.untilDue_of hs ha hf hr
  rw [State.completeRunning_of_none none, State.counterEnd_until due ha]
  exact Host.Outcome.next.inj ((exec_untilReached due).symm.trans he)

theorem State.completeRunning_pulse (he : exec (.pulse l) s = .next t)
    (ha : (s.lane l).activity = .pulse (s.lane l).request.arg.toNat false)
    (hc : (s.lane l).counter = (s.lane l).request.paramB) : s.completeRunning l = t := by
  have due : (s.lane l).pulseDue = true := Lane.pulseDue_of hs ha hc
  have last : (s.lane l).pulseEnds = true := by
    unfold Lane.pulseEnds
    rw [due, ha]
    simp
  rw [State.completeRunning_of_none none, State.counterEnd_pulse last ha]
  exact Host.Outcome.next.inj ((exec_pulse due).symm.trans he)

theorem State.completeRunning_tally (he : exec (.tallyGateEnd l) s = .next t) {n : Word}
    (ha : (s.lane l).activity = .tally n) (hc : (s.lane l).counter = (s.lane l).request.paramA) :
    s.completeRunning l = t := by
  have due : (s.lane l).tallyDue = true := Lane.tallyDue_of hs ha hc
  have same := State.acceptEdges_of_none none
  have event := exec_tallyGateEnd (s := s) (l := l) (by rwa [same])
  rw [same] at event
  rw [State.completeRunning_of_none none, State.counterEnd_tally due ha]
  exact Host.Outcome.next.inj (event.symm.trans he)

theorem State.completeRunning_overrange (he : exec (.overrange l) s = .next t)
    (hc : (s.lane l).spanCounter = 0xFFFFFFFF#32)
    (ha : (∃ enter, (s.lane l).activity = .widthLeave enter) ∨
      ∃ first n span, (s.lane l).activity = .period first n span) : s.completeRunning l = t := by
  have due : (s.lane l).overrangeDue = true := Lane.overrangeDue_of hs hc ha
  have same := State.acceptEdges_of_none none
  have event := exec_overrange (s := s) (l := l) (by rwa [same])
  rw [same] at event
  rw [State.completeRunning_of_none none, State.counterEnd_overrange due]
  exact Host.Outcome.next.inj (event.symm.trans he)

theorem State.completeRunning_window (he : exec (.windowExpiry l) s = .next t) (hw : (s.lane l).windowOf ≠ 0)
    (hc : (s.lane l).windowCounter = (s.lane l).windowOf)
    (ha : (s.lane l).activity = .edge ∨ (s.lane l).activity = .widthEnter ∨ (s.lane l).activity = .periodFirst ∨
      ((s.lane l).spanCounter ≠ 0xFFFFFFFF#32 ∧ ((∃ enter, (s.lane l).activity = .widthLeave enter) ∨
        ∃ first n span, (s.lane l).activity = .period first n span))) : s.completeRunning l = t := by
  have due : (s.lane l).windowDue = true ∧ (s.lane l).overrangeDue = false := by
    rcases ha with h | h | h | ⟨hn, ⟨enter, h⟩ | ⟨first, n, span, h⟩⟩
    · have late := Lane.overrangeDue_eq_false (.inr (.inl h))
      exact ⟨Lane.windowDue_of (s := s) hs hw hc (.edge h) late, late⟩
    · have late := Lane.overrangeDue_eq_false (.inr (.inr (.inl h)))
      exact ⟨Lane.windowDue_of (s := s) hs hw hc (.before (.inl h)) late, late⟩
    · have late := Lane.overrangeDue_eq_false (.inr (.inr (.inr h)))
      exact ⟨Lane.windowDue_of (s := s) hs hw hc (.before (.inr h)) late, late⟩
    · have late := Lane.overrangeDue_eq_false (.inl hn)
      exact ⟨Lane.windowDue_of (s := s) hs hw hc (.width enter h) late, late⟩
    · have late := Lane.overrangeDue_eq_false (.inl hn)
      exact ⟨Lane.windowDue_of (s := s) hs hw hc (.period _ _ _ h) late, late⟩
  obtain ⟨window, late⟩ := due
  have same := State.acceptEdges_of_none none
  have event := exec_windowExpiry (s := s) (l := l) (by rwa [same])
  rw [same] at event
  rw [State.completeRunning_of_none none, State.counterEnd_window late window]
  exact Host.Outcome.next.inj (event.symm.trans he)

end Events

/-- An accepted edge that ends the step on its line is the completion of that step. -/
theorem State.completeRunning_edge {s t : State} {l : LaneId} {i : InLine} (due : s.inc.edgeDue i = true)
    (line : (s.lane l).request.line.toNat = i.val) (he : exec (.acceptedEdge i) s = .next t)
    (ended : (t.lane l).activity.isRunning = false) : (s.completeRunning l).lane l = t.lane l := by
  obtain rfl := Host.Outcome.next.inj ((exec_acceptedEdge due).symm.trans he)
  have own : (Fin.ofNat 8 (s.lane l).request.line.toNat : InLine) = i := by
    rw [line]
    exact Fin.ofNat_val_eq_self i
  have edge : s.lineEdge l = s.deliverEdge l i (!(s.inc.lines[i]).accepted) (s.inc.lines[i]).runStart := by
    subst own
    exact if_pos due
  rw [State.acceptEdge_lane] at ended ⊢
  rw [State.completeRunning_eq, edge, State.counterEnd_idle ended]

/-! ### The flag after a completion -/

theorem State.completeRunning_epoch (s : State) (l : LaneId) : (s.completeRunning l).epoch = s.tbu.epoch :=
  congrArg Timebase.epoch (OnlyLane.of_completeRunning s l).tbu

section After
variable {s : State} {l : LaneId} (ha : (s.lane l).activity.isRunning = true)
include ha

/-- A completion that concludes the plan stands. -/
theorem State.flaggedBoundary_concluded (h : ((s.completeRunning l).lane l).state = .closing) :
    s.flaggedBoundary l = s.completeRunning l := by
  rw [State.flaggedBoundary_running ha, State.chainInstant_closing h, State.chainInstant_closing h,
    State.flagEffect_closing h]

variable {k : Nat} {skip due : Bool} (hw : ((s.completeRunning l).lane l).activity = .wait k skip due)
include hw

/-- No instant step follows: the plan concludes with the step that completed. -/
theorem State.flaggedBoundary_completed (h : skip = true ∨ due = false ∨
      2 ≤ ((s.completeRunning l).lane l).list.length ∨ ((s.completeRunning l).lane l).tear = true ∨
      (((s.completeRunning l).lane l).steps.getD k StepReq.zero).instantAt s.tbu.epoch = false) :
    s.flaggedBoundary l = (s.completeRunning l).flagEffect l := by
  have stays : (s.completeRunning l).chainInstant l = s.completeRunning l :=
    State.chainInstant_ends fun j hj => by
      rw [hw] at hj
      obtain ⟨rfl, rfl, rfl⟩ := Activity.wait.inj hj
      rcases h with h | h | h | h | h
      · exact nomatch h
      · exact nomatch h
      · exact .inl (Lane.beginDue_eq_false (.inr (.inr h)))
      · exact .inl (Lane.beginDue_eq_false (.inr (.inl h)))
      · exact .inr (by rw [s.completeRunning_epoch]; exact h)
  rw [State.flaggedBoundary_running ha, stays, stays]

/-- An instant step follows, and with the list full no other does. -/
theorem State.flaggedBoundary_instant (hs : ((s.completeRunning l).lane l).state = .stepping) (hskip : skip = false)
    (hdue : due = true)
    (room : ((s.completeRunning l).lane l).list.length < 2) (ht : ((s.completeRunning l).lane l).tear = false)
    (hi : (((s.completeRunning l).lane l).steps.getD k StepReq.zero).instantAt s.tbu.epoch = true) :
    let t := (s.completeRunning l).beginStep l k
    exec (.stepBegin l) (s.completeRunning l) = .next t ∧ s.flaggedBoundary l = t.flagEffect l ∧
      (t.lane l).halt = (s.lane l).halt ∧ (t.lane l).lastDone = k ∧
      ((t.lane l).state = .closing ∨ ∃ j skip' due', (t.lane l).activity = .wait j skip' due') := by
  subst hskip hdue
  have begin_ : ((s.completeRunning l).lane l).beginDue = true := Lane.beginDue_of hs ht room hw
  rw [← s.completeRunning_epoch l] at hi
  obtain ⟨v, c, value, stamp, aux, lane, e⟩ := State.beginStep_instant hi
  obtain ⟨list, halt, last, stands⟩ := State.finishStep_waits (s := v) (l := l) (c := c) (v := value) (w := stamp)
    (a := aux) (verdict := none) (skip := false) (same := true)
  rw [← e] at list halt last stands
  rw [lane] at list halt last
  obtain ⟨halted, one⟩ := State.completeRunning_waits ha
  have full : 2 ≤ (((s.completeRunning l).beginStep l k).lane l).list.length := by
    rw [list]
    exact Nat.succ_le_succ (one (by rw [hw]; rfl))
  have stays : ((s.completeRunning l).beginStep l k).chainInstant l = (s.completeRunning l).beginStep l k :=
    State.chainInstant_ends fun _ _ => .inl (Lane.beginDue_eq_false (.inr (.inr full)))
  refine ⟨?_, ?_, halt.trans halted, last, stands⟩
  · rw [exec_stepBegin begin_, State.beginWaiting_step hw]
  · rw [State.flaggedBoundary_running ha, State.chainInstant_goesOn hw begin_ hi, stays]

end After

/-- Settles O55: the cut, the waiting and the loading lane by `State.flagEffect`'s cases; a completion is the event's
own, and the plan concludes with it or with the instant step that follows. -/
theorem recallOrHaltEndsTheRunningStep : Obligations.RecallOrHaltEndsTheRunningStep := by
  refine ⟨?_, ?_, ?_, ?_, fun s t l i due line he ended => State.completeRunning_edge due line he ended, ?_, ?_,
    StepReq.instantAt_iff⟩
  · intro s l hs ha hr
    obtain ⟨state, act, outcome, list, lines, pulse, check⟩ := State.flaggedBoundary_cutFacts hs ha hr
    exact ⟨.of_flaggedBoundary .., state, act, outcome, list, fun np => ⟨Lane.pulsesNow_eq_zero np, lines np⟩, pulse,
      check⟩
  · intro s l k skip due hs hw
    rw [State.flaggedBoundary_idle (by rw [hw]; rfl)]
    obtain ⟨only, lines, state, act, outcome, list, -⟩ := State.flagEffect_waitingFacts hs hw
    exact ⟨only, lines, state, act, outcome, list⟩
  · intro s l hs ha
    rw [State.flaggedBoundary_idle (by rw [ha]; rfl)]
    exact State.flagEffect_loadingFacts hs
  · rintro s t l c x rfl hs none he (⟨rfl, ha, hc⟩ | ⟨rfl, ha, hf, hr⟩ | ⟨rfl, ha, hc⟩ | ⟨rfl, ⟨n, ha⟩, hc⟩ |
      ⟨rfl, hc, ha⟩ | ⟨rfl, hw, hc, ha⟩)
    · exact State.completeRunning_hold none hs he ha hc
    · exact State.completeRunning_until none hs he ha hf hr
    · exact State.completeRunning_pulse none hs he ha hc
    · exact State.completeRunning_tally none hs he ha hc
    · exact State.completeRunning_overrange none hs he hc ha
    · exact State.completeRunning_window none hs he hw hc ha
  · rintro s u l o ha rfl rfl
    refine ⟨State.flaggedBoundary_concluded ha, fun k skip due hw hs => ⟨fun h => ?_, ?_⟩⟩
    · obtain ⟨-, -, state, -, outcome, list, passes⟩ := State.flagEffect_waitingFacts hs hw
      rw [State.flaggedBoundary_completed ha hw h]
      refine ⟨state, outcome.trans ?_, list, passes⟩
      unfold Lane.flagOutcome
      rw [(State.completeRunning_waits ha).1]
    · rintro t hskip hdue room ht hi he
      obtain ⟨begun, flagged, halt, last, stands⟩ :=
        State.flaggedBoundary_instant ha hw hs hskip hdue room ht hi
      obtain rfl := Host.Outcome.next.inj (begun.symm.trans he)
      refine ⟨fun hc => flagged.trans (State.flagEffect_closing hc), fun hst => ?_⟩
      rcases stands with hc | ⟨j, skip', due', hj⟩
      · exact nomatch hst.symm.trans hc
      · obtain ⟨-, -, state, -, outcome, list, -⟩ := State.flagEffect_waitingFacts hst hj
        rw [flagged]
        refine ⟨state, outcome.trans ?_, list⟩
        unfold Lane.flagOutcome
        rw [halt, last]
  · intro x
    refine ⟨fun n active ha => ?_, ?_⟩
    · unfold Lane.pulsesNow
      rw [ha]
      simp
    · unfold Lane.passNumber byte0
      simp

end Sys2Proof.Machine
end

section
/-! PROOF. A settle of SMON's begins, and the writes of every settle follow in order (02, R23, R24, R26, R36; 04, R58;
06, R98, R100): O41 and O42. -/

namespace Sys2Proof.Machine

/-! ### SMON begins a settle (04, R58) -/

theorem exec_removalSettle {s : State} (h : Due.removalSettle.holds s = true) :
    exec .removalSettle s = .next s.beginDueSettle :=
  congrArg Host.Outcome.next (State.runDue_due h)

/-- Where SMON has a piece under way, none is next. -/
theorem State.nextPiece_idle {s : State} (h : s.smon.piece = none) : s.nextPiece = s.smon.waiting.head? := by
  unfold State.nextPiece
  rw [h]

theorem State.nextPiece_busy {s : State} (h : s.smon.piece ≠ none) : s.nextPiece = none := by
  obtain ⟨p, h⟩ := Option.ne_none_iff_exists'.1 h
  unfold State.nextPiece
  rw [h]

theorem State.piece_of_nextPiece {s : State} {p : Piece} (h : s.nextPiece = some p) : s.smon.piece = none := by
  cases hp : s.smon.piece with
  | none => rfl
  | some x => exact nomatch (State.nextPiece_busy (by rw [hp]; exact nofun)).symm.trans h

/-- A settle's write i, when SMON has piece p under way. -/
theorem State.smonSettleWrite_facts {s : State} {p : Piece} {w : Work} (h : s.smon.piece = some (p, w))
    (j : SettleJob) (i : Nat) :
    OnlyWork s (s.smonSettleWrite j i) ∧ (s.smonSettleWrite j i).smon.piece = some (p, .settle j i) ∧
      (s.smonSettleWrite j i).smon.waiting = s.smon.waiting ∧
      (s.smonSettleWrite j i).mport = s.mport ++ [s.requestOf .smonSettle
        (s.slotWord j.slot (settleWordOffset i))
        (some (settleWord i (unlanedOutcome j.outcome) 0 j.settledEpoch j.seq))] := by
  unfold State.smonSettleWrite
  rw [State.setWork_of_piece h]
  exact ⟨(OnlyWork.of_setPiece ..).trans (.of_raise ..), rfl, rfl, rfl⟩

theorem State.beginDueSettle_due {s : State} {p : Piece} {j : SettleJob} (h : s.smon.piece = some (p, .settleDue j)) :
    Due.removalSettle.holds s = true ∧ s.beginDueSettle = s.beginSettle j := by
  have job : s.settleToBegin = some j := by
    unfold State.settleToBegin
    rw [h]
  unfold State.beginDueSettle Due.holds
  rw [job]
  exact ⟨rfl, rfl⟩

theorem State.beginDueSettle_removal {s : State} {k : SlotId} {why : Removal} {notify : Bool}
    (h : s.nextPiece = some (.removal k why notify)) : Due.removalSettle.holds s = true ∧
      s.beginDueSettle = (s.beginPiece (.removal k why notify) (.counting .endPiece)).beginSettle
        { slot := k, seq := (s.mirror k).knownSeq, outcome := why.outcome, notify := notify,
          settledEpoch := 0, discover := none } := by
  have job : s.settleToBegin = none := by
    unfold State.settleToBegin
    rw [State.piece_of_nextPiece h]
  unfold State.beginDueSettle Due.holds
  rw [job, h]
  exact ⟨rfl, rfl⟩

/-- Settles O41: the settle due begins with its first write, at the epoch of the instant. -/
theorem removalSettleBegins : Obligations.RemovalSettleBegins := by
  refine ⟨fun s k why notify h => ?_, fun s p j h => ?_, ⟨rfl, rfl⟩,
    fun s => ⟨State.nextPiece_idle, State.nextPiece_busy⟩⟩
  · obtain ⟨due, act⟩ := State.beginDueSettle_removal h
    refine ⟨_, exec_removalSettle due, ?_⟩
    rw [act]
    obtain ⟨⟨only, mirror⟩, piece, -, orders⟩ := State.smonSettleWrite_facts
      (s := s.beginPiece (.removal k why notify) (.counting .endPiece)) rfl
      { slot := k, seq := (s.mirror k).knownSeq, outcome := why.outcome, notify := notify,
        settledEpoch := s.tbu.epoch, discover := none } 0
    exact ⟨OnlyMonitor.trans (by constructor <;> rfl) only, piece, orders, mirror⟩
  · obtain ⟨due, act⟩ := State.beginDueSettle_due h
    refine ⟨_, exec_removalSettle due, ?_⟩
    rw [act]
    obtain ⟨⟨only, mirror⟩, piece, waiting, orders⟩ :=
      State.smonSettleWrite_facts h { j with settledEpoch := s.tbu.epoch } 0
    exact ⟨only, piece, orders, mirror, waiting⟩

/-! ### The writes that follow (02, R23, R24, R26; 06, R98, R100) -/

section Smon
variable {s : State} {p : Piece} {j : SettleJob} {i : Nat} (h : s.smon.piece = some (p, .settle j i)) (b : Option OnBus)
include h

theorem State.smonSettleReturned_next (hi : i < 3) :
    s.smonSettleReturned false b = s.smonSettleWrite j (i + 1) := by
  unfold State.smonSettleReturned
  rw [h]
  exact (if_neg Bool.false_ne_true).trans (if_pos hi)

theorem State.smonSettleReturned_last (hi : 3 ≤ i) :
    s.smonSettleReturned false b = s.smonCount (.settlement j.slot j.seq) (.settled j) := by
  unfold State.smonSettleReturned
  rw [h]
  exact (if_neg Bool.false_ne_true).trans (if_neg (Nat.not_lt.2 hi))

end Smon

section Lanes
variable {s : State} {l : LaneId} {i : Nat} (h : (s.lane l).access = .settleWrite i) (b : Option OnBus)
include h

/-- A write that lands for a torn plan is the last of its settle. -/
theorem State.laneSettleReturned_torn (ht : (s.lane l).tear = true) :
    s.laneSettleReturned l false b = (s.setLane l { s.lane l with access := .idle }).tearFinish l := by
  unfold State.laneSettleReturned
  dsimp only
  rw [h]
  exact (if_neg Bool.false_ne_true).trans (if_pos ht)

variable (ht : (s.lane l).tear = false)
include ht

theorem State.laneSettleReturned_next (hi : i < 3) : s.laneSettleReturned l false b =
    (s.setLane l { s.lane l with access := .settleCheck (i + 1) }).raise (.settleCheck l)
      (s.hostWordAddr (s.lane l).slot) none := by
  unfold State.laneSettleReturned
  dsimp only
  rw [h, ht]
  exact if_pos hi

theorem State.laneSettleReturned_last (hi : 3 ≤ i) : s.laneSettleReturned l false b =
    (s.setLane l { s.lane l with access := .settleCount }).count
      (.settlement (s.lane l).slot (s.lane l).seq) (.lane l) := by
  unfold State.laneSettleReturned
  dsimp only
  rw [h, ht]
  exact if_neg (Nat.not_lt.2 hi)

end Lanes

/-- Settles O42: SMON's write, a lane's, and a torn lane's last. -/
theorem settleWritesFollowInOrder : Obligations.SettleWritesFollowInOrder := by
  refine ⟨fun s r req rest p j i hr ha hf h => ?_, fun s r req rest l i hr ha hf h ht => ?_, ?_⟩
  · refine ⟨_, exec_smonSettle hr ha, ?_⟩
    rw [hf]
    by_cases hi : i < 3
    · obtain ⟨⟨only, mirror⟩, piece, -, orders⟩ := State.smonSettleWrite_facts h j (i + 1)
      rw [State.smonSettleReturned_next h _ hi]
      exact ⟨only, mirror, fun _ => ⟨piece, orders⟩, fun late => absurd hi (Nat.not_lt.2 late)⟩
    · obtain ⟨only, mirror⟩ := OnlyWork.of_smonCount (s.afterReturn r req rest) (.settlement j.slot j.seq) (.settled j)
      obtain ⟨piece, counts, -⟩ := (s.afterReturn r req rest).smonCount_work (.settlement j.slot j.seq) (.settled j)
        p _ h
      rw [State.smonSettleReturned_last h _ (Nat.not_lt.1 hi)]
      exact ⟨only, mirror, fun early => absurd early hi, fun _ => ⟨piece, counts⟩⟩
  · refine ⟨_, exec_laneSettle hr ha, ?_⟩
    rw [hf]
    by_cases hi : i < 3
    · rw [State.laneSettleReturned_next h _ ht hi]
      refine ⟨(OnlyLaneAndCounts.of_setLane ..).trans (.of_raise ..), fun _ => ⟨?_, rfl⟩,
        fun late => absurd hi (Nat.not_lt.2 late)⟩
      rw [State.raise_lane, State.setLane_lane]
    · rw [State.laneSettleReturned_last h _ ht (Nat.not_lt.1 hi)]
      refine ⟨(OnlyLaneAndCounts.of_setLane ..).trans (.of_count ..), fun early => absurd early hi,
        fun _ => ⟨?_, State.count_counts ..⟩⟩
      rw [State.count_lane, State.setLane_lane]
  · rintro s u r req rest l i hr ha hf rfl h hi ht
    refine ⟨_, exec_laneSettle hr ha, ?_⟩
    rw [hf, State.laneSettleReturned_torn h _ ht]
    obtain ⟨counts, freed, stays⟩ := (s.afterReturn r req rest).tearFinish_rewritten l
      (y := { (s.afterReturn r req rest).lane l with access := .idle }) rfl rfl rfl
    refine ⟨counts, freed, fun waits => ?_⟩
    rw [stays waits]
    exact ⟨.of_setLane .., rfl, State.setLane_lane ..⟩

end Sys2Proof.Machine
end

section
/-! PROOF. A visit's read and the decision that it brings, from the slot's mirror entry (04, R53 to R55; 02, R20, R28,
R31 to R33; 06, R84, R95, R98): O38. -/

namespace Sys2Proof.Machine

/-! ### The order list grows at its end -/

/-- Requests have joined the order list, and nothing else has happened to it. -/
def OrdersGrow (s t : State) : Prop := ∃ q : List Request, t.mport = s.mport ++ q

theorem OrdersGrow.of_eq {s t : State} (h : t.mport = s.mport) : OrdersGrow s t := ⟨[], by rw [h, List.append_nil]⟩

theorem OrdersGrow.refl (s : State) : OrdersGrow s s := .of_eq rfl

theorem OrdersGrow.trans {s t u : State} (h : OrdersGrow s t) (g : OrdersGrow t u) : OrdersGrow s u := by
  obtain ⟨p, hp⟩ := h
  obtain ⟨q, hq⟩ := g
  exact ⟨p ++ q, by rw [hq, hp, List.append_assoc]⟩

theorem OrdersGrow.of_count (s : State) (k : CountKind) (q : Requester) : OrdersGrow s (s.count k q) := by
  unfold State.count
  dsimp only
  split
  · obtain ⟨orders, h, -⟩ := (CountTaken.of_serve { s with smon := { s.smon with
      counts := s.smon.counts ++ [{ kind := k, requester := q }] } }).orders
    exact ⟨orders, h⟩
  · exact .refl s

theorem OrdersGrow.of_takeNext (s : State) : OrdersGrow s s.takeNext := by
  unfold State.takeNext
  dsimp only
  split
  · next p rest _ _ =>
    cases p with
    | config => exact ⟨_, rfl⟩
    | visit k => exact ⟨_, rfl⟩
    | closing => exact .of_count (State.setPiece { s with smon := { s.smon with waiting := rest } } _ _) ..
    | _ => exact .refl s
  · exact .refl s

theorem OrdersGrow.of_endPiece (s : State) : OrdersGrow s s.endPiece := by
  unfold State.endPiece
  split
  · exact .refl s
  · refine OrdersGrow.trans (.of_eq ?_) (.of_takeNext _)
    rw [State.readyAfter_eq]
    rfl

/-! ### What a visit's note leaves alone -/

/-- The end of a piece is the same before and after a visit's note. -/
theorem PieceEnded.of_noteVisit {s t : State} {k : SlotId} {p r : Half} {q : Piece}
    (h : PieceEnded (s.noteVisit k p r) t q) : PieceEnded s t q := h.congr rfl rfl rfl rfl rfl rfl rfl rfl rfl

/-- A piece that has ended has left the mirror, ADMU and the lanes alone. -/
theorem State.endPiece_work {s : State} {p : Piece} {w : Work} (h : s.smon.piece = some (p, w)) :
    PieceEnded s s.endPiece p ∧ OnlyWork s s.endPiece ∧ OrdersGrow s s.endPiece ∧
      ∀ l : LaneId, s.endPiece.lane l = s.lane l :=
  ⟨State.endPiece_ended h, .of_endPiece s, .of_endPiece s, State.lane_of_lanes (OnlyWork.of_endPiece s).1.lanes⟩

/-- A post waits in memory if DRAINING's host word was another. -/
theorem State.postWaits_iff (s : State) (post : Half) : s.postWaits post = true ↔
    s.engc.engine = .draining ∧ s.smon.hostWordAtDrain.map (fun w => w.extractLsb' 0 16) ≠ some post := by
  unfold State.postWaits
  rw [Bool.and_eq_true, beq_iff_eq, bne_iff_ne]
  rfl

/-- A visit leaves a post that is the one taken, or that waits. -/
theorem State.leaves_iff (s : State) (k : SlotId) (post : Half) :
    (post == (s.mirror k).knownSeq || s.postWaits post) = true ↔ post = (s.mirror k).knownSeq ∨
      (s.engc.engine = .draining ∧
        s.smon.hostWordAtDrain.map (fun w => w.extractLsb' 0 16) ≠ some post) := by
  rw [Bool.or_eq_true, beq_iff_eq, State.postWaits_iff]

/-! ### The decision, by the mirror entry (04, R53, R54, R55) -/

section Decision
variable {s : State} {k : SlotId} (post recallNo : Half)

theorem State.visitDecision_leaves (hm : (s.mirror k).state = .idle)
    (h : (post == (s.mirror k).knownSeq || s.postWaits post) = true) :
    s.visitDecision k post recallNo = s.endPiece := by
  unfold State.visitDecision
  dsimp only
  rw [hm, h]
  rfl

theorem State.visitDecision_discovers (hm : (s.mirror k).state = .idle)
    (h : ¬ (post == (s.mirror k).knownSeq || s.postWaits post) = true) :
    s.visitDecision k post recallNo = s.startDiscovery k post := by
  unfold State.visitDecision
  dsimp only
  rw [hm]
  exact if_neg h

theorem State.visitDecision_tearing (hm : (s.mirror k).state = .tearing) :
    s.visitDecision k post recallNo = s.endPiece := by
  unfold State.visitDecision
  dsimp only
  rw [hm]

theorem State.visitDecision_running (hm : (s.mirror k).state = .running) :
    s.visitDecision k post recallNo = s.visitRunning k post (s.recallSeen recallNo) := by
  unfold State.visitDecision
  dsimp only
  rw [hm]

theorem State.visitDecision_pending (hm : (s.mirror k).state = .queued) {why : Removal}
    (hw : (s.mirror k).pendingOutcome = some why) :
    s.visitDecision k post recallNo = s.visitPending k why
      (if post == (s.mirror k).knownSeq || s.postWaits post then none else some post) := by
  unfold State.visitDecision
  dsimp only
  rw [hm, hw]

variable (hm : (s.mirror k).state = .queued) (hw : (s.mirror k).pendingOutcome = none)
include hm hw

theorem State.visitDecision_torn (h : post ≠ (s.mirror k).knownSeq) : s.visitDecision k post recallNo =
    ((((s.removeEntry k).walk).setMirror k { s.mirror k with state := .idle, lane := none })).smonCount .tear
      (.tornVisit k post) := by
  unfold State.visitDecision
  dsimp only
  rw [hm, hw]
  exact if_neg h

theorem State.visitDecision_recalled (h : post = (s.mirror k).knownSeq)
    (hr : s.recallSeen recallNo = some (s.mirror k).knownSeq) : s.visitDecision k post recallNo =
    ((s.removeEntry k).walk).settleDue k (s.mirror k).knownSeq .recalled (s.entryNotify k) none := by
  unfold State.visitDecision
  dsimp only
  rw [hm, hw]
  exact (if_pos h).trans (if_pos hr)

theorem State.visitDecision_stands (h : post = (s.mirror k).knownSeq)
    (hr : s.recallSeen recallNo ≠ some (s.mirror k).knownSeq) : s.visitDecision k post recallNo = s.endPiece := by
  unfold State.visitDecision
  dsimp only
  rw [hm, hw]
  exact (if_pos h).trans (if_neg hr)

end Decision

/-! ### A slot that a lane runs (04, R54) -/

section Running
variable {s : State} {k : SlotId} (post : Half) (seen : Option Half)

theorem State.visitRunning_none (h : (s.mirror k).lane = none) : s.visitRunning k post seen = s.endPiece := by
  unfold State.visitRunning
  dsimp only
  rw [h]

variable {l : LaneId} (h : (s.mirror k).lane = some l)
include h

/-- The plan's own post: at most the recall flag is set. -/
theorem State.visitRunning_own (hp : post = (s.mirror k).knownSeq) : s.visitRunning k post seen =
    if seen = some (s.mirror k).knownSeq ∧ s.laneHolds l k = true then
      (s.setLane l { s.lane l with recallFlag := true }).endPiece
    else s.endPiece := by
  unfold State.visitRunning
  dsimp only
  rw [h]
  exact if_pos hp

/-- Another post is a tear. -/
theorem State.visitRunning_torn (hp : post ≠ (s.mirror k).knownSeq) : s.visitRunning k post seen =
    (if s.laneHolds l k then (s.setMirror k { s.mirror k with state := .tearing }).learnTear l
      else s.setMirror k { s.mirror k with state := .tearing }).endPiece := by
  unfold State.visitRunning
  dsimp only
  rw [h]
  exact if_neg hp

end Running

theorem State.laneHolds_iff (s : State) (l : LaneId) (k : SlotId) :
    s.laneHolds l k = true ↔ (s.lane l).state ≠ .free ∧ (s.lane l).slot = k := by
  unfold State.laneHolds
  rw [Bool.and_eq_true, bne_iff_ne, beq_iff_eq]

/-- What telling a lane of a tear can do. -/
theorem State.learnTear_told (s : State) (l : LaneId) (hs : (s.lane l).state ≠ .free) :
    OnlyLane s (s.learnTear l) l ∧
      ((s.lane l).pastSettleCheck = false → ((s.learnTear l).lane l).tear = true) ∧
      ((s.lane l).pastSettleCheck = false → (s.lane l).tear = false →
        (s.learnTear l).mport = givenUpBy l s.mport) ∧
      ((s.lane l).pastSettleCheck = true → (s.learnTear l).lane l = s.lane l) := by
  by_cases h : (s.lane l).tear = true ∨ (s.lane l).pastSettleCheck = true
  · have unchanged : s.learnTear l = s := if_pos (.inr h)
    rw [unchanged]
    refine ⟨.refl s l, fun hp => ?_, fun hp ht => ?_, fun _ => rfl⟩
    · exact h.elim id fun g => nomatch g.symm.trans hp
    · exact h.elim (fun g => nomatch g.symm.trans ht) fun g => nomatch g.symm.trans hp
  · obtain ⟨ht, hp⟩ := not_or.1 h
    obtain ⟨only, -, orders, learned⟩ := State.learnTear_learns hs (Bool.eq_false_iff.2 ht) (Bool.eq_false_iff.2 hp)
    exact ⟨only, fun _ => by rw [learned], fun _ _ => orders, fun past => absurd past hp⟩

theorem Lane.pastSettleCheck_iff (x : Lane) :
    x.pastSettleCheck = true ↔ x.access = .settleWrite 3 ∨ x.access = .settleCount := by
  unfold Lane.pastSettleCheck
  cases x.access <;> simp

/-! ### A queued slot (04, R53, R58) -/

/-- The removal's walk starts nothing for the slot, and asks nothing of SMON. -/
theorem State.removeEntry_walked (s : State) (k : SlotId) :
    (s.removeEntry k).walk.Unreserved k ∧ (s.removeEntry k).walk.mirror k = s.mirror k ∧
      (s.removeEntry k).walk.smon.piece = s.smon.piece ∧ (s.removeEntry k).walk.smon.counts = s.smon.counts := by
  obtain ⟨frame, -⟩ := (s.removeEntry k).walk_frame
  have absent := (State.inQueue_false_iff _ _).1 (s.removeEntry_absent k)
  exact ⟨State.walk_unreserved (s.removeEntry_unreserved k), frame.others k absent,
    by rw [frame.smon]; rfl, by rw [frame.smon]; rfl⟩

/-- The flag of the first removal settle of the slot that waits. -/
theorem waitingNotify_first {k : SlotId} {before after : List Piece} {w : Removal} {n : Bool}
    (h : ∀ q ∈ before, ∀ w n, q ≠ .removal k w n) : waitingNotify k (before ++ .removal k w n :: after) = n := by
  induction before with
  | nil => exact if_pos rfl
  | cons p ps ih =>
    have rest := ih fun q hq => h q (List.mem_cons_of_mem p hq)
    cases p with
    | removal j w' n' =>
      have other : j ≠ k := fun e => h (.removal j w' n') List.mem_cons_self w' n' (by rw [e])
      exact (if_neg other).trans rest
    | _ => exact rest

theorem Piece.isRemovalOf_eq_false_iff (k : SlotId) (q : Piece) :
    (!q.isRemovalOf k) = true ↔ ∀ w n, q ≠ .removal k w n := by
  cases q <;> simp [Piece.isRemovalOf]

theorem State.settleDue_piece {s : State} {p : Piece} {w : Work} (h : s.smon.piece = some (p, w)) (k : SlotId)
    (seq : Half) (o : PlanOutcome) (notify : Bool) (discover : Option Half) :
    s.settleDue k seq o notify discover = s.setPiece p (.settleDue
      { slot := k, seq := seq, outcome := o, notify := notify, settledEpoch := 0, discover := discover }) :=
  State.setWork_of_piece h _

/-- The visit takes the settle of a removed plan over from those that wait. -/
theorem State.visitPending_piece {s : State} {p : Piece} {w : Work} (h : s.smon.piece = some (p, w)) (k : SlotId)
    (why : Removal) (discover : Option Half) : s.visitPending k why discover =
      ({ s with smon := { s.smon with waiting := s.smon.waiting.filter (fun p => !p.isRemovalOf k) } } :
        State).setPiece p (.settleDue
          { slot := k, seq := (s.mirror k).knownSeq, outcome := why.outcome,
            notify := waitingNotify k s.smon.waiting, settledEpoch := 0, discover := discover }) :=
  State.settleDue_piece (s := { s with smon := { s.smon with
    waiting := s.smon.waiting.filter (fun p => !p.isRemovalOf k) } }) h ..

/-! ### What each decision leaves -/

section Facts
variable {s : State} {k : SlotId} {p : Piece} {w : Work} (hp : s.smon.piece = some (p, w)) (post recallNo : Half)
include hp

theorem State.visitDecision_idleFacts (hm : (s.mirror k).state = .idle) :
    let t := s.visitDecision k post recallNo
    t.smon.mirror = s.smon.mirror ∧ t.lanes = s.lanes ∧ t.admu = s.admu ∧
      (post ≠ (s.mirror k).knownSeq → s.engc.engine ≠ .draining ∨
          s.smon.hostWordAtDrain.map (fun w => w.extractLsb' 0 16) = some post →
        t.smon.piece = some (p, .record k post []) ∧
        t.mport = s.mport ++ [s.requestOf .record (s.recordAddr k 0) none]) ∧
      (post = (s.mirror k).knownSeq ∨ (s.engc.engine = .draining ∧
          s.smon.hostWordAtDrain.map (fun w => w.extractLsb' 0 16) ≠ some post) → PieceEnded s t p) := by
  dsimp only
  by_cases leaves : (post == (s.mirror k).knownSeq || s.postWaits post) = true
  · obtain ⟨ended, ⟨only, mirror⟩, -⟩ := State.endPiece_work hp
    rw [State.visitDecision_leaves post recallNo hm leaves]
    refine ⟨mirror, only.lanes, only.admu, fun other before => ?_, fun _ => ended⟩
    rcases (s.leaves_iff k post).1 leaves with own | ⟨draining, waits⟩
    · exact absurd own other
    · exact absurd before (not_or.2 ⟨not_not_intro draining, waits⟩)
  · have discovers : s.startDiscovery k post = s.goOn p (.record k post []) .record (s.recordAddr k 0) none := by
      unfold State.startDiscovery
      rw [State.setWork_of_piece hp]
      rfl
    rw [State.visitDecision_discovers post recallNo hm leaves, discovers]
    exact ⟨rfl, rfl, rfl, fun _ _ => ⟨rfl, rfl⟩, fun h => absurd ((s.leaves_iff k post).2 h) leaves⟩

/-- A lane that holds the slot's plan is told of its recall, or of the tear. -/
theorem State.visitDecision_heldFacts {l : LaneId} (hm : (s.mirror k).state = .running)
    (hl : (s.mirror k).lane = some l) (free : (s.lane l).state ≠ .free) (slot : (s.lane l).slot = k) :
    let t := s.visitDecision k post recallNo
    PieceEnded s t p ∧
      (post = (s.mirror k).knownSeq → t.smon.mirror = s.smon.mirror ∧
        (s.recallSeen recallNo = some (s.mirror k).knownSeq → (t.lane l).recallFlag = true) ∧
        (s.recallSeen recallNo ≠ some (s.mirror k).knownSeq → t.lane l = s.lane l)) ∧
      (post ≠ (s.mirror k).knownSeq → (t.mirror k).state = .tearing ∧
        ((s.lane l).pastSettleCheck = false → (t.lane l).tear = true) ∧
        ((s.lane l).pastSettleCheck = false → (s.lane l).tear = false →
          ∃ raised : List Request, t.mport = givenUpBy l s.mport ++ raised) ∧
        ((s.lane l).pastSettleCheck = true → t.lane l = s.lane l)) := by
  have holds : s.laneHolds l k = true := (s.laneHolds_iff l k).2 ⟨free, slot⟩
  dsimp only
  rw [State.visitDecision_running post recallNo hm]
  by_cases own : post = (s.mirror k).knownSeq
  · rw [State.visitRunning_own post _ hl own]
    by_cases seen : s.recallSeen recallNo = some (s.mirror k).knownSeq
    · rw [if_pos ⟨seen, holds⟩]
      obtain ⟨ended, ⟨-, mirror⟩, -, lanes⟩ :=
        State.endPiece_work (s := s.setLane l { s.lane l with recallFlag := true }) hp
      refine ⟨ended.congr rfl rfl rfl rfl rfl rfl rfl rfl rfl, fun _ => ⟨mirror, fun _ => ?_,
        fun unseen => absurd seen unseen⟩, fun other => absurd own other⟩
      rw [lanes, State.setLane_lane]
    · rw [if_neg fun h => seen h.1]
      obtain ⟨ended, ⟨-, mirror⟩, -, lanes⟩ := State.endPiece_work hp
      exact ⟨ended, fun _ => ⟨mirror, fun h => absurd h seen, fun _ => lanes l⟩, fun other => absurd own other⟩
  · rw [State.visitRunning_torn post _ hl own, if_pos holds]
    let v := s.setMirror k { s.mirror k with state := .tearing }
    obtain ⟨only, told, orders, past⟩ := v.learnTear_told l free
    obtain ⟨ended, ⟨-, mirror⟩, ⟨raised, grown⟩, lanes⟩ := State.endPiece_work (s := v.learnTear l) (p := p) (w := w)
      (by rw [only.smon]; exact hp)
    have agree : (v.learnTear l).smon.waiting = s.smon.waiting ∧ (v.learnTear l).smon.pendingSweep =
        s.smon.pendingSweep ∧ (v.learnTear l).smon.inProgress = s.smon.inProgress ∧
        (v.learnTear l).smon.noted = s.smon.noted := by
      rw [only.smon]
      exact ⟨rfl, rfl, rfl, rfl⟩
    have torn : (v.learnTear l).endPiece.mirror k = { s.mirror k with state := .tearing } := by
      rw [State.mirror_of_mirror mirror, State.mirror_of_mirror (congrArg Monitor.mirror only.smon)]
      exact State.setMirror_mirror ..
    refine ⟨ended.congr (by rw [only.engc]; rfl) (by rw [only.engc]; rfl) agree.1.symm agree.2.1.symm
      agree.2.2.1.symm agree.2.2.2.symm (by rw [only.tbu]; rfl) (by rw [only.regp]; rfl) only.instant.symm,
      fun eq => absurd eq own, fun _ => ⟨by rw [torn], fun h => ?_, fun h ht => ?_, fun h => ?_⟩⟩
    · rw [lanes]
      exact told h
    · exact ⟨raised, by rw [grown, orders h ht]; rfl⟩
    · rw [lanes]
      exact past h

/-- A lane that no longer holds the plan is told nothing. -/
theorem State.visitDecision_leftFacts {l : LaneId} (hm : (s.mirror k).state = .running)
    (hl : (s.mirror k).lane = some l) (left : (s.lane l).state = .free ∨ (s.lane l).slot ≠ k) :
    let t := s.visitDecision k post recallNo
    PieceEnded s t p ∧ t.lanes = s.lanes ∧ t.admu = s.admu ∧
      (post = (s.mirror k).knownSeq → t.smon.mirror = s.smon.mirror) ∧
      (post ≠ (s.mirror k).knownSeq → t.mirror k = { s.mirror k with state := .tearing }) := by
  have gone : ¬ s.laneHolds l k = true := fun h => by
    obtain ⟨free, slot⟩ := (s.laneHolds_iff l k).1 h
    exact left.elim free fun g => g slot
  dsimp only
  rw [State.visitDecision_running post recallNo hm]
  by_cases own : post = (s.mirror k).knownSeq
  · rw [State.visitRunning_own post _ hl own, if_neg fun h => gone h.2]
    obtain ⟨ended, ⟨only, mirror⟩, -⟩ := State.endPiece_work hp
    exact ⟨ended, only.lanes, only.admu, fun _ => mirror, fun other => absurd own other⟩
  · rw [State.visitRunning_torn post _ hl own, if_neg gone]
    obtain ⟨ended, ⟨only, mirror⟩, -⟩ :=
      State.endPiece_work (s := s.setMirror k { s.mirror k with state := .tearing }) hp
    refine ⟨ended.congr rfl rfl rfl rfl rfl rfl rfl rfl rfl, only.lanes, only.admu, fun eq => absurd eq own,
      fun _ => ?_⟩
    rw [State.mirror_of_mirror mirror]
    exact State.setMirror_mirror ..

/-- A queued plan with no outcome pending: a tear and a recall remove it. -/
theorem State.visitDecision_queuedFacts (hm : (s.mirror k).state = .queued)
    (hw : (s.mirror k).pendingOutcome = none) :
    let t := s.visitDecision k post recallNo
    (post ≠ (s.mirror k).knownSeq → t.inQueue k = false ∧ (t.mirror k).state = .idle ∧
        (t.mirror k).knownSeq = (s.mirror k).knownSeq ∧ (∀ o : OutLine, (t.admu.claims[o]).reservation ≠ some k) ∧
        t.smon.counts = s.smon.counts ++ [{ kind := .tear, requester := .smon }] ∧
        t.smon.piece = some (p, .counting (.tornVisit k post))) ∧
      (post = (s.mirror k).knownSeq → s.recallSeen recallNo = some (s.mirror k).knownSeq → t.inQueue k = false ∧
        (∀ o : OutLine, (t.admu.claims[o]).reservation ≠ some k) ∧
        t.smon.piece = some (p, .settleDue
          { slot := k, seq := (s.mirror k).knownSeq, outcome := .recalled, notify := s.entryNotify k,
            settledEpoch := 0, discover := none })) ∧
      (post = (s.mirror k).knownSeq → s.recallSeen recallNo ≠ some (s.mirror k).knownSeq → t.admu = s.admu ∧
        t.smon.mirror = s.smon.mirror ∧ PieceEnded s t p) := by
  obtain ⟨⟨absent, unreserved⟩, -, piece, counts⟩ := s.removeEntry_walked k
  refine ⟨fun other => ?_, fun own seen => ?_, fun own unseen => ?_⟩
  · rw [State.visitDecision_torn post recallNo hm hw other]
    let v := (s.removeEntry k).walk.setMirror k { s.mirror k with state := .idle, lane := none }
    obtain ⟨only, mirror⟩ := OnlyWork.of_smonCount v .tear (.tornVisit k post)
    obtain ⟨piece', counts', -⟩ := v.smonCount_work .tear (.tornVisit k post) p w (piece.trans hp)
    have entry : (v.smonCount .tear (.tornVisit k post)).mirror k =
        { s.mirror k with state := .idle, lane := none } :=
      (State.mirror_of_mirror mirror k).trans (State.setMirror_mirror ..)
    have queue : (v.smonCount .tear (.tornVisit k post)).inQueue k = (s.removeEntry k).walk.inQueue k := by
      unfold State.inQueue
      rw [only.admu]
      rfl
    refine ⟨queue.trans absent, by rw [entry], by rw [entry], fun o => ?_, counts'.trans ?_, piece'⟩
    · rw [only.admu]
      exact unreserved o
    · exact congrArg (· ++ _) counts
  · rw [State.visitDecision_recalled post recallNo hm hw own seen, State.settleDue_piece (piece.trans hp)]
    exact ⟨absent, unreserved, rfl⟩
  · rw [State.visitDecision_stands post recallNo hm hw own unseen]
    obtain ⟨ended, ⟨only, mirror⟩, -⟩ := State.endPiece_work hp
    exact ⟨only.admu, mirror, ended⟩

/-- A pending outcome: the visit takes over the settle. -/
theorem State.visitDecision_pendingFacts (hm : (s.mirror k).state = .queued) {why : Removal}
    (hw : (s.mirror k).pendingOutcome = some why) :
    let t := s.visitDecision k post recallNo
    t.smon.mirror = s.smon.mirror ∧
      (∀ q : Piece, q ∈ t.smon.waiting ↔ q ∈ s.smon.waiting ∧ ∀ w n, q ≠ .removal k w n) ∧
      t.smon.piece = some (p, .settleDue
        { slot := k, seq := (s.mirror k).knownSeq, outcome := why.outcome,
          notify := waitingNotify k s.smon.waiting, settledEpoch := 0,
          discover := if post = (s.mirror k).knownSeq ∨ (s.engc.engine = .draining ∧
              s.smon.hostWordAtDrain.map (fun w => w.extractLsb' 0 16) ≠ some post) then none
            else some post }) := by
  dsimp only
  rw [State.visitDecision_pending post recallNo hm hw]
  rw [State.visitPending_piece hp]
  simp only [s.leaves_iff k post]
  refine ⟨rfl, fun q => ?_, rfl⟩
  show q ∈ s.smon.waiting.filter (fun p => !p.isRemovalOf k) ↔ _
  rw [List.mem_filter, Piece.isRemovalOf_eq_false_iff]

end Facts

/-! ### The visit -/

theorem exec_slotVisit {s : State} {r : BusReturn} {req : Request} {rest : List Request} (hr : Returns s r req rest)
    (ha : req.access = .hostWord) :
    exec (.slotVisit r) s =
      .next ((s.afterReturn r req rest).visitReturned (replyFailed r.reply) (s.wordReturned r req rest)) :=
  congrArg Host.Outcome.next (State.busEvent_of_returns _ hr (by simp [ha]))

section Returned
variable {u : State} {p : Piece} {k : SlotId} (hp : u.smon.piece = some (p, .visit k)) (w : Word)
include hp

theorem State.visitReturned_failed : u.visitReturned true w = u.smonFault .readErr := by
  unfold State.visitReturned
  rw [hp]
  rfl

theorem State.visitReturned_good : u.visitReturned false w =
    (u.noteVisit k (postSeq w) (recallSeq w)).visitDecision k (postSeq w) (recallSeq w) := by
  unfold State.visitReturned
  rw [hp]
  rfl

end Returned

/-- The recall in force for the visited slot's post once the visit has noted what it read. -/
theorem State.visit_recalls (u : State) (k : SlotId) (post recallNo : Half) :
    let t := (u.noteVisit k post recallNo).visitDecision k post recallNo
    t.smon.recalls[k] =
        (if post ≠ (u.mirror k).knownSeq ∧
            (u.smon.recalls[k] = some { area := u.regp.area, post := post } ∨
              (u.recallSeen recallNo = some post ∧ (u.engc.engine = .draining →
                u.smon.hostWordAtDrain.map (fun w => w.extractLsb' 0 16) = some post))) then
          some { area := u.regp.area, post := post }
        else none) ∧
      ∀ j : SlotId, j ≠ k → t.smon.recalls[j] = u.smon.recalls[j] := by
  have kept : ((u.noteVisit k post recallNo).visitDecision k post recallNo).smon.recalls =
      (u.noteVisit k post recallNo).smon.recalls :=
    (congrArg Outside.recalls (State.visitDecision_outside ..) :)
  have before : u.postWaits post = false ↔ (u.engc.engine = .draining →
      u.smon.hostWordAtDrain.map (fun w => w.extractLsb' 0 16) = some post) := by
    rw [← Bool.not_eq_true, u.postWaits_iff, not_and, Decidable.not_not]
  dsimp only
  rw [kept]
  unfold State.noteVisit
  refine ⟨?_, fun j hj => State.setRecall_other _ _ _ _ (fun e => hj e.symm)⟩
  rw [State.setRecall_self]
  exact ite_congr (propext (and_congr_right' ((or_congr (and_congr_right' before) (u.recallStands_iff k post)).trans
    or_comm))) (fun _ => rfl) (fun _ => rfl)

/-- Settles O38: a read error is counted, and a good read is noted and decided on by the mirror entry. -/
theorem slotVisitDecides : Obligations.SlotVisitDecides := by
  refine ⟨?_, Lane.pastSettleCheck_iff, fun s => ⟨fun k => ?_, fun single e he => ?_⟩⟩
  · rintro s u r req rest p k post recallNo known seen hr ha rfl hp rfl rfl rfl rfl
    refine ⟨_, exec_slotVisit hr ha, ?_⟩
    have area : (s.afterReturn r req rest).regp.area = s.regp.area := s.settled_area
    cases hf : replyFailed r.reply with
    | true =>
      rw [State.visitReturned_failed hp]
      obtain ⟨⟨only, mirror⟩, piece, counts⟩ := State.smonFault_counted hp .readErr
      have recalls : ((s.afterReturn r req rest).smonFault .readErr).smon.recalls =
          (s.afterReturn r req rest).smon.recalls := (congrArg Outside.recalls (State.smonFault_outside ..) :)
      exact ⟨nofun, fun _ => ⟨mirror, recalls, counts, piece⟩, nofun, nofun, nofun, nofun, nofun, nofun, nofun⟩
    | false =>
      rw [State.visitReturned_good hp]
      have noted : ((s.afterReturn r req rest).noteVisit k (postSeq (s.wordReturned r req rest))
          (recallSeq (s.wordReturned r req rest))).smon.piece = some (p, .visit k) := hp
      refine ⟨fun _ => ?_, nofun, fun _ hm => ?_, fun _ hm => ?_, fun l _ hm hl free slot => ?_,
        fun l _ hm hl left => ?_, fun _ hm hl => ?_, fun _ hm hw => ?_, fun why _ hm hw => ?_⟩
      · rw [← area]
        exact State.visit_recalls ..
      · obtain ⟨mirror, lanes, admu, discovers, leaves⟩ := State.visitDecision_idleFacts noted _ _ hm
        exact ⟨mirror, lanes, admu, discovers, fun h => (leaves h).of_noteVisit⟩
      · rw [State.visitDecision_tearing (s := (s.afterReturn r req rest).noteVisit k _ _) _ _ hm]
        obtain ⟨ended, ⟨-, mirror⟩, -, lanes⟩ := State.endPiece_work noted
        exact ⟨mirror, lanes, ended.of_noteVisit⟩
      · obtain ⟨ended, own, torn⟩ := State.visitDecision_heldFacts noted _ _ hm hl free slot
        exact ⟨ended.of_noteVisit, own, torn⟩
      · obtain ⟨ended, lanes, admu, own, torn⟩ := State.visitDecision_leftFacts noted _ _ hm hl left
        exact ⟨ended.of_noteVisit, lanes, admu, own, torn⟩
      · rw [State.visitDecision_running (s := (s.afterReturn r req rest).noteVisit k _ _) _ _ hm,
          State.visitRunning_none (s := (s.afterReturn r req rest).noteVisit k _ _) _ _ hl]
        obtain ⟨ended, ⟨only, mirror⟩, -⟩ := State.endPiece_work noted
        exact ⟨ended.of_noteVisit, mirror, only.lanes⟩
      · obtain ⟨torn, recalled, stands⟩ := State.visitDecision_queuedFacts noted _ _ hm hw
        refine ⟨torn, recalled, fun own unseen => ?_⟩
        obtain ⟨admu, mirror, ended⟩ := stands own unseen
        exact ⟨admu, mirror, ended.of_noteVisit⟩
      · obtain ⟨mirror, waiting, piece⟩ := State.visitDecision_pendingFacts noted _ _ hm hw
        refine ⟨mirror, waiting, waitingNotify k (s.afterReturn r req rest).smon.waiting, piece, ?_⟩
        intro before w n after split clear
        rw [split]
        exact waitingNotify_first clear
  · rw [State.inQueue_iff]
    exact List.mem_map
  · exact s.entryNotify_of_mem e he single

end Sys2Proof.Machine
end

section
/-! PROOF. Entry to DRAINING: what it does to the queue, to SMON, to the lanes and to the lines (10, R146; 05, R80; 04,
R58, R63; 06, R95; 08, R123): O21. -/

namespace Sys2Proof.Machine

/-! ### The removals (05, R80; 04, R58) -/

/-- A slot's plan has been removed HALTED: its mirror entry waits for that settle, and no line is reserved for it. -/
def State.Halted (s : State) (k : SlotId) : Prop :=
  (s.mirror k).pendingOutcome = some .halted ∧ s.NoReservation k

theorem State.removeAs_halted_self (s : State) (k : SlotId) : (s.removeAs k .halted).Halted k := by
  refine ⟨?_, (s.removeEntry_unreserved k).2⟩
  show (((s.removeEntry k).setMirror k _).mirror k).pendingOutcome = _
  rw [State.setMirror_mirror]

theorem State.removeAs_halted_keeps {s : State} {k : SlotId} (h : s.Halted k) (j : SlotId) :
    (s.removeAs j .halted).Halted k := by
  refine ⟨?_, fun o => ?_⟩
  · show (((s.removeEntry j).setMirror j _).mirror k).pendingOutcome = _
    by_cases e : j = k
    · rw [e, State.setMirror_mirror]
    · rw [State.setMirror_other _ _ _ _ e]
      exact h.1
  · show ((s.removeEntry j).admu.claims[o]).reservation ≠ some k
    rw [State.removeEntry_claims_get]
    split
    · exact nofun
    · exact h.2 o

theorem haltEntries_keeps {s : State} {k : SlotId} (h : s.Halted k) (q : List Entry) : (haltEntries q s).Halted k := by
  induction q generalizing s with
  | nil => exact h
  | cons e q ih => exact ih (State.removeAs_halted_keeps h e.slot)

theorem haltEntries_halts (s : State) (q : List Entry) : ∀ e ∈ q, (haltEntries q s).Halted e.slot := by
  induction q generalizing s with
  | nil => exact nofun
  | cons a q ih =>
    intro e he
    rcases List.mem_cons.1 he with rfl | he
    · exact haltEntries_keeps (s.removeAs_halted_self e.slot) q
    · exact ih _ e he

/-- The removals clear reservations of the entries removed, and no owner. -/
theorem haltEntries_claims_get (s : State) (q : List Entry) (o : OutLine) :
    ((haltEntries q s).admu.claims[o]).owner = (s.admu.claims[o]).owner ∧
      ((∀ e ∈ q, (s.admu.claims[o]).reservation ≠ some e.slot) →
        (haltEntries q s).admu.claims[o] = s.admu.claims[o]) := by
  induction q generalizing s with
  | nil => exact ⟨rfl, fun _ => rfl⟩
  | cons a q ih =>
    have removed : (s.removeAs a.slot .halted).admu.claims[o] =
        if (s.admu.claims[o]).reservation = some a.slot then { s.admu.claims[o] with reservation := none }
        else s.admu.claims[o] := s.removeEntry_claims_get a.slot o
    obtain ⟨owner, same⟩ := ih (s.removeAs a.slot .halted)
    rw [removed] at owner same
    refine ⟨owner.trans (by split <;> rfl), fun h => ?_⟩
    rw [if_neg (h a List.mem_cons_self)] at same
    exact same fun e he => h e (List.mem_cons_of_mem a he)

/-- The NOTIFY flag found for a slot is not that of an entry that another slot had. -/
theorem State.removeEntry_entryNotify (s : State) {j k : SlotId} (h : k ≠ j) :
    (s.removeEntry j).entryNotify k = s.entryNotify k := by
  have found : (s.removeEntry j).admu.queue.find? (fun e => e.slot == k) =
      s.admu.queue.find? (fun e => e.slot == k) := by
    show (withoutSlot j s.admu.queue).find? _ = _
    unfold withoutSlot
    rw [List.find?_filter]
    congr 1
    funext e
    by_cases own : e.slot = k
    · simp [own, h]
    · simp [own]
  unfold State.entryNotify
  rw [found]

/-- The settles of the removals wait in queue order, with the flags that are found for the entries. -/
theorem haltEntries_settles (s : State) (q : List Entry) (single : (q.map Entry.slot).Nodup) :
    (haltEntries q s).smon.waiting =
      s.smon.waiting ++ q.map (fun e => .removal e.slot .halted (s.entryNotify e.slot)) := by
  induction q generalizing s with
  | nil => exact (List.append_nil _).symm
  | cons a q ih =>
    obtain ⟨alone, rest⟩ := List.nodup_cons.1 single
    have kept : q.map (fun e => Piece.removal e.slot .halted ((s.removeAs a.slot .halted).entryNotify e.slot)) =
        q.map (fun e => .removal e.slot .halted (s.entryNotify e.slot)) :=
      List.map_congr_left fun e he => congrArg (Piece.removal e.slot .halted)
        (s.removeEntry_entryNotify fun eq => alone (eq ▸ List.mem_map_of_mem he))
    have first : (s.removeAs a.slot .halted).smon.waiting =
        s.smon.waiting ++ [.removal a.slot .halted (s.entryNotify a.slot)] := rfl
    rw [haltEntries, ih _ rest, kept, first, List.append_assoc]
    rfl

theorem haltEntries_hostWord (s : State) (q : List Entry) :
    (haltEntries q s).smon.hostWordAtDrain = s.smon.hostWordAtDrain := by
  induction q generalizing s with
  | nil => rfl
  | cons e q ih => exact ih (s.removeAs e.slot .halted)

/-! ### The drain as it begins (10, R146) -/

/-- Entry to DRAINING, over at once or not, leaves these units as the removals do. -/
theorem State.enterDraining_units (s : State) :
    s.enterDraining.smon = (haltEntries s.admu.queue s.beginDrain).smon ∧
      s.enterDraining.admu = (haltEntries s.admu.queue s.beginDrain).admu ∧
      s.enterDraining.lanes = s.beginDrain.lanes ∧ s.enterDraining.outd = outdDrain s.outd := by
  obtain ⟨-, -, -, lanes, -, lines, -⟩ := haltEntries_rest s.admu.queue s.beginDrain
  unfold State.enterDraining
  dsimp only
  split
  · exact ⟨rfl, rfl, lanes, lines⟩
  · exact ⟨rfl, rfl, lanes, lines⟩

/-- The removals leave no entry. -/
theorem haltEntries_empties (s : State) (q : List Entry) (h : ∀ e ∈ s.admu.queue, e ∈ q) :
    (haltEntries q s).admu.queue = [] := by
  refine List.eq_nil_iff_forall_not_mem.mpr fun e he => ?_
  obtain ⟨mem, other⟩ := (mem_haltEntries_queue ..).mp he
  exact other e (h e mem) rfl

theorem State.beginDrain_halt (s : State) {l : LaneId} (h : (s.lane l).state ≠ .free) :
    (s.beginDrain.lane l).halt = true := by
  show ((tabulate4 (fun l =>
    if (s.lanes[l]).state = .free then s.lanes[l] else { s.lanes[l] with halt := true }))[l]).halt = true
  rw [tabulate4_get]
  exact congrArg Lane.halt (if_neg h)

theorem outdDrain_get (v : Vector OutputLine 4) (o : OutLine) :
    (outdDrain v)[o] = if (v[o]).claimer.isNone && (v[o]).keep then (v[o]).toIdle else v[o] := tabulate4_get ..

/-- The host word noted for a visit whose read is outstanding. -/
theorem State.visitedHostWord_visit {s : State} {p : Piece} {k : SlotId} (h : s.smon.piece = some (p, .visit k)) :
    s.visitedHostWord = some (Memory.read s.mem (s.hostWordAddr k)) := by
  unfold State.visitedHostWord
  rw [h]

/-- A drain that begins with no piece under way has no sweep in progress. -/
theorem Monitor.drain_idle {m : Monitor} (h : m.piece = none) : m.drain.inProgress = false := by
  unfold Monitor.drain
  dsimp only
  rw [h]

/-- What entry to DRAINING leaves. -/
theorem State.enterDraining_halts (m : State) : let t := m.enterDraining
    t.admu.queue = [] ∧
      (∀ e ∈ m.admu.queue, (t.mirror e.slot).pendingOutcome = some .halted ∧
        ∀ o : OutLine, (t.admu.claims[o]).reservation ≠ some e.slot) ∧
      (∀ o : OutLine, (t.admu.claims[o]).owner = (m.admu.claims[o]).owner ∧
        ((∀ e ∈ m.admu.queue, (m.admu.claims[o]).reservation ≠ some e.slot) →
          t.admu.claims[o] = m.admu.claims[o])) ∧
      ((m.admu.queue.map Entry.slot).Nodup →
        t.smon.waiting = m.smon.waiting.filter (fun p => !p.ofSweep) ++
          m.admu.queue.map (fun e => .removal e.slot .halted (e.posting.flags.getLsbD 0))) ∧
      (∀ l : LaneId, (m.lane l).state ≠ .free → (t.lane l).halt = true) ∧
      t.smon.pendingSweep = false ∧ t.smon.piece = m.smon.piece ∧
      (m.smon.piece = none → t.smon.inProgress = false) ∧
      (∀ p k, m.smon.piece = some (p, .visit k) →
        t.smon.hostWordAtDrain = some (Memory.read m.mem (m.hostWordAddr k))) ∧
      (∀ o : OutLine, (m.outd[o]).claimer ≠ none → t.outd[o] = m.outd[o]) ∧
      (∀ o : OutLine, (m.outd[o]).claimer = none → (m.outd[o]).keep = true →
        (t.outd[o]).level = (m.outd[o]).idle ∧ (t.outd[o]).keep = false) := by
  obtain ⟨smon, admu, lanes, lines⟩ := m.enterDraining_units
  obtain ⟨-, -, -, -, -, -, -, -, pending, progress, piece, -⟩ := haltEntries_rest m.admu.queue m.beginDrain
  dsimp only
  rw [smon, admu, lines]
  refine ⟨haltEntries_empties _ _ fun e he => he, fun e he => ?_, haltEntries_claims_get m.beginDrain m.admu.queue,
    fun single => ?_, fun l hl => ?_, pending, piece, fun idle => progress.trans (Monitor.drain_idle idle),
    fun p k hv => ?_, fun o claimed => ?_, fun o unclaimed kept => ?_⟩
  · obtain ⟨waits, unreserved⟩ := haltEntries_halts m.beginDrain m.admu.queue e he
    exact ⟨(congrArg Mirror.pendingOutcome (State.mirror_of_mirror (congrArg Monitor.mirror smon) e.slot)).trans waits,
      unreserved⟩
  · rw [haltEntries_settles m.beginDrain m.admu.queue single]
    exact congrArg (m.beginDrain.smon.waiting ++ ·) (List.map_congr_left fun e he =>
      congrArg (Piece.removal e.slot .halted) (m.beginDrain.entryNotify_of_mem e he single))
  · rw [State.lane_of_lanes lanes]
    exact m.beginDrain_halt hl
  · rw [haltEntries_hostWord]
    exact State.visitedHostWord_visit hv
  · exact (outdDrain_get ..).trans (if_neg fun idle =>
      claimed (Option.isNone_iff_eq_none.mp (Bool.and_eq_true _ _ ▸ idle).1))
  · have idle : ((m.outd[o]).claimer.isNone && (m.outd[o]).keep) = true := by rw [unclaimed, kept]; rfl
    rw [outdDrain_get, if_pos idle]
    exact ⟨rfl, rfl⟩

/-- Settles O21: the write's other fields leave what the entry to DRAINING looks at, and `State.enterDraining_halts`
is about the state that they leave. -/
theorem drainEntryHaltsEverything : Obligations.DrainEntryHaltsEverything := by
  intro s m w hm hlow hen hs he
  obtain ⟨mlow, -⟩ := s.metBy_disable_fields w
  rw [← hm] at mlow
  have run : exec (.disable w) s = .next ((m.writeFields w.word).writeEnable w.word) := by
    rw [← State.control1_plain (mlow.trans hlow) hs, hm]
    rfl
  obtain ⟨-, engc, smon, admu, lanes, -, outd, -, mem, -, -, -, regp⟩ := m.writeFields_facts w.word
  have area (k : SlotId) : (m.writeFields w.word).hostWordAddr k = m.hostWordAddr k := by
    unfold State.hostWordAddr State.slotWord State.area
    rw [regp]
  have drains := (m.writeFields w.word).enterDraining_halts
  simp only [smon, admu, outd, mem, area, State.lane_of_lanes lanes] at drains
  refine ⟨_, run, ?_⟩
  rw [State.writeEnable_running hen (by rw [engc]; exact he)]
  exact drains

end Sys2Proof.Machine
end

section
/-! PROOF. The writes of the take, and the entry's way into the queue (02, R21, R22, R28; 04, R48, R49, R57; 05, R64 to
R66, R75, R80): O40. -/

namespace Sys2Proof.Machine

/-! ### Queue order (05, R65, R66, R75) -/

theorem Entry.outranks_eq_false_iff (a b : Entry) :
    a.outranks b = false ↔ a.posting.priority.toNat ≤ b.posting.priority.toNat := by
  unfold Entry.outranks
  rw [decide_eq_false_iff_not, Nat.not_lt]

theorem Entry.outranks_iff (a b : Entry) :
    a.outranks b = true ↔ b.posting.priority.toNat < a.posting.priority.toNat := decide_eq_true_iff

theorem earlier_iff (a b : Word) : earlier a b = true ↔ a ≠ b ∧ (b - a).toNat < 2147483648 := by
  unfold earlier
  rw [Bool.and_eq_true, bne_iff_ne, decide_eq_true_iff]

theorem Entry.before_iff (a b : Entry) : a.before b = true ↔
    b.posting.priority.toNat < a.posting.priority.toNat ∨
      (a.posting.priority = b.posting.priority ∧ earlier a.discovery b.discovery = true) := by
  unfold Entry.before
  rw [Bool.or_eq_true, Bool.and_eq_true, Entry.outranks_iff, beq_iff_eq]

/-- An entry that stands before another is of no lower priority. -/
theorem Entry.before_priority {a b : Entry} (h : a.before b = true) :
    b.posting.priority.toNat ≤ a.posting.priority.toNat :=
  ((Entry.before_iff a b).1 h).elim Nat.le_of_lt fun same => Nat.le_of_eq (congrArg BitVec.toNat same.1.symm)

/-- Where a joining entry stands in a queue that is in the order of priority. -/
theorem insertEntry_place (e : Entry) (q : List Entry) : ∃ front back : List Entry, q = front ++ back ∧
    insertEntry e q = front ++ e :: back ∧
    (∀ x ∈ front, e.posting.priority.toNat ≤ x.posting.priority.toNat) ∧
    (∀ x, back.head? = some x → x.posting.priority.toNat < e.posting.priority.toNat) ∧
    (q.Pairwise (fun a b => b.posting.priority.toNat ≤ a.posting.priority.toNat) →
      ∀ x ∈ back, x.posting.priority.toNat < e.posting.priority.toNat) := by
  obtain ⟨front, back, hq, hi, hf, hb⟩ := insertEntry_split e q
  have head : ∀ x, back.head? = some x → x.posting.priority.toNat < e.posting.priority.toNat :=
    fun x hx => (Entry.outranks_iff e x).1 (hb x hx)
  refine ⟨front, back, hq, hi, fun x hx => (Entry.outranks_eq_false_iff e x).1 (hf x hx), head, fun sorted x hx => ?_⟩
  cases back with
  | nil => exact nomatch hx
  | cons y back =>
    have first := head y rfl
    rcases List.mem_cons.1 hx with rfl | later
    · exact first
    · rw [hq] at sorted
      exact Nat.lt_of_le_of_lt ((List.pairwise_cons.1 (List.pairwise_append.1 sorted).2.1).1 x later) first

/-- Joining keeps queue order where every waiting number of the entry's priority is earlier than its own. -/
theorem insertEntry_before {e : Entry} {q : List Entry} (sorted : q.Pairwise (fun a b => a.before b = true))
    (last : ∀ x ∈ q, x.posting.priority = e.posting.priority → earlier x.discovery e.discovery = true) :
    (insertEntry e q).Pairwise (fun a b => a.before b = true) := by
  obtain ⟨front, back, rfl, hi, hf, -, hb⟩ := insertEntry_place e q
  obtain ⟨inFront, inBack, across⟩ := List.pairwise_append.1 sorted
  have behind := hb (sorted.imp Entry.before_priority)
  rw [hi]
  refine List.pairwise_append.2 ⟨inFront, List.pairwise_cons.2 ⟨fun x hx => ?_, inBack⟩, fun a ha b hb => ?_⟩
  · exact (Entry.before_iff e x).2 (.inl (behind x hx))
  · rcases List.mem_cons.1 hb with rfl | hb
    · refine (Entry.before_iff a b).2 ((Nat.lt_or_eq_of_le (hf a ha)).imp id fun same => ?_)
      have equal : a.posting.priority = b.posting.priority := BitVec.eq_of_toNat_eq same.symm
      exact ⟨equal, last a (List.mem_append_left _ ha) equal⟩
    · exact across a ha b hb

theorem eligibleAt_iff (now : Word) (p : Posting) :
    eligibleAt now p = true ↔ (p.flags.getLsbD 2 = true → reached now p.startEpoch = true) := by
  unfold eligibleAt flagAtStart
  cases p.flags.getLsbD 2 <;> simp

theorem latenessReached_iff (now : Word) (p : Posting) : latenessReached now p = true ↔
    p.flags.getLsbD 2 = true ∧ p.slack ≠ 0 ∧ reached now (p.startEpoch + p.slack) = true := by
  unfold latenessReached flagAtStart
  rw [Bool.and_eq_true, Bool.and_eq_true, bne_iff_ne, and_assoc]

/-! ### An entry that leaves the queue for a lane (05, R71) -/

/-- If the slot's mirror entry is RUNNING, the plan with this post has been given the lane that it names. -/
def State.StartedAs (s : State) (k : SlotId) (seq : Half) : Prop :=
  (s.mirror k).state = .running → ∃ l : LaneId, (s.lane l).state = .loading ∧ (s.lane l).slot = k ∧
    (s.lane l).seq = seq ∧ (s.mirror k).lane = some l ∧ s.admu.pool[l] = false

/-- Another slot's start takes another lane. -/
theorem State.startPlan_startedAs {s : State} {k : SlotId} {seq : Half} (h : s.StartedAs k seq) (e : Entry)
    {l : LaneId} (free : s.admu.pool[l] = true) (own : e.slot = k → e.seq = seq) :
    (s.startPlan e l).StartedAs k seq := by
  intro running
  by_cases hk : k = e.slot
  · refine ⟨l, ?_⟩
    rw [State.startPlan_lane, State.startPlan_mirror, State.startPlan_pool, if_pos rfl, if_pos hk, if_pos rfl]
    exact ⟨rfl, hk.symm, own hk.symm, rfl, rfl⟩
  · rw [State.startPlan_mirror, if_neg hk] at running
    obtain ⟨b, loading, slot, number, names, busy⟩ := h running
    have other : b ≠ l := fun e => by
      rw [e, free] at busy
      exact nomatch busy
    refine ⟨b, ?_⟩
    rw [State.startPlan_lane, State.startPlan_mirror, State.startPlan_pool, if_neg other, if_neg hk, if_neg other]
    exact ⟨loading, slot, number, names, busy⟩

theorem walkFrom_startedAs {k : SlotId} {seq : Half} (rest kept : List Entry) (s : State)
    (own : ∀ e ∈ rest, e.slot = k → e.seq = seq) (h : s.StartedAs k seq) :
    (walkFrom kept rest s).StartedAs k seq := by
  induction rest generalizing kept s with
  | nil => exact h
  | cons a rest ih =>
    have later := fun e he => own e (List.mem_cons_of_mem a he)
    unfold walkFrom
    split
    · exact h
    · next l hl =>
      split
      · exact ih _ _ later h
      · split
        · exact ih _ _ later (State.startPlan_startedAs h a (State.freeLane_pool hl) (own a List.mem_cons_self))
        · exact ih _ _ later h

theorem State.walk_startedAs {s : State} {k : SlotId} {seq : Half} (h : s.StartedAs k seq)
    (own : ∀ e ∈ s.admu.queue, e.slot = k → e.seq = seq) : s.walk.StartedAs k seq := by
  unfold State.walk
  split
  · exact walkFrom_startedAs _ _ _ own h
  · exact h

/-- A removal starts nothing. -/
theorem State.removeAs_mirror (s : State) (j : SlotId) (why : Removal) (k : SlotId) :
    (s.removeAs j why).mirror k =
      if k = j then { s.mirror k with pendingOutcome := some why } else s.mirror k := by
  show ((s.removeEntry j).setMirror j { s.mirror j with pendingOutcome := some why }).mirror k = _
  by_cases h : k = j
  · subst h
    rw [State.setMirror_mirror, if_pos rfl]
  · rw [State.setMirror_other _ _ _ _ (Ne.symm h), if_neg h]
    rfl

theorem State.removeAs_startedAs {s : State} {k : SlotId} {seq : Half} (h : s.StartedAs k seq) (j : SlotId)
    (why : Removal) : (s.removeAs j why).StartedAs k seq := by
  intro running
  have same : ((s.removeAs j why).mirror k).state = (s.mirror k).state ∧
      ((s.removeAs j why).mirror k).lane = (s.mirror k).lane := by
    rw [State.removeAs_mirror]
    split <;> exact ⟨rfl, rfl⟩
  rw [same.1] at running
  rw [same.2]
  exact h running

theorem State.lateEntry_startedAs {s : State} {k : SlotId} {seq : Half} (h : s.StartedAs k seq)
    (own : ∀ e ∈ s.admu.queue, e.slot = k → e.seq = seq) (j : SlotId) : (s.lateEntry j).StartedAs k seq := by
  have walked := State.walk_startedAs h own
  unfold State.lateEntry
  dsimp only
  split
  · refine State.walk_startedAs (State.removeAs_startedAs walked j .late) fun e he => own e ?_
    exact (State.walk_sublist s).subset (List.mem_filter.1 he).1
  · exact walked

/-! ### What joining changes in the mirror and in SMON -/

/-- The mirror keeps its posts and, but for starts, its states; in SMON the mirror and what waits alone change. -/
structure JoinFrame (s t : State) : Prop where
  known : ∀ k : SlotId, (t.mirror k).knownSeq = (s.mirror k).knownSeq
  states : ∀ k : SlotId, (t.mirror k).state = (s.mirror k).state ∨ (t.mirror k).state = .running
  smon : t.smon = { s.smon with mirror := t.smon.mirror, waiting := t.smon.waiting }
  engc : t.engc = s.engc

theorem JoinFrame.trans {s t u : State} (h : JoinFrame s t) (g : JoinFrame t u) : JoinFrame s u where
  known k := (g.known k).trans (h.known k)
  states k := (g.states k).elim (fun same => (h.states k).imp same.trans same.trans) .inr
  smon := by
    rw [g.smon, h.smon]
  engc := g.engc.trans h.engc

theorem JoinFrame.of_walk (s : State) : JoinFrame s s.walk := by
  obtain ⟨frame, -⟩ := s.walk_frame
  refine ⟨frame.known, fun k => (frame.starts k).imp (congrArg Mirror.state) id, ?_, frame.engc⟩
  rw [frame.smon]

theorem JoinFrame.of_setQueue (s : State) (q : List Entry) : JoinFrame s (s.setQueue q) :=
  ⟨fun _ => rfl, fun _ => .inl rfl, rfl, rfl⟩

theorem JoinFrame.of_removeAs (s : State) (j : SlotId) (why : Removal) : JoinFrame s (s.removeAs j why) := by
  refine ⟨fun k => ?_, fun k => .inl ?_, rfl, rfl⟩
  all_goals
    rw [State.removeAs_mirror]
    split <;> rfl

theorem JoinFrame.of_lateEntry (s : State) (k : SlotId) : JoinFrame s (s.lateEntry k) := by
  unfold State.lateEntry
  dsimp only
  split
  · exact ((JoinFrame.of_walk s).trans (.of_removeAs ..)).trans (.of_walk _)
  · exact .of_walk s

/-- The entry as it stands in the queue, with its eligibility tested as it joins. -/
def State.tested (s : State) (e : Entry) : Entry := { e with eligible := eligibleAt s.tbu.epoch e.posting }

/-- The queue with the entry in its place. -/
def State.queued (s : State) (e : Entry) : State :=
  s.setQueue (insertEntry (s.tested e) (withoutSlot e.slot s.admu.queue))

theorem State.join_eq (s : State) (e : Entry) : s.join e =
    if s.engc.engine = .draining then (s.queued e).removeAs e.slot .halted
    else if latenessReached s.tbu.epoch e.posting then (s.queued e).lateEntry e.slot
    else (s.queued e).walk := rfl

theorem State.join_inTime {s : State} (hr : s.engc.engine = .running) {e : Entry}
    (inTime : latenessReached s.tbu.epoch e.posting = false) : s.join e = (s.queued e).walk := by
  rw [State.join_eq, if_neg (by rw [hr]; exact nofun), if_neg (Bool.eq_false_iff.1 inTime)]

theorem JoinFrame.of_join (s : State) (e : Entry) : JoinFrame s (s.join e) := by
  rw [State.join_eq]
  refine (JoinFrame.of_setQueue s _).trans (t := s.queued e) ?_
  split
  · exact .of_removeAs ..
  · split
    · exact .of_lateEntry ..
    · exact .of_walk _

theorem insertEntry_mem (e : Entry) (q : List Entry) : e ∈ insertEntry e q := by
  obtain ⟨front, back, -, hi, -⟩ := insertEntry_split e q
  rw [hi]
  exact List.mem_append_right _ List.mem_cons_self

/-- No entry but the joining one is its slot's. -/
theorem State.queued_own (s : State) (e : Entry) : ∀ x ∈ (s.queued e).admu.queue, x.slot = e.slot → x = s.tested e := by
  intro x hx own
  obtain ⟨front, back, hq, hi, -⟩ := insertEntry_split (s.tested e) (withoutSlot e.slot s.admu.queue)
  have waiting : x ∉ withoutSlot e.slot s.admu.queue := fun h => ((mem_withoutSlot ..).1 h).2 own
  have place : x ∈ front ++ s.tested e :: back := hi ▸ hx
  rw [hq, List.mem_append, not_or] at waiting
  rcases List.mem_append.1 place with h | h
  · exact absurd h waiting.1
  · exact (List.mem_cons.1 h).resolve_right waiting.2

/-- In RUNNING an entry that joins stands in the queue, is started or waits LATE. -/
theorem State.join_running {s : State} (hr : s.engc.engine = .running) (e : Entry) :
    s.tested e ∈ (s.join e).admu.queue ∨ ((s.join e).mirror e.slot).state = .running ∨
      ((s.join e).mirror e.slot).pendingOutcome = some .late := by
  have mem : s.tested e ∈ (s.queued e).admu.queue := insertEntry_mem ..
  rw [State.join_eq, if_neg (by rw [hr]; exact nofun)]
  split
  · obtain ⟨frame, -⟩ := (s.queued e).lateEntry_frame (single := False) e.slot nofun nofun
    exact (frame.leaves _ mem).imp id (Or.imp id And.left)
  · exact ((s.queued e).walk_staysOrStarts _ mem).imp id .inl

theorem State.join_startedAs {s : State} {e : Entry} (h : s.StartedAs e.slot e.seq) :
    (s.join e).StartedAs e.slot e.seq := by
  have own : ∀ x ∈ (s.queued e).admu.queue, x.slot = e.slot → x.seq = e.seq :=
    fun x hx hk => by rw [s.queued_own e x hx hk]; rfl
  have queued : (s.queued e).StartedAs e.slot e.seq := h
  rw [State.join_eq]
  split
  · exact State.removeAs_startedAs queued e.slot .halted
  · split
    · exact State.lateEntry_startedAs queued own e.slot
    · exact State.walk_startedAs queued own

/-- In DRAINING an entry that joins waits HALTED. -/
theorem State.join_draining {s : State} (hd : s.engc.engine = .draining) (e : Entry) :
    (s.join e).Unreserved e.slot ∧ ((s.join e).mirror e.slot).pendingOutcome = some .halted ∧
      .removal e.slot .halted (e.posting.flags.getLsbD 0) ∈ (s.join e).smon.waiting := by
  rw [State.join_eq, if_pos hd]
  refine ⟨(s.queued e).removeEntry_unreserved e.slot, ?_, ?_⟩
  · rw [State.removeAs_mirror, if_pos rfl]
  · have notify : (s.queued e).entryNotify e.slot = e.posting.flags.getLsbD 0 := by
      unfold State.entryNotify
      split
      · next none =>
        exact absurd (List.find?_eq_none.1 none _ (insertEntry_mem ..)) (by simp [State.tested])
      · next x found =>
        rw [s.queued_own e x (List.mem_of_find?_eq_some found) (by simpa using List.find?_some found)]
        rfl
    exact notify ▸ List.mem_append_right _ (List.mem_singleton.2 rfl)

/-! ### A walk and the piece that becomes ready beside it (04, R48) -/

theorem walkFrom_ready (rest kept : List Entry) (s : State) (p : Piece) :
    walkFrom kept rest (s.ready p) = (walkFrom kept rest s).ready p := by
  induction rest generalizing kept s with
  | nil => rfl
  | cons e rest ih =>
    unfold walkFrom
    have free : (s.ready p).freeLane = s.freeLane := rfl
    rw [free]
    cases s.freeLane with
    | none => rfl
    | some l =>
      dsimp only
      split
      · exact ih ..
      · have claims : (s.ready p).admu.claims = s.admu.claims := rfl
        rw [claims]
        split
        · exact ih kept (s.startPlan e l)
        · exact ih _ { s with admu := { s.admu with claims := reserveFor e rest s.admu.claims } }

theorem State.walk_ready (s : State) (p : Piece) : (s.ready p).walk = s.walk.ready p := by
  unfold State.walk
  have engine : (s.ready p).engc.engine = s.engc.engine := rfl
  rw [engine]
  split
  · exact walkFrom_ready s.admu.queue [] s p
  · rfl

/-- With no lane free a walk leaves the queue as it is. -/
theorem State.walk_full {s : State} (h : s.freeLane = none) : s.walk.admu.queue = s.admu.queue := by
  unfold State.walk
  split
  · cases hq : s.admu.queue with
    | nil => rfl
    | cons e rest =>
      unfold walkFrom
      rw [h]
      rfl
  · rfl

theorem State.freeLane_none {s : State} (h : ∀ l : LaneId, s.admu.pool[l] = false) : s.freeLane = none :=
  List.find?_eq_none.2 fun l _ => Bool.eq_false_iff.1 (h l)

/-- The sweep's piece behind the visit of a slot. -/
def State.afterVisit (s : State) (k : SlotId) : Piece :=
  if h : k.val + 1 < 16 then if k.val + 1 < s.engc.slotCount then .visit ⟨k.val + 1, h⟩ else .closing else .closing

theorem State.readyAfter_visit {s : State} (hr : s.engc.engine = .running) (k : SlotId) :
    s.readyAfter (.visit k) = s.ready (s.afterVisit k) := by
  unfold State.readyAfter State.afterVisit
  rw [if_neg (by exact Bool.false_ne_true), if_neg (not_not_intro hr)]
  dsimp only
  split
  · split <;> rfl
  · rfl

/-- In RUNNING, with no limit reached, the sweep's next piece and the walk do not meet. -/
theorem State.join_readyAfter {s : State} (hr : s.engc.engine = .running) {e : Entry}
    (inTime : latenessReached s.tbu.epoch e.posting = false) (k : SlotId) :
    (s.readyAfter (.visit k)).join e = (s.join e).readyAfter (.visit k) := by
  have engc : (s.queued e).walk.engc = s.engc := State.walk_engc _
  rw [State.readyAfter_visit hr, State.join_inTime hr inTime,
    State.join_inTime (s := s.ready (s.afterVisit k)) hr inTime,
    State.readyAfter_visit (s := (s.queued e).walk) (by rw [engc]; exact hr)]
  have piece : (s.queued e).walk.afterVisit k = s.afterVisit k := by
    unfold State.afterVisit
    rw [engc]
  rw [piece]
  exact (s.queued e).walk_ready _

/-! ### The end of the visit beside the joining -/

/-- SMON's discovery number and piece are as they were, and what waits goes on waiting. -/
structure StillWaits (s t : State) : Prop where
  number : t.smon.discovery = s.smon.discovery
  piece : t.smon.piece = s.smon.piece
  waiting : ∀ q ∈ s.smon.waiting, q ∈ t.smon.waiting

theorem StillWaits.refl (s : State) : StillWaits s s := ⟨rfl, rfl, fun _ h => h⟩

theorem StillWaits.of_ready (s : State) (p : Piece) : StillWaits s (s.ready p) :=
  ⟨rfl, rfl, fun _ h => List.mem_append_left _ h⟩

theorem StillWaits.of_endSweep (s : State) : StillWaits s s.endSweep := by
  unfold State.endSweep
  split
  · exact ⟨rfl, rfl, fun _ h => List.mem_append_left _ h⟩
  · exact ⟨rfl, rfl, fun _ h => h⟩

theorem StillWaits.of_readyAfter (s : State) (p : Piece) : StillWaits s (s.readyAfter p) := by
  unfold State.readyAfter
  split
  · exact .refl s
  · split
    · exact ⟨rfl, rfl, fun _ h => h⟩
    · split
      · exact .of_ready ..
      · split
        · split <;> exact .of_ready ..
        · exact .of_ready ..
      · exact .of_endSweep s

theorem State.count_discovery (s : State) (kind : CountKind) (q : Requester) :
    (s.count kind q).smon.discovery = s.smon.discovery := by
  obtain ⟨-, -, -, -, -, same⟩ := s.count_work kind q
  exact same

theorem State.takeNext_discovery (s : State) : s.takeNext.smon.discovery = s.smon.discovery := by
  unfold State.takeNext
  dsimp only
  split
  · split
    case h_3 => exact State.count_discovery ..
    all_goals rfl
  · rfl

/-- A piece that begins by its own command goes on waiting while a sweep's is taken. -/
theorem State.takeNext_waiting {s : State} (h : s.smon.piece = none) {q : Piece} (hq : q ∈ s.smon.waiting)
    (own : q.ofSweep = false) : q ∈ s.takeNext.smon.waiting := by
  obtain ⟨pieces, -, -, begins⟩ := s.takeNext_taken h
  have mem : q ∈ s.takeNext.smon.pieces := pieces ▸ List.mem_append_right _ hq
  refine (List.mem_append.1 mem).resolve_left fun head => ?_
  obtain ⟨⟨first, w⟩, hp, rfl⟩ := Option.map_eq_some_iff.1 (Option.mem_toList.1 head)
  rcases begins _ _ hp with ⟨e, -⟩ | ⟨k, e, -⟩ | ⟨e, -⟩ <;> exact nomatch e ▸ own

/-- The end of a piece that SMON has already laid down. -/
theorem State.readyAfter_ended {s : State} (h : s.smon.piece = none) (p : Piece) :
    PieceEnded s (s.readyAfter p).takeNext p := by
  have laid : (s.setPiece p .config).dropPiece = s := by
    unfold State.dropPiece State.setPiece
    dsimp only
    rw [← h]
  have ended := State.endPiece_ended (s := s.setPiece p .config) rfl
  rw [State.endPiece_eq (s := s.setPiece p .config) rfl, laid] at ended
  exact ended.congr rfl rfl rfl rfl rfl rfl rfl rfl rfl

/-! ### The take has landed (02, R21, R28; 04, R57) -/

/-- The plan's entry, under a discovery number. -/
def TakeJob.entry (j : TakeJob) (n : Word) : Entry :=
  { slot := j.slot, seq := j.post, posting := j.posting, discovery := n, eligible := false }

/-- SMON with an accepted plan discovered and the visit laid down. -/
def State.discovered (s : State) (j : TakeJob) : State :=
  let u := s.setRecall j.slot none
  (({ u with smon := { u.smon with discovery := s.smon.discovery + 1 } } : State).setMirror j.slot
    { s.mirror j.slot with knownSeq := j.post, state := .queued, lane := none, pendingOutcome := none }).dropPiece

theorem State.taken_accepted (s : State) {j : TakeJob} (h : j.refusal = none) (f : Bool) :
    s.taken j f =
      (if f then ((s.discovered j).readyAfter (.visit j.slot)).join (j.entry (s.smon.discovery + 1))
        else ((s.discovered j).join (j.entry (s.smon.discovery + 1))).readyAfter (.visit j.slot)).takeNext := by
  unfold State.taken
  rw [h]
  rfl

/-- A plan refused is to be settled. -/
theorem State.taken_refused {s : State} {p : Piece} {w : Work} (hp : s.smon.piece = some (p, w)) {j : TakeJob}
    {o : PlanOutcome} (h : j.refusal = some o) (f : Bool) :
    s.taken j f = ((s.setRecall j.slot none).setMirror j.slot { s.mirror j.slot with knownSeq := j.post }).setPiece p
      (.settleDue { slot := j.slot, seq := j.post, outcome := o, notify := j.posting.flags.getLsbD 0,
                    settledEpoch := 0, discover := none }) := by
  unfold State.taken
  rw [h]
  exact State.settleDue_piece
    (s := (s.setRecall j.slot none).setMirror j.slot { s.mirror j.slot with knownSeq := j.post }) hp ..

theorem State.taken_recalls (s : State) (j : TakeJob) (f : Bool) : (s.taken j f).smon.recalls[j.slot] = none ∧
    ∀ k : SlotId, k ≠ j.slot → (s.taken j f).smon.recalls[k] = s.smon.recalls[k] := by
  have kept : (s.taken j f).smon.recalls = (s.setRecall j.slot none).smon.recalls :=
    (congrArg Outside.recalls (State.taken_outside ..) :)
  rw [kept]
  exact ⟨State.setRecall_self .., fun k hk => State.setRecall_other _ _ _ _ hk.symm⟩

/-- An accepted plan joins from a state that the discovery has left, and what follows is SMON's work alone. -/
structure TakeJoins (s b t : State) (j : TakeJob) : Prop where
  before : OnlyWork (s.discovered j) b
  number : b.smon.discovery = s.smon.discovery + 1
  after : OnlyWork (b.join (j.entry (s.smon.discovery + 1))) t
  discovery : t.smon.discovery = s.smon.discovery + 1
  waiting : ∀ q ∈ (b.join (j.entry (s.smon.discovery + 1))).smon.waiting, q.ofSweep = false → q ∈ t.smon.waiting

theorem State.join_discovery (s : State) (e : Entry) :
    (s.join e).smon.discovery = s.smon.discovery ∧ (s.join e).smon.piece = s.smon.piece := by
  rw [(JoinFrame.of_join s e).smon]
  exact ⟨rfl, rfl⟩

theorem State.taken_joins (s : State) {j : TakeJob} (h : j.refusal = none) (f : Bool) :
    ∃ b : State, TakeJoins s b (s.taken j f) j := by
  rw [State.taken_accepted s h]
  let e := j.entry (s.smon.discovery + 1)
  cases f with
  | true =>
    obtain ⟨number, piece, -⟩ := StillWaits.of_readyAfter (s.discovered j) (.visit j.slot)
    obtain ⟨joined, joinedPiece⟩ := ((s.discovered j).readyAfter (.visit j.slot)).join_discovery e
    rw [if_pos rfl]
    exact ⟨_, .of_readyAfter .., number, .of_takeNext _, (State.takeNext_discovery _).trans (joined.trans number),
      fun q hq own => State.takeNext_waiting (joinedPiece.trans piece) hq own⟩
  | false =>
    obtain ⟨joined, joinedPiece⟩ := (s.discovered j).join_discovery e
    obtain ⟨number, piece, waiting⟩ := StillWaits.of_readyAfter ((s.discovered j).join e) (.visit j.slot)
    rw [if_neg Bool.false_ne_true]
    exact ⟨_, .refl _, rfl, (OnlyWork.of_readyAfter ..).trans (.of_takeNext _),
      (State.takeNext_discovery _).trans (number.trans joined),
      fun q hq own => State.takeNext_waiting (piece.trans joinedPiece) (waiting q hq) own⟩

/-- In RUNNING, with no limit reached, both orders come to the same. -/
theorem State.taken_inTime {s : State} (hr : s.engc.engine = .running) {j : TakeJob} (h : j.refusal = none)
    (inTime : latenessReached s.tbu.epoch j.posting = false) (f : Bool) : s.taken j f =
      (((s.discovered j).join (j.entry (s.smon.discovery + 1))).readyAfter (.visit j.slot)).takeNext := by
  rw [State.taken_accepted s h]
  cases f with
  | true =>
    exact congrArg State.takeNext
      (State.join_readyAfter (s := s.discovered j) (e := j.entry (s.smon.discovery + 1)) hr inTime j.slot)
  | false => rfl

theorem State.taken_pieceEnded {s : State} (hr : s.engc.engine = .running) {j : TakeJob} (h : j.refusal = none)
    (inTime : latenessReached s.tbu.epoch j.posting = false) (f : Bool) :
    PieceEnded s (s.taken j f) (.visit j.slot) := by
  rw [State.taken_inTime hr h inTime,
    State.join_inTime (s := s.discovered j) (e := j.entry (s.smon.discovery + 1)) hr inTime]
  let q := (s.discovered j).queued (j.entry (s.smon.discovery + 1))
  obtain ⟨frame, -⟩ := q.walk_frame
  have ended := State.readyAfter_ended (s := q.walk) (by rw [frame.smon]; rfl) (.visit j.slot)
  refine ended.congr ?_ ?_ ?_ ?_ ?_ ?_ ?_ ?_ ?_
  · rw [frame.engc]; rfl
  · rw [frame.engc]; rfl
  · rw [frame.smon]; rfl
  · rw [frame.smon]; rfl
  · rw [frame.smon]; rfl
  · rw [frame.smon]; rfl
  · rw [frame.tbu]; rfl
  · rw [frame.regp]; rfl
  · rw [frame.instant]; rfl

section Joins
variable {s b t : State} {j : TakeJob} (h : TakeJoins s b t j)
include h

theorem TakeJoins.mirror_before : b.mirror j.slot =
    { s.mirror j.slot with knownSeq := j.post, state := .queued, lane := none, pendingOutcome := none } :=
  (State.mirror_of_mirror h.before.2 j.slot).trans (State.setMirror_mirror ..)

theorem TakeJoins.mirror_after (k : SlotId) :
    t.mirror k = (b.join (j.entry (s.smon.discovery + 1))).mirror k := State.mirror_of_mirror h.after.2 k

theorem TakeJoins.state : (t.mirror j.slot).knownSeq = j.post ∧
    ((t.mirror j.slot).state = .queued ∨ (t.mirror j.slot).state = .running) := by
  have joined := JoinFrame.of_join b (j.entry (s.smon.discovery + 1))
  rw [h.mirror_after]
  refine ⟨(joined.known _).trans ?_, (joined.states _).imp (fun same => same.trans ?_) id⟩ <;> rw [h.mirror_before]

theorem TakeJoins.running (hr : s.engc.engine = .running) :
    { j.entry (s.smon.discovery + 1) with eligible := eligibleAt s.tbu.epoch j.posting } ∈ t.admu.queue ∨
      (∃ l : LaneId, (t.lane l).state = .loading ∧ (t.lane l).slot = j.slot ∧ (t.lane l).seq = j.post ∧
        (t.mirror j.slot).state = .running ∧ (t.mirror j.slot).lane = some l) ∨
      (t.mirror j.slot).pendingOutcome = some .late := by
  have engine : b.engc.engine = .running := by rw [h.before.1.engc]; exact hr
  have epoch : b.tbu.epoch = s.tbu.epoch := congrArg Timebase.epoch h.before.1.tbu
  have start : b.StartedAs j.slot j.post := fun running => by
    rw [h.mirror_before] at running
    exact nomatch running
  rw [h.mirror_after, h.after.1.admu, ← epoch]
  refine (State.join_running engine (j.entry (s.smon.discovery + 1))).imp id (Or.imp (fun running => ?_) id)
  obtain ⟨l, loading, slot, number, names, -⟩ :=
    State.join_startedAs (e := j.entry (s.smon.discovery + 1)) start running
  refine ⟨l, ?_⟩
  rw [State.lane_of_lanes h.after.1.lanes]
  exact ⟨loading, slot, number, running, names⟩

theorem TakeJoins.full (hr : s.engc.engine = .running) (inTime : latenessReached s.tbu.epoch j.posting = false)
    (none : ∀ l : LaneId, s.admu.pool[l] = false) : t.admu.queue =
      insertEntry { j.entry (s.smon.discovery + 1) with eligible := eligibleAt s.tbu.epoch j.posting }
        (withoutSlot j.slot s.admu.queue) := by
  have engine : b.engc.engine = .running := by rw [h.before.1.engc]; exact hr
  have epoch : b.tbu.epoch = s.tbu.epoch := congrArg Timebase.epoch h.before.1.tbu
  have admu : b.admu = s.admu := h.before.1.admu
  have pool : (b.queued (j.entry (s.smon.discovery + 1))).admu.pool = s.admu.pool := by
    rw [← admu]
    rfl
  rw [h.after.1.admu, State.join_inTime engine (by rw [epoch]; exact inTime),
    State.walk_full (State.freeLane_none (by rw [pool]; exact none)), ← epoch, ← admu]
  rfl

theorem TakeJoins.draining (hd : s.engc.engine = .draining) : t.Unreserved j.slot ∧
    .removal j.slot .halted (j.posting.flags.getLsbD 0) ∈ t.smon.waiting ∧
    (t.mirror j.slot).pendingOutcome = some .halted := by
  have engine : b.engc.engine = .draining := by rw [h.before.1.engc]; exact hd
  obtain ⟨gone, halted, settle⟩ := State.join_draining engine (j.entry (s.smon.discovery + 1))
  refine ⟨?_, h.waiting _ settle rfl, (congrArg Mirror.pendingOutcome (h.mirror_after _)).trans halted⟩
  unfold State.Unreserved State.inQueue State.NoReservation
  rw [h.after.1.admu]
  exact gone

end Joins

/-! ### TAKE -/

section Take
variable {s : State} {p : Piece} {j : TakeJob}

theorem State.takeReturned_epoch (h : s.smon.piece = some (p, .takeEpoch j)) (f : Bool) : s.takeReturned false f =
    s.goOn p (.takePart j) .takePart (s.partWordAddr j.slot) (some (partWord j.post (s.mirror j.slot).settleCopy)) := by
  unfold State.takeReturned
  rw [h]
  dsimp only
  unfold State.takePartWrite
  rw [if_neg Bool.false_ne_true, State.setWork_of_piece h]
  rfl

theorem State.takeReturned_epochFailed (h : s.smon.piece = some (p, .takeEpoch j)) (f : Bool) :
    s.takeReturned true f = s.smonFault .writeErr := by
  unfold State.takeReturned
  rw [h]
  rfl

theorem State.takeReturned_part (h : s.smon.piece = some (p, .takePart j)) (f : Bool) :
    s.takeReturned false f = s.taken j f := by
  unfold State.takeReturned
  rw [h]
  rfl

theorem State.takeReturned_partFailed (h : s.smon.piece = some (p, .takePart j)) (f : Bool) :
    s.takeReturned true f = s.smonFault .writeErr := by
  unfold State.takeReturned
  rw [h]
  rfl

end Take

theorem exec_take {s : State} {r : BusReturn} {req : Request} {rest : List Request} (hr : Returns s r req rest)
    (ha : req.access = .takeEpoch ∨ req.access = .takePart) (f : Bool) :
    exec (.take r f) s = .next ((s.afterReturn r req rest).takeReturned (replyFailed r.reply) f) :=
  congrArg Host.Outcome.next (State.busEvent_of_returns _ hr (by rcases ha with ha | ha <;> rw [ha] <;> rfl))

/-- Settles O40: by the write that returns; an accepted plan joins as `TakeJoins` says, in either order. -/
theorem takeWritesThenQueues : Obligations.TakeWritesThenQueues := by
  refine ⟨?_, ?_, insertEntry_place, fun e q => insertEntry_before, fun a b => ?_,
    fun now p => ⟨eligibleAt_iff now p, latenessReached_iff now p⟩,
    fun take settle => ⟨low16_pair16 .., high16_pair16 ..⟩⟩
  · rintro s u r f req rest p j hr ha rfl hp
    refine ⟨_, exec_take hr (.inl ha) f, ?_⟩
    have recalls : ∀ b, replyFailed r.reply = b → ((s.afterReturn r req rest).takeReturned b f).smon.recalls =
        (s.afterReturn r req rest).smon.recalls := fun b _ => by
      cases b with
      | true =>
        rw [State.takeReturned_epochFailed hp]
        exact (congrArg Outside.recalls (State.smonFault_outside ..) :)
      | false =>
        rw [State.takeReturned_epoch hp]
        rfl
    have kept := recalls _ rfl
    cases hf : replyFailed r.reply with
    | true =>
      rw [hf, State.takeReturned_epochFailed hp] at kept
      obtain ⟨⟨only, mirror⟩, piece, counts⟩ := State.smonFault_counted hp .writeErr
      rw [State.takeReturned_epochFailed hp]
      exact ⟨only, mirror, kept, nofun, fun _ => ⟨piece, counts⟩⟩
    | false =>
      rw [State.takeReturned_epoch hp]
      obtain ⟨only, mirror⟩ := OnlyWork.of_goOn (s.afterReturn r req rest) p (.takePart j) .takePart
        ((s.afterReturn r req rest).partWordAddr j.slot)
        (some (partWord j.post ((s.afterReturn r req rest).mirror j.slot).settleCopy))
      exact ⟨only, mirror, rfl, fun _ => rfl, nofun⟩
  · rintro s u r f req rest p j e hr ha rfl hp rfl
    refine ⟨_, exec_take hr (.inr ha) f, ?_⟩
    cases hf : replyFailed r.reply with
    | true =>
      obtain ⟨⟨-, mirror⟩, piece, counts⟩ := State.smonFault_counted hp .writeErr
      rw [State.takeReturned_partFailed hp]
      exact ⟨fun _ => ⟨mirror, (congrArg Outside.recalls (State.smonFault_outside ..) :), piece, counts⟩, nofun, nofun,
        nofun, nofun⟩
    | false =>
      have epoch : (s.afterReturn r req rest).tbu.epoch = s.tbu.epoch := s.settled_epoch
      rw [State.takeReturned_part hp, ← epoch]
      generalize s.afterReturn r req rest = u at *
      obtain ⟨none, others⟩ := u.taken_recalls j f
      cases hj : j.refusal with
      | none =>
        obtain ⟨b, joins⟩ := u.taken_joins hj f
        obtain ⟨known, state⟩ := joins.state
        refine ⟨nofun, fun _ => ⟨known, none, others⟩, fun _ _ => ⟨joins.discovery, state⟩,
          fun _ _ => ⟨joins.running, fun hr free inTime => joins.full hr inTime free,
            fun hr inTime => State.taken_pieceEnded hr hj inTime f, fun hd => ?_⟩, nofun⟩
        obtain ⟨⟨absent, unreserved⟩, settle, halted⟩ := joins.draining hd
        exact ⟨absent, unreserved, settle, halted⟩
      | some o =>
        have refused := State.taken_refused hp hj f
        refine ⟨nofun, fun _ => ⟨?_, none, others⟩, nofun, nofun, fun o' _ ho => ?_⟩
        · rw [refused]
          exact congrArg Mirror.knownSeq (State.setMirror_mirror ..)
        · obtain rfl := Option.some.inj ho
          rw [refused]
          exact ⟨rfl, rfl, rfl⟩
  · rw [Entry.before_iff, earlier_iff]

end Sys2Proof.Machine
end

section
/-! PROOF. What a request of the counter set that is done brings, and that telling its requester takes none of it back
and only adds to what is asked of the counter set and of MPORT (04, R61; 10, R143, R145, R151). -/

namespace Sys2Proof.Machine

/-! ### Telling the requester -/

/-- The settle copies, the fault code, the causes set and the config_ack copy stand; a request in service goes on, and
what joins, joins behind. -/
structure Reported (s t : State) : Prop where
  copies : ∀ k : SlotId, (t.mirror k).settleCopy = (s.mirror k).settleCopy
  code : t.engc.faultCode = s.engc.faultCode
  cause : ∀ i : Nat, s.regp.cause.getLsbD i = true → t.regp.cause.getLsbD i = true
  ack : t.smon.counters.ackCopy = s.smon.counters.ackCopy
  service : s.smon.counts ≠ [] →
    t.smon.counters = s.smon.counters ∧ t.smon.secondWord = s.smon.secondWord
  counts : ∃ added, t.smon.counts = s.smon.counts ++ added
  orders : OrdersGrow s t

theorem Reported.trans {s t u : State} (h : Reported s t) (g : Reported t u) : Reported s u where
  copies k := (g.copies k).trans (h.copies k)
  code := g.code.trans h.code
  cause i hi := g.cause i (h.cause i hi)
  ack := g.ack.trans h.ack
  service busy := by
    obtain ⟨added, counts⟩ := h.counts
    obtain ⟨c1, w1⟩ := h.service busy
    obtain ⟨c2, w2⟩ := g.service (by rw [counts]; exact List.append_ne_nil_of_left_ne_nil busy added)
    exact ⟨c2.trans c1, w2.trans w1⟩
  counts := by
    obtain ⟨a, ha⟩ := h.counts
    obtain ⟨b, hb⟩ := g.counts
    exact ⟨a ++ b, by rw [hb, ha, List.append_assoc]⟩
  orders := h.orders.trans g.orders

/-- The counter set's own registers are as they were. -/
def SameCounts (s t : State) : Prop :=
  t.smon.counters = s.smon.counters ∧ t.smon.counts = s.smon.counts ∧ t.smon.secondWord = s.smon.secondWord

theorem Reported.of_same {s t : State} (copies : ∀ k : SlotId, (t.mirror k).settleCopy = (s.mirror k).settleCopy)
    (code : t.engc.faultCode = s.engc.faultCode)
    (cause : ∀ i : Nat, s.regp.cause.getLsbD i = true → t.regp.cause.getLsbD i = true) (same : SameCounts s t)
    (orders : OrdersGrow s t) : Reported s t := by
  obtain ⟨counters, counts, second⟩ := same
  exact ⟨copies, code, cause, congrArg Counters.ackCopy counters, fun _ => ⟨counters, second⟩,
    ⟨[], counts.trans (List.append_nil _).symm⟩, orders⟩

/-- Work of SMON's that asks nothing of the counter set. -/
theorem Reported.of_work {s t : State} (h : OnlyWork s t) (same : SameCounts s t) (orders : OrdersGrow s t) :
    Reported s t :=
  .of_same (fun k => by rw [State.mirror_of_mirror h.2]) (by rw [h.1.engc]) (fun i hi => by rwa [h.1.regp]) same orders

theorem Reported.refl (s : State) : Reported s s := .of_work (.refl s) ⟨rfl, rfl, rfl⟩ (.refl s)

/-! ### SMON is told -/

/-- A request that finds the counter set in use waits. -/
theorem State.count_busy {s : State} (h : s.smon.counts ≠ []) (kind : CountKind) (q : Requester) :
    s.count kind q =
      { s with smon := { s.smon with counts := s.smon.counts ++ [{ kind := kind, requester := q }] } } := by
  unfold State.count
  dsimp only
  rw [if_neg (by rwa [List.isEmpty_iff])]

theorem Reported.of_count (s : State) (kind : CountKind) (q : Requester) : Reported s (s.count kind q) := by
  obtain ⟨only, mirror⟩ := OnlyWork.of_count s kind q
  refine ⟨fun k => by rw [State.mirror_of_mirror mirror], by rw [only.engc], fun i hi => by rwa [only.regp],
    State.count_ackCopy .., fun busy => ?_, ⟨_, State.count_counts ..⟩, .of_count ..⟩
  rw [State.count_busy busy]
  exact ⟨rfl, rfl⟩

theorem Reported.of_setPiece (s : State) (p : Piece) (w : Work) : Reported s (s.setPiece p w) :=
  .of_work (.of_setPiece ..) ⟨rfl, rfl, rfl⟩ (.of_eq rfl)

theorem Reported.of_raise (s : State) (a : Access) (w : Word) (d : Option Word) : Reported s (s.raise a w d) :=
  .of_work (.of_raise ..) ⟨rfl, rfl, rfl⟩ ⟨_, rfl⟩

theorem Reported.of_ready (s : State) (p : Piece) : Reported s (s.ready p) :=
  .of_work (.of_ready ..) ⟨rfl, rfl, rfl⟩ (.of_eq rfl)

theorem Reported.of_setWork (s : State) (w : Work) : Reported s (s.setWork w) := by
  unfold State.setWork
  split
  · exact .refl s
  · exact .of_setPiece ..

theorem Reported.of_startDiscovery (s : State) (k : SlotId) (post : Half) : Reported s (s.startDiscovery k post) :=
  (Reported.of_setWork ..).trans (.of_raise ..)

theorem Reported.of_takeNext (s : State) : Reported s s.takeNext := by
  unfold State.takeNext
  dsimp only
  split
  · next p rest _ _ =>
    cases p with
    | closing =>
      refine Reported.trans ?_ (.of_count ..)
      exact .of_work ⟨by constructor <;> rfl, rfl⟩ ⟨rfl, rfl, rfl⟩ (.of_eq rfl)
    | config => exact .of_work ⟨by constructor <;> rfl, rfl⟩ ⟨rfl, rfl, rfl⟩ ⟨_, rfl⟩
    | visit k => exact .of_work ⟨by constructor <;> rfl, rfl⟩ ⟨rfl, rfl, rfl⟩ ⟨_, rfl⟩
    | _ => exact .refl s
  · exact .refl s

theorem SameCounts.refl (s : State) : SameCounts s s := ⟨rfl, rfl, rfl⟩

theorem State.endSweep_sameCounts (s : State) : SameCounts s s.endSweep := by
  unfold State.endSweep
  split <;> exact .refl s

theorem State.readyAfter_sameCounts (s : State) (p : Piece) : SameCounts s (s.readyAfter p) := by
  unfold State.readyAfter
  split
  · exact .refl s
  · split
    · exact .refl s
    · split
      · exact .refl s
      · split
        · split <;> exact .refl s
        · exact .refl s
      · exact s.endSweep_sameCounts

theorem Reported.of_readyAfter (s : State) (p : Piece) : Reported s (s.readyAfter p) :=
  .of_work (.of_readyAfter ..) (s.readyAfter_sameCounts p) (.of_eq (by rw [State.readyAfter_eq]))

theorem Reported.of_endPiece (s : State) : Reported s s.endPiece := by
  unfold State.endPiece
  split
  · exact .refl s
  · exact (Reported.of_work (s := s) (t := s.dropPiece) ⟨by constructor <;> rfl, rfl⟩ ⟨rfl, rfl, rfl⟩
      (.of_eq rfl)).trans
      ((Reported.of_readyAfter ..).trans (.of_takeNext _))

theorem Reported.of_sweepRequest (s : State) : Reported s s.sweepRequest := by
  unfold State.sweepRequest
  split
  · exact .refl s
  · split
    · exact .of_work ⟨by constructor <;> rfl, rfl⟩ ⟨rfl, rfl, rfl⟩ (.of_eq rfl)
    · exact (Reported.of_work (.of_startSweep s) ⟨rfl, rfl, rfl⟩ (.of_eq rfl)).trans (.of_takeNext _)

theorem State.setCause_keeps (s : State) (c : BitVec 4) (i : Nat) (h : s.regp.cause.getLsbD i = true) :
    (s.setCause c).regp.cause.getLsbD i = true := by
  show (s.regp.cause ||| c).getLsbD i = true
  rw [BitVec.getLsbD_or, h, Bool.true_or]

theorem Reported.of_setCause (s : State) (c : BitVec 4) : Reported s (s.setCause c) :=
  .of_same (fun _ => rfl) rfl (s.setCause_keeps c) ⟨rfl, rfl, rfl⟩ (.of_eq rfl)

theorem Reported.of_notify (s : State) (b : Bool) : Reported s (s.notify b) := by
  unfold State.notify
  split
  · exact .of_setCause ..
  · exact .refl s

theorem Reported.of_setMirror (s : State) (k : SlotId) {m : Mirror} (h : m.settleCopy = (s.mirror k).settleCopy) :
    Reported s (s.setMirror k m) := by
  refine .of_same (fun j => ?_) rfl (fun _ => id) ⟨rfl, rfl, rfl⟩ (.of_eq rfl)
  by_cases e : k = j
  · subst e
    rw [State.setMirror_mirror, h]
  · rw [State.setMirror_other _ _ _ _ e]

/-- The slot of SMON's own settle is IDLE, its plan gone. -/
def State.slotSettled (s : State) (j : SettleJob) : State :=
  (s.notify j.notify).setMirror j.slot { s.mirror j.slot with state := .idle, lane := none, pendingOutcome := none }

theorem State.smonSettled_ends (s : State) {j : SettleJob} (h : j.discover = none) :
    s.smonSettled j = (s.slotSettled j).endPiece := by
  unfold State.smonSettled
  rw [h]
  rfl

theorem State.smonSettled_discovers (s : State) {j : SettleJob} {post : Half} (h : j.discover = some post) :
    s.smonSettled j = (s.slotSettled j).startDiscovery j.slot post := by
  unfold State.smonSettled
  rw [h]
  rfl

theorem State.notify_mirror (s : State) (b : Bool) (k : SlotId) : (s.notify b).mirror k = s.mirror k := by
  unfold State.notify
  split <;> rfl

theorem Reported.of_slotSettled (s : State) (j : SettleJob) : Reported s (s.slotSettled j) :=
  (Reported.of_notify s j.notify).trans (.of_setMirror _ _ (by rw [State.notify_mirror]))

theorem Reported.of_smonSettled (s : State) (j : SettleJob) : Reported s (s.smonSettled j) := by
  cases hd : j.discover with
  | none =>
    rw [s.smonSettled_ends hd]
    exact (Reported.of_slotSettled s j).trans (.of_endPiece _)
  | some post =>
    rw [s.smonSettled_discovers hd]
    exact (Reported.of_slotSettled s j).trans (.of_startDiscovery ..)

theorem Reported.of_smonCounted (s : State) : Reported s s.smonCounted := by
  unfold State.smonCounted
  split
  · next p next _ =>
    cases next with
    | endPiece => exact .of_endPiece s
    | tornVisit k post => exact (Reported.of_setCause ..).trans (.of_startDiscovery ..)
    | tornRelease => exact ((Reported.of_setCause ..).trans (.of_sweepRequest _)).trans (.of_endPiece _)
    | settled j => exact .of_smonSettled s j
  · exact .refl s

/-! ### A lane is told -/

theorem Reported.of_walk (s : State) : Reported s s.walk := by
  obtain ⟨frame, -⟩ := s.walk_frame
  refine .of_same frame.copy (by rw [frame.engc]) (fun i hi => by rwa [frame.regp]) ?_ frame.orderList
  unfold SameCounts
  rw [frame.smon]
  exact ⟨rfl, rfl, rfl⟩

theorem Reported.of_freeTheLane (s : State) (l : LaneId) : Reported s (s.freeTheLane l) :=
  .of_same (fun _ => rfl) rfl (fun _ => id) ⟨rfl, rfl, rfl⟩ (.of_eq rfl)

theorem Reported.of_releaseClaims (s : State) (l : LaneId) (kept : Bool) : Reported s (s.releaseClaims l kept) :=
  .of_same (fun _ => rfl) rfl (fun _ => id) ⟨rfl, rfl, rfl⟩ (.of_eq rfl)

theorem Reported.of_laneSettled (s : State) (l : LaneId) : Reported s (s.laneSettled l) :=
  ((((Reported.of_notify ..).trans (.of_ready ..)).trans (.of_releaseClaims ..)).trans (.of_freeTheLane ..)).trans
    (.of_walk _)

/-- A lane's own operations. -/
theorem Reported.of_lane {s t : State} {l : LaneId} (h : OnlyLane s t l) (orders : OrdersGrow s t) : Reported s t :=
  .of_same (fun k => by rw [State.mirror_of_mirror (congrArg Monitor.mirror h.smon) k]) (by rw [h.engc])
    (fun i hi => by rwa [h.regp])
    (by unfold SameCounts; rw [h.smon]; exact ⟨rfl, rfl, rfl⟩) orders

theorem OrdersGrow.of_pump (s : State) (l : LaneId) : OrdersGrow s (s.pump l) := by
  unfold State.pump
  dsimp only
  split
  · exact .refl s
  · split
    · exact ⟨_, rfl⟩
    · split
      · exact ⟨_, rfl⟩
      · exact .refl s
    · exact .refl s

theorem Reported.of_tearFinish (s : State) (l : LaneId) : Reported s (s.tearFinish l) := by
  unfold State.tearFinish
  dsimp only
  split
  · exact ((Reported.of_ready ..).trans (.of_freeTheLane ..)).trans (.of_walk _)
  · exact .refl s

theorem Reported.of_laneCounted (s : State) (l : LaneId) (kind : CountKind) : Reported s (s.laneCounted l kind) := by
  have one : Reported s (s.setLane l (s.lane l).counted) :=
    .of_same (fun _ => rfl) rfl (fun _ => id) ⟨rfl, rfl, rfl⟩ (.of_eq rfl)
  have fault : Reported s (s.laneCounted l (.fault .writeErr)) := by
    rw [State.laneCounted_fault]
    split
    · exact one.trans (.of_tearFinish ..)
    · exact one.trans (.of_lane (.of_pump ..) (.of_pump ..))
  cases kind with
  | settlement k seq => exact .of_laneSettled s l
  | _ => exact fault

/-! ### ENGC is told -/

theorem Reported.of_setLoading (s : State) (x : Loading) : Reported s (s.setLoading x) :=
  .of_same (fun _ => rfl) rfl (fun _ => id) ⟨rfl, rfl, rfl⟩ (.of_eq rfl)

theorem Reported.of_nextOrphan (s : State) (x : Loading) : Reported s (s.nextOrphan x) := by
  unfold State.nextOrphan
  split
  · exact (Reported.of_setLoading ..).trans (.of_raise ..)
  · exact .of_same (fun _ => rfl) rfl (fun _ => id) ⟨rfl, rfl, rfl⟩ ⟨_, rfl⟩

theorem Reported.of_engcCounted (s : State) (x : Loading) : Reported s (s.engcCounted x) := by
  unfold State.engcCounted
  split
  · exact (Reported.of_setLoading ..).trans (.of_count ..)
  · exact .of_nextOrphan ..
  · exact .refl s

/-- Telling the requester, whichever it is. -/
theorem Reported.of_report (s : State) (q : CountReq) : Reported s (s.report q) := by
  unfold State.report
  split
  · exact .of_smonCounted s
  · exact .of_laneCounted ..
  · split
    · exact .refl s
    · exact .of_engcCounted ..

/-! ### What the request brings -/

/-- What a request of this kind brings when it is done (04, R61; 10, R151). -/
structure EffectBrought (kind : CountKind) (t : State) : Prop where
  copy : ∀ k seq, kind = .settlement k seq → (t.mirror k).settleCopy = seq
  fault : ∀ code, kind = .fault code → t.engc.faultCode = code ∧ t.regp.cause.getLsbD 2 = true
  ack : ∀ v, kind = .configAck v → t.smon.counters.ackCopy = v

theorem State.setCause_bit (s : State) {c : BitVec 4} {i : Nat} (h : c.getLsbD i = true) :
    (s.setCause c).regp.cause.getLsbD i = true := by
  show (s.regp.cause ||| c).getLsbD i = true
  rw [BitVec.getLsbD_or, h, Bool.or_true]

theorem EffectBrought.of_countEffect (s : State) (kind : CountKind) : EffectBrought kind (s.countEffect kind) := by
  cases kind with
  | settlement k seq =>
    refine ⟨?_, nofun, nofun⟩
    rintro _ _ ⟨⟩
    exact congrArg Mirror.settleCopy (State.setMirror_mirror ..)
  | fault code =>
    refine ⟨nofun, ?_, nofun⟩
    rintro _ ⟨⟩
    exact ⟨rfl, State.setCause_bit _ rfl⟩
  | configAck v =>
    refine ⟨nofun, nofun, ?_⟩
    rintro _ ⟨⟩
    rfl
  | _ => exact ⟨nofun, nofun, nofun⟩

theorem EffectBrought.of_same {kind : CountKind} {s t : State} (h : EffectBrought kind s)
    (mirror : t.smon.mirror = s.smon.mirror) (code : t.engc.faultCode = s.engc.faultCode)
    (cause : t.regp.cause = s.regp.cause) (ack : t.smon.counters.ackCopy = s.smon.counters.ackCopy) :
    EffectBrought kind t where
  copy k seq hk := by rw [State.mirror_of_mirror mirror]; exact h.copy k seq hk
  fault c hk := by rw [code, cause]; exact h.fault c hk
  ack v hk := ack.trans (h.ack v hk)

theorem EffectBrought.reported {kind : CountKind} {s t : State} (h : EffectBrought kind s) (g : Reported s t) :
    EffectBrought kind t where
  copy k seq hk := (g.copies k).trans (h.copy k seq hk)
  fault c hk := by
    obtain ⟨code, cause⟩ := h.fault c hk
    exact ⟨g.code.trans code, g.cause 2 cause⟩
  ack v hk := g.ack.trans (h.ack v hk)

theorem OnlyWork.of_nextCount (s : State) : OnlyWork s s.nextCount :=
  OnlyWork.trans (t := { s with smon := { s.smon with counts := s.smon.counts.tail, secondWord := false } })
    ⟨by constructor <;> rfl, rfl⟩ (.of_serve _)

theorem EffectBrought.of_counted (s : State) (kind : CountKind) : EffectBrought kind (s.counted kind) := by
  obtain ⟨only, mirror⟩ := OnlyWork.of_nextCount (s.countEffect kind)
  exact (EffectBrought.of_countEffect s kind).of_same mirror (congrArg EngineControl.faultCode only.engc)
    (congrArg RegPort.cause only.regp) (State.serve_ackCopy _)

/-- Whether the counter set goes on with the close's second word, LOADING stops, or the requester is told. -/
theorem State.counterReturned_brings {s : State} {q : CountReq} {qs : List CountReq} (h : s.smon.counts = q :: qs)
    (b : Option OnBus) : EffectBrought q.kind (s.counterReturned false b) := by
  by_cases close : ∃ n, q.kind = .sweepClose n
  · obtain ⟨n, hn⟩ := close
    rw [hn]
    exact ⟨nofun, nofun, nofun⟩
  · have word : ∀ n, q.kind ≠ .sweepClose n := fun n hn => close ⟨n, hn⟩
    cases hs : s.stoppingLoad with
    | true =>
      rw [State.counterReturned_stopping h word hs]
      exact (EffectBrought.of_countEffect s q.kind).of_same rfl rfl rfl rfl
    | false =>
      rw [State.counterReturned_done h (.inr word) hs]
      exact (EffectBrought.of_counted s q.kind).reported (.of_report _ q)

end Sys2Proof.Machine
end

section
/-! PROOF. A write of the counter set brings its effect: what SMON, a lane and the counter set itself do with a request
that is done (04, R47 to R49, R53, R58, R60, R61, R63; 02, R24, R27; 05, R77; 06, R99): O44. -/

namespace Sys2Proof.Machine

/-! ### From the state that the write meets to the state in which the requester is told -/

theorem CountTaken.pieceEnded {u z t : State} {p : Piece} (h : CountTaken u z) (g : PieceEnded z t p) :
    PieceEnded u t p := by
  obtain ⟨-, waiting⟩ := h.work
  obtain ⟨progress, pending, noted⟩ := h.sweep
  obtain ⟨engine, slots, -⟩ := h.engine
  exact g.congr engine.symm slots.symm waiting.symm pending.symm progress.symm noted.symm
    (congrArg Timebase.epoch h.epoch).symm h.area.symm h.instant.symm

theorem CountTaken.sweepRequested {u z t : State} (h : CountTaken u z) (g : SweepRequested z t) :
    SweepRequested u t := by
  obtain ⟨progress, -⟩ := h.sweep
  unfold SweepRequested at g ⊢
  rwa [progress, h.epoch] at g

/-- Beside the settle copy a settlement brings nothing to the mirror, and no cause. -/
theorem State.counted_settlement (s : State) (k : SlotId) (seq : Half) :
    (s.counted (.settlement k seq)).regp = s.regp ∧
      ∀ j, ((s.counted (.settlement k seq)).mirror j).knownSeq = (s.mirror j).knownSeq := by
  obtain ⟨only, mirror⟩ := OnlyWork.of_nextCount (s.countEffect (.settlement k seq))
  refine ⟨only.regp, fun j => (congrArg Mirror.knownSeq (State.mirror_of_mirror mirror j)).trans ?_⟩
  show ((s.setMirror k { s.mirror k with settleCopy := seq }).mirror j).knownSeq = _
  by_cases e : k = j
  · subst e
    rw [State.setMirror_mirror]
  · rw [State.setMirror_other _ _ _ _ e]

/-! ### The next request (04, R61) -/

@[simp] theorem State.serve_counts (s : State) : s.serve.smon.counts = s.smon.counts := by
  unfold State.serve
  dsimp only
  split
  · rfl
  · split <;> rfl

/-- Service looks at the request at the head, the counters, AREA and the instant. -/
theorem State.serve_same {a b : State} {x : CountReq} {l m : List CountReq} (ha : a.smon.counts = x :: l)
    (hb : b.smon.counts = x :: m) (counters : a.smon.counters = b.smon.counters) (orders : a.mport = b.mport)
    (area : a.regp.area = b.regp.area) (instant : a.instant = b.instant) :
    a.serve.smon.counters = b.serve.smon.counters ∧ a.serve.mport = b.serve.mport ∧
      a.serve.smon.secondWord = false := by
  obtain ⟨kind, requester⟩ := x
  unfold State.serve
  rw [ha, hb]
  cases kind <;> simp [State.raise, State.setCounters, State.area, counters, orders, area, instant]

theorem State.counted_nil {s : State} {q : CountReq} (h : s.smon.counts = [q]) (kind : CountKind) :
    (s.counted kind).mport = s.mport := by
  have none : (s.countEffect kind).smon.counts.tail = [] := by rw [State.countEffect_counts, h]; rfl
  unfold State.counted State.nextCount State.serve
  dsimp only
  rw [none]
  cases kind <;> rfl

/-- The request behind the one that is done is served as from a state with none. -/
theorem State.counted_next {s v : State} {q p : CountReq} {more : List CountReq} (h : s.smon.counts = q :: p :: more)
    (kind : CountKind) (empty : v.smon.counts = [])
    (counters : (s.countEffect kind).smon.counters = v.smon.counters) (orders : s.mport = v.mport)
    (area : s.regp.area = v.regp.area) (instant : s.instant = v.instant) :
    let t := s.counted kind
    let w := v.count p.kind p.requester
    t.smon.counters = w.smon.counters ∧ t.mport = w.mport ∧ t.smon.secondWord = false ∧ t.smon.counts = p :: more := by
  have waits : (s.countEffect kind).smon.counts.tail = p :: more := by rw [State.countEffect_counts, h]; rfl
  dsimp only
  rw [State.count_idle p.kind p.requester empty]
  have effect := CountTaken.of_countEffect s kind
  have orders' : (s.countEffect kind).mport = v.mport := by
    refine Eq.trans ?_ orders
    cases kind <;> rfl
  obtain ⟨c, o, w⟩ := State.serve_same
    (a := { s.countEffect kind with smon := { (s.countEffect kind).smon with
      counts := (s.countEffect kind).smon.counts.tail, secondWord := false } })
    (b := { v with smon := { v.smon with counts := [p] } }) (x := p) (l := more) (m := []) waits rfl counters orders'
    (effect.area.trans area) (effect.instant.trans instant)
  exact ⟨c, o, w, (State.serve_counts _).trans waits⟩

/-- Telling the requester keeps the next request's service. -/
theorem State.report_next {s v w : State} {q p : CountReq} {more : List CountReq}
    (h : s.smon.counts = q :: p :: more) (hw : w = v.count p.kind p.requester) (empty : v.smon.counts = [])
    (counters : (s.countEffect q.kind).smon.counters = v.smon.counters) (orders : s.mport = v.mport)
    (area : s.regp.area = v.regp.area) (instant : s.instant = v.instant) :
    let t := (s.counted q.kind).report q
    t.smon.counters = w.smon.counters ∧ t.smon.secondWord = false ∧
      (∃ added, t.smon.counts = p :: more ++ added) ∧ ∃ raised, t.mport = w.mport ++ raised := by
  obtain ⟨served, written, first, counts⟩ := State.counted_next h q.kind empty counters orders area instant
  have told := Reported.of_report (s.counted q.kind) q
  obtain ⟨same, word⟩ := told.service (by rw [counts]; exact nofun)
  obtain ⟨added, joins⟩ := told.counts
  obtain ⟨raised, grows⟩ := told.orders
  subst hw
  exact ⟨same.trans served, word.trans first, ⟨added, by rw [joins, counts]⟩, raised, by rw [grows, written]⟩

/-! ### SMON is told -/

section Told
variable {s : State} {p : Piece}

theorem State.smonCounted_endPiece (h : s.smon.piece = some (p, .counting .endPiece)) : s.smonCounted = s.endPiece := by
  unfold State.smonCounted
  rw [h]

theorem State.smonCounted_tornVisit {k : SlotId} {post : Half}
    (h : s.smon.piece = some (p, .counting (.tornVisit k post))) :
    s.smonCounted = (s.setCause causeTorn).goOn p (.record k post []) .record (s.recordAddr k 0) none := by
  unfold State.smonCounted
  rw [h]
  dsimp only
  unfold State.startDiscovery
  rw [State.setWork_of_piece (s := s.setCause causeTorn) h]
  rfl

theorem State.smonCounted_tornRelease (h : s.smon.piece = some (p, .counting .tornRelease)) :
    s.smonCounted = ((s.setCause causeTorn).sweepRequest).endPiece := by
  unfold State.smonCounted
  rw [h]

theorem State.smonCounted_settled {j : SettleJob} (h : s.smon.piece = some (p, .counting (.settled j))) :
    s.smonCounted = s.smonSettled j := by
  unfold State.smonCounted
  rw [h]

/-- A torn lane's release. -/
theorem State.tornRelease_facts (h : s.smon.piece = some (p, .counting .tornRelease)) :
    s.smonCounted.regp.cause.getLsbD 1 = true ∧
      (s.engc.engine = .running → p.ofSweep = false → SweepRequested s s.smonCounted) ∧
      (s.engc.engine ≠ .running → PieceEnded s s.smonCounted p) := by
  rw [State.smonCounted_tornRelease h]
  refine ⟨?_, fun hr own => ?_, fun hr => ?_⟩
  · exact ((Reported.of_sweepRequest _).trans (.of_endPiece _)).cause 1 (s.setCause_bit (c := causeTorn) rfl)
  · have heard : SweepRequested s (s.setCause causeTorn).sweepRequest :=
      State.sweepRequest_requested (s := s.setCause causeTorn) hr
    exact heard.goesOn (.of_endPiece (State.sweepRequest_piece (s := s.setCause causeTorn) h) own)
  · rw [State.sweepRequest_idle (s := s.setCause causeTorn) hr]
    exact (State.endPiece_ended (s := s.setCause causeTorn) h).congr rfl rfl rfl rfl rfl rfl rfl rfl rfl

/-- A cause is set for NOTIFY alone. -/
theorem State.notify_cause (s : State) (b : Bool) : (b = true → (s.notify b).regp.cause.getLsbD 0 = true) ∧
    (b = false → (s.notify b).regp.cause = s.regp.cause) := by
  unfold State.notify
  cases b with
  | true => exact ⟨fun _ => s.setCause_bit (c := causeSettled) rfl, nofun⟩
  | false => exact ⟨nofun, fun _ => rfl⟩

theorem State.slotSettled_keeps (s : State) (j : SettleJob) : (s.slotSettled j).smon.piece = s.smon.piece ∧
    (s.slotSettled j).regp = (s.notify j.notify).regp ∧
    (s.slotSettled j).mirror j.slot =
      { s.mirror j.slot with state := .idle, lane := none, pendingOutcome := none } := by
  refine ⟨?_, rfl, State.setMirror_mirror ..⟩
  unfold State.slotSettled State.notify
  split <;> rfl

theorem State.slotSettled_ended {j : SettleJob} (h : s.smon.piece = some (p, .counting (.settled j))) :
    PieceEnded s (s.slotSettled j).endPiece p := by
  obtain ⟨piece, -⟩ := s.slotSettled_keeps j
  have ended := State.endPiece_ended (piece.trans h)
  unfold State.slotSettled State.notify at ended ⊢
  split at ended
  · next given =>
    rw [if_pos given]
    exact ended.congr rfl rfl rfl rfl rfl rfl rfl rfl rfl
  · next given =>
    rw [if_neg given]
    exact ended.congr rfl rfl rfl rfl rfl rfl rfl rfl rfl

/-- SMON's own settle. -/
theorem State.smonSettled_facts {j : SettleJob} (h : s.smon.piece = some (p, .counting (.settled j))) :
    let t := s.smonCounted
    (j.notify = true → t.regp.cause.getLsbD 0 = true) ∧ (j.notify = false → t.regp.cause = s.regp.cause) ∧
      (t.mirror j.slot).state = .idle ∧ (t.mirror j.slot).lane = none ∧
      (t.mirror j.slot).pendingOutcome = none ∧ (t.mirror j.slot).knownSeq = (s.mirror j.slot).knownSeq ∧
      (j.discover = none → PieceEnded s t p) ∧
      ∀ post, j.discover = some post → t.smon.piece = some (p, .record j.slot post []) := by
  obtain ⟨piece, regp, mirror⟩ := s.slotSettled_keeps j
  obtain ⟨told, silent⟩ := s.notify_cause j.notify
  have next : OnlyWork (s.slotSettled j) s.smonCounted ∧ (j.discover = none → PieceEnded s s.smonCounted p) ∧
      ∀ post, j.discover = some post → s.smonCounted.smon.piece = some (p, .record j.slot post []) := by
    rw [State.smonCounted_settled h]
    cases hd : j.discover with
    | none =>
      rw [s.smonSettled_ends hd]
      exact ⟨.of_endPiece _, fun _ => State.slotSettled_ended h, nofun⟩
    | some post =>
      rw [s.smonSettled_discovers hd]
      refine ⟨(OnlyWork.of_setWork ..).trans (.of_raise ..), nofun, ?_⟩
      rintro _ ⟨⟩
      show ((s.slotSettled j).setWork (.record j.slot post [])).smon.piece = _
      rw [State.setWork_of_piece (piece.trans h)]
      rfl
  obtain ⟨⟨only, kept⟩, ended, discovers⟩ := next
  dsimp only
  rw [only.regp, State.mirror_of_mirror kept, regp, mirror]
  exact ⟨told, silent, rfl, rfl, rfl, rfl, ended, discovers⟩

/-- The close of a sweep, at its end. -/
theorem PieceEnded.closed {t : State} (h : PieceEnded s t .closing) :
    t.smon.inProgress = (s.smon.pendingSweep && s.engc.engine == .running) ∧
      (s.engc.engine = .running → s.smon.pendingSweep = true →
        t.smon.pendingSweep = false ∧ t.smon.noted = s.tbu.epoch ∧
          (.config ∈ t.smon.waiting ∨ t.smon.piece = some (.config, .config))) := by
  refine ⟨?_, fun hr pending => ?_⟩
  · by_cases hr : s.engc.engine = .running
    · rw [hr]
      cases pending : s.smon.pendingSweep with
      | true =>
        obtain ⟨-, -, progress, -⟩ := h.again rfl hr pending
        exact progress
      | false => exact (h.sweepEnds rfl hr pending).2
    · rw [beq_eq_false_iff_ne.2 hr, Bool.and_false]
      exact (h.givenUp rfl hr).2
  · obtain ⟨pieces, again, -, noted⟩ := h.again rfl hr pending
    refine ⟨again, noted, ?_⟩
    have config : .config ∈ t.smon.pieces := pieces ▸ List.mem_append_right _ List.mem_cons_self
    refine (List.mem_append.1 config).symm.imp id fun head => ?_
    obtain ⟨⟨first, w⟩, hp, rfl⟩ := Option.map_eq_some_iff.1 (Option.mem_toList.1 head)
    rcases h.begins _ _ hp with ⟨-, rfl, -⟩ | ⟨k, e, -⟩ | ⟨e, -⟩
    · exact hp
    · exact nomatch e
    · exact nomatch e

end Told

/-! ### A lane's settlement (05, R77; 06, R99) -/

theorem Lane.keepsLevels_iff (x : Lane) : x.keepsLevels = true ↔ x.flags.getLsbD 4 = true ∧
    x.outcome.any (fun d => d.1 = .done ∨ d.1 = .passed ∨ d.1 = .failed) = true := by
  unfold Lane.keepsLevels flagKeep
  rw [Bool.and_eq_true]
  refine and_congr_right' ?_
  rcases x.outcome with _ | ⟨o, last⟩
  · exact .rfl
  · cases o <;> simp

/-- The lane's claims and the lane given back, before the walk. -/
def State.givenBack (s : State) (l : LaneId) : State :=
  (((s.notify ((s.lane l).flags.getLsbD 0)).ready (.completion (s.lane l).slot)).releaseClaims l
    (s.lane l).keepsLevels).freeTheLane l

theorem State.laneSettled_eq (s : State) (l : LaneId) : s.laneSettled l = (s.givenBack l).walk := rfl

/-- The lines of a lane whose settlement is done. -/
theorem State.givenBack_level (s : State) {l : LaneId} {o : OutLine} (h : (s.outd[o]).claimer = some l) :
    ((s.givenBack l).outd[o]).level =
      if s.engc.engine = .running ∧ (s.lane l).keepsLevels = true then (s.outd[o]).level else (s.outd[o]).idle := by
  let v := (s.notify ((s.lane l).flags.getLsbD 0)).ready (.completion (s.lane l).slot)
  have lines : v.outd = s.outd := by
    show (s.notify _).outd = s.outd
    unfold State.notify
    split <;> rfl
  have engc : v.engc = s.engc := State.notify_engc ..
  have claimer : (v.outd[o]).claimer = some l := by rw [lines]; exact h
  show ((v.releaseClaims l (s.lane l).keepsLevels).outd[o]).level = _
  split
  · next kept =>
    rw [State.releaseClaims_keepsLevel claimer kept.2 (by rw [engc]; exact kept.1), lines]
  · next dropped =>
    have either := (Decidable.not_and_iff_not_or_not.1 dropped).symm.imp Bool.eq_false_iff.2 id
    rw [State.releaseClaims_drivesIdle claimer (by rw [engc]; exact either), lines]

/-- A lane's settlement is done. -/
theorem State.laneSettled_facts (s : State) (l : LaneId) :
    let t := s.laneSettled l
    ((s.lane l).flags.getLsbD 0 = true → t.regp.cause.getLsbD 0 = true) ∧
      ((s.lane l).flags.getLsbD 0 = false → t.regp.cause = s.regp.cause) ∧
      .completion (s.lane l).slot ∈ t.smon.waiting ∧
      (((t.lane l).Clear ∧ t.admu.pool[l] = true ∧ ∀ o : OutLine, (t.admu.claims[o]).owner ≠ some l) ∨
        (s.engc.engine = .running ∧ (t.lane l).state = .loading)) ∧
      ∀ o : OutLine, (s.outd[o]).claimer = some l → (t.outd[o]).level =
        if s.engc.engine = .running ∧ (s.lane l).flags.getLsbD 4 = true ∧
            (s.lane l).outcome.any (fun d => d.1 = .done ∨ d.1 = .passed ∨ d.1 = .failed) = true then
          (s.outd[o]).level
        else (s.outd[o]).idle := by
  obtain ⟨frame, -⟩ := (s.givenBack l).walk_frame
  obtain ⟨told, silent⟩ := s.notify_cause ((s.lane l).flags.getLsbD 0)
  have engc : (s.givenBack l).engc = s.engc := State.notify_engc ..
  have regp : (s.givenBack l).walk.regp = (s.notify ((s.lane l).flags.getLsbD 0)).regp := frame.regp
  dsimp only
  rw [State.laneSettled_eq, regp]
  refine ⟨told, silent, ?_, ?_, fun o claimed => ?_⟩
  · rw [frame.smon]
    exact List.mem_append_right _ (List.mem_singleton.2 rfl)
  · have empty : (s.givenBack l).lane l = Lane.empty := vectorSet_self _ _ _
    have pool : (s.givenBack l).admu.pool[l] = true := vectorSet_self _ _ _
    have unowned (o : OutLine) : ((s.givenBack l).admu.claims[o]).owner ≠ some l := by
      show ((((s.notify _).ready _).releaseClaims l (s.lane l).keepsLevels).admu.claims[o]).owner ≠ some l
      rw [(State.releaseClaims_lines ..).1]
      split
      · exact nofun
      · assumption
    rcases (s.givenBack l).walk_emptyLane l empty pool with ⟨clear, free, none⟩ | ⟨hr, -, e, started⟩
    · exact .inl ⟨clear, free, none unowned⟩
    · refine .inr ⟨by rw [← engc]; exact hr, ?_⟩
      rw [started]
      rfl
  · exact (((s.givenBack l).walk_outd o).1.trans (s.givenBack_level claimed)).trans
      (ite_congr (propext (and_congr_right' (Lane.keepsLevels_iff _))) (fun _ => rfl) (fun _ => rfl))

/-! ### The first word of a sweep's close (04, R48) -/

theorem State.counterReturned_second {s : State} {q : CountReq} {qs : List CountReq} {n : Word}
    (h : s.smon.counts = q :: qs) (hk : q.kind = .sweepClose n) (hw : s.smon.secondWord = false) (b : Option OnBus) :
    s.counterReturned false b = s.serveSecond := by
  unfold State.counterReturned
  rw [h]
  simp [hk, hw]

/-- Settles O44: the request's effect, the next request, and what its requester does with the report. -/
theorem counterWriteBringsItsEffect : Obligations.CounterWriteBringsItsEffect := by
  rintro s u r req rest q qs hr ha hf rfl hq
  have epoch : (s.afterReturn r req rest).tbu.epoch = s.tbu.epoch := s.settled_epoch
  have area : (s.afterReturn r req rest).regp.area = s.regp.area := s.settled_area
  refine ⟨_, exec_counterWrite hr ha, ?_⟩
  rw [hf, ← epoch, ← area]
  have orders : (s.afterReturn r req rest).mport = rest := State.afterReturn_mport ..
  generalize s.afterReturn r req rest = u at *
  subst orders
  obtain ⟨copy, fault, ack⟩ := State.counterReturned_brings hq r.atStall
  have taken := u.counted_taken q.kind
  obtain ⟨piece, -⟩ := taken.work
  obtain ⟨engine, -, -⟩ := taken.engine
  have done (going : u.engc.loading = none) (word : u.smon.secondWord = true ∨ ∀ n, q.kind ≠ .sweepClose n) :
      u.counterReturned false r.atStall = (u.counted q.kind).report q :=
    State.counterReturned_done hq word (State.stoppingLoad_idle going) _
  have smon (own : q.requester = .smon) : (u.counted q.kind).report q = (u.counted q.kind).smonCounted := by
    unfold State.report
    rw [own]
  refine ⟨copy, fault, ack, fun p hk own going hp => ?_, fun p own going word hp => ?_,
    fun p k post hk own going hp => ?_, fun k seq p j hk own going hp => ?_, fun k seq l hk own going => ?_,
    fun p more v waits going word hv => ?_, fun n hk first => ?_, fun n hk second own going hp => ?_⟩
  · rw [done going (.inr (by rw [hk]; exact nofun)), smon own]
    obtain ⟨cause, heard, ended⟩ := State.tornRelease_facts (piece.trans hp)
    rw [engine] at heard ended
    exact ⟨cause, fun hr own => taken.sweepRequested (heard hr own), fun hr => taken.pieceEnded (ended hr)⟩
  · rw [done going word, smon own, State.smonCounted_endPiece (piece.trans hp)]
    exact taken.pieceEnded (State.endPiece_ended (piece.trans hp))
  · rw [done going (.inr (by rw [hk]; exact nofun)), smon own, State.smonCounted_tornVisit (piece.trans hp)]
    refine ⟨State.setCause_bit _ (c := causeTorn) rfl, rfl, ?_⟩
    rintro rfl
    show (u.counted q.kind).mport ++ [(u.counted q.kind).requestOf .record ((u.counted q.kind).recordAddr k 0) none] = _
    have addr : (u.counted q.kind).recordAddr k 0 = u.recordAddr k 0 := by
      unfold State.recordAddr State.slotWord State.area
      rw [taken.area]
    unfold State.requestOf
    rw [State.counted_nil hq, addr, taken.instant]
  · rw [done going (.inr (by rw [hk]; exact nofun)), smon own]
    obtain ⟨told, silent, idle, lane, pending, known, ended, discovers⟩ := State.smonSettled_facts (piece.trans hp)
    obtain ⟨regp, same⟩ := u.counted_settlement k seq
    rw [← hk] at regp same
    rw [regp] at silent
    exact ⟨told, silent, idle, lane, pending, known.trans (same j.slot), fun hd => taken.pieceEnded (ended hd),
      discovers⟩
  · have report : (u.counted q.kind).report q = (u.counted q.kind).laneSettled l := by
      unfold State.report
      rw [own]
      show State.laneCounted _ l q.kind = _
      rw [hk]
      rfl
    rw [done going (.inr (by rw [hk]; exact nofun)), report]
    have facts := (u.counted q.kind).laneSettled_facts l
    have regp := (u.counted_settlement k seq).1
    rw [← hk] at regp
    dsimp only at facts
    rwa [taken.lane, regp, engine, taken.outd] at facts
  · subst waits
    rw [done going word]
    exact State.report_next hq hv rfl (by cases q.kind <;> rfl) rfl rfl rfl
  · rw [State.counterReturned_second hq hk first]
    exact ⟨hq, rfl, rfl⟩
  · rw [done going (.inl second), smon own, State.smonCounted_endPiece (piece.trans hp)]
    exact (taken.pieceEnded (State.endPiece_ended (piece.trans hp))).closed

end Sys2Proof.Machine
end
